-- ==== Sys2Proof/Word.lean ====
section
/-! DEFINITION. The word types of the Kazdeim: bytes, instruction words, 64-bit words, and their byte images (R6: little-endian). -/

namespace Sys2Proof

/-- A byte of memory. -/
abbrev Byte := BitVec 8

/-- An instruction word (R38). -/
abbrev Word32 := BitVec 32

/-- A 64-bit word: an s register, a lane of a v register, a pointer (R24). -/
abbrev Word := BitVec 64

/-- A 6-bit register field of an instruction word (R38). -/
abbrev Reg := BitVec 6

/-- The `n` bytes of the number `x`, least significant first (R6). -/
def leBytes : Nat → Nat → List Byte
  | 0, _ => []
  | n + 1, x => BitVec.ofNat 8 x :: leBytes n (x / 256)

/-- The number that a little-endian list of bytes stands for (R6). -/
def leNat : List Byte → Nat
  | [] => 0
  | b :: bs => b.toNat + 256 * leNat bs

/-- Bits `[lo + n - 1 : lo]` of a number, as a number (R6). -/
def bitsOf (x lo n : Nat) : Nat := x / 2 ^ lo % 2 ^ n

/-- The value of the `w`-bit pattern `x` read as two's complement. -/
def asSigned (w x : Nat) : Int := if 2 ^ (w - 1) ≤ x % 2 ^ w then (x % 2 ^ w : Nat) - (2 ^ w : Nat) else (x % 2 ^ w : Nat)

/-- The `w`-bit two's-complement pattern of an integer, as a number. -/
def wrapTo (w : Nat) (x : Int) : Nat := (x % (2 ^ w : Nat)).toNat

end Sys2Proof
end

