-- ==== Sys2Proof/Syntax.lean ====
section
/-! DEFINITION. The operations and events of the Kazdeim: one constructor of Instr for each row of spec/opcode_table.json. The first 158 are instruction words (their operands are the fields of the encoding tables of 03_instruction_words.md); the others are the device's events, whose operands name the thing in progress that the event finishes, or carry what the outside world supplies. -/

namespace Sys2Proof

/-- The key of a collective at an endpoint (R374): pod context id, `TAG`, `CHUNK`. -/
structure KeyId where
  pod : Nat
  tag : Nat
  chunk : Nat
  deriving DecidableEq, Repr

/-- A Brixel request (R364) as it stands at its target: `ext` says that it came from another pod member over the fabric. -/
structure Brixel where
  /-- true: sent by another pod member; false: sent by this device to itself -/
  ext : Bool
  /-- the request's number at its sender -/
  id : Nat
  /-- the source member -/
  src : Nat
  /-- the pod context id the request carries (R317) -/
  pod : Nat
  /-- the issuing context of a request of this device -/
  ctx : Nat
  /-- the target column, numbered in the target context's partition (R367) -/
  col : Nat
  /-- the virtual offset -/
  off : Nat
  /-- bytes of the access -/
  size : Nat
  /-- the data, or the new value -/
  data : Word
  /-- the payload of a write of more than 8 bytes -/
  bytes : List Byte
  /-- the compare value of a compare-and-swap -/
  cmp : Word
  /-- the operation of an atomic (Table 3-25) or of a reduction (Table 23-4) -/
  op : Nat
  /-- the elements compare as signed numbers -/
  signed : Bool
  /-- the data carries poison (R339) -/
  poison : Bool
  deriving DecidableEq, Repr

/-- A collective frame at the endpoint of its next entry (R374, R375). -/
structure Frame where
  /-- true: it came from another pod member over the fabric -/
  ext : Bool
  /-- the source member -/
  src : Nat
  /-- the number of the request that brought it, at its sender -/
  id : Nat
  pod : Nat
  tag : Nat
  chunk : Nat
  rop : Nat
  /-- the contributor bitmap -/
  bitmap : Word
  /-- the remaining route entries, the next one first (Table 23-6) -/
  entries : List (BitVec 32)
  /-- one word for each lane -/
  payload : List Word
  /-- the payload carries poison (R339) -/
  poison : Bool
  deriving DecidableEq, Repr

/-- The access of the other Larnar port that meets a semaphore access in one cycle (R281). -/
structure SemAccess where
  write : Bool
  n : Nat
  deriving DecidableEq, Repr

/-- A host window of a Larnar port (R363). -/
structure HostWindow where
  base : Nat
  /-- length in 64 KiB units -/
  units : Nat
  host : Nat
  r : Bool
  w : Bool
  deriving DecidableEq, Repr

/-- What the boot ROM meets outside the device's own record during a reset (Table 25-1). -/
structure BootEnv where
  /-- the key is regenerated from the PUF (step 4) -/
  pufOk : Bool
  /-- physical columns whose GDDR or talus retraining fails (step 6) -/
  trainFail : List Nat
  /-- partitions of the stored split whose columns cannot reach one another (R23) -/
  unreachable : Bool
  deriving DecidableEq, Repr

/-- What the droop detector of a die meets: how many mV below nominal its core supply falls (Table 25-4). -/
structure Droop where
  die : Nat
  drop : Nat
  deriving DecidableEq, Repr

/-- A configuration record (R388). -/
structure ConfigRecord where
  /-- the 64-byte header (Table 25-2) -/
  header : BitVec 512
  /-- the bytes after the header up to the signature: trims, training results -/
  rest : List Byte
  /-- the padded Falcon-1024 signature, 1,280 bytes at `SIGOFF` -/
  signature : List Byte
  /-- the signature verifies against the vendor key (Table 25-1 step 2) -/
  signed : Bool
  /-- the links that the record enables; the spec does not say where it has them -/
  ports : List Nat
  deriving DecidableEq, Repr

/-- How a port's training ends (Table 23-1). -/
inductive TrainResult where
  | full
  | reduced
  | failed
  deriving DecidableEq, Repr

/-- What an uncorrectable error strikes (R21, R340, R312, R352, R354). -/
inductive ErrSite where
  /-- one 128-byte line, by its address: it is marked poisoned -/
  | line (addr : Nat)
  /-- more than line poison confines: the page whose leaf entry lies at `leaf` -/
  | page (leaf : Nat)
  /-- a page-table entry, queue structure, or region record of a context (R354) -/
  | structureOf (ctx : Nat)
  /-- a register of a group in its register-cache line: one lane of a v register, or an s register (R352) -/
  | register (grp reg : Nat) (vec : Bool) (lane : Nat)
  /-- the copy of a line in the L1 cache of a core of the column, found as it crosses or is read (R339) -/
  | cached (core line : Nat) (inv : Bool)
  /-- the data of something in progress, found where it crosses between tiers (R339) -/
  | carried (id : Nat)
  /-- the column's own hardware; `lost` says that it can no longer execute or serve memory (R21) -/
  | hardware (lost : Bool)
  deriving DecidableEq, Repr

/-- What a RoCEv2 packet of a queue pair does (R380). -/
inductive RdmaOp where
  | write (addr : Nat) (bytes : List Byte)
  | send (addr : Nat) (bytes : List Byte)
  | response (addr : Nat) (bytes : List Byte)
  | read (addr n : Nat)
  deriving DecidableEq, Repr

/-- The operations and events of the device, one constructor for each row of spec/opcode_table.json. -/
inductive Instr where
  /-- NOP (R126): Does nothing. -/
  | nop
  /-- BR (R126): Branches unconditionally to next plus four times DISP18. -/
  | br (x : BitVec 18)
  /-- BC (R49): Branches when the condition holds in the issuing slot's flags. -/
  | bc (c : BitVec 4) (x : BitVec 18)
  /-- BK (R127): Branches on a test of a mask against the slot's lane mask. -/
  | bk (t : BitVec 2) (k : BitVec 4) (x : BitVec 18)
  /-- CALL (R126): Writes the link register and branches. -/
  | call (x : BitVec 18)
  /-- RET (R126): Jumps to the address held in an s register. -/
  | ret (a : BitVec 6)
  /-- JMP (R126): Jumps to the address held in an s register. -/
  | jmp (a : BitVec 6)
  /-- SPLIT (R128): Moves the masked lanes to a new context at the target, in the other slot or on the divergence stack. -/
  | split (k : BitVec 4) (x : BitVec 18)
  /-- JARM (R130): Arms a join register with the expected lanes. -/
  | jarm (d : BitVec 6) (a : BitVec 6)
  /-- JOIN (R131): Adds the slot's lanes to a join register and either parks the context or merges the join. -/
  | join (d : BitVec 6)
  /-- EXIT (R133): Ends every lane of the issuing slot and completes any joins this frees. -/
  | exit
  /-- SETMODE (R47): Writes IMM18 into sr.mode for later instructions of both slots. -/
  | setmode (i : BitVec 18)
  /-- RDSR (R139): Reads a special register into an s register. -/
  | rdsr (d : BitVec 6) (n : BitVec 12)
  /-- WRSR (R139): Writes an s register into a special register under the access rules. -/
  | wrsr (a : BitVec 6) (n : BitVec 12)
  /-- RDTIME (R140): Reads the 1 GHz timestamp into an s register. -/
  | rdtime (d : BitVec 6)
  /-- TRAP (R330): Raises SOFT_TRAP with the software code. -/
  | trap (c : BitVec 12)
  /-- SINT (R291): Writes the wake register of a queue or a message to the management core. -/
  | sint (a : BitVec 6)
  /-- ERET (R328): Ends a trap handler, restoring PC, flags, mode and s62 from the frame. -/
  | eret
  /-- SEGLD (R332): Privileged write of a segment register. -/
  | segld (a : BitVec 6) (n : BitVec 12)
  /-- DBGBRK (R331): Halts the group for the debugger or traps DEBUG_BREAK. -/
  | dbgbrk (t : BitVec 12)
  /-- SADD (R77): Scalar 64-bit addition. -/
  | sadd (d : BitVec 6) (a : BitVec 6) (b : BitVec 6)
  /-- SSUB (R77): Scalar 64-bit subtraction. -/
  | ssub (d : BitVec 6) (a : BitVec 6) (b : BitVec 6)
  /-- SMUL (R77): Low 64 bits of a scalar product. -/
  | smul (d : BitVec 6) (a : BitVec 6) (b : BitVec 6)
  /-- SMULH (R77): High 64 bits of the signed 128-bit product. -/
  | smulh (d : BitVec 6) (a : BitVec 6) (b : BitVec 6)
  /-- SDIV (R78): Signed quotient toward zero; traps on a zero divisor. -/
  | sdiv (d : BitVec 6) (a : BitVec 6) (b : BitVec 6)
  /-- SREM (R78): Signed remainder; traps on a zero divisor. -/
  | srem (d : BitVec 6) (a : BitVec 6) (b : BitVec 6)
  /-- SAND (R77): Scalar bitwise and. -/
  | sand (d : BitVec 6) (a : BitVec 6) (b : BitVec 6)
  /-- SOR (R77): Scalar bitwise or. -/
  | sor (d : BitVec 6) (a : BitVec 6) (b : BitVec 6)
  /-- SXOR (R77): Scalar bitwise exclusive or. -/
  | sxor (d : BitVec 6) (a : BitVec 6) (b : BitVec 6)
  /-- SSHL (R77): Scalar shift left by b[5:0]. -/
  | sshl (d : BitVec 6) (a : BitVec 6) (b : BitVec 6)
  /-- SSHR (R77): Scalar logical shift right by b[5:0]. -/
  | sshr (d : BitVec 6) (a : BitVec 6) (b : BitVec 6)
  /-- SSRA (R77): Scalar arithmetic shift right by b[5:0]. -/
  | ssra (d : BitVec 6) (a : BitVec 6) (b : BitVec 6)
  /-- SMIN (R77): Signed scalar minimum. -/
  | smin (d : BitVec 6) (a : BitVec 6) (b : BitVec 6)
  /-- SMAX (R77): Signed scalar maximum. -/
  | smax (d : BitVec 6) (a : BitVec 6) (b : BitVec 6)
  /-- SCMP (R79): Sets Z, N, C and V from a minus b. -/
  | scmp (a : BitVec 6) (b : BitVec 6)
  /-- SSEL (R80): Selects a or b by a condition on the slot's flags. -/
  | ssel (d : BitVec 6) (a : BitVec 6) (b : BitVec 6) (c : BitVec 4)
  /-- SADDI (R81): Adds a sign-extended immediate. -/
  | saddi (d : BitVec 6) (a : BitVec 6) (i : BitVec 12)
  /-- SANDI (R81): Ands a zero-extended immediate. -/
  | sandi (d : BitVec 6) (a : BitVec 6) (i : BitVec 12)
  /-- SORI (R81): Ors a zero-extended immediate. -/
  | sori (d : BitVec 6) (a : BitVec 6) (i : BitVec 12)
  /-- SXORI (R81): Exclusive-ors a zero-extended immediate. -/
  | sxori (d : BitVec 6) (a : BitVec 6) (i : BitVec 12)
  /-- SSHLI (R81): Shifts left by an immediate amount. -/
  | sshli (d : BitVec 6) (a : BitVec 6) (i : BitVec 6)
  /-- SSHRI (R81): Shifts right logically by an immediate amount. -/
  | sshri (d : BitVec 6) (a : BitVec 6) (i : BitVec 6)
  /-- SSRAI (R81): Shifts right arithmetically by an immediate amount. -/
  | ssrai (d : BitVec 6) (a : BitVec 6) (i : BitVec 6)
  /-- SCMPI (R79): Sets Z, N, C and V from a minus a sign-extended immediate. -/
  | scmpi (a : BitVec 6) (i : BitVec 12)
  /-- SLI (R82): Loads a sign-extended 18-bit immediate. -/
  | sli (d : BitVec 6) (i : BitVec 18)
  /-- SLHI (R82): Shifts the register left by 18 and ors in an immediate. -/
  | slhi (d : BitVec 6) (i : BitVec 18)
  /-- KAND (R107): Mask and. -/
  | kand (d : BitVec 6) (a : BitVec 6) (b : BitVec 6)
  /-- KOR (R107): Mask or. -/
  | kor (d : BitVec 6) (a : BitVec 6) (b : BitVec 6)
  /-- KXOR (R107): Mask exclusive or. -/
  | kxor (d : BitVec 6) (a : BitVec 6) (b : BitVec 6)
  /-- KANDN (R107): Mask and-not. -/
  | kandn (d : BitVec 6) (a : BitVec 6) (b : BitVec 6)
  /-- KSMOV (R107): Moves an s register into a mask. -/
  | ksmov (d : BitVec 6) (a : BitVec 6)
  /-- SKMOV (R107): Moves a mask into an s register. -/
  | skmov (d : BitVec 6) (a : BitVec 6)
  /-- KPOP (R107): Counts the set bits of a mask. -/
  | kpop (d : BitVec 6) (a : BitVec 6)
  /-- KFIRST (R107): Finds the lowest set bit of a mask. -/
  | kfirst (d : BitVec 6) (a : BitVec 6)
  /-- KTEST (R108): Sets the slot's flags from two masks and the slot mask. -/
  | ktest (a : BitVec 6) (b : BitVec 6)
  /-- VCMPK (R109): Compares integer elements into a mask, one bit per lane. -/
  | vcmpk (d : BitVec 6) (a : BitVec 6) (b : BitVec 6) (c : BitVec 4)
  /-- VSHUF (R111): Gathers elements across lanes by index. -/
  | vshuf (d : BitVec 6) (a : BitVec 6) (b : BitVec 6)
  /-- VBCAST (R112): Broadcasts the element at a scalar index. -/
  | vbcast (d : BitVec 6) (a : BitVec 6) (b : BitVec 6)
  /-- VTBL (R113): Looks up elements in a table of v registers. -/
  | vtbl (d : BitVec 6) (a : BitVec 6) (b : BitVec 6) (c : BitVec 6)
  /-- VRED (R115): Reduces active positions in the fixed tree into an s register. -/
  | vred (d : BitVec 6) (a : BitVec 6) (o : BitVec 4)
  /-- VSCAN (R115): Writes inclusive prefixes of the fixed tree. -/
  | vscan (d : BitVec 6) (a : BitVec 6) (o : BitVec 4)
  /-- SLANE (R112): Extracts the element at a scalar index into an s register. -/
  | slane (d : BitVec 6) (a : BitVec 6) (b : BitVec 6)
  /-- VADD (R85): Vector integer addition fitted by SAT. -/
  | vadd (d : BitVec 6) (a : BitVec 6) (b : BitVec 6)
  /-- VSUB (R85): Vector integer subtraction. -/
  | vsub (d : BitVec 6) (a : BitVec 6) (b : BitVec 6)
  /-- VMUL (R85): Vector integer multiplication. -/
  | vmul (d : BitVec 6) (a : BitVec 6) (b : BitVec 6)
  /-- VMULH (R85): High half of the vector integer product. -/
  | vmulh (d : BitVec 6) (a : BitVec 6) (b : BitVec 6)
  /-- VMAD (R85): Vector multiply-add fitted once. -/
  | vmad (d : BitVec 6) (a : BitVec 6) (b : BitVec 6) (c : BitVec 6)
  /-- VMIN (R85): Vector integer minimum. -/
  | vmin (d : BitVec 6) (a : BitVec 6) (b : BitVec 6)
  /-- VMAX (R85): Vector integer maximum. -/
  | vmax (d : BitVec 6) (a : BitVec 6) (b : BitVec 6)
  /-- VABS (R85): Vector integer absolute value. -/
  | vabs (d : BitVec 6) (a : BitVec 6)
  /-- VNEG (R85): Vector integer negation. -/
  | vneg (d : BitVec 6) (a : BitVec 6)
  /-- VAND (R87): Bitwise and of whole lanes. -/
  | vand (d : BitVec 6) (a : BitVec 6) (b : BitVec 6)
  /-- VOR (R87): Bitwise or of whole lanes. -/
  | vor (d : BitVec 6) (a : BitVec 6) (b : BitVec 6)
  /-- VXOR (R87): Bitwise exclusive or of whole lanes. -/
  | vxor (d : BitVec 6) (a : BitVec 6) (b : BitVec 6)
  /-- VSHL (R86): Per-element shift left. -/
  | vshl (d : BitVec 6) (a : BitVec 6) (b : BitVec 6)
  /-- VSHR (R86): Per-element logical shift right. -/
  | vshr (d : BitVec 6) (a : BitVec 6) (b : BitVec 6)
  /-- VSRA (R86): Per-element arithmetic shift right. -/
  | vsra (d : BitVec 6) (a : BitVec 6) (b : BitVec 6)
  /-- VPOPC (R85): Counts one bits of each element. -/
  | vpopc (d : BitVec 6) (a : BitVec 6)
  /-- VCLZ (R85): Counts leading zeros of each element. -/
  | vclz (d : BitVec 6) (a : BitVec 6)
  /-- VSEL (R87): Selects whole lanes by a mask. -/
  | vsel (d : BitVec 6) (a : BitVec 6) (b : BitVec 6) (c : BitVec 6)
  /-- VADDI (R88): Adds a signed immediate to each element. -/
  | vaddi (d : BitVec 6) (a : BitVec 6) (i : BitVec 12)
  /-- VBCS (R89): Broadcasts the low bits of a scalar to every element. -/
  | vbcs (d : BitVec 6) (a : BitVec 6)
  /-- VLID (R90): Writes each position's index. -/
  | vlid (d : BitVec 6)
  /-- VFADD (R92): Floating-point addition. -/
  | vfadd (d : BitVec 6) (a : BitVec 6) (b : BitVec 6)
  /-- VFSUB (R92): Floating-point subtraction. -/
  | vfsub (d : BitVec 6) (a : BitVec 6) (b : BitVec 6)
  /-- VFMUL (R92): Floating-point multiplication. -/
  | vfmul (d : BitVec 6) (a : BitVec 6) (b : BitVec 6)
  /-- VFMA (R92): Fused multiply-add rounded once. -/
  | vfma (d : BitVec 6) (a : BitVec 6) (b : BitVec 6) (c : BitVec 6)
  /-- VFMIN (R93): Floating-point minimum. -/
  | vfmin (d : BitVec 6) (a : BitVec 6) (b : BitVec 6)
  /-- VFMAX (R93): Floating-point maximum. -/
  | vfmax (d : BitVec 6) (a : BitVec 6) (b : BitVec 6)
  /-- VFABS (R94): Clears the sign bit of each element. -/
  | vfabs (d : BitVec 6) (a : BitVec 6)
  /-- VFNEG (R94): Inverts the sign bit of each element. -/
  | vfneg (d : BitVec 6) (a : BitVec 6)
  /-- VFCMPK (R95): Compares floating elements into a mask. -/
  | vfcmpk (d : BitVec 6) (a : BitVec 6) (b : BitVec 6) (c : BitVec 4)
  /-- VRCP (R96): Reciprocal of each element. -/
  | vrcp (d : BitVec 6) (a : BitVec 6)
  /-- VRSQ (R96): Reciprocal square root of each element. -/
  | vrsq (d : BitVec 6) (a : BitVec 6)
  /-- VEXP2 (R96): Two to the power of each element. -/
  | vexp2 (d : BitVec 6) (a : BitVec 6)
  /-- VLOG2 (R96): Base-two logarithm of each element. -/
  | vlog2 (d : BitVec 6) (a : BitVec 6)
  /-- VTANH (R96): Hyperbolic tangent of each element. -/
  | vtanh (d : BitVec 6) (a : BitVec 6)
  /-- VCVT (R99): Converts elements between types with part selection. -/
  | vcvt (d : BitVec 6) (a : BitVec 6) (p : BitVec 3) (t : BitVec 4)
  /-- VSCL (R97): Multiplies each element by a power of two. -/
  | vscl (d : BitVec 6) (a : BitVec 6) (b : BitVec 6)
  /-- VFRND (R98): Rounds each element to an integral value. -/
  | vfrnd (d : BitVec 6) (a : BitVec 6)
  /-- VQNT (R102): Quantises blocks into codes and E4M3 scales. -/
  | vqnt (d : BitVec 6) (a : BitVec 6) (b : BitVec 6) (c : BitVec 6)
  /-- VDQNT (R104): Dequantises codes with block scales. -/
  | vdqnt (d : BitVec 6) (a : BitVec 6) (b : BitVec 6) (c : BitVec 6)
  /-- VLD (R157): Loads a contiguous block into active lanes. -/
  | vld (d : BitVec 6) (a : BitVec 6) (p : BitVec 2) (o : BitVec 10)
  /-- VST (R157): Stores active lanes to a contiguous block. -/
  | vst (d : BitVec 6) (a : BitVec 6) (p : BitVec 2) (o : BitVec 10)
  /-- VLDX (R159): Indexed load of one element per active sub-element. -/
  | vldx (d : BitVec 6) (a : BitVec 6) (b : BitVec 6) (p : BitVec 2) (s : BitVec 4)
  /-- VSTX (R159): Indexed store of one element per active sub-element. -/
  | vstx (d : BitVec 6) (a : BitVec 6) (b : BitVec 6) (p : BitVec 2) (s : BitVec 4)
  /-- SLD (R160): Loads one 8-byte word into an s register. -/
  | sld (d : BitVec 6) (a : BitVec 6) (p : BitVec 2) (o : BitVec 10)
  /-- SST (R160): Stores one 8-byte word from an s register. -/
  | sst (d : BitVec 6) (a : BitVec 6) (p : BitVec 2) (o : BitVec 10)
  /-- VLDI (R158): Invariant load that may be served from L1 across acquires. -/
  | vldi (d : BitVec 6) (a : BitVec 6) (p : BitVec 2) (o : BitVec 10)
  /-- ATOM (R163): Per-lane indivisible read-modify-write at the home. -/
  | atom (d : BitVec 6) (a : BitVec 6) (b : BitVec 6) (p : BitVec 2) (o : BitVec 4)
  /-- RLD (R368): Remote load per active lane. -/
  | rld (d : BitVec 6) (a : BitVec 6) (s : BitVec 3)
  /-- RST (R368): Remote store per active lane. -/
  | rst (d : BitVec 6) (a : BitVec 6) (s : BitVec 3)
  /-- RRED (R370): Point reduction of one element per active lane at its home. -/
  | rred (d : BitVec 6) (a : BitVec 6) (o : BitVec 4)
  /-- RRED_COLL (R374): Arms a collective key and sends one frame along a route descriptor. -/
  | rredColl (d : BitVec 6) (a : BitVec 6) (o : BitVec 4)
  /-- RATOM (R369): Remote atomic per active lane, optionally after a pod release. -/
  | ratom (d : BitVec 6) (a : BitVec 6) (b : BitVec 6) (r : BitVec 1) (o : BitVec 4)
  /-- RCAS (R369): Remote compare-and-swap per active lane. -/
  | rcas (d : BitVec 6) (a : BitVec 6) (b : BitVec 6) (r : BitVec 1)
  /-- XSEND (R176): Sends a whole v register as a channel message once a slot is granted. -/
  | xsend (a : BitVec 6) (c : BitVec 4)
  /-- XRECV (R176): Claims the oldest full channel slot and receives its message. -/
  | xrecv (d : BitVec 6) (c : BitVec 4)
  /-- XPERM (R180): Exchanges a whole register with partner columns of an exchange set. -/
  | xperm (d : BitVec 6) (a : BitVec 6) (s : BitVec 6) (c : BitVec 6)
  /-- PHASE (R257): Releases, acquires or does both at a scope. -/
  | phase (k : BitVec 2) (s : BitVec 2)
  /-- FENCEQ (R258): Waits for named engine queues to complete earlier operations, then acquires. -/
  | fenceq (m : BitVec 11)
  /-- BAR_INIT (R169): Arms a counted barrier and advances its generation. -/
  | barInit (a : BitVec 6) (i : BitVec 12)
  /-- BAR_ARR (R171): Releases at the barrier's scope and then counts down. -/
  | barArr (a : BitVec 6) (i : BitVec 12)
  /-- BAR_WAIT (R172): Waits until the phase parity differs or the barrier is in ERROR, then acquires. -/
  | barWait (p : BitVec 1) (i : BitVec 12)
  /-- BAR_TEST (R173): Writes a snapshot of the barrier into an s register. -/
  | barTest (d : BitVec 6) (i : BitVec 12)
  /-- BAR_EXP (R169): Raises the barrier's remaining count. -/
  | barExp (a : BitVec 6) (i : BitVec 12)
  /-- BUF_SET (R151): Requests a buffer state transition at the scratchpad controller. -/
  | bufSet (k : BitVec 1) (t : BitVec 2) (b : BitVec 4)
  /-- BUF_GET (R152): Reads a buffer's state into an s register. -/
  | bufGet (d : BitVec 6) (b : BitVec 4)
  /-- STK (R193): Kicks a stream program with an argument block in a queue class. -/
  | stk (c : BitVec 3) (a : BitVec 6) (p : BitVec 12)
  /-- MX_GANG (R227): Writes gang membership into sr.gang. -/
  | mxGang (a : BitVec 6)
  /-- MX_LDB (R226): Loads B into the compute macros and replaces the residency record. -/
  | mxLdb (a : BitVec 6) (b : BitVec 6) (r : BitVec 2)
  /-- MX_MM (R233): Checks operands and arrives at the gang's rendezvous latch. -/
  | mxMm (d : BitVec 6) (a : BitVec 6) (b : BitVec 6)
  /-- MX_ZERO (R236): Queues a clear of 1,024 cairn words. -/
  | mxZero (d : BitVec 6)
  /-- MX_EPI (R242): Checks and queues an epilogue that writes cairn rows out. -/
  | mxEpi (d : BitVec 6) (a : BitVec 6) (b : BitVec 6)
  /-- MX_ACV (R237): Queues a copy of cairn words into a v register. -/
  | mxAcv (d : BitVec 6) (a : BitVec 6)
  /-- MX_VAC (R238): Queues an add of vector elements into cairn words. -/
  | mxVac (d : BitVec 6) (a : BitVec 6)
  /-- MX_CSUM (R239): Queues a fold of a cairn tile into an invariant register. -/
  | mxCsum (d : BitVec 6) (a : BitVec 6) (b : BitVec 6)
  /-- CSACC (R343): Folds active elements into an invariant register. -/
  | csacc (d : BitVec 6) (a : BitVec 6)
  /-- CSCLR (R344): Clears both parts of an invariant register. -/
  | csclr (d : BitVec 6)
  /-- CSCHK (R345): Compares two invariant registers and raises CHECK_FAIL on mismatch. -/
  | cschk (a : BitVec 6) (b : BitVec 6) (c : BitVec 6)
  /-- CSMOV (R344): Moves one part of an invariant register into an s register. -/
  | csmov (d : BitVec 6) (a : BitVec 6) (p : BitVec 1)
  /-- RGN_BEG (R347): Opens a recovery region and records the group image. -/
  | rgnBeg (i : BitVec 1)
  /-- RGN_PRES (R349): Copies lines into the undo area of the innermost region. -/
  | rgnPres (a : BitVec 6) (p : BitVec 2) (n : BitVec 10)
  /-- RGN_END (R348): Commits the innermost region. -/
  | rgnEnd
  /-- RGN_ABT (R348): Raises a rollback of the innermost region with cause 0xFF. -/
  | rgnAbt
  /-- TLREC (R206): Loads and checks a layout record into a record slot. -/
  | tlrec (l : BitVec 3) (a : BitVec 6) (p : BitVec 2) (o : BitVec 10)
  /-- TADDR (R207): Updates a window coordinate and returns the origin element's pointer. -/
  | taddr (d : BitVec 6) (a : BitVec 6) (m : BitVec 3) (l : BitVec 3) (o : BitVec 2)
  /-- TCOPY (R209): Issues a transfer copying a source window to a destination window. -/
  | tcopy (d : BitVec 3) (a : BitVec 3)
  /-- TGATH (R210): Issues a gather transfer of slabs by index. -/
  | tgath (d : BitVec 3) (a : BitVec 3) (b : BitVec 3) (m : BitVec 3)
  /-- TSCAT (R210): Issues a scatter transfer of slabs by index. -/
  | tscat (d : BitVec 3) (a : BitVec 3) (b : BitVec 3) (m : BitVec 3)
  /-- TMCAST (R212): Issues a multicast of a window to teams of the column. -/
  | tmcast (d : BitVec 3) (a : BitVec 3) (b : BitVec 6)
  /-- TRED (R211): Issues a transfer that combines source into destination elements. -/
  | tred (d : BitVec 3) (a : BitVec 3) (o : BitVec 2)
  /-- TARR (R214): Binds a barrier and its generation for later transfers. -/
  | tarr (i : BitVec 12)
  /-- TARR_NONE (R214): Unbinds the current barrier for later transfers. -/
  | tarrNone
  /-- TWAIT (R214): Waits on a barrier phase as bar.wait does, faulting on ERROR. -/
  | twait (p : BitVec 1) (i : BitVec 12)
  /-- TWAIT_DRAIN (R214): Waits until every earlier transfer of the thread has completed. -/
  | twaitDrain
  /-- TLOOP (R215): Decrements a counter and branches while it is not zero. -/
  | tloop (c : BitVec 6) (x : BitVec 18)
  /-- TEXIT (R216): Holds the thread until its transfers complete, then ends the kick. -/
  | texit
  /-- RESULT_ARRIVAL (R45): A pending result is written into its register's image line and marks it full. -/
  | resultArrival (id : Nat)
  /-- SCRATCHPAD_ARRIVAL (R145): An instruction's scratchpad accesses or buf.set arrive at the controller and are checked against buffer states. -/
  | scratchpadArrival (id : Nat)
  /-- TRANSITION_POINT (R193): The scratchpad controller accepts a kick, makes buffer transitions, binds the barrier and queues the entry. -/
  | transitionPoint (id : Nat)
  /-- COUNTDOWN (R168): A count-down bound to a generation arrives at a barrier's atomic unit. -/
  | countdown (id : Nat)
  /-- BARRIER_ERROR_EVENT (R169): A bound error event arrives at a barrier and may put it in ERROR. -/
  | barrierErrorEvent (id : Nat)
  /-- RELEASE_COMPLETE (R255): Every home reports matching counts and an open phase tag completes. -/
  | releaseComplete (id : Nat)
  /-- KICK_START (R196): The streamer picks an eligible kick candidate for a free thread and starts it. -/
  | kickStart (col : Nat)
  /-- TRANSFER_COMPLETE (R204): A transfer's destination lines are written, counting down and completing the transfer. -/
  | transferComplete (id : Nat)
  /-- MULTICAST_LINE (R212): A multicast line arrives at a receiving core and acts on its buffer. -/
  | multicastLine (id : Nat)
  /-- KICK_END (R216): A texit's transfers have completed; regions commit and drained or filled buffers settle. -/
  | kickEnd (col thr : Nat)
  /-- STREAM_ROLLBACK (R355): A stream region's transfers have completed and its record is restored. -/
  | streamRollback (col thr : Nat)
  /-- XPERM_ARRIVAL (R181): An exchanged vector arrives at its destination core and is checked. -/
  | xpermArrival (id : Nat)
  /-- CHANNEL_GRANT (R176): The controller grants a FREE channel slot to a waiting xsend. -/
  | channelGrant (team ch : Nat)
  /-- CHANNEL_MESSAGE_ARRIVAL (R176): A channel message arrives and its slot becomes FULL. -/
  | channelMessageArrival (id : Nat)
  /-- JOINT_OPERATION (R233): The matrix queue performs an accepted joint product into the cairn. -/
  | jointOperation (id : Nat)
  /-- MX_LDB_PERFORM (R226): The matrix queue loads B into the macros. -/
  | mxLdbPerform (id : Nat)
  /-- MX_EPI_PERFORM (R242): The matrix queue computes epilogue elements and sends rows. -/
  | mxEpiPerform (id : Nat)
  /-- EPILOGUE_ROW_ARRIVAL (R242): An epilogue row write arrives and is checked against buffer state. -/
  | epilogueRowArrival (id : Nat)
  /-- MX_ZERO_PERFORM (R236): The matrix queue clears cairn words. -/
  | mxZeroPerform (id : Nat)
  /-- MX_ACV_PERFORM (R237): The matrix queue copies cairn words toward a v register. -/
  | mxAcvPerform (id : Nat)
  /-- MX_VAC_PERFORM (R238): The matrix queue adds vector elements into cairn words. -/
  | mxVacPerform (id : Nat)
  /-- MX_CSUM_PERFORM (R239): The matrix queue folds a cairn tile into an invariant register. -/
  | mxCsumPerform (id : Nat)
  /-- WALK_COMPLETE (R311): A page walk ends on a leaf or a not-present entry. -/
  | walkComplete (col fid : Nat)
  /-- FAULT_RECORD_POST (R313): A held fault record is posted once the fault ring has room. -/
  | faultRecordPost (col fid : Nat)
  /-- SHOOTDOWN_COLUMN_DONE (R316): A column's removed translations have drained and it decrements the completion word. -/
  | shootdownColumnDone (id : Nat)
  /-- QUEUE_EXAMINE (R289): The engine examines a queue's head after a wake or completion. -/
  | queueExamine (q : Nat)
  /-- QUEUE_POLL (R289): The 64 µs poll of an IDLE queue's head expires. -/
  | queuePoll (q : Nat)
  /-- LAUNCH_ADMISSION (R298): All dependences are met and the launch is checked and its grid read. -/
  | launchAdmission (l : Nat)
  /-- TEAM_PLACEMENT (R301): The distributor places a team on a core with room and starts its groups. -/
  | teamPlacement (l col : Nat)
  /-- LAUNCH_COMPLETE (R299): A draining launch's outstanding work has finished; its release completes and the status is written. -/
  | launchComplete (l : Nat)
  /-- QUANTUM_EXPIRY (R275): A context's residency count reaches its quantum. -/
  | quantumExpiry (ctx : Nat)
  /-- PREEMPTION_COMPLETE (R276): Every save step has finished and the context becomes PREEMPTED. -/
  | preemptionComplete (ctx : Nat)
  /-- CONTEXT_RESUME (R278): The scheduler gives a preempted context residency again. -/
  | contextResume (ctx : Nat)
  /-- CONTEXT_QUARANTINE (R279): Every agent of a killed context has stopped and it becomes QUARANTINED. -/
  | contextQuarantine (ctx : Nat)
  /-- TEAM_SWAP (R124): A team's wait counts reach sr.swapwait with another team waiting, and it is swapped. -/
  | teamSwap (team : Nat)
  /-- TEAM_READMIT (R124): A swapped team is given residency again after an awaited event. -/
  | teamReadmit (team : Nat)
  /-- WATCHDOG (R334): One wait keeps a group in WAITING for 2^34 cycles. -/
  | watchdog (grp : Nat)
  /-- PREEMPT (R334): A pre-emption has waited 65,536 cycles for a handler's eret. -/
  | preempt (grp : Nat)
  /-- GANG_TIMEOUT (R229): A latch arrival's wait count reaches sr.swapwait and it is withdrawn. -/
  | gangTimeout (grp : Nat) (slot : Bool)
  /-- KEY_TIMEOUT (R377): An armed collective key does not complete within TMO. -/
  | keyTimeout (col : Nat) (key : KeyId)
  /-- UNARMED_KEY_EXPIRY (R375): An unarmed key is discarded 2 ms after its creation. -/
  | unarmedKeyExpiry (col : Nat) (key : KeyId)
  /-- RETRY_BACKOFF (R365): The retry-later wait expires and the request is sent again. -/
  | retryBackoff (id : Nat)
  /-- REQUEST_TIMEOUT (R365): A request has no response for 4 ms and completes as if its target were LOST. -/
  | requestTimeout (id : Nat)
  /-- BRIXEL_READ (R364): A remote read request is served at the target home. -/
  | brixelRead (q : Brixel)
  /-- BRIXEL_WRITE (R364): A remote write request is performed at the target home. -/
  | brixelWrite (q : Brixel)
  /-- BRIXEL_REDUCE (R370): A remote point reduction is combined at the target home. -/
  | brixelReduce (q : Brixel)
  /-- BRIXEL_ATOMIC (R369): A remote atomic is performed indivisibly at the target home. -/
  | brixelAtomic (q : Brixel)
  /-- BRIXEL_COMPARE_AND_SWAP (R369): A remote compare-and-swap is performed at the target home. -/
  | brixelCompareAndSwap (q : Brixel)
  /-- HOP (R375): An endpoint pops a HOP entry and forwards the frame. -/
  | hop (f : Frame)
  /-- ACC (R375): An endpoint accumulates a frame into its key and sends the result when complete. -/
  | acc (f : Frame)
  /-- DLV (R375): An endpoint delivers a payload into a buffer, counts down and completes the key. -/
  | dlv (f : Frame)
  /-- DATA_RESPONSE (R364): Data for a remote read or atomic returns to the issuer. -/
  | dataResponse (id : Nat) (data : Word)
  /-- ACKNOWLEDGEMENT (R364): A target acknowledges a remote write or reduction. -/
  | acknowledgement (id : Nat)
  /-- RETRY_LATER (R365): A full receiver answers retry-later and the stream waits. -/
  | retryLater (id : Nat)
  /-- REFUSAL (R319): A target refuses a remote access with a cause. -/
  | refusal (id : Nat) (cause : Nat)
  /-- POISON (R364): A poison response completes a remote access. -/
  | poison (id : Nat)
  /-- WORD_NOT_AN_INSTRUCTION (R54): A fetched word that matches no instruction is decoded and traps ZERO_WORD, ILLEGAL_OPCODE or RESERVED_FIELD. -/
  | wordNotAnInstruction (w : Word32)
  /-- FETCH_PAST_CODE_LIMIT (R125): A slot fetches at or beyond the CODE limit, or from a page that refuses the fetch, and faults or waits with no instruction word. -/
  | fetchPastCodeLimit
  /-- HOST_READ (R362): A host port reads device memory through the aperture. -/
  | hostRead (port addr n : Nat)
  /-- HOST_WRITE (R362): A host port writes device memory with a fresh check value. -/
  | hostWrite (port addr : Nat) (bytes : List Byte)
  /-- HOST_FETCH_ADD (R362): A Larnar fetch-add on an aligned word in the atomic window. -/
  | hostFetchAdd (port addr : Nat) (x : Word)
  /-- HOST_SWAP (R362): A Larnar swap on an aligned word in the atomic window. -/
  | hostSwap (port addr : Nat) (x : Word)
  /-- HOST_COMPARE_SWAP (R362): A Larnar compare-swap on an aligned word in the atomic window. -/
  | hostCompareSwap (port addr : Nat) (cmp new : Word)
  /-- DOORBELL_WRITE (R290): A host doorbell write sets a queue's wake bit. -/
  | doorbellWrite (port q : Nat)
  /-- SEMAPHORE_READ (R281): A read claims a free semaphore or reports its holder. -/
  | semaphoreRead (agent n : Nat) (meets : Option SemAccess)
  /-- SEMAPHORE_WRITE (R281): A write by the holder frees a semaphore. -/
  | semaphoreWrite (agent n : Nat) (meets : Option SemAccess)
  /-- LARNAR_LINK_DOWN (R281): A Larnar port's link goes down and its semaphores are freed. -/
  | larnarLinkDown (port : Nat)
  /-- CONTEXT_CREATE (R271): Management command that creates a context from its record. -/
  | contextCreate (port n : Nat) (record : BitVec 512)
  /-- CONTEXT_DESTROY (R272): Management command that destroys a CREATED context. -/
  | contextDestroy (port ctx : Nat)
  /-- KILL (R279): Management command that kills a context. -/
  | kill (port ctx : Nat)
  /-- ACKNOWLEDGE (R272): Management command that returns a FAULTED context to ACTIVE. -/
  | acknowledge (port ctx : Nat)
  /-- QUEUE_ENABLE (R288): Management command that enables a queue. -/
  | queueEnable (port q : Nat)
  /-- QUEUE_DISABLE (R288): Management command that disables a queue once launches in flight complete. -/
  | queueDisable (port q : Nat)
  /-- RESET_QUEUE (R288): Management command that returns an ERROR queue to IDLE. -/
  | resetQueue (port q : Nat)
  /-- RETRY (R314): Resolve command that walks again and replays the waiting accesses. -/
  | retry (port col fid : Nat)
  /-- FAULT (R314): Resolve command that ends the waits with a fault. -/
  | fault (port col fid : Nat)
  /-- SHOOTDOWN (R316): Management command that removes translations of a range in named columns. -/
  | shootdown (port : Nat) (block : BitVec 256)
  /-- LEAF_WRITE (R312): Management command that writes a page-table entry. -/
  | leafWrite (port addr : Nat) (entry : Word)
  /-- PARTITION (R23): Management command that stores a partition split for the next reset. -/
  | partition (port : Nat) (ranges : List (Nat × Nat))
  /-- RIDGE (R303): Management command that sets the ridge partition of each column. -/
  | ridge (port col cores : Nat)
  /-- PORT_ENABLE (R359): Command that starts training a port. -/
  | portEnable (port link : Nat)
  /-- ISOLATE (R359): Command that isolates a port. -/
  | isolate (port link : Nat)
  /-- RESTORE (R359): Command that retrains an isolated port. -/
  | restore (port link : Nat)
  /-- RE_ADMIT (R360): Command that makes a LOST member LIVE again. -/
  | reAdmit (port member : Nat)
  /-- MEMBER_NUMBER (R361): Command that sets sr.dev. -/
  | memberNumber (port value : Nat)
  /-- HOST_WINDOWS (R363): Command that sets a port's HOSTDEV and host windows. -/
  | hostWindows (port larnar hostdev : Nat) (windows : List HostWindow)
  /-- HALT (R331): Debugger command that halts a group at its next boundary. -/
  | halt (port grp : Nat)
  /-- RESUME (R331): Debugger command that resumes a HALTED group. -/
  | resume (port grp : Nat)
  /-- DEBUGGING_ENABLE (R331): Command that enables debugging for a context. -/
  | debuggingEnable (port ctx : Nat) (on : Bool)
  /-- RESET (R387): Reset command that runs the boot ROM steps. -/
  | reset (port : Nat) (env : BootEnv)
  /-- POWER_ON (R387): Power is applied and the boot ROM runs the reset steps. -/
  | powerOn (env : BootEnv)
  /-- STANDBY (R392): Power command that puts the device in STANDBY. -/
  | standby (port : Nat)
  /-- OFF (R392): Power command that removes power. -/
  | off (port : Nat)
  /-- IDLE (R392): Power command that returns the device from STANDBY to IDLE. -/
  | idle (port : Nat)
  /-- RECORD_UPDATE (R389): Command that writes a new configuration record into the older flash slot. -/
  | recordUpdate (port : Nat) (record : ConfigRecord)
  /-- QUOTE (R391): Command that returns a signed attestation quote. -/
  | quote (port : Nat) (nonce : BitVec 256)
  /-- INJECTION (R397): Command that arms sr.einj of a named group. -/
  | injection (port ctx col tid gid : Nat) (value : Word)
  /-- QUEUE_PAIR_CREATE (R380): Command that creates an RDMA queue pair. -/
  | queuePairCreate (port qp doorbell : Nat)
  /-- ETHERNET_DOORBELL_POLL (R380): The Ethernet engine's 10 µs doorbell poll expires. -/
  | ethernetDoorbellPoll
  /-- TRAINING (R359): Port training ends at full width, reduced width, or failure. -/
  | training (link : Nat) (result : TrainResult)
  /-- LANE_FAIL (R359): A lane of an UP port fails and the port retrains narrower. -/
  | laneFail (link : Nat)
  /-- REPLAY_LIMIT (R359): The data-link replay limit is passed and the port goes ISOLATED. -/
  | replayLimit (link : Nat)
  /-- PEER_SILENCE (R359): The peer sends nothing for 1 ms and the port goes ISOLATED. -/
  | peerSilence (link : Nat)
  /-- LOSS_NOTICE (R372): The fabric manager reports a member lost. -/
  | lossNotice (member : Nat)
  /-- CORRECTED_ERROR_THRESHOLD (R20): A part's corrected-error count passes the threshold and the column goes DEGRADED. -/
  | correctedErrorThreshold (col : Nat)
  /-- UNCORRECTABLE_ERROR (R21): An uncorrectable error strikes a column's own hardware. -/
  | uncorrectableError (col : Nat) (site : ErrSite)
  /-- MESH_PAYLOAD_ERROR (R37): An uncorrectable packet payload error kills the named context. -/
  | meshPayloadError (ctx : Nat)
  /-- MESH_HEADER_ERROR (R37): An uncorrectable packet header error stops a partition. -/
  | meshHeaderError (part : Nat)
  /-- PATROL_SCRUB (R341): The patrol scrubber reads, corrects and conditionally writes back a line. -/
  | patrolScrub (line tag : Nat) (bad : Bool)
  /-- SCRUBBING (R312): The patrol scrubber takes a QUARANTINED page. -/
  | scrubbing (leaf : Nat)
  /-- SCRUB_DONE (R312): Every line of a page is rewritten and the page becomes FREE. -/
  | scrubDone (leaf : Nat)
  /-- THERMAL_HIGH (R393): A die reading reaches 100 °C and issue is halved. -/
  | thermalHigh (die : Nat)
  /-- THERMAL_NORMAL (R393): A die reading falls below 95 °C and halving ends. -/
  | thermalNormal (die : Nat)
  /-- THERMAL_TRIP (R393): A die reading reaches 115 °C and the device trips to OFF. -/
  | thermalTrip (die : Nat)
  /-- POWER_OVER (R393): Average module power exceeds 1,800 W and issue is halved. -/
  | powerOver
  /-- POWER_NORMAL (R393): Average module power falls below 1,710 W and halving ends. -/
  | powerNormal
  /-- ALARM (R395): The core supply of a die falls below nominal: the droop detector raises an alarm and cycles are stretched. -/
  | alarm (droop : Droop)
  /-- STRETCH_END (R395): The six stretched cycles end and halved issue begins. -/
  | stretchEnd (die : Nat)
  /-- HALVED_WINDOW_END (R395): The 64 halved cycles after a droop alarm end. -/
  | halvedWindowEnd (die : Nat)
  /-- PARTITION_RESET (R37): System software resets a partition stopped by a mesh header error, returning its routers to service. -/
  | partitionReset (port part : Nat)
  /-- RDMA_INGRESS (R380): A RoCEv2 packet of a queue pair arrives on an Ethernet port and its WRITE, READ, SEND or response is performed with fresh check values. -/
  | rdmaIngress (qp : Nat) (op : RdmaOp)
  deriving DecidableEq, Repr

end Sys2Proof
end

