-- ==== Sys2Proof/WellFormed.lean ====
section
/-! DEFINITION. Which instructions are well formed: the reserved values of a value field that the opcode tables name, one line for each instruction that has any (R51, R54 check 5). The reserved bits of a word are no part of an instruction: the decoder checks them. -/

namespace Sys2Proof

/-- The value fields of the instruction hold no reserved value (R54 check 5); an event carries no encoded field. -/
def wellFormed : Instr → Bool
  | .bc c _ => decide (c.toNat < 10)  -- R49
  | .bk t _ _ => decide (t.toNat < 3)  -- Table 3-14
  | .segld _ n => decide (n.toNat < 7)  -- R332
  | .ssel _ _ _ c => decide (c.toNat < 10)  -- R80
  | .vcmpk _ _ _ c => decide (c.toNat < 8)  -- R49
  | .vred _ _ o => decide (o.toNat < 6)  -- R114
  | .vscan _ _ o => decide (o.toNat < 6)  -- R114
  | .vfcmpk _ _ _ c => decide (c.toNat < 8)  -- R49
  | .vcvt _ _ _ t => decide (t.toNat < 14)  -- R99
  | .vldi _ _ p _ => decide (p.toNat = 1 ∨ p.toNat = 2)  -- R157
  | .atom _ _ _ p o => decide (o.toNat < 10 ∧ (o.toNat = 8 → p.toNat ≠ 1 ∧ p.toNat ≠ 2))  -- R52, R162
  | .rld _ _ s => decide (s.toNat < 4)  -- R366
  | .rst _ _ s => decide (s.toNat < 4)  -- R366
  | .rred _ _ o => decide (o.toNat < 5)  -- R370
  | .rredColl _ _ o => decide (o.toNat < 5)  -- R370
  | .ratom _ _ _ _ o => decide (o.toNat < 10 ∧ o.toNat ≠ 7 ∧ o.toNat ≠ 8)  -- R369
  | .phase k _ => decide (k.toNat ≠ 0)  -- R257
  | .bufSet k t _ => decide (k.toNat = 1 → t.toNat = 0)  -- R151
  | .rgnPres _ p _ => decide (p.toNat < 3)  -- R349
  | .taddr _ _ m _ _ => decide (m.toNat < 5)  -- R207
  | .tgath _ _ _ m => decide (m.toNat < 5)  -- R209
  | .tscat _ _ _ m => decide (m.toNat < 5)  -- R209
  | .tred _ _ o => decide (o.toNat < 3)  -- R209
  | .tloop c _ => decide (c.toNat ≠ 0)  -- R215
  | _ => true

end Sys2Proof
end

