-- ==== Sys2Proof/Decode.lean ====
section
/-! DEFINITION. The decoder of instruction words and the encoder of instructions, both from the formats and opcode tables of 03_instruction_words.md (Tables 3-1 to 3-24) and the encodings that the chapters give. The decoder is total: it answers an instruction, or says by name which of the checks of Table 3-26 that look at the word alone has failed. -/

namespace Sys2Proof

/-- The `n`-bit field of a word whose lowest bit is `lo`. -/
def field (w lo n : Nat) : BitVec n := BitVec.ofNat n (w / 2 ^ lo)

theorem field_eq (w lo n : Nat) (x : BitVec n) (h : w / 2 ^ lo % 2 ^ n = x.toNat) : field w lo n = x := by
  apply BitVec.eq_of_toNat_eq
  simp [field, h]

/-- Why a word is no instruction, by the checks of Table 3-26 that read the word alone. -/
inductive Reject where
  /-- check 1: the word 0x0000_0000: ZERO_WORD -/
  | zeroWord
  /-- check 2: an unassigned opcode, 0xFF, or a non-zero word with opcode 0: ILLEGAL_OPCODE -/
  | illegalOpcode
  /-- check 5: a reserved field or reserved value that is not zero: RESERVED_FIELD -/
  | reservedField
  deriving DecidableEq, Repr

/-- What the decoder answers. -/
inductive Decoded where
  | ok (i : Instr)
  | reject (r : Reject)
  deriving DecidableEq, Repr

/-- A word of format F3 (Table 3-1).  -/
def f3 (op d a b c : Nat) : Nat := op * 2 ^ 24 + d * 2 ^ 18 + a * 2 ^ 12 + b * 2 ^ 6 + c

/-- A word of format FI or FS (Tables 3-2 and 3-5): twelve low bits. -/
def fs (op d a x : Nat) : Nat := op * 2 ^ 24 + d * 2 ^ 18 + a * 2 ^ 12 + x

/-- A word of format FW or FB (Tables 3-3 and 3-4): eighteen low bits. -/
def fw (op d x : Nat) : Nat := op * 2 ^ 24 + d * 2 ^ 18 + x

/-- The instruction word of an instruction (Tables 3-14 to 3-24): the opcode and every field at its place, every reserved bit zero; an event has no word. -/
def encode : Instr → Option Nat
  | .nop => some (fs 0x1 0 0 0)
  | .br x => some (fw 0x2 0 x.toNat)
  | .bc c x => some (fw 0x3 c.toNat x.toNat)
  | .bk t k x => some (fw 0x4 (t.toNat * 2 ^ 4 + k.toNat) x.toNat)
  | .call x => some (fw 0x5 0 x.toNat)
  | .ret a => some (fs 0x6 0 a.toNat 0)
  | .jmp a => some (fs 0x7 0 a.toNat 0)
  | .split k x => some (fw 0x8 k.toNat x.toNat)
  | .jarm d a => some (fs 0x9 d.toNat a.toNat 0)
  | .join d => some (fs 0xa d.toNat 0 0)
  | .exit => some (fs 0xb 0 0 0)
  | .setmode i => some (fw 0x10 0 i.toNat)
  | .rdsr d n => some (fs 0x11 d.toNat 0 n.toNat)
  | .wrsr a n => some (fs 0x12 0 a.toNat n.toNat)
  | .rdtime d => some (fs 0x13 d.toNat 0 0)
  | .trap c => some (fs 0x14 0 0 c.toNat)
  | .sint a => some (fs 0x15 0 a.toNat 0)
  | .eret => some (fs 0x16 0 0 0)
  | .segld a n => some (fs 0x17 0 a.toNat n.toNat)
  | .dbgbrk t => some (fs 0x18 0 0 t.toNat)
  | .sadd d a b => some (f3 0x20 d.toNat a.toNat b.toNat 0)
  | .ssub d a b => some (f3 0x21 d.toNat a.toNat b.toNat 0)
  | .smul d a b => some (f3 0x22 d.toNat a.toNat b.toNat 0)
  | .smulh d a b => some (f3 0x23 d.toNat a.toNat b.toNat 0)
  | .sdiv d a b => some (f3 0x24 d.toNat a.toNat b.toNat 0)
  | .srem d a b => some (f3 0x25 d.toNat a.toNat b.toNat 0)
  | .sand d a b => some (f3 0x26 d.toNat a.toNat b.toNat 0)
  | .sor d a b => some (f3 0x27 d.toNat a.toNat b.toNat 0)
  | .sxor d a b => some (f3 0x28 d.toNat a.toNat b.toNat 0)
  | .sshl d a b => some (f3 0x29 d.toNat a.toNat b.toNat 0)
  | .sshr d a b => some (f3 0x2a d.toNat a.toNat b.toNat 0)
  | .ssra d a b => some (f3 0x2b d.toNat a.toNat b.toNat 0)
  | .smin d a b => some (f3 0x2c d.toNat a.toNat b.toNat 0)
  | .smax d a b => some (f3 0x2d d.toNat a.toNat b.toNat 0)
  | .scmp a b => some (f3 0x2e 0 a.toNat b.toNat 0)
  | .ssel d a b c => some (f3 0x2f d.toNat a.toNat b.toNat c.toNat)
  | .saddi d a i => some (fs 0x30 d.toNat a.toNat i.toNat)
  | .sandi d a i => some (fs 0x31 d.toNat a.toNat i.toNat)
  | .sori d a i => some (fs 0x32 d.toNat a.toNat i.toNat)
  | .sxori d a i => some (fs 0x33 d.toNat a.toNat i.toNat)
  | .sshli d a i => some (fs 0x34 d.toNat a.toNat i.toNat)
  | .sshri d a i => some (fs 0x35 d.toNat a.toNat i.toNat)
  | .ssrai d a i => some (fs 0x36 d.toNat a.toNat i.toNat)
  | .scmpi a i => some (fs 0x37 0 a.toNat i.toNat)
  | .sli d i => some (fw 0x38 d.toNat i.toNat)
  | .slhi d i => some (fw 0x39 d.toNat i.toNat)
  | .kand d a b => some (f3 0x40 d.toNat a.toNat b.toNat 0)
  | .kor d a b => some (f3 0x41 d.toNat a.toNat b.toNat 0)
  | .kxor d a b => some (f3 0x42 d.toNat a.toNat b.toNat 0)
  | .kandn d a b => some (f3 0x43 d.toNat a.toNat b.toNat 0)
  | .ksmov d a => some (fs 0x44 d.toNat a.toNat 0)
  | .skmov d a => some (fs 0x45 d.toNat a.toNat 0)
  | .kpop d a => some (fs 0x46 d.toNat a.toNat 0)
  | .kfirst d a => some (fs 0x47 d.toNat a.toNat 0)
  | .ktest a b => some (f3 0x48 0 a.toNat b.toNat 0)
  | .vcmpk d a b c => some (f3 0x49 d.toNat a.toNat b.toNat c.toNat)
  | .vshuf d a b => some (f3 0x4a d.toNat a.toNat b.toNat 0)
  | .vbcast d a b => some (f3 0x4b d.toNat a.toNat b.toNat 0)
  | .vtbl d a b c => some (f3 0x4c d.toNat a.toNat b.toNat c.toNat)
  | .vred d a o => some (fs 0x4d d.toNat a.toNat o.toNat)
  | .vscan d a o => some (fs 0x4e d.toNat a.toNat o.toNat)
  | .slane d a b => some (f3 0x4f d.toNat a.toNat b.toNat 0)
  | .vadd d a b => some (f3 0x50 d.toNat a.toNat b.toNat 0)
  | .vsub d a b => some (f3 0x51 d.toNat a.toNat b.toNat 0)
  | .vmul d a b => some (f3 0x52 d.toNat a.toNat b.toNat 0)
  | .vmulh d a b => some (f3 0x53 d.toNat a.toNat b.toNat 0)
  | .vmad d a b c => some (f3 0x54 d.toNat a.toNat b.toNat c.toNat)
  | .vmin d a b => some (f3 0x55 d.toNat a.toNat b.toNat 0)
  | .vmax d a b => some (f3 0x56 d.toNat a.toNat b.toNat 0)
  | .vabs d a => some (fs 0x57 d.toNat a.toNat 0)
  | .vneg d a => some (fs 0x58 d.toNat a.toNat 0)
  | .vand d a b => some (f3 0x59 d.toNat a.toNat b.toNat 0)
  | .vor d a b => some (f3 0x5a d.toNat a.toNat b.toNat 0)
  | .vxor d a b => some (f3 0x5b d.toNat a.toNat b.toNat 0)
  | .vshl d a b => some (f3 0x5c d.toNat a.toNat b.toNat 0)
  | .vshr d a b => some (f3 0x5d d.toNat a.toNat b.toNat 0)
  | .vsra d a b => some (f3 0x5e d.toNat a.toNat b.toNat 0)
  | .vpopc d a => some (fs 0x5f d.toNat a.toNat 0)
  | .vclz d a => some (fs 0x60 d.toNat a.toNat 0)
  | .vsel d a b c => some (f3 0x61 d.toNat a.toNat b.toNat c.toNat)
  | .vaddi d a i => some (fs 0x62 d.toNat a.toNat i.toNat)
  | .vbcs d a => some (fs 0x63 d.toNat a.toNat 0)
  | .vlid d => some (fs 0x64 d.toNat 0 0)
  | .vfadd d a b => some (f3 0x70 d.toNat a.toNat b.toNat 0)
  | .vfsub d a b => some (f3 0x71 d.toNat a.toNat b.toNat 0)
  | .vfmul d a b => some (f3 0x72 d.toNat a.toNat b.toNat 0)
  | .vfma d a b c => some (f3 0x73 d.toNat a.toNat b.toNat c.toNat)
  | .vfmin d a b => some (f3 0x74 d.toNat a.toNat b.toNat 0)
  | .vfmax d a b => some (f3 0x75 d.toNat a.toNat b.toNat 0)
  | .vfabs d a => some (fs 0x76 d.toNat a.toNat 0)
  | .vfneg d a => some (fs 0x77 d.toNat a.toNat 0)
  | .vfcmpk d a b c => some (f3 0x78 d.toNat a.toNat b.toNat c.toNat)
  | .vrcp d a => some (fs 0x79 d.toNat a.toNat 0)
  | .vrsq d a => some (fs 0x7a d.toNat a.toNat 0)
  | .vexp2 d a => some (fs 0x7b d.toNat a.toNat 0)
  | .vlog2 d a => some (fs 0x7c d.toNat a.toNat 0)
  | .vtanh d a => some (fs 0x7d d.toNat a.toNat 0)
  | .vcvt d a p t => some (fs 0x7e d.toNat a.toNat (p.toNat * 2 ^ 4 + t.toNat))
  | .vscl d a b => some (f3 0x7f d.toNat a.toNat b.toNat 0)
  | .vfrnd d a => some (fs 0x80 d.toNat a.toNat 0)
  | .vqnt d a b c => some (f3 0x81 d.toNat a.toNat b.toNat c.toNat)
  | .vdqnt d a b c => some (f3 0x82 d.toNat a.toNat b.toNat c.toNat)
  | .vld d a p o => some (fs 0x90 d.toNat a.toNat (p.toNat * 2 ^ 10 + o.toNat))
  | .vst d a p o => some (fs 0x91 d.toNat a.toNat (p.toNat * 2 ^ 10 + o.toNat))
  | .vldx d a b p s => some (f3 0x92 d.toNat a.toNat b.toNat (p.toNat * 2 ^ 4 + s.toNat))
  | .vstx d a b p s => some (f3 0x93 d.toNat a.toNat b.toNat (p.toNat * 2 ^ 4 + s.toNat))
  | .sld d a p o => some (fs 0x94 d.toNat a.toNat (p.toNat * 2 ^ 10 + o.toNat))
  | .sst d a p o => some (fs 0x95 d.toNat a.toNat (p.toNat * 2 ^ 10 + o.toNat))
  | .vldi d a p o => some (fs 0x96 d.toNat a.toNat (p.toNat * 2 ^ 10 + o.toNat))
  | .atom d a b p o => some (f3 0x97 d.toNat a.toNat b.toNat (p.toNat * 2 ^ 4 + o.toNat))
  | .rld d a s => some (fs 0x98 d.toNat a.toNat s.toNat)
  | .rst d a s => some (fs 0x99 d.toNat a.toNat s.toNat)
  | .rred d a o => some (fs 0x9a d.toNat a.toNat o.toNat)
  | .rredColl d a o => some (fs 0x9a d.toNat a.toNat (32 + o.toNat))
  | .ratom d a b r o => some (f3 0x9b d.toNat a.toNat b.toNat (r.toNat * 2 ^ 5 + o.toNat))
  | .rcas d a b r => some (f3 0x9c d.toNat a.toNat b.toNat (r.toNat * 2 ^ 5))
  | .xsend a c => some (fs 0x9d 0 a.toNat c.toNat)
  | .xrecv d c => some (fs 0x9e d.toNat 0 c.toNat)
  | .xperm d a s c => some (f3 0x9f d.toNat a.toNat s.toNat c.toNat)
  | .phase k s => some (fs 0xa0 0 0 (k.toNat * 2 ^ 2 + s.toNat))
  | .fenceq m => some (fs 0xa1 0 0 m.toNat)
  | .barInit a i => some (fs 0xb0 0 a.toNat i.toNat)
  | .barArr a i => some (fs 0xb1 0 a.toNat i.toNat)
  | .barWait p i => some (fs 0xb2 p.toNat 0 i.toNat)
  | .barTest d i => some (fs 0xb3 d.toNat 0 i.toNat)
  | .barExp a i => some (fs 0xb4 0 a.toNat i.toNat)
  | .bufSet k t b => some (fs 0xb5 0 0 (k.toNat * 2 ^ 6 + t.toNat * 2 ^ 4 + b.toNat))
  | .bufGet d b => some (fs 0xb6 d.toNat 0 b.toNat)
  | .stk c a p => some (fs 0xb7 c.toNat a.toNat p.toNat)
  | .mxGang a => some (fs 0xc0 0 a.toNat 0)
  | .mxLdb a b r => some (f3 0xc1 0 a.toNat b.toNat r.toNat)
  | .mxMm d a b => some (f3 0xc2 d.toNat a.toNat b.toNat 0)
  | .mxZero d => some (fs 0xc3 d.toNat 0 0)
  | .mxEpi d a b => some (f3 0xc4 d.toNat a.toNat b.toNat 0)
  | .mxAcv d a => some (fs 0xc5 d.toNat a.toNat 0)
  | .mxVac d a => some (fs 0xc6 d.toNat a.toNat 0)
  | .mxCsum d a b => some (f3 0xc7 d.toNat a.toNat b.toNat 0)
  | .csacc d a => some (fs 0xd0 d.toNat a.toNat 0)
  | .csclr d => some (fs 0xd1 d.toNat 0 0)
  | .cschk a b c => some (f3 0xd2 0 a.toNat b.toNat c.toNat)
  | .csmov d a p => some (fs 0xd3 d.toNat a.toNat p.toNat)
  | .rgnBeg i => some (fs 0xd4 0 0 i.toNat)
  | .rgnPres a p n => some (fs 0xd5 0 a.toNat (p.toNat * 2 ^ 10 + n.toNat))
  | .rgnEnd => some (fs 0xd6 0 0 0)
  | .rgnAbt => some (fs 0xd7 0 0 0)
  | .tlrec l a p o => some (fs 0xe0 l.toNat a.toNat (p.toNat * 2 ^ 10 + o.toNat))
  | .taddr d a m l o => some (fs 0xe1 d.toNat a.toNat (m.toNat * 2 ^ 9 + l.toNat * 2 ^ 6 + o.toNat))
  | .tcopy d a => some (fs 0xe2 d.toNat a.toNat 0)
  | .tgath d a b m => some (fs 0xe3 d.toNat a.toNat (b.toNat * 2 ^ 6 + m.toNat))
  | .tscat d a b m => some (fs 0xe4 d.toNat a.toNat (b.toNat * 2 ^ 6 + m.toNat))
  | .tmcast d a b => some (f3 0xe5 d.toNat a.toNat b.toNat 0)
  | .tred d a o => some (fs 0xe6 d.toNat a.toNat o.toNat)
  | .tarr i => some (fs 0xe7 0 0 i.toNat)
  | .tarrNone => some (fs 0xe7 1 0 0)
  | .twait p i => some (fs 0xe8 p.toNat 0 i.toNat)
  | .twaitDrain => some (fs 0xe8 2 0 0)
  | .tloop c x => some (fw 0xe9 c.toNat x.toNat)
  | .texit => some (fs 0xea 0 0 0)
  | _ => none

/-- The fields of a word with opcode 0x0–0xf, read as its row of the opcode tables says. -/
def readControl (op w : Nat) : Option Instr :=
  match op with
  | 0x1 => some (.nop)
  | 0x2 => some (.br (field w 0 18))
  | 0x3 => some (.bc (field w 18 4) (field w 0 18))
  | 0x4 => some (.bk (field w 22 2) (field w 18 4) (field w 0 18))
  | 0x5 => some (.call (field w 0 18))
  | 0x6 => some (.ret (field w 12 6))
  | 0x7 => some (.jmp (field w 12 6))
  | 0x8 => some (.split (field w 18 4) (field w 0 18))
  | 0x9 => some (.jarm (field w 18 6) (field w 12 6))
  | 0xa => some (.join (field w 18 6))
  | 0xb => some (.exit)
  | _ => none

/-- The fields of a word with opcode 0x10–0x1f, read as its row of the opcode tables says. -/
def readSystem (op w : Nat) : Option Instr :=
  match op with
  | 0x10 => some (.setmode (field w 0 18))
  | 0x11 => some (.rdsr (field w 18 6) (field w 0 12))
  | 0x12 => some (.wrsr (field w 12 6) (field w 0 12))
  | 0x13 => some (.rdtime (field w 18 6))
  | 0x14 => some (.trap (field w 0 12))
  | 0x15 => some (.sint (field w 12 6))
  | 0x16 => some (.eret)
  | 0x17 => some (.segld (field w 12 6) (field w 0 12))
  | 0x18 => some (.dbgbrk (field w 0 12))
  | _ => none

/-- The fields of a word with opcode 0x20–0x3f, read as its row of the opcode tables says. -/
def readScalar (op w : Nat) : Option Instr :=
  match op with
  | 0x20 => some (.sadd (field w 18 6) (field w 12 6) (field w 6 6))
  | 0x21 => some (.ssub (field w 18 6) (field w 12 6) (field w 6 6))
  | 0x22 => some (.smul (field w 18 6) (field w 12 6) (field w 6 6))
  | 0x23 => some (.smulh (field w 18 6) (field w 12 6) (field w 6 6))
  | 0x24 => some (.sdiv (field w 18 6) (field w 12 6) (field w 6 6))
  | 0x25 => some (.srem (field w 18 6) (field w 12 6) (field w 6 6))
  | 0x26 => some (.sand (field w 18 6) (field w 12 6) (field w 6 6))
  | 0x27 => some (.sor (field w 18 6) (field w 12 6) (field w 6 6))
  | 0x28 => some (.sxor (field w 18 6) (field w 12 6) (field w 6 6))
  | 0x29 => some (.sshl (field w 18 6) (field w 12 6) (field w 6 6))
  | 0x2a => some (.sshr (field w 18 6) (field w 12 6) (field w 6 6))
  | 0x2b => some (.ssra (field w 18 6) (field w 12 6) (field w 6 6))
  | 0x2c => some (.smin (field w 18 6) (field w 12 6) (field w 6 6))
  | 0x2d => some (.smax (field w 18 6) (field w 12 6) (field w 6 6))
  | 0x2e => some (.scmp (field w 12 6) (field w 6 6))
  | 0x2f => some (.ssel (field w 18 6) (field w 12 6) (field w 6 6) (field w 0 4))
  | 0x30 => some (.saddi (field w 18 6) (field w 12 6) (field w 0 12))
  | 0x31 => some (.sandi (field w 18 6) (field w 12 6) (field w 0 12))
  | 0x32 => some (.sori (field w 18 6) (field w 12 6) (field w 0 12))
  | 0x33 => some (.sxori (field w 18 6) (field w 12 6) (field w 0 12))
  | 0x34 => some (.sshli (field w 18 6) (field w 12 6) (field w 0 6))
  | 0x35 => some (.sshri (field w 18 6) (field w 12 6) (field w 0 6))
  | 0x36 => some (.ssrai (field w 18 6) (field w 12 6) (field w 0 6))
  | 0x37 => some (.scmpi (field w 12 6) (field w 0 12))
  | 0x38 => some (.sli (field w 18 6) (field w 0 18))
  | 0x39 => some (.slhi (field w 18 6) (field w 0 18))
  | _ => none

/-- The fields of a word with opcode 0x40–0x4f, read as its row of the opcode tables says. -/
def readMask (op w : Nat) : Option Instr :=
  match op with
  | 0x40 => some (.kand (field w 18 6) (field w 12 6) (field w 6 6))
  | 0x41 => some (.kor (field w 18 6) (field w 12 6) (field w 6 6))
  | 0x42 => some (.kxor (field w 18 6) (field w 12 6) (field w 6 6))
  | 0x43 => some (.kandn (field w 18 6) (field w 12 6) (field w 6 6))
  | 0x44 => some (.ksmov (field w 18 6) (field w 12 6))
  | 0x45 => some (.skmov (field w 18 6) (field w 12 6))
  | 0x46 => some (.kpop (field w 18 6) (field w 12 6))
  | 0x47 => some (.kfirst (field w 18 6) (field w 12 6))
  | 0x48 => some (.ktest (field w 12 6) (field w 6 6))
  | 0x49 => some (.vcmpk (field w 18 6) (field w 12 6) (field w 6 6) (field w 0 4))
  | 0x4a => some (.vshuf (field w 18 6) (field w 12 6) (field w 6 6))
  | 0x4b => some (.vbcast (field w 18 6) (field w 12 6) (field w 6 6))
  | 0x4c => some (.vtbl (field w 18 6) (field w 12 6) (field w 6 6) (field w 0 6))
  | 0x4d => some (.vred (field w 18 6) (field w 12 6) (field w 0 4))
  | 0x4e => some (.vscan (field w 18 6) (field w 12 6) (field w 0 4))
  | 0x4f => some (.slane (field w 18 6) (field w 12 6) (field w 6 6))
  | _ => none

/-- The fields of a word with opcode 0x50–0x6f, read as its row of the opcode tables says. -/
def readVecInt (op w : Nat) : Option Instr :=
  match op with
  | 0x50 => some (.vadd (field w 18 6) (field w 12 6) (field w 6 6))
  | 0x51 => some (.vsub (field w 18 6) (field w 12 6) (field w 6 6))
  | 0x52 => some (.vmul (field w 18 6) (field w 12 6) (field w 6 6))
  | 0x53 => some (.vmulh (field w 18 6) (field w 12 6) (field w 6 6))
  | 0x54 => some (.vmad (field w 18 6) (field w 12 6) (field w 6 6) (field w 0 6))
  | 0x55 => some (.vmin (field w 18 6) (field w 12 6) (field w 6 6))
  | 0x56 => some (.vmax (field w 18 6) (field w 12 6) (field w 6 6))
  | 0x57 => some (.vabs (field w 18 6) (field w 12 6))
  | 0x58 => some (.vneg (field w 18 6) (field w 12 6))
  | 0x59 => some (.vand (field w 18 6) (field w 12 6) (field w 6 6))
  | 0x5a => some (.vor (field w 18 6) (field w 12 6) (field w 6 6))
  | 0x5b => some (.vxor (field w 18 6) (field w 12 6) (field w 6 6))
  | 0x5c => some (.vshl (field w 18 6) (field w 12 6) (field w 6 6))
  | 0x5d => some (.vshr (field w 18 6) (field w 12 6) (field w 6 6))
  | 0x5e => some (.vsra (field w 18 6) (field w 12 6) (field w 6 6))
  | 0x5f => some (.vpopc (field w 18 6) (field w 12 6))
  | 0x60 => some (.vclz (field w 18 6) (field w 12 6))
  | 0x61 => some (.vsel (field w 18 6) (field w 12 6) (field w 6 6) (field w 0 6))
  | 0x62 => some (.vaddi (field w 18 6) (field w 12 6) (field w 0 12))
  | 0x63 => some (.vbcs (field w 18 6) (field w 12 6))
  | 0x64 => some (.vlid (field w 18 6))
  | _ => none

/-- The fields of a word with opcode 0x70–0x8f, read as its row of the opcode tables says. -/
def readVecFloat (op w : Nat) : Option Instr :=
  match op with
  | 0x70 => some (.vfadd (field w 18 6) (field w 12 6) (field w 6 6))
  | 0x71 => some (.vfsub (field w 18 6) (field w 12 6) (field w 6 6))
  | 0x72 => some (.vfmul (field w 18 6) (field w 12 6) (field w 6 6))
  | 0x73 => some (.vfma (field w 18 6) (field w 12 6) (field w 6 6) (field w 0 6))
  | 0x74 => some (.vfmin (field w 18 6) (field w 12 6) (field w 6 6))
  | 0x75 => some (.vfmax (field w 18 6) (field w 12 6) (field w 6 6))
  | 0x76 => some (.vfabs (field w 18 6) (field w 12 6))
  | 0x77 => some (.vfneg (field w 18 6) (field w 12 6))
  | 0x78 => some (.vfcmpk (field w 18 6) (field w 12 6) (field w 6 6) (field w 0 4))
  | 0x79 => some (.vrcp (field w 18 6) (field w 12 6))
  | 0x7a => some (.vrsq (field w 18 6) (field w 12 6))
  | 0x7b => some (.vexp2 (field w 18 6) (field w 12 6))
  | 0x7c => some (.vlog2 (field w 18 6) (field w 12 6))
  | 0x7d => some (.vtanh (field w 18 6) (field w 12 6))
  | 0x7e => some (.vcvt (field w 18 6) (field w 12 6) (field w 4 3) (field w 0 4))
  | 0x7f => some (.vscl (field w 18 6) (field w 12 6) (field w 6 6))
  | 0x80 => some (.vfrnd (field w 18 6) (field w 12 6))
  | 0x81 => some (.vqnt (field w 18 6) (field w 12 6) (field w 6 6) (field w 0 6))
  | 0x82 => some (.vdqnt (field w 18 6) (field w 12 6) (field w 6 6) (field w 0 6))
  | _ => none

/-- The fields of a word with opcode 0x90–0xaf, read as its row of the opcode tables says. -/
def readMemory (op w : Nat) : Option Instr :=
  match op with
  | 0x90 => some (.vld (field w 18 6) (field w 12 6) (field w 10 2) (field w 0 10))
  | 0x91 => some (.vst (field w 18 6) (field w 12 6) (field w 10 2) (field w 0 10))
  | 0x92 => some (.vldx (field w 18 6) (field w 12 6) (field w 6 6) (field w 4 2) (field w 0 4))
  | 0x93 => some (.vstx (field w 18 6) (field w 12 6) (field w 6 6) (field w 4 2) (field w 0 4))
  | 0x94 => some (.sld (field w 18 6) (field w 12 6) (field w 10 2) (field w 0 10))
  | 0x95 => some (.sst (field w 18 6) (field w 12 6) (field w 10 2) (field w 0 10))
  | 0x96 => some (.vldi (field w 18 6) (field w 12 6) (field w 10 2) (field w 0 10))
  | 0x97 => some (.atom (field w 18 6) (field w 12 6) (field w 6 6) (field w 4 2) (field w 0 4))
  | 0x98 => some (.rld (field w 18 6) (field w 12 6) (field w 0 3))
  | 0x99 => some (.rst (field w 18 6) (field w 12 6) (field w 0 3))
  | 0x9a => some (if w / 2 ^ 5 % 2 = 0 then .rred (field w 18 6) (field w 12 6) (field w 0 4) else .rredColl (field w 18 6) (field w 12 6) (field w 0 4))
  | 0x9b => some (.ratom (field w 18 6) (field w 12 6) (field w 6 6) (field w 5 1) (field w 0 4))
  | 0x9c => some (.rcas (field w 18 6) (field w 12 6) (field w 6 6) (field w 5 1))
  | 0x9d => some (.xsend (field w 12 6) (field w 0 4))
  | 0x9e => some (.xrecv (field w 18 6) (field w 0 4))
  | 0x9f => some (.xperm (field w 18 6) (field w 12 6) (field w 6 6) (field w 0 6))
  | 0xa0 => some (.phase (field w 2 2) (field w 0 2))
  | 0xa1 => some (.fenceq (field w 0 11))
  | _ => none

/-- The fields of a word with opcode 0xb0–0xbf, read as its row of the opcode tables says. -/
def readBarrier (op w : Nat) : Option Instr :=
  match op with
  | 0xb0 => some (.barInit (field w 12 6) (field w 0 12))
  | 0xb1 => some (.barArr (field w 12 6) (field w 0 12))
  | 0xb2 => some (.barWait (field w 18 1) (field w 0 12))
  | 0xb3 => some (.barTest (field w 18 6) (field w 0 12))
  | 0xb4 => some (.barExp (field w 12 6) (field w 0 12))
  | 0xb5 => some (.bufSet (field w 6 1) (field w 4 2) (field w 0 4))
  | 0xb6 => some (.bufGet (field w 18 6) (field w 0 4))
  | 0xb7 => some (.stk (field w 18 3) (field w 12 6) (field w 0 12))
  | _ => none

/-- The fields of a word with opcode 0xc0–0xcf, read as its row of the opcode tables says. -/
def readMatrix (op w : Nat) : Option Instr :=
  match op with
  | 0xc0 => some (.mxGang (field w 12 6))
  | 0xc1 => some (.mxLdb (field w 12 6) (field w 6 6) (field w 0 2))
  | 0xc2 => some (.mxMm (field w 18 6) (field w 12 6) (field w 6 6))
  | 0xc3 => some (.mxZero (field w 18 6))
  | 0xc4 => some (.mxEpi (field w 18 6) (field w 12 6) (field w 6 6))
  | 0xc5 => some (.mxAcv (field w 18 6) (field w 12 6))
  | 0xc6 => some (.mxVac (field w 18 6) (field w 12 6))
  | 0xc7 => some (.mxCsum (field w 18 6) (field w 12 6) (field w 6 6))
  | _ => none

/-- The fields of a word with opcode 0xd0–0xdf, read as its row of the opcode tables says. -/
def readRegion (op w : Nat) : Option Instr :=
  match op with
  | 0xd0 => some (.csacc (field w 18 6) (field w 12 6))
  | 0xd1 => some (.csclr (field w 18 6))
  | 0xd2 => some (.cschk (field w 12 6) (field w 6 6) (field w 0 6))
  | 0xd3 => some (.csmov (field w 18 6) (field w 12 6) (field w 0 1))
  | 0xd4 => some (.rgnBeg (field w 0 1))
  | 0xd5 => some (.rgnPres (field w 12 6) (field w 10 2) (field w 0 10))
  | 0xd6 => some (.rgnEnd)
  | 0xd7 => some (.rgnAbt)
  | _ => none

/-- The fields of a word with opcode 0xe0–0xef, read as its row of the opcode tables says. -/
def readStream (op w : Nat) : Option Instr :=
  match op with
  | 0xe0 => some (.tlrec (field w 18 3) (field w 12 6) (field w 10 2) (field w 0 10))
  | 0xe1 => some (.taddr (field w 18 6) (field w 12 6) (field w 9 3) (field w 6 3) (field w 0 2))
  | 0xe2 => some (.tcopy (field w 18 3) (field w 12 3))
  | 0xe3 => some (.tgath (field w 18 3) (field w 12 3) (field w 6 3) (field w 0 3))
  | 0xe4 => some (.tscat (field w 18 3) (field w 12 3) (field w 6 3) (field w 0 3))
  | 0xe5 => some (.tmcast (field w 18 3) (field w 12 3) (field w 6 6))
  | 0xe6 => some (.tred (field w 18 3) (field w 12 3) (field w 0 2))
  | 0xe7 => some (if w / 2 ^ 18 % 2 = 0 then .tarr (field w 0 12) else .tarrNone)
  | 0xe8 => some (if w / 2 ^ 19 % 2 = 0 then .twait (field w 18 1) (field w 0 12) else .twaitDrain)
  | 0xe9 => some (.tloop (field w 18 6) (field w 0 18))
  | 0xea => some (.texit)
  | _ => none

/-- The row of the opcode tables that a word's opcode names (R51), with the fields of the word. -/
def readRow (w : Nat) : Option Instr :=
  match w / 2 ^ 28 with
  | 0 => readControl (w / 2 ^ 24) w
  | 1 => readSystem (w / 2 ^ 24) w
  | 2 => readScalar (w / 2 ^ 24) w
  | 3 => readScalar (w / 2 ^ 24) w
  | 4 => readMask (w / 2 ^ 24) w
  | 5 => readVecInt (w / 2 ^ 24) w
  | 6 => readVecInt (w / 2 ^ 24) w
  | 7 => readVecFloat (w / 2 ^ 24) w
  | 8 => readVecFloat (w / 2 ^ 24) w
  | 9 => readMemory (w / 2 ^ 24) w
  | 10 => readMemory (w / 2 ^ 24) w
  | 11 => readBarrier (w / 2 ^ 24) w
  | 12 => readMatrix (w / 2 ^ 24) w
  | 13 => readRegion (w / 2 ^ 24) w
  | 14 => readStream (w / 2 ^ 24) w
  | _ => none

/-- Decodes a 32-bit instruction word (R54). A word whose row exists is that instruction exactly if it is the word that the row gives those fields, so that no reserved bit is set, and its value fields hold no reserved value. -/
def decodeNat (w : Nat) : Decoded :=
  if w = 0 then .reject .zeroWord else
  match readRow w with
  | none => .reject .illegalOpcode
  | some i => if encode i = some w && wellFormed i then .ok i else .reject .reservedField

/-- Decodes an instruction word. -/
def decode (w : Word32) : Decoded := decodeNat w.toNat

/-- Decodes the four bytes of an instruction word, the first at the lowest address (R6), and answers the bytes after it. -/
def decodeBytes : List Byte → Option (Decoded × List Byte)
  | b0 :: b1 :: b2 :: b3 :: rest => some (decodeNat (leNat [b0, b1, b2, b3]), rest)
  | _ => none

/-- The instruction that the decoder reads from a word of the opcode table: its four bytes in the order in which memory holds them. -/
def decodeTableWord (nbits w : Nat) : Option Instr :=
  if nbits = 32 then
    match decodeBytes (leBytes 4 w) with
    | some (.ok i, _) => some i
    | _ => none
  else none

/-- The word of an instruction as memory holds it; an event has none and shows as zero. -/
def insnWord (i : Instr) : Nat :=
  match i with
  | .wordNotAnInstruction w => w.toNat
  | .fetchPastCodeLimit => 0
  | i => (encode i).getD 0

end Sys2Proof
end

