-- ==== Sys2Proof/Config.lean ====
section
/-! DEFINITION. What the spec fixes once for the device, as numbers, and the values it leaves free, as constants without a body. -/

namespace Sys2Proof.Config

/-! ### Free values -/

/-- Nanoseconds that pass in the step with this number: the spec fixes no duration of a step (R36, R140). Free. -/
opaque elapsedNs : Nat → Nat

/-- Core clock cycles that pass in the step with this number (Table 3-9 `sr.cycles`). Free. -/
opaque elapsedCycles : Nat → Nat

/-- Which of the results within its accuracy bound the device gives for a transcendental function (Table 4-10, R243): a function of the operation and the operand bits, the same on every Kazdeim. Free. -/
opaque pick : Nat → Nat → Nat

/-- The cause in the refusal with which a device answers every Brixel request before its first member number (R361). Free. -/
opaque earlyRefusal : Nat

/-- Whether a pod member had registered a pod context (R372): the members' context tables lie outside the device. Free. -/
opaque hadRegistered : Nat → Nat → Bool

/-- Which of the fitting bases the distributor allocates (R300): its argument is the number of the thing allocated. Free. -/
opaque allocation : Nat → Nat

/-- Whether a group of a team spread over a pair runs on the upper core (R301): team and `sr.gid`. Free. -/
opaque upperCore : Nat → Nat → Bool

/-- Bytes of a save area that buffer states, full bits, B contents and residency records of the teams of a launch take in a column (R273, R274): launch and column. Free. -/
opaque saveExtra : Nat → Nat → Nat

/-- Whether the data of a thread's next destination line have come when the streamer makes a grant (R196): the number of the step and of the transfer. Free. -/
opaque lineArrived : Nat → Nat → Bool

/-- A byte of the management mailbox as a host reads it, where the spec gives no layout (R396): of the response, of the nested-fault report, of the status word, of the certificate. Its arguments are what these report, as numbers, and the offset. Free. -/
opaque mailbox : List Nat → Nat → Byte

/-- Whether a poison answer of another member says that the home is gone, not that the line is poisoned (R21, R364): the number of the request. Free. -/
opaque homeGone : Nat → Bool

/-- The SHAKE256 digest of some bytes (R391), whose function the spec takes from elsewhere. Free. -/
opaque shake256 : List Byte → List Byte

/-- The signature that the device key gives to a quote (R391): the number of the step and the bytes signed. Free. -/
opaque sign : Nat → List Byte → List Byte

/-- The boot ROM's version (R391). Free. -/
opaque romVersion : Nat

/-- The vendor's certificate for the device's public key, in flash (R390). Free. -/
opaque certificate : List Byte

/-! ### The configuration record of the device modelled -/

/-- `QTABPA`: where the queue table lies (R283): the top 16 KiB of the TAL of column 0. -/
def qtabPa : Nat := 0x40FFFC000

/-! ### Sizes (00_scope.md, Table 2-1) -/

def coresPerColumn : Nat := 4
def maxColumns : Nat := 32
def physicalColumns : Nat := 34
/-- scratchpad bytes of a core: 768 KiB -/
def scrBytes : Nat := 786432
/-- cairn bytes beneath a core: 8 MiB -/
def cairnBytes : Nat := 8388608
/-- TAL bytes of a column: 256 MiB -/
def talBytes : Nat := 268435456
/-- GLB bytes of a column: 7.5 GiB -/
def glbBytes : Nat := 8053063680
/-- resident groups of a core (R301) -/
def groupsPerCore : Nat := 32
/-- entries of a core's TLB and of a streamer's (R310) -/
def coreTlb : Nat := 256
def streamTlb : Nat := 64
/-- walk slots of a column (R311), records of its fault ring (R313) -/
def walkSlots : Nat := 32
def ringSize : Nat := 64
/-- entries of a kick queue (R193), outstanding transfers of a thread (R186) -/
def kickQueue : Nat := 8
def transfers : Nat := 8
/-- entries of a group's undo area (R349) -/
def undoEntries : Nat := 64
/-- keys of an endpoint (R374) -/
def keys : Nat := 64
/-- entries of the management core's FIFO (R290) -/
def fifoSize : Nat := 64
/-- lines of an L1 data cache: 128 KiB -/
def l1Lines : Nat := 1024
/-- vectors a core accepts for each group and set before their `xperm` (R181) -/
def permVectors : Nat := 4
/-- cycles of the watchdog (R334) and of a handler that holds a pre-emption back (R334) -/
def watchdogCycles : Nat := 17179869184
def preemptCycles : Nat := 65536

end Sys2Proof.Config
end

