-- ==== Sys2Proof/Machine/Record.lean ====
section
/-! DEFINITION. The configuration record: the fields of its header, its bytes, and the record of the device modelled (R17, R388). -/

namespace Sys2Proof.Machine

open Sys2Proof

/-- Bits `[lo + n - 1 : lo]` of a record's header. -/
def recField (r : ConfigRecord) (lo n : Nat) : Nat := bitsOf r.header.toNat lo n

/-! ### The fields of Table 25-2 -/

def recMagic (r : ConfigRecord) : Nat := recField r 0 32
def recSeqno (r : ConfigRecord) : Nat := recField r 64 32
def recTrainLen (r : ConfigRecord) : Nat := recField r 96 32
def recTrainOff (r : ConfigRecord) : Nat := recField r 128 32
def recTrimLen (r : ConfigRecord) : Nat := recField r 160 32
def recTrimOff (r : ConfigRecord) : Nat := recField r 192 32
/-- `COLSTATE` of a physical column: 0 USE, 1 SPARE, 2 FAILED, 3 reserved. -/
def recColState (r : ConfigRecord) (p : Nat) : Nat := recField r (252 + 2 * p) 2
def recQtabPa (r : ConfigRecord) : Nat := recField r 384 64
def recSigOff (r : ConfigRecord) : Nat := recField r 448 32
def recLength (r : ConfigRecord) : Nat := recField r 480 32

/-- A reserved bit of the header is set. -/
def recReserved (r : ConfigRecord) : Bool := recField r 224 28 != 0 || recField r 320 64 != 0

/-- The physical columns that a record puts to USE (R17). -/
def recUse (r : ConfigRecord) : List Nat := (List.range 34).filter fun p => recColState r p = 0

/-- The record's first `RECLEN` bytes, over which its digest is taken (Table 25-1 step 2). -/
def recBytes (r : ConfigRecord) : List Byte := (leBytes 64 r.header.toNat ++ r.rest).take (recLength r)

/-- The configuration record of the device modelled: every physical column USE but the spare of each die, every port enabled, no trims (R17, R388). -/
def defaultRecord : ConfigRecord :=
  { header := BitVec.ofNat 512 (64 * 2 ^ 480 + 64 * 2 ^ 448 + Config.qtabPa * 2 ^ 384 + 2 ^ 284 + 2 ^ 318 + 64 * 2 ^ 192 + 64 * 2 ^ 128 + 2 ^ 64 + 2 ^ 32 + 0x4B5A0C0F)
    rest := [], signature := List.replicate 1280 0, signed := true, ports := List.range 22 }

/-- The physical columns that a record puts to use and the map-out list leaves (R17, R18). -/
def usable (r : ConfigRecord) (mapOut : List Nat) : List Nat := (recUse r).filter fun p => !mapOut.contains p

end Sys2Proof.Machine
end

