-- ==== Sys2Proof/Machine/State.lean ====
section
/-! DEFINITION. The state of one Kazdeim device as plain data: everything the spec gives the machine, the agents that issue, and everything in progress; the state after reset; the reasons a step can stop. -/

namespace Sys2Proof.Machine

open Sys2Proof

/-! ### Memory -/

/-- Device memory by home address: the bytes that differ from what reset leaves, in rising order of address, the poisoned lines (R339) and the version tags of the lines stored to (R341). -/
structure Memory where
  cells : List Host.Cell
  /-- line addresses marked poisoned -/
  poisoned : List Nat
  /-- line address and version tag of every line a store has reached -/
  tags : List (Nat × Nat)
  /-- addresses of cairn words marked poisoned (R245) -/
  cairnPoison : List Nat
  deriving DecidableEq, Repr

/-! ### Registers of a group (Table 3-6) -/

/-- Which cause the consumer of a poisoned lane raises. -/
inductive Poison where
  /-- POISON_CONSUMED (R146, R339) -/
  | line
  /-- REMOTE_DEAD (R372) -/
  | dead
  /-- REMOTE_DENIED with the cause found at the target (R319) -/
  | denied (detail : Nat)
  deriving DecidableEq, Repr

/-- A v register: 64 lanes, its full bit (R43) and the poisoned lanes. -/
structure VReg where
  lanes : Vector Word 64
  full : Bool
  poison : List (Nat × Poison)
  deriving DecidableEq, Repr

/-- An s register, its full bit (R43) and its poison mark. -/
structure SReg where
  val : Word
  full : Bool
  poison : Option Poison
  deriving DecidableEq, Repr

/-- A join register (R130). -/
structure JReg where
  expected : Word
  arrived : Word
  deriving DecidableEq, Repr

/-- An invariant register: the binary64 part and the integer part. -/
structure IReg where
  fpart : Word
  ipart : Word
  deriving DecidableEq, Repr

/-- The flags of a slot or a stream thread (R48, Table 3-10). -/
structure Flags where
  z : Bool
  n : Bool
  c : Bool
  v : Bool
  e : Bool
  deriving DecidableEq, Repr

/-- How far an instruction that holds its slot has come (R122). -/
inductive Prog where
  | start
  /-- its release is open (R193, R257) -/
  | release (id : Nat)
  /-- what it waited for has come about, with this E; its acquire waits for the loads placed before this number (R172, R257) -/
  | released (bound : Nat) (e : Bool)
  /-- what it awaits was placed before this id (R258) -/
  | fence (bound : Nat)
  /-- its vector has been sent; this is its number on the set (R181) -/
  | sent (serial : Nat)
  /-- its arrival waits at a matrix latch (R228) -/
  | latched
  /-- the latch has opened for it (R228) -/
  | accepted
  deriving DecidableEq, Repr

/-- What the next instruction of a slot waits for, as it was found when it did not issue (R122, R124). -/
inductive Await where
  /-- nothing in particular: the end of a suspension -/
  | none
  /-- one of these v and s registers, which were empty -/
  | regs (vs ss : List Nat)
  /-- the loads of its core placed before this number (R256) -/
  | loads (bound : Nat)
  /-- a phase of its core to close (R255) -/
  | phases
  /-- its release (R257) -/
  | release (id : Nat)
  /-- the queues of a mask, of what was placed before this number (R258) -/
  | fence (mask bound : Nat)
  /-- a barrier to leave a parity (R172) -/
  | barrier (core addr parity : Nat)
  /-- room in the kick queue (R193) -/
  | kicks
  /-- a slot of a channel of a team (R176) -/
  | slot (team ch : Nat)
  /-- a message of a channel (R176) -/
  | message (ch : Nat)
  /-- the latch to open (R228), or to be left (R227) -/
  | latch
  | unlatch
  /-- the folds into an i register placed before this number (R235) -/
  | fold (ireg bound : Nat)
  /-- lines that fill, or stores that arrive, at bytes of its core's scratchpad (R145, R265) -/
  | lines (addr n : Nat)
  /-- room for a key at its endpoint (R374) -/
  | keys
  /-- its core's earlier accesses to these homes to be performed (R254, R349) -/
  | homes (ps : List (Nat × Nat))
  deriving DecidableEq, Repr

/-- A context of a group: program counter, lanes, flags, RUNNING or PARKED (R121). -/
structure Path where
  pc : Word
  mask : Word
  flags : Flags
  /-- the join register at which it is PARKED -/
  parked : Option Nat
  /-- when it parked: a later one has a greater number (R132) -/
  parkStamp : Nat
  /-- its last issue since it entered its slot (R123) -/
  lastIssue : Option Nat
  prog : Prog
  /-- cycle at which the wait of its next instruction began (R229, R334) -/
  waitFrom : Option Nat
  /-- what that instruction waits for -/
  await : Await
  deriving DecidableEq, Repr

/-- The register image of a group that `rgn.beg` records (R347). -/
structure Image where
  v : Vector VReg 64
  s : Vector SReg 64
  k : Vector Word 16
  j : Vector JReg 4
  i : Vector IReg 8
  /-- `sr.mode` [17:0] -/
  mode : BitVec 18
  /-- `sr.gstat` -/
  swapped : Bool
  joinLost : Bool
  /-- `sr.gctl` -/
  joinTrap : Bool
  /-- `sr.gang` -/
  gang : Word
  slotA : Option Path
  slotB : Option Path
  /-- the divergence stack, top first (R129) -/
  stack : List Path
  /-- lane generator states (R67) -/
  gens : Vector (BitVec 32) 64
  deriving DecidableEq, Repr

/-- An undo entry: one line as it stood (R349). -/
structure Undo where
  line : Nat
  bytes : List Byte
  poisoned : Bool
  deriving DecidableEq, Repr

/-- An open recovery region of a group (R347). -/
structure Region where
  image : Image
  undo : List Undo
  sealed : Bool
  idem : Bool
  retry : Nat
  /-- the number of the next thing to be placed when the region opened -/
  openedAt : Nat
  deriving DecidableEq, Repr

/-- The states of Table 7-1; READY, ISSUING, WAITING and FAULT-WAIT are told apart by what the group awaits. -/
inductive GState where
  | active
  | trapped
  | exited
  deriving DecidableEq, Repr

/-- What suspends the fetch of both slots of a group (R122, R322). -/
inductive Susp where
  | none
  /-- an arrival at a scratchpad controller -/
  | arrival (id : Nat)
  /-- a page walk of the column for this virtual offset -/
  | walk (off : Nat)
  /-- a miss that finds every walk slot of the column taken (R311) -/
  | full
  /-- an `xperm` -/
  | perm
  deriving DecidableEq, Repr

/-- A cause that waits for an instruction boundary (R334). -/
structure Async where
  cause : Nat
  detail : Nat
  deriving DecidableEq, Repr

/-- A cause as it reaches a group: where it was raised and what its frame says (Table 20-1). -/
structure Raise where
  grp : Nat
  slot : Bool
  cause : Nat
  detail : Nat
  addr : Option Word
  lane : Nat
  lanes : Word
  insn : Nat
  /-- the frame's `PC` (R325) -/
  pc : Word
  async : Bool
  /-- `addr` is a CODE offset, in the issuing column -/
  code : Bool
  deriving DecidableEq, Repr

/-- The fault of a stream thread: what its frame says, and the number of the faulting transfer (R208). -/
structure ThreadRaise where
  cause : Nat
  detail : Nat
  addr : Option Word
  pc : Word
  insn : Nat
  upto : Nat
  deriving DecidableEq, Repr

/-- A page fault that a walk delivers to an access that waited (R309, R314). -/
structure WalkFault where
  off : Nat
  cause : Nat
  detail : Nat
  deriving DecidableEq, Repr

structure Group where
  id : Nat
  team : Nat
  launch : Nat
  ctx : Nat
  /-- its column, counted over the device -/
  col : Nat
  /-- `sr.tid` -/
  tid : Nat
  /-- `sr.gid` -/
  gid : Nat
  /-- the core it runs on, in its column: `sr.core` -/
  core : Nat
  /-- `sr.lanes` -/
  width : Nat
  /-- declared register counts (R42) -/
  vregs : Nat
  sregs : Nat
  image : Image
  /-- `sr.seg0`–`sr.seg7` -/
  seg : Vector Word 8
  trapbase : Word
  /-- `sr.swapwait`, bits [31:0] -/
  swapwait : BitVec 32
  /-- `sr.einj` -/
  einj : Word
  /-- `sr.frame` -/
  frame : Nat
  privileged : Bool
  /-- the slot whose handler runs -/
  trapSlot : Bool
  st : GState
  halted : Bool
  /-- the debugger asked it to halt at its next boundary (R331) -/
  haltPending : Bool
  /-- taken out of its core by a pre-emption (R276) -/
  out : Bool
  susp : Susp
  /-- the slot whose instruction waited on its checks and replays before the other slot issues (R122, R314, R322) -/
  replay : Option Bool
  /-- a trap whose frame waits for its page (R309, R313) -/
  frameWait : Option Raise
  regions : List Region
  /-- `sr.rgn` `ROLLBACKS` and `LASTCAUSE` -/
  rollbacks : Nat
  lastCause : Nat
  async : List Async
  walkFault : Option WalkFault
  /-- `xperm` counts by exchange set (R180) -/
  perms : Vector Nat 64
  /-- stores issued to each buffer of its core (R147) -/
  bufStores : Vector Nat 16
  /-- when it last issued (R123) -/
  lastIssue : Nat
  /-- cycle since which it waits without a break (R124) -/
  waitFrom : Option Nat
  /-- cycle at which its handler was entered (R327, R334) -/
  trapAt : Nat
  deriving DecidableEq, Repr

/-! ### Teams, launches, contexts, queues -/

/-- Which barrier, and the generation bound (R168). -/
structure BarBind where
  team : Nat
  /-- the core of the team's column that holds the object -/
  core : Nat
  /-- byte address in that core's scratchpad -/
  addr : Nat
  gen : Nat
  deriving DecidableEq, Repr

/-- States of a buffer (Table 8-2). -/
inductive BufState where
  | empty
  | filling
  | full
  | draining
  deriving DecidableEq, Repr

/-- One core's instance of a declared buffer (R142). -/
structure Buffer where
  declared : Bool
  start : Nat
  lines : Nat
  st : BufState
  /-- full bit of each line -/
  bits : List Bool
  /-- the stream thread (column, thread) that fills, drains or is bound to it -/
  owner : Option (Nat × Nat)
  /-- the kick that made it FILLING or DRAINING -/
  kick : Option Nat
  /-- FILLING through a multicast (R213) -/
  bound : Bool
  deriving DecidableEq, Repr

/-- State of a channel slot (R176). -/
inductive ChanSlot where
  | free
  /-- granted to a slot of a group: twice its number, plus one for slot B -/
  | reserved (by_ : Nat)
  | full
  /-- an `xrecv` has claimed it; it is free once that result has arrived -/
  | claimed (result : Nat)
  deriving DecidableEq, Repr

/-- A declared channel (Table 9-11) and its slots. -/
structure Channel where
  slots : List ChanSlot
  start : Nat
  slotsz : Nat
  ccol : Nat
  ctid : Nat
  ptid : Nat
  cgids : Nat
  pgids : Nat
  pcols : Nat
  /-- next slot to hand out, next slot to claim -/
  nextGrant : Nat
  nextClaim : Nat
  deriving DecidableEq, Repr

/-- The B residency record (R226) and the contents of the macros as they were read. -/
structure Residency where
  team : Nat
  pair : Bool
  /-- arrangement (Table 12-1) -/
  arr : Nat
  /-- `BFMT`, and the K-block length -/
  bfmt : Nat
  blen : Nat
  sparse : Bool
  /-- NB: columns held in memory -/
  ncols : Nat
  /-- element codes: row by row, or the kept values in their order in memory (R224, R225) -/
  codes : List Nat
  /-- the logical k of each kept value of a sparse B -/
  kept : List Nat
  /-- each element: read from a poisoned line, its scale byte included (R245) -/
  poison : List Bool
  /-- scale bytes, block by block -/
  scales : List Nat
  codebook : List Nat
  deriving DecidableEq, Repr

structure Team where
  id : Nat
  launch : Nat
  ctx : Nat
  /-- column, counted over the device -/
  col : Nat
  /-- `sr.tid` -/
  tid : Nat
  /-- its core, or the lower core of its pair -/
  core : Nat
  pair : Bool
  width : Nat
  groups : Nat
  scrBase : Nat
  scrBytes : Nat
  cairnBase : Nat
  cairnBytes : Nat
  /-- one list of sixteen buffers for each of its cores -/
  bufs : List (List Buffer)
  chans : List Channel
  /-- `COLS` of each exchange set -/
  xsets : List Nat
  resident : Bool
  /-- taken out by a swap (R124) -/
  swapped : Bool
  /-- waits for residency again -/
  ready : Bool
  /-- its place among the teams that wait for residency again -/
  readyAt : Nat
  /-- never swapped or pre-empted (R274) -/
  exempt : Bool
  /-- its scratchpad segment on each of its cores, its cairn and the B it owns, saved while it is out (R149, R246) -/
  saved : List (List Byte)
  savedPoison : List Nat
  savedCairn : List (List Byte)
  /-- home addresses of the poisoned words of that cairn -/
  savedCairnPoison : List Nat
  savedB : Option Residency
  ended : Bool
  deriving DecidableEq, Repr

/-- States of a launch (Table 18-4). -/
inductive LState where
  | waitingDeps
  | admitting
  | running
  | draining
  | done
  /-- its work has been stopped; FAILED is written once its release has completed (R286) -/
  | failing
  | failed
  | flushed
  | empty
  | error
  deriving DecidableEq, Repr

structure Launch where
  id : Nat
  queue : Nat
  ticket : Nat
  ctx : Nat
  /-- the launch record (Table 18-1) -/
  record : BitVec 1024
  st : LState
  /-- teams of each column of the partition -/
  grid : List Nat
  /-- teams placed in each column -/
  placed : List Nat
  /-- first trap cause of one of its groups -/
  cause : Option Nat
  /-- checked and its grid read (R295) -/
  admitted : Bool
  /-- its declaration tables as they were read in each column of the partition (R304): buffers, channels, exchange sets -/
  bufs : List (List Buffer)
  chans : List (List Channel)
  xsets : List (List Nat)
  /-- its data images have been written (R183, R249) -/
  imaged : Bool
  deriving DecidableEq, Repr

/-- A data image of a kernel, as its loader has it: the context and `ENTRY` of the kernel, the space (0 SCR, 1 TAL, 2 GLB, 3 ARG), the offset in the segment and the bytes (R183, R249, R408). -/
structure DataImage where
  ctx : Nat
  entry : Nat
  space : Nat
  off : Nat
  bytes : List Byte
  deriving DecidableEq, Repr

/-- States of a context (Table 16-2). -/
inductive CState where
  | unused
  | created
  | active
  | preempted
  | faulted
  | killed
  | quarantined
  deriving DecidableEq, Repr

/-- States of a queue (Table 17-4). -/
inductive QState where
  | idle
  | running
  | blocked
  | error
  | disabled
  deriving DecidableEq, Repr

/-- A queue descriptor (Table 17-1), with what the engine latches when the queue is enabled. -/
structure Queue where
  st : QState
  errTick : Nat
  errCode : Nat
  ctx : Nat
  prio : Nat
  log2sz : Nat
  head : Nat
  statPa : Nat
  ringPa : Nat
  /-- wake register (R290) -/
  wake : Bool
  /-- a disable command waits for the launches in flight -/
  disabling : Bool
  /-- `sr.time` of the last examination -/
  examined : Nat
  deriving DecidableEq, Repr

/-! ### Streams -/

/-- A layout-record slot: the record, its valid bit and its window (R197, R200). -/
structure RecSlot where
  valid : Bool
  record : BitVec 512
  org : Vector Word 5
  shp : Vector (BitVec 32) 5
  deriving DecidableEq, Repr

/-- An entry of a core's kick queue (R193). -/
structure Kick where
  id : Nat
  ctx : Nat
  launch : Nat
  team : Nat
  grp : Nat
  gid : Nat
  tid : Nat
  /-- kicking core in its column -/
  core : Nat
  cls : Nat
  entry : Word
  argPtr : Word
  args : List Word
  fill : Nat
  drain : Nat
  keep : Nat
  bar : Option BarBind
  weight : Nat
  seg : Vector Word 8
  /-- the release of step 3 -/
  release : Nat
  /-- what the group had stored to each buffer (R147) -/
  stores : Vector Nat 16
  deriving DecidableEq, Repr

/-- What a stream `rgn.beg` records (R355). -/
structure SRegion where
  s : Vector SReg 32
  flags : Flags
  pc : Word
  recs : Vector RecSlot 8
  bar : Option BarBind
  sealed : Bool
  idem : Bool
  retry : Nat
  openedAt : Nat
  deriving DecidableEq, Repr

/-- States of a stream thread (Table 11-1); RUNNING, WAITING and FAULT-WAIT are told apart by what it awaits. -/
inductive TState where
  | free
  | active
  /-- it has come to `texit` and ends once its transfers have completed (R216) -/
  | exiting
  /-- a fault has acted and earlier transfers run on (R208 step 5) -/
  | ending
  /-- a rollback waits for the transfers of the region (R355): the cause it records, and what a fault in its place says -/
  | rolling (cause : Nat) (r : ThreadRaise)
  deriving DecidableEq, Repr

/-- Stores not yet published, and open phases of a core or stream thread (R255). -/
structure Phase where
  /-- the 2-bit phase counter -/
  counter : BitVec 2
  /-- open tags, oldest first: the release that closed each -/
  opened : List Nat
  /-- stores that were dropped and not yet reported (R257): number, and whether it left the device -/
  dropped : List (Nat × Bool)
  deriving DecidableEq, Repr

structure Thread where
  st : TState
  s : Vector SReg 32
  flags : Flags
  pc : Word
  /-- the word it issued last, which a load that waits for its word faults with (R161) -/
  word : Nat
  recs : Vector RecSlot 8
  /-- the current barrier binding -/
  bar : Option BarBind
  /-- every barrier bound since the kick (R208) -/
  bars : List BarBind
  regions : List SRegion
  rollbacks : Nat
  lastCause : Nat
  kick : Option Kick
  phase : Phase
  susp : Susp
  walkFault : Option WalkFault
  /-- a fault whose frame waits for its page (R309, R313) -/
  frameWait : Option ThreadRaise
  prog : Prog
  lastIssue : Nat
  /-- datapath credit (R196) -/
  credit : Int
  deriving DecidableEq, Repr

/-! ### Pages -/

/-- A TLB entry: a VALID leaf of a context (R310). -/
structure TlbEntry where
  ctx : Nat
  base : Nat
  size : Nat
  leaf : Word
  deriving DecidableEq, Repr

/-- Who waits on a walk. -/
inductive Waiter where
  | slot (grp : Nat)
  | thread (thr : Nat)
  | item (id : Nat)
  deriving DecidableEq, Repr

inductive WalkState where
  | walking
  /-- ended on PAGE_NOT_PRESENT: entry, level, malformed -/
  | absent (entry : Word) (level : Nat) (malformed posted : Bool)
  deriving DecidableEq, Repr

/-- A walk slot in use (R311, R313). -/
structure Walk where
  fid : Nat
  ctx : Nat
  off : Nat
  /-- 0 load, 1 store, 2 atomic, 3 fetch -/
  kind : Nat
  /-- source member and pod context id of a remote requester -/
  remote : Option (Nat × Nat)
  st : WalkState
  waiters : List Waiter
  time : Nat
  deriving DecidableEq, Repr

/-! ### Cores and columns -/

/-- A line of an L1 cache: its bytes as read from the home, and whether `vldi` filled it (R158). -/
structure L1Line where
  line : Nat
  bytes : List Byte
  poisoned : Bool
  invariant : Bool
  deriving DecidableEq, Repr

/-- A member's rows of A as they were read: codes row by row, scale bytes, codebook (R224, R233). -/
structure AData where
  codes : List Nat
  poison : List Bool
  scales : List Nat
  codebook : List Nat
  deriving DecidableEq, Repr

/-- Where a member's rows of A and their scales lie in the scratchpad of its core, as the checks of its `mx.mm` found them; the length of a row, and the codebook as it was read then (R224, R233). -/
structure ASource where
  core : Nat
  rows : List Nat
  scales : List Nat
  klog : Nat
  book : List Nat
  deriving DecidableEq, Repr

/-- Where an `mx.ldb` finds B in the scratchpad of its group's core, as its checks found it: its block, its first byte, that of its scales (R224–R226). -/
structure BSource where
  core : Nat
  block : BitVec 256
  at_ : Nat
  scales : Nat
  deriving DecidableEq, Repr

/-- How an instruction reaches the cairn: the base of its CAIRN segment, and for each 64 KiB page that it touches the page's number and home as translated at issue (R309). -/
structure CairnMap where
  base : Nat
  pages : List (Nat × Nat)
  deriving DecidableEq, Repr

/-- An arrival at a rendezvous latch (R228). -/
structure Arrival where
  grp : Nat
  slot : Bool
  gang : Word
  team : Nat
  block : BitVec 256
  src : ASource
  /-- cairn offset, and how it is reached -/
  cairn : Nat
  cmap : CairnMap
  /-- cycle at which it arrived; while its group is out, the cycles it has waited (R229) -/
  at_ : Nat
  pc : Word
  insn : Nat
  lanes : Word
  deriving DecidableEq, Repr

/-- A vector that an `xperm` has sent and its receiver's core holds (R181). -/
structure PermVec where
  launch : Nat
  tid : Nat
  gid : Nat
  set : Nat
  /-- its number among the exchanges of its group on the set, from 1 -/
  serial : Nat
  code : Nat
  /-- column number of the sender -/
  fromCol : Nat
  data : List Word
  deriving DecidableEq, Repr

structure Core where
  phase : Phase
  l1 : List L1Line
  tlb : List TlbEntry
  resident : Option Residency
  latches : List Arrival
  perms : List PermVec
  kicks : List Kick
  /-- streamer credit of the core (R196) -/
  credit : Int
  deriving DecidableEq, Repr

/-- A collective key at a column's endpoint (R374). -/
structure Key where
  key : KeyId
  armed : Bool
  expect : Word
  team : Nat
  grp : Nat
  bar : Option BarBind
  /-- `sr.time` at which it was armed or created, in ns -/
  since : Nat
  /-- microseconds -/
  tmo : Nat
  rop : Option Nat
  arrived : Word
  acc : List Word
  accPoison : Bool
  entries : List (BitVec 32)
  /-- the number of its arming (R258) -/
  armedAt : Nat
  deriving DecidableEq, Repr

structure Column where
  /-- physical column -/
  phys : Nat
  degraded : Bool
  /-- can no longer execute or serve memory (R21) -/
  dead : Bool
  cores : Vector Core 4
  threads : Vector Thread 16
  /-- streamer TLB -/
  tlb : List TlbEntry
  walks : List Walk
  /-- fault ring, oldest first: the posted records (Table 19-4) -/
  ring : List (BitVec 256)
  keys : List Key
  /-- cores of the ridge partition: 0, 1 or 2 (R303) -/
  ridge : Nat
  deriving DecidableEq, Repr

structure Context where
  num : Nat
  st : CState
  /-- the context record (Table 16-1) -/
  record : BitVec 512
  /-- debugging is enabled (R331) -/
  debug : Bool
  /-- ns for which it has held residency since it last became ACTIVE (R275) -/
  held : Nat
  /-- a time-slice expiry is pending (R276) -/
  expiry : Bool
  /-- cycle at which the pre-emption began to wait -/
  expiryAt : Nat
  saved : List (Nat × Thread)
  /-- pages it touched, each as eight times the address of its leaf entry plus the entry's level -/
  pages : List Nat
  deriving DecidableEq, Repr

/-! ### Everything in progress -/

/-- The register a result is bound for. -/
inductive Dest where
  | vreg (grp reg : Nat)
  | sreg (grp reg : Nat)
  | thread (col thr reg : Nat)
  deriving DecidableEq, Repr

/-- An armed injection that strikes a result (R398): KIND, LANE, BIT. -/
structure Strike where
  kind : Nat
  lane : Nat
  bit : Nat
  deriving DecidableEq, Repr

/-- One lane of a result. -/
structure LaneVal where
  lane : Nat
  val : Word
  poison : Option Poison
  deriving DecidableEq, Repr

/-- What one access of a load has brought: its lane and sub-element, its size in bytes, its value and poison. -/
structure Piece where
  lane : Nat
  sub : Nat
  size : Nat
  val : Nat
  poison : Option Poison
  deriving DecidableEq, Repr

/-- One access at a scratchpad: bytes at an address of the core's scratchpad. -/
structure Acc where
  lane : Nat
  sub : Nat
  addr : Nat
  size : Nat
  /-- data of a store, element data of an atomic -/
  data : Nat
  /-- compare value -/
  cmp : Nat
  /-- the pointer as used -/
  ptr : Word
  deriving DecidableEq, Repr

inductive ScrOp where
  | load
  | store
  | atom (op : Nat) (signed : Bool)
  | bufSet (keep : Bool) (target buf : Nat)
  | bufGet (buf : Nat)
  deriving DecidableEq, Repr

/-- An access on its way to a scratchpad controller (R145). -/
structure ScrReq where
  col : Nat
  /-- core in the column -/
  core : Nat
  team : Nat
  op : ScrOp
  /-- its accesses that are not performed yet -/
  accs : List Acc
  dst : Option Dest
  /-- it has arrived and passed its checks; a load waits for lines to fill (R145), the lanes of an atomic for their banks (R164) -/
  waiting : Bool
  /-- what the accesses performed at its arrival have brought -/
  got : List Piece
  /-- who issued it: group and slot, or thread -/
  grp : Option (Nat × Bool)
  thr : Option Nat
  pc : Word
  insn : Nat
  lanes : Word
  strike : Option Strike
  /-- `sr.einj` before the issue: an issue that faults here does not count (R398) -/
  einj : Word
  deriving DecidableEq, Repr

/-- A transfer of a stream thread (R201). -/
inductive XKind where
  | copy
  | gather (dim : Nat)
  | scatter (dim : Nat)
  | reduce (op : Nat)
  | multicast (mask : Word)
  deriving DecidableEq, Repr

structure Xfer where
  col : Nat
  thr : Nat
  kick : Nat
  pc : Word
  insn : Nat
  kind : XKind
  dst : RecSlot
  src : RecSlot
  idx : RecSlot
  bar : Option BarBind
  /-- every element has been written or sent on its way -/
  done : Bool
  /-- the elements whose lines have been granted (R196) -/
  granted : List Nat
  /-- bytes that it has counted on a BYTES barrier (R204) -/
  counted : Nat
  /-- the receiving teams and cores of a multicast, fixed with its first line; whether a line has gone out -/
  recv : Option (List (Nat × Nat))
  sent : Bool
  /-- data of elements read from other members or the host; an index element j stands under 2^40 + j -/
  got : List (Nat × Word × Bool)
  /-- the offset it last had a walk started for, and a page fault that a walk has delivered to it -/
  walkOff : Nat
  walkFault : Option WalkFault
  /-- buffer lines it waits for, and those that it waited for when their buffer left FILLING for EMPTY (R146) -/
  waitsOn : List (Nat × Nat)
  broken : List (Nat × Nat)
  deriving DecidableEq, Repr

/-- What a remote request does (R364). -/
inductive RemKind where
  | read
  | write
  | reduce
  | atomic
  | cas
  /-- it brings a collective frame to the endpoint of its next entry -/
  | frame
  deriving DecidableEq, Repr

/-- What awaits the answer of a remote request. -/
inductive RemWhy where
  /-- lane of a group's instruction; the gathering item, if it returns a value -/
  | lane (grp lane : Nat) (gather : Option Nat)
  /-- row of an epilogue: its number, its group, its barrier, the bytes it counts -/
  | row (epi grp : Nat) (bar : Option BarBind) (bytes : Nat)
  /-- element of a transfer -/
  | element (xfer k : Nat)
  /-- a collective frame, and the group that sends it if one does -/
  | frame (grp : Option Nat) (f : Frame)
  deriving DecidableEq, Repr

/-- A remote request that has not been answered (R364). -/
structure Remote where
  kind : RemKind
  why : RemWhy
  ctx : Nat
  /-- the launch on whose behalf it was issued -/
  launch : Nat
  /-- issuing column and core in it (or thread) -/
  col : Nat
  core : Nat
  /-- none: this device; else the pod member -/
  dev : Option Nat
  /-- the host port, if its number is named (R363) -/
  host : Option Nat
  tcol : Nat
  off : Nat
  size : Nat
  data : Word
  cmp : Word
  op : Nat
  signed : Bool
  poison : Bool
  /-- bytes of a row -/
  bytes : List Byte
  /-- `sr.time` at which it was sent, and the present back-off in µs -/
  sentAt : Nat
  backoff : Nat
  /-- it has been sent: every earlier one of its stream has been, and its release has completed -/
  sent : Bool
  /-- it waits to be sent again -/
  waiting : Bool
  /-- it waits for a release of its group (R260, R369) -/
  release : Option Nat
  /-- the port that carries it, if one does (R359) -/
  via : Option Nat
  /-- it has been performed at its home and this answer is on its way -/
  answer : Option (Word × Option Poison × Bool)
  deriving DecidableEq, Repr

/-- What an access to TAL, GLB or ARG does at its homes. -/
inductive LateOp where
  | load (inv : Bool)
  | store
  | atom (op w : Nat) (signed : Bool)
  deriving DecidableEq, Repr

/-- One access of a late instruction: its lane and element, its bytes at their homes, its data and compare value. -/
structure LateAcc where
  lane : Nat
  sub : Nat
  size : Nat
  pieces : List (Nat × Nat)
  data : Nat
  cmp : Nat
  deriving DecidableEq, Repr

/-- The accesses of an instruction that has issued and passed its checks, and that are not performed yet (R254, R264). -/
structure Late where
  col : Nat
  core : Nat
  /-- a stream thread's -/
  thr : Option Nat
  /-- the issuing group, or the one whose kick the thread runs -/
  grp : Nat
  op : LateOp
  accs : List LateAcc
  dst : Option Dest
  strike : Option Strike
  deriving DecidableEq, Repr

/-- A member of a joint operation and what it supplies (R233). -/
structure Member where
  grp : Nat
  gid : Nat
  /-- cairn offset, and how it is reached -/
  cairn : Nat
  cmap : CairnMap
  src : ASource
  deriving DecidableEq, Repr

/-- Where a row of an epilogue goes: nowhere, to the core's scratchpad (codes and scales), to a pointer (R242, R244). -/
inductive EpiDst where
  | skip
  | scr (codes scales : Nat)
  | ptr (p : Word)
  deriving DecidableEq, Repr

inductive MxKind where
  /-- the record that its B will have, and where that B lies -/
  | ldb (r : Residency) (b : BSource)
  | joint (block : BitVec 256) (members : List Member)
  | zero (cairn : Nat)
  | epi (cairn : Nat) (block : BitVec 512) (dests : List EpiDst) (scale bias : List Nat) (bar : Option BarBind) (gens : Vector (BitVec 32) 64)
  | acv (cairn : Nat) (dst : Dest) (lanes : List Nat) (strike : Option Strike)
  | vac (cairn : Nat) (lanes : List (Nat × Word)) (etype : Nat) (sat : Bool)
  | csum (cairn : Nat) (desc : Word) (ireg : Nat)
  deriving DecidableEq, Repr

/-- An instruction in a matrix queue (R235); the queue is that of core `core` of column `col`. -/
structure MxOp where
  col : Nat
  core : Nat
  team : Nat
  grp : Nat
  cmap : CairnMap
  kind : MxKind
  deriving DecidableEq, Repr

/-- A row of an epilogue on its way to its core's scratchpad (R242). -/
structure Row where
  epi : Nat
  grp : Nat
  team : Nat
  col : Nat
  core : Nat
  pieces : List (Nat × List Byte)
  bar : Option BarBind
  /-- what the row counts on a BYTES barrier -/
  bytes : Nat
  deriving DecidableEq, Repr

/-- The transfer that sends a count-down: its thread, its number, its frame's `PC` and word (R204, R208). -/
structure CountSrc where
  col : Nat
  thr : Nat
  xfer : Nat
  pc : Word
  insn : Nat
  deriving DecidableEq, Repr

/-- One thing in progress. -/
inductive Item where
  | result (dst : Dest) (lanes : List LaneVal) (sval : Word) (spoison : Option Poison) (load : Bool)
  | scr (r : ScrReq)
  | late (l : Late)
  | kick (k : Kick) (col : Nat) (slot : Bool) (pc : Word) (insn : Nat) (lanes : Word) (einj : Word)
  | countdown (bar : BarBind) (n : Nat) (src : Option CountSrc) (release : Option Nat)
  | barError (bar : BarBind) (flag : Nat)
  | release (col : Nat) (core : Nat) (thread : Bool) (scope : Nat)
  | xfer (x : Xfer)
  | mcline (xfer : Nat) (team core : Nat) (line : Nat) (pieces : List (Nat × List Byte)) (carries : Bool) (count : Nat)
  | perm (v : PermVec) (col : Nat)
  | chan (team ch slot : Nat) (data : List Word)
  | grant (team ch : Nat) (grp : Nat) (slot : Bool)
  | mx (m : MxOp)
  | row (r : Row)
  | shootdown (col ctx : Nat) (base npg : Nat) (cntPtr : Nat) (gone : List (Nat × Nat))
  | gather (dst : Dest) (left : Nat) (got : List LaneVal) (strike : Option Strike)
  | remote (r : Remote)
  | frame (col : Nat) (f : Frame)
  | brixel (k : RemKind) (q : Brixel)
  | csmov (dst : Dest) (ireg part : Nat) (strike : Option Strike)
  | quote (port : Nat) (nonce : BitVec 256)
  deriving DecidableEq, Repr

structure Flight where
  id : Nat
  item : Item
  deriving DecidableEq, Repr

/-! ### The device -/

/-- States of a port (Table 23-1). -/
inductive PortState where
  | down
  | training
  | up
  | degraded
  | isolated
  deriving DecidableEq, Repr

/-- Power states (Table 25-3); ACTIVE and IDLE are told apart by what is resident. -/
inductive Power where
  | on
  | standby
  | off
  deriving DecidableEq, Repr

/-- The outcome of the reset (R387). -/
inductive Boot where
  | ready
  /-- the device stays in reset: the step and the reason -/
  | stays (step reason : Nat)
  deriving DecidableEq, Repr

/-- What a quote says (R391): the nonce, the digest of the record in use and its `SEQNO`, the boot ROM's version, the column map, the partition split and `sr.dev`. -/
structure Quote where
  nonce : BitVec 256
  digest : List Byte
  seqno : Nat
  rom : Nat
  cols : List Nat
  split : List (Nat × Nat)
  dev : Nat
  deriving DecidableEq, Repr

/-- What the device sends to the outside world. -/
inductive Out where
  /-- an answer to a host access -/
  | hostData (port : Nat) (bytes : List Byte)
  | hostError (port : Nat)
  /-- the status of a management command: accepted, or a configuration error -/
  | status (port : Nat) (accepted : Bool)
  /-- the answer to a semaphore read -/
  | semaphore (agent : Nat) (value : Word)
  /-- a Brixel request to a pod member, by its number -/
  | request (member id : Nat)
  /-- an access to the host memory of a port, with its host address (R363) -/
  | hostAccess (port id addr : Nat)
  /-- answers to a Brixel request of a member -/
  | data (member id : Nat) (value : Word)
  | ack (member id : Nat)
  | retryLater (member id : Nat)
  | refused (member id cause : Nat)
  | poisoned (member id : Nat)
  /-- a collective frame to a member -/
  | frame (member : Nat) (f : Frame)
  /-- a quote with its signature (R391) -/
  | quote (port : Nat) (q : Quote) (signature : List Byte)
  /-- an RDMA answer of a queue pair, and whether its data was read from a poisoned line (R339, R380) -/
  | rdma (qp : Nat) (bytes : List Byte) (poisoned : Bool)
  /-- the walker notifies the management core of a fault record (R313) -/
  | notify (col fid : Nat)
  deriving DecidableEq, Repr

/-- The nested-fault report of the mailbox (R329, R396). -/
structure Report where
  ctx : Nat
  col : Nat
  core : Nat
  gid : Nat
  cause : Nat
  pc : Word
  deriving DecidableEq, Repr

/-- The mailbox of a Larnar port (R396): the command bytes as they were written, and the status of the last command that was performed. -/
structure Mailbox where
  command : List Byte
  status : Option Bool
  deriving DecidableEq, Repr

/-- A request of another member that was answered with retry-later: its source, pod context id, column number and number, and `sr.time` (R365). -/
structure Turned where
  src : Nat
  pod : Nat
  col : Nat
  id : Nat
  time : Nat
  deriving DecidableEq, Repr

/-- Temperature and power limits on a die's issue (R393, R395). -/
structure Die where
  hot : Bool
  /-- the six stretched cycles of an alarm are running -/
  stretch : Bool
  /-- the 64 halved cycles after them -/
  halved : Bool
  deriving DecidableEq, Repr

/-- A queue pair of the Ethernet engine (R380). -/
structure QueuePair where
  qp : Nat
  /-- home address of its doorbell word in TAL -/
  doorbell : Nat
  /-- the doorbell value last taken -/
  seen : Word
  /-- work the engine has been told of -/
  posted : Nat
  deriving DecidableEq, Repr

/-- Who issues: a slot of a group (`false` A, `true` B), or a stream thread of a column. -/
inductive Agent where
  | slot (grp : Nat) (b : Bool)
  | thread (col thr : Nat)
  deriving DecidableEq, Repr

/-- What the next step is. -/
inductive Choice where
  /-- an agent issues its next instruction -/
  | issue (a : Agent)
  /-- the same, and its accesses to TAL, GLB and ARG are performed later -/
  | issueLate (a : Agent)
  /-- an event comes about -/
  | event (i : Instr)
  /-- a late store with this number is performed at its homes -/
  | perform (id : Nat)
  /-- a core brings a line of a home into its L1 cache, as its loads or (`inv`) its invariant loads see it -/
  | fetch (col core line : Nat) (inv : Bool)
  /-- a core drops such a line from its L1 cache -/
  | evict (col core line : Nat) (inv : Bool)
  deriving DecidableEq, Repr

structure State where
  mem : Memory
  cols : List Column
  groups : List Group
  teams : List Team
  launches : List Launch
  ctxs : List Context
  /-- the context table: the record of each entry as system software filled it (R271) -/
  ctxTable : List (BitVec 512)
  /-- data images of the kernels that the loader holds, decided outside the machine -/
  images : List DataImage
  queues : List Queue
  /-- the queue served last (R289) -/
  lastQueue : Nat
  flight : List Flight
  nextId : Nat
  /-- `sr.time`, in ns -/
  time : Nat
  /-- `sr.cycles` -/
  cycles : Nat
  /-- instructions issued and events performed -/
  issues : Nat
  /-- issuing agent of the step -/
  cur : Agent
  /-- the accesses of the issuing instruction to TAL, GLB and ARG are performed later -/
  late : Bool
  /-- agents whose next instruction was held and nothing has changed since -/
  held : List Agent
  /-- coming steps, decided outside the machine: the interleaving and the outside world's acts -/
  schedule : List Choice
  /-- steps made: the argument of the free durations -/
  draws : Nat
  boot : Boot
  power : Power
  /-- the two flash slots (R389) -/
  flash : List ConfigRecord
  /-- the record in use -/
  record : ConfigRecord
  /-- the map-out list (R18): physical columns -/
  mapOut : List Nat
  /-- the stored split (R23): physical ranges, first and last -/
  storedSplit : List (Nat × Nat)
  /-- partitions in force: first column, number of columns -/
  split : List (Nat × Nat)
  /-- why the stored split was refused at the last reset (R23): 0 it was not, 1 a partition without a USE column, 2 columns that cannot reach one another -/
  splitRefused : Nat
  /-- the device key has been regenerated (R390); the key itself is the same at every reset and never leaves the device -/
  identity : Bool
  /-- partitions whose routers have stopped (R37) -/
  stopped : List Nat
  /-- `sr.dev`, and whether a number has been accepted (R361) -/
  dev : Nat
  devSet : Bool
  /-- ports 0–1 Larnar, 2–17 pod fabric, 18–21 Ethernet -/
  ports : List PortState
  /-- members that are LOST (R360) -/
  lost : List Nat
  /-- `HOSTDEV` of each Larnar port -/
  hostdev : List (Option Nat)
  windows : List (List HostWindow)
  /-- holder of each semaphore: 0 free, 1 port 0, 2 port 1, 3 the management core -/
  sems : List Nat
  /-- the port served second at the last meeting (R281) -/
  semLast : Nat
  /-- FIFO of the management core's wake register and its drop count (R290) -/
  fifo : List (BitVec 32)
  drops : Nat
  report : Option Report
  /-- droop register (Table 25-4) -/
  alarms : BitVec 32
  droopEn : Bool
  droopThresh : BitVec 8
  dies : List Die
  overPower : Bool
  /-- injection commands that wait for a group to be placed: context, column, `sr.tid`, `sr.gid`, value -/
  injections : List (Nat × Nat × Nat × Nat × Word)
  qps : List QueuePair
  /-- the mailboxes of the two Larnar ports (R396) -/
  mails : List Mailbox
  /-- the ports whose commands have been submitted and not performed, in the order of arrival (R272, R396) -/
  submitted : List Nat
  /-- requests of other members that were turned away and have not come again (R365) -/
  turned : List Turned
  outbox : List Out
  deriving DecidableEq, Repr

/-! ### Why a step stops -/

/-- The reasons a step can stop the machine. -/
inductive Fault where
  /-- Raised by an event that names nothing in progress, or whose conditions do not hold: such an event does not come about. Safe: no state is claimed. -/
  | notPending
  /-- Raised by an instruction when the agent it is asked of cannot issue: there is no such group, slot or thread, or it is held by something other than its next instruction. Safe: no state is claimed. -/
  | cannotIssue
  /-- Raised by a step whose schedule names an instruction word as an event. Safe: no state is claimed. -/
  | notAnEvent
  /-- Raised by every step of a device that stays in reset or is powered off, but for the events that the spec lets act there. Safe: no state is claimed. -/
  | inReset
  deriving DecidableEq, Repr

/-- The reasons the model gives no meaning. -/
inductive Refusal where
  /-- Raised by an arm of exec whose instruction has no meaning yet. Safe: no state is claimed. -/
  | notModelled (mnemonic : String)
  deriving DecidableEq, Repr

/-! ### Reset -/

def Flags.clear : Flags := ⟨false, false, false, false, false⟩

/-- A v register at group start: zero and full (Table 3-6). -/
def VReg.zero : VReg := ⟨Vector.replicate 64 0, true, []⟩

/-- An s register at group start: zero and full (Table 3-6). -/
def SReg.zero : SReg := ⟨0, true, none⟩

def Phase.reset : Phase := ⟨0, [], []⟩

def RecSlot.invalid : RecSlot := ⟨false, 0, Vector.replicate 5 0, Vector.replicate 5 0⟩

def Thread.reset : Thread :=
  { st := .free, s := Vector.replicate 32 SReg.zero, flags := Flags.clear, pc := 0, word := 0, recs := Vector.replicate 8 RecSlot.invalid,
    bar := none, bars := [], regions := [], rollbacks := 0, lastCause := 0, kick := none, phase := Phase.reset, susp := .none,
    walkFault := none, frameWait := none, prog := .start, lastIssue := 0, credit := 0 }

def Core.reset : Core :=
  { phase := Phase.reset, l1 := [], tlb := [], resident := none, latches := [], perms := [], kicks := [], credit := 0 }

/-- A column after reset (Table 2-2): ONLINE, with nothing resident. -/
def Column.reset (phys : Nat) : Column :=
  { phys := phys, degraded := false, dead := false, cores := Vector.replicate 4 Core.reset, threads := Vector.replicate 16 Thread.reset,
    tlb := [], walks := [], ring := [], keys := [], ridge := 0 }

/-- A queue after reset: DISABLED (Table 17-1 default). -/
def Queue.reset : Queue :=
  { st := .disabled, errTick := 0, errCode := 0, ctx := 0, prio := 0, log2sz := 0, head := 0, statPa := 0, ringPa := 0, wake := false,
    disabling := false, examined := 0 }

/-- A context record at its defaults: `SWAPWAIT` 16,384 and `QUANTUM` 2,000 (Table 16-1). -/
def defaultContext : BitVec 512 := BitVec.ofNat 512 (16384 * 2 ^ 224 + 2000 * 2 ^ 192)

/-- The device right after a power-on reset whose steps all pass (R387): no context, queue or page table exists, memory is zero, the ports that the record enables are training. Flash holds one partition of all columns at first (DESIGN CHOICE, log 42). -/
def State.reset : State :=
  { mem := ⟨[], [], [], []⟩, cols := (usable defaultRecord []).map Column.reset, groups := [], teams := [], launches := [], ctxs := [], ctxTable := List.replicate 64 defaultContext, images := [],
    queues := List.replicate 256 Queue.reset, lastQueue := 255, flight := [], nextId := 0, time := 0, cycles := 0, issues := 0,
    cur := .slot 0 false, late := false, held := [], schedule := [], draws := 0, boot := .ready, power := .on, flash := [defaultRecord],
    record := defaultRecord, mapOut := [], storedSplit := [(0, 33)], split := [(0, 32)], splitRefused := 0, identity := true, stopped := [], dev := 0,
    devSet := false, ports := List.replicate 22 .training, lost := [], hostdev := [none, none], windows := [[], []],
    sems := List.replicate 8 0, semLast := 0, fifo := [], drops := 0, report := none, alarms := 0, droopEn := true, droopThresh := 40,
    dies := List.replicate 2 ⟨false, false, false⟩, overPower := false, injections := [], qps := [],
    mails := List.replicate 2 ⟨List.replicate 256 0, none⟩, submitted := [], turned := [], outbox := [] }

end Sys2Proof.Machine
end

