-- ==== Sys2Proof/Machine/Mem.lean ====
section
/-! DEFINITION. Device memory: home addresses (R308, R362), reading and writing bytes in the canonical form, line poison (R339, R340) and version tags (R341). -/

namespace Sys2Proof.Machine

open Sys2Proof

/-! ### Home addresses -/

/-- Home of byte `p` of the TAL of a column (R362: the aperture's layout, `0x4_0000_0000` within the column). -/
def talHome (col p : Nat) : Nat := col * 2 ^ 35 + 0x400000000 + p

/-- Home of byte `p` of the GLB of a column (R362). -/
def glbHome (col p : Nat) : Nat := col * 2 ^ 35 + p

/-- Home of byte `p` of the scratchpad of core `core` of a column. -/
def scrHome (col core p : Nat) : Nat := 2 ^ 41 + (col * 4 + core) * 2 ^ 20 + p

/-- Home of byte `p` of the cairn of a column, `p >> 23` being its core (R308). -/
def cairnHome (col p : Nat) : Nat := 2 ^ 42 + col * 2 ^ 25 + p

/-- The line of an address: its 128-byte line's first byte. -/
def lineOf (a : Nat) : Nat := a / 128 * 128

/-! ### Sorted lists -/

/-- Reads a key of a sorted list of pairs. -/
def assocGet {α : Type} (d : α) : List (Nat × α) → Nat → α
  | [], _ => d
  | (k, v) :: r, a => if k = a then v else assocGet d r a

/-- Sets a key of a sorted list of pairs, dropping the pair if the value is the default. -/
def assocPut {α : Type} [DecidableEq α] (d : α) : List (Nat × α) → Nat → α → List (Nat × α)
  | [], a, b => if b = d then [] else [(a, b)]
  | (k, v) :: r, a, b =>
    if a < k then (if b = d then (k, v) :: r else (a, b) :: (k, v) :: r)
    else if a = k then (if b = d then r else (a, b) :: r)
    else (k, v) :: assocPut d r a b

/-- Puts a number into a sorted list without repeats. -/
def setPut : List Nat → Nat → List Nat
  | [], a => [a]
  | k :: r, a => if a < k then a :: k :: r else if a = k then k :: r else k :: setPut r a

/-- Every number of the list lies above `lo`, and they rise strictly. -/
def risingFrom : Nat → List Nat → Bool
  | _, [] => true
  | lo, a :: r => decide (lo < a) && risingFrom a r

/-- A strictly rising list. -/
def rising : List Nat → Bool
  | [] => true
  | a :: r => risingFrom a r

/-- What an unlisted address reads as: zero (R387 step 8), but for the `STATE` of the 256 queue descriptors, which is 4 (Table 17-1). -/
def resetByte (a : Nat) : Byte :=
  if Config.qtabPa ≤ a ∧ a < Config.qtabPa + 16384 ∧ (a - Config.qtabPa) % 64 = 40 then 4 else 0

namespace Memory

/-- One byte of memory. -/
def byte (m : Memory) (a : Nat) : Byte := assocGet (resetByte a) m.cells a

/-- `n` bytes of memory from `a` on, as a little-endian number (R6). -/
def nat (m : Memory) (a n : Nat) : Nat := leNat ((List.range n).map fun i => m.byte (a + i))

/-- `n` bytes of memory from `a` on. -/
def bytes (m : Memory) (a n : Nat) : List Byte := (List.range n).map fun i => m.byte (a + i)

def put (m : Memory) (a : Nat) (b : Byte) : Memory := { m with cells := assocPut (resetByte a) m.cells a b }

/-- Writes bytes from `a` on. -/
def putBytes : Memory → Nat → List Byte → Memory
  | m, _, [] => m
  | m, a, b :: bs => putBytes (m.put a b) (a + 1) bs

def isPoisoned (m : Memory) (a : Nat) : Bool := m.poisoned.contains (lineOf a)

/-- Some byte of the `n` at `a` lies on a poisoned line. -/
def anyPoisoned (m : Memory) (a n : Nat) : Bool :=
  !m.poisoned.isEmpty && m.poisoned.any fun l => decide (l < a + n) && decide (a < l + 128)

def poisonLine (m : Memory) (a : Nat) : Memory := { m with poisoned := setPut m.poisoned (lineOf a) }

def clearLine (m : Memory) (a : Nat) : Memory := { m with poisoned := m.poisoned.filter (· ≠ lineOf a) }

/-- The version tag of a line (R341). -/
def tag (m : Memory) (a : Nat) : Nat := assocGet 0 m.tags (lineOf a)

def bump (m : Memory) (a : Nat) : Memory := { m with tags := assocPut 0 m.tags (lineOf a) (m.tag a + 1) }

/-- The lines that the `n` bytes at `a` reach. -/
def spanLines (a n : Nat) : List Nat :=
  if n = 0 then [] else (List.range ((a + n - 1) / 128 + 1 - a / 128)).map fun i => (a / 128 + i) * 128

/-- The lines that a list of pieces reaches, each once. -/
def linesOf (ps : List (Nat × List Byte)) : List Nat :=
  (ps.flatMap fun p => spanLines p.1 p.2.length).foldl setPut []

/-- The pieces write all 128 bytes of the line (R340). -/
def covers (ps : List (Nat × List Byte)) (line : Nat) : Bool :=
  (List.range 128).all fun i => ps.any fun p => decide (p.1 ≤ line + i) && decide (line + i < p.1 + p.2.length)

/-- Writes the bytes of the pieces, in order. -/
def putAll (m : Memory) (ps : List (Nat × List Byte)) : Memory := ps.foldl (fun m p => m.putBytes p.1 p.2) m

/-- What a store does to the mark and the tag of one line it reaches (R339–R341). -/
def touch (ps : List (Nat × List Byte)) (carries : Bool) (m : Memory) (line : Nat) : Memory :=
  let m := m.bump line
  if carries then m.poisonLine line
  else if m.isPoisoned line && covers ps line then m.clearLine line else m

/-- One store: all its pieces written together. Its lines' tags advance; a poisoned line is cleared exactly if the store writes all of it; data that carries poison marks its lines (R339–R341). -/
def store (m : Memory) (ps : List (Nat × List Byte)) (carries : Bool) : Memory :=
  (linesOf ps).foldl (touch ps carries) (m.putAll ps)

/-- A write of a little-endian number of `n` bytes. -/
def storeNat (m : Memory) (a n x : Nat) : Memory := m.store [(a, leBytes n x)] false

/-- The canonical form: addresses strictly rising and no byte listed at what it reads as unlisted. -/
def wf (m : Memory) : Bool :=
  rising (m.cells.map fun c => c.1) && m.cells.all (fun c => c.2 != resetByte c.1) &&
  rising (m.tags.map fun c => c.1) && m.tags.all (fun c => c.2 != 0) && rising m.poisoned && rising m.cairnPoison

end Memory

end Sys2Proof.Machine
end

