-- ==== Sys2Proof/Machine/Lookup.lean ====
section
/-! DEFINITION. Finding and changing the parts of the state: columns, cores, threads, groups, teams, launches, contexts, queues and things in progress. -/

namespace Sys2Proof.Machine

open Sys2Proof

/-- Changes one entry of a vector; an index outside it changes nothing. -/
def vmod {α : Type} {n : Nat} (v : Vector α n) (i : Nat) (f : α → α) : Vector α n :=
  if h : i < n then v.set i (f v[i]) else v

/-- An entry of a vector, or the default outside it. -/
def vget {α : Type} {n : Nat} (d : α) (v : Vector α n) (i : Nat) : α := if h : i < n then v[i] else d

/-! ### Values that stand where nothing is found -/

def Image.blank : Image :=
  { v := Vector.replicate 64 VReg.zero, s := Vector.replicate 64 SReg.zero, k := Vector.replicate 16 0, j := Vector.replicate 4 ⟨0, 0⟩,
    i := Vector.replicate 8 ⟨0, 0⟩, mode := 0, swapped := false, joinLost := false, joinTrap := false, gang := 0, slotA := none,
    slotB := none, stack := [], gens := Vector.replicate 64 0 }

def Group.blank : Group :=
  { id := 0, team := 0, launch := 0, ctx := 0, col := 0, tid := 0, gid := 0, core := 0, width := 16, vregs := 0, sregs := 0,
    image := Image.blank, seg := Vector.replicate 8 0, trapbase := 0, swapwait := 0, einj := 0, frame := 0, privileged := false,
    trapSlot := false, st := .exited, halted := false, haltPending := false, out := false, susp := .none, replay := none, frameWait := none, regions := [], rollbacks := 0,
    lastCause := 0, async := [], walkFault := none, perms := Vector.replicate 64 0, bufStores := Vector.replicate 16 0, lastIssue := 0,
    waitFrom := none, trapAt := 0 }

def Team.blank : Team :=
  { id := 0, launch := 0, ctx := 0, col := 0, tid := 0, core := 0, pair := false, width := 16, groups := 0, scrBase := 0, scrBytes := 0,
    cairnBase := 0, cairnBytes := 0, bufs := [], chans := [], xsets := [], resident := false, swapped := false, ready := false, readyAt := 0,
    exempt := false, saved := [], savedPoison := [], savedCairn := [], savedCairnPoison := [], savedB := none, ended := true }

def Launch.blank : Launch :=
  { id := 0, queue := 0, ticket := 0, ctx := 0, record := 0, st := .done, grid := [], placed := [], cause := none, admitted := false,
    bufs := [], chans := [], xsets := [], imaged := false }

def Context.blank : Context :=
  { num := 0, st := .unused, record := defaultContext, debug := false, held := 0, expiry := false, expiryAt := 0, saved := [], pages := [] }

def Buffer.blank : Buffer :=
  { declared := false, start := 0, lines := 0, st := .empty, bits := [], owner := none, kick := none, bound := false }

namespace State

/-! ### Columns, cores, threads -/

def col (s : State) (c : Nat) : Column := s.cols.getD c (Column.reset 0)

def modCol (s : State) (c : Nat) (f : Column → Column) : State := { s with cols := s.cols.modify c f }

def core (s : State) (c k : Nat) : Core := vget Core.reset (s.col c).cores k

def modCore (s : State) (c k : Nat) (f : Core → Core) : State := s.modCol c fun x => { x with cores := vmod x.cores k f }

def thread (s : State) (c t : Nat) : Thread := vget Thread.reset (s.col c).threads t

def modThread (s : State) (c t : Nat) (f : Thread → Thread) : State := s.modCol c fun x => { x with threads := vmod x.threads t f }

/-! ### Groups, teams, launches, contexts, queues -/

def grp (s : State) (g : Nat) : Group := (s.groups.find? fun x => x.id = g).getD Group.blank

def hasGroup (s : State) (g : Nat) : Bool := s.groups.any fun x => x.id = g

def modGroup (s : State) (g : Nat) (f : Group → Group) : State :=
  { s with groups := s.groups.map fun x => if x.id = g then f x else x }

def modImage (s : State) (g : Nat) (f : Image → Image) : State := s.modGroup g fun x => { x with image := f x.image }

def team (s : State) (t : Nat) : Team := (s.teams.find? fun x => x.id = t).getD Team.blank

def modTeam (s : State) (t : Nat) (f : Team → Team) : State := { s with teams := s.teams.map fun x => if x.id = t then f x else x }

def launch (s : State) (l : Nat) : Launch := (s.launches.find? fun x => x.id = l).getD Launch.blank

def modLaunch (s : State) (l : Nat) (f : Launch → Launch) : State :=
  { s with launches := s.launches.map fun x => if x.id = l then f x else x }

def ctx (s : State) (n : Nat) : Context := (s.ctxs.find? fun x => x.num = n).getD Context.blank

def modCtx (s : State) (n : Nat) (f : Context → Context) : State := { s with ctxs := s.ctxs.map fun x => if x.num = n then f x else x }

def queue (s : State) (q : Nat) : Queue := s.queues.getD q Queue.reset

def modQueue (s : State) (q : Nat) (f : Queue → Queue) : State := { s with queues := s.queues.modify q f }

/-- `STATE` of a queue descriptor (Table 17-1). -/
def queueCode (q : QState) : Nat :=
  match q with
  | .idle => 0
  | .running => 1
  | .blocked => 2
  | .error => 3
  | .disabled => 4

/-- Changes a queue and writes the fields that the engine owns, `HEAD`, `ERRCODE`, `ERRTICK` and `STATE`, into its descriptor (R283). -/
def setQueue (s : State) (q : Nat) (f : Queue → Queue) : State :=
  let s := s.modQueue q f
  let a := (recQtabPa s.record) + 64 * q
  let x := s.queue q
  { s with mem := s.mem.store [(a + 24, leBytes 8 x.head), (a + 35, leBytes 1 x.errCode ++ leBytes 4 x.errTick ++ leBytes 1 (queueCode x.st))] false }

/-- The groups of a team. -/
def teamGroups (s : State) (t : Nat) : List Group := s.groups.filter fun g => g.team = t

/-- The groups of a launch. -/
def launchGroups (s : State) (l : Nat) : List Group := s.groups.filter fun g => g.launch = l

/-! ### Things in progress -/

/-- Places one thing in progress, under the next number. -/
def place (s : State) (i : Item) : State := { s with flight := s.flight ++ [⟨s.nextId, i⟩], nextId := s.nextId + 1 }

def item (s : State) (id : Nat) : Option Item := (s.flight.find? fun f => f.id = id).map (·.item)

def drop (s : State) (id : Nat) : State := { s with flight := s.flight.filter fun f => f.id ≠ id }

def setItem (s : State) (id : Nat) (i : Item) : State := { s with flight := s.flight.map fun f => if f.id = id then ⟨id, i⟩ else f }

/-- Something earlier than `id` in progress satisfies `p`. -/
def earlier (s : State) (id : Nat) (p : Item → Bool) : Bool := s.flight.any fun f => decide (f.id < id) && p f.item

/-- Sends something to the outside world. -/
def out (s : State) (o : Out) : State := { s with outbox := s.outbox ++ [o] }

/-- The status of a command of a port: its response, and the mailbox that holds it (R396). -/
def respond (s : State) (port : Nat) (ok : Bool) : State :=
  { s with mails := s.mails.modify port fun m => { m with status := some ok } }.out (.status port ok)

/-- The engine reads the doorbell word of a queue pair: a new value tells it of posted work (R380). -/
def pollPair (m : Memory) (x : QueuePair) : QueuePair :=
  let v := BitVec.ofNat 64 (m.nat x.doorbell 8)
  if v = x.seen then x else { x with seen := v, posted := x.posted + 1 }

/-! ### Partitions -/

/-- First column and number of columns of a context's partition (R271). -/
def part (s : State) (c : Nat) : Nat × Nat := s.split.getD (((s.ctx c).record.toNat / 2 ^ 320) % 4) (0, 0)

/-- `sr.ncol` of a context (R19). -/
def ncol (s : State) (c : Nat) : Nat := (s.part c).2

/-- Number of a column within the partition of a context: `sr.col` (R19). -/
def colNum (s : State) (c : Nat) (col : Nat) : Nat := col - (s.part c).1

/-- The column of the device that a context's column number names. -/
def colOf (s : State) (c : Nat) (n : Nat) : Nat := (s.part c).1 + n

/-- The column can no longer execute or serve memory (R21). -/
def colDead (s : State) (c : Nat) : Bool := (s.col c).dead || decide (s.cols.length ≤ c)

/-- The device physical address names a byte of TAL or GLB of a column of the device (Table 23-2). -/
def physByte (s : State) (a : Nat) : Bool :=
  decide (a < s.cols.length * 2 ^ 35) &&
  (decide (a % 2 ^ 35 < Config.glbBytes) || (decide (0x400000000 ≤ a % 2 ^ 35) && decide (a % 2 ^ 35 < 0x400000000 + Config.talBytes)))

/-- A port carries traffic (Table 23-1). -/
def portCarries (s : State) (p : Nat) : Bool := s.ports.getD p .down = .up || s.ports.getD p .down = .degraded

/-- A pod port that carries traffic (R359). -/
def podPort (s : State) : Option Nat := ((List.range 16).map (2 + ·)).find? s.portCarries

/-- The column lies in a partition whose routers have stopped (R37). -/
def stoppedAt (s : State) (c : Nat) : Bool :=
  s.stopped.any fun n => let p := s.split.getD n (0, 0)
    decide (p.1 ≤ c) && decide (c < p.1 + p.2)

/-- All `n` bytes from a device physical address on are device memory. -/
def physSpan (s : State) (a n : Nat) : Bool := n = 0 || (s.physByte a && s.physByte (a + n - 1) && a / 2 ^ 34 = (a + n - 1) / 2 ^ 34)

end State

/-! ### Fields of records -/

/-- Bits `[lo + n - 1 : lo]` of a bit vector as a number. -/
def bv {w : Nat} (x : BitVec w) (lo n : Nat) : Nat := x.toNat / 2 ^ lo % 2 ^ n

/-- One bit of a bit vector. -/
def bvBit {w : Nat} (x : BitVec w) (i : Nat) : Bool := x.toNat / 2 ^ i % 2 = 1

end Sys2Proof.Machine
end

