-- ==== Sys2Proof/Machine/Pages.lean ====
section
/-! DEFINITION. Page tables, translation, walks, fault records (19_pages.md). -/

namespace Sys2Proof.Machine

open Sys2Proof

/-! ### Entries (Table 19-2) -/

def pteState (e : Nat) : Nat := bitsOf e 53 3
def pteLeaf (e : Nat) : Bool := bitsOf e 52 1 = 1
def pteTgt (e : Nat) : Nat := bitsOf e 50 2
def ptePa (e : Nat) : Nat := bitsOf e 8 40 * 256
def pteRmt (e : Nat) : Bool := bitsOf e 3 1 = 1
def pteX (e : Nat) : Bool := bitsOf e 2 1 = 1
def pteW (e : Nat) : Bool := bitsOf e 1 1 = 1
def pteR (e : Nat) : Bool := bitsOf e 0 1 = 1

/-- log2 of the bytes that an entry of a level maps (Table 19-1); level 0 is the root entry. -/
def levelShift (l : Nat) : Nat := if l = 1 then 39 else if l = 2 then 30 else if l = 3 then 21 else if l = 4 then 16 else 48

/-- Index of an offset in a table of a level (Table 19-1). -/
def levelIndex (l off : Nat) : Nat := if l = 4 then bitsOf off 16 5 else bitsOf off (levelShift l) 9

/-- Bytes and alignment of a table of a level (Table 19-1). -/
def tableBytes (l : Nat) : Nat := if l = 4 then 256 else 4096

/-- Bytes of a physical space of a column (R308). -/
def spaceBytes (tgt : Nat) : Nat := if tgt = 0 then Config.talBytes else if tgt = 1 then Config.glbBytes else 4 * Config.cairnBytes

/-- Home address of byte `p` of a physical space of a column (R308). -/
def physHome (col tgt p : Nat) : Nat := if tgt = 0 then talHome col p else if tgt = 1 then glbHome col p else cairnHome col p

/-- A malformed entry (R308). -/
def malformed (level e : Nat) : Bool :=
  let leaf := pteLeaf e
  let bytes := if leaf then 2 ^ levelShift level else tableBytes (level + 1)
  bitsOf e 56 8 != 0 || bitsOf e 48 2 != 0 || bitsOf e 4 4 != 0 || decide (6 ≤ pteState e) || pteTgt e = 3 ||
  (!leaf && (pteTgt e != 0 || bitsOf e 0 4 != 0)) || (leaf && decide (level ≤ 1)) || (!leaf && level = 4) ||
  ptePa e % bytes != 0 || decide (spaceBytes (pteTgt e) < ptePa e + bytes)

/-! ### Walks -/

/-- How a walk ends (R307, R309, R354): on a leaf, on PAGE_NOT_PRESENT, or on an entry that is poisoned. -/
inductive WalkEnd where
  | leaf (entry level addr : Nat)
  | absent (entry level addr : Nat) (bad : Bool)
  | struck
  deriving DecidableEq, Repr

/-- Examines the entry of one level and goes on to the next (R306, R307). -/
def walkFrom (m : Memory) (col off : Nat) : List Nat → Nat → Nat → Nat → WalkEnd
  | ls, level, at_, e =>
    if malformed level e then .absent e level at_ true
    else if pteLeaf e then
      if pteState e = 0 || pteState e = 5 then .absent e level at_ false else .leaf e level at_
    else if pteState e != 1 then .absent e level at_ false
    else match ls with
      | [] => .absent e level at_ true
      | l :: ls =>
        let a := talHome col (ptePa e + 8 * levelIndex l off)
        if m.isPoisoned a then .struck else walkFrom m col off ls l a (m.nat a 8)

/-- The whole walk of an offset in a context's table of a column (R306): the root entry is read afresh. -/
def walkTable (s : State) (ctx col off : Nat) : WalkEnd :=
  let a := bv (s.ctx ctx).record 448 64 + 8 * s.colNum ctx col
  if s.mem.isPoisoned a then .struck else walkFrom s.mem col off [1, 2, 3, 4] 0 a (s.mem.nat a 8)

/-- log2 of the virtual page in which a walk of the offset ends: that of the leaf it ends on, else 64 KiB. -/
def WalkEnd.shift : WalkEnd → Nat
  | .leaf _ l _ => levelShift l
  | .absent e l _ bad => if pteLeaf e && !bad then levelShift l else 16
  | .struck => 16

/-- The leaves beneath an entry, each as eight times its address plus its level; of the entries that can be read. -/
def leavesUnder (m : Memory) (col : Nat) : List Nat → Nat → Nat → List Nat
  | [], level, at_ => let e := m.nat at_ 8
    if !malformed level e && pteLeaf e then [8 * at_ + level] else []
  | l :: ls, level, at_ => let e := m.nat at_ 8
    if malformed level e then []
    else if pteLeaf e then [8 * at_ + level]
    else if pteState e != 1 then []
    else (List.range (tableBytes l / 8)).flatMap fun i => leavesUnder m col ls l (talHome col (ptePa e + 8 * i))

/-- Every leaf of a context's table of a column (R306, R312). -/
def allLeaves (s : State) (ctx col : Nat) : List Nat :=
  leavesUnder s.mem col [1, 2, 3, 4] 0 (bv (s.ctx ctx).record 448 64 + 8 * s.colNum ctx col)

/-- The check of a leaf (R309): the cause it refuses an access with. Kinds: 0 load, 1 store, 2 atomic, 3 fetch. -/
def leafRefuses (e kind : Nat) : Option Nat :=
  if pteState e = 3 || pteState e = 4 then some 0x62
  else if pteState e = 2 then some 0x63
  else if (kind = 0 && !pteR e) || (kind = 1 && !pteW e) || (kind = 2 && !(pteR e && pteW e)) || (kind = 3 && !pteX e) then some 0x61
  else none

/-- Home address that a leaf gives an offset. -/
def leafHome (col e shift off : Nat) : Nat := physHome col (pteTgt e) (ptePa e + off % 2 ^ shift)

/-- A translation through a TLB (R309, R310): done, refused, or a miss. -/
inductive Trans where
  | ok (home : Nat)
  | refused (cause entry : Nat)
  | miss
  /-- a walk met a poisoned entry (R354) -/
  | struck
  deriving DecidableEq, Repr

/-- Looks an offset up in a TLB and checks the leaf (R309, R310). -/
def lookTlb (tlb : List TlbEntry) (ctx col off kind : Nat) : Trans :=
  match tlb.find? (fun t => t.ctx = ctx && decide (t.base ≤ off) && decide (off < t.base + t.size)) with
  | none => .miss
  | some t =>
    match leafRefuses t.leaf.toNat kind with
    | some c => .refused c t.leaf.toNat
    | none => .ok (physHome col (pteTgt t.leaf.toNat) (ptePa t.leaf.toNat + (off - t.base)))

/-- A translation that walks at once and fills nothing: the accesses of the hardware to STACK when it writes or reads a frame, and of the queue engine (R309); a poisoned entry strikes it (R354). -/
def walkNow (s : State) (ctx col off kind : Nat) : Trans :=
  match walkTable s ctx col off with
  | .leaf e l _ => match leafRefuses e kind with
    | some c => .refused c e
    | none => .ok (leafHome col e (levelShift l) off)
  | .absent e _ _ _ => .refused 0x60 e
  | .struck => .struck

/-- Puts a leaf into a TLB of `n` entries; the entry filled longest ago makes room. -/
def fillTlb (n : Nat) (tlb : List TlbEntry) (t : TlbEntry) : List TlbEntry := (t :: tlb.filter (· ≠ t)).take n

/-! ### Fault records (Table 19-4) -/

def faultRecord (w : Walk) (col : Nat) : BitVec 256 :=
  match w.st with
  | .walking => 0
  | .absent _ level bad _ =>
    let src := w.remote.getD (0, 0)
    BitVec.ofNat 256 (w.fid + w.ctx % 64 * 2 ^ 5 + col % 32 * 2 ^ 11 + (level - 1) % 4 * 2 ^ 34 + (if bad then 2 ^ 36 else 0) +
      (if w.remote.isSome then 2 ^ 37 else 0) + w.kind % 4 * 2 ^ 38 + min w.waiters.length 255 * 2 ^ 48 + w.time % 2 ^ 64 * 2 ^ 64 +
      src.1 % 2 ^ 10 * 2 ^ 162 + src.2 % 2 ^ 20 * 2 ^ 172 + w.off % 2 ^ 48 * 2 ^ 192)

/-- A posted record as its walk has it now. -/
def refreshRecord (walks : List Walk) (col : Nat) (r : BitVec 256) : BitVec 256 :=
  match walks.find? (fun w => w.fid = bv r 0 5 && w.ctx = bv r 5 6) with
  | some w => faultRecord w col
  | none => r

/-- The posted records are rebuilt from their walks, so that `WAITERS` counts every access that has joined (R313). -/
def refreshRing (s : State) (col : Nat) : State :=
  s.modCol col fun c => { c with ring := c.ring.map (refreshRecord c.walks col) }

/-- Adds a waiter to the walk of a slot. -/
def joinWalk (fid : Nat) (w : Waiter) (x : Walk) : Walk :=
  if x.fid = fid && !x.waiters.contains w then { x with waiters := x.waiters ++ [w] } else x

/-- The lowest free walk slot. -/
def freeSlot (ws : List Walk) : Option Nat := (List.range Config.walkSlots).find? fun f => ws.all fun x => x.fid ≠ f

/-- A miss joins the walk of its page, or takes a walk slot (R311); with every slot taken it answers none and the access waits. -/
def startWalk (s : State) (col ctx off kind : Nat) (remote : Option (Nat × Nat)) (w : Waiter) : Option State :=
  let ws := (s.col col).walks
  let sh := (walkTable s ctx col off).shift
  match ws.find? (fun x => x.ctx = ctx && x.off / 2 ^ sh = off / 2 ^ sh) with
  | some x => some (refreshRing (s.modCol col fun c => { c with walks := c.walks.map (joinWalk x.fid w) }) col)
  | none =>
    (freeSlot ws).map fun f =>
      s.modCol col fun c => { c with walks := c.walks ++ [⟨f, ctx, off, kind, remote, .walking, [w], s.time⟩] }

/-- The item waits on some walk. -/
def waitsOnWalk (s : State) (w : Waiter) (col : Nat) : Bool := (s.col col).walks.any fun x => x.waiters.contains w

end Sys2Proof.Machine
end

