-- ==== Sys2Proof/Machine/Agent.lean ====
section
/-! DEFINITION. The issuing agent: its slot or thread, its registers, flags, program counter and lanes, on a core and on a streamer alike (R40–R48, R121, R186). -/

namespace Sys2Proof.Machine

open Sys2Proof

def Path.blank : Path := ⟨0, 0, Flags.clear, none, 0, none, .start, none, .none⟩

/-- The context that a slot of a group holds (`false` A, `true` B). -/
def Image.slot (im : Image) (b : Bool) : Option Path := if b then im.slotB else im.slotA

def Image.setSlot (im : Image) (b : Bool) (p : Option Path) : Image := if b then { im with slotB := p } else { im with slotA := p }

def Image.modSlot (im : Image) (b : Bool) (f : Path → Path) : Image := im.setSlot b ((im.slot b).map f)

/-- Reads a k register of a group of `width` lanes: k0 is all ones below the width (R40, R106). -/
def Image.kreg (im : Image) (width r : Nat) : Word := if r = 0 then BitVec.ofNat 64 (2 ^ width - 1) else vget 0 im.k r

/-- Writes a k register: k0 ignores it, bits at or above the width are cleared (R41). -/
def Image.setK (im : Image) (width r : Nat) (x : Word) : Image :=
  if r = 0 then im else { im with k := vmod im.k r fun _ => BitVec.ofNat 64 (x.toNat % 2 ^ width) }

namespace State

/-- The group and slot of the issuing agent. -/
def curGrp (s : State) : Nat := match s.cur with
  | .slot g _ => g
  | .thread _ _ => 0

def curSlot (s : State) : Bool := match s.cur with
  | .slot _ b => b
  | .thread _ _ => false

def onCore (s : State) : Bool := match s.cur with
  | .slot _ _ => true
  | .thread _ _ => false

/-- The issuing group. -/
def me (s : State) : Group := s.grp s.curGrp

/-- The issuing stream thread. -/
def myThread (s : State) : Thread := match s.cur with
  | .thread c t => s.thread c t
  | .slot _ _ => Thread.reset

def modMe (s : State) (f : Group → Group) : State := s.modGroup s.curGrp f

def modMyThread (s : State) (f : Thread → Thread) : State := match s.cur with
  | .thread c t => s.modThread c t f
  | .slot _ _ => s

/-- The context in the issuing slot. -/
def myPath (s : State) : Path := (s.me.image.slot s.curSlot).getD Path.blank

def modMyPath (s : State) (f : Path → Path) : State := s.modMe fun g => { g with image := g.image.modSlot s.curSlot f }

/-- The issuing slot's next instruction does not issue, for want of this. -/
def awaits (s : State) (a : Await) : State := match s.cur with
  | .slot _ _ => s.modMyPath fun p => { p with await := a }
  | .thread _ _ => s

/-- The column of the issuing agent, counted over the device. -/
def myCol (s : State) : Nat := match s.cur with
  | .slot g _ => (s.grp g).col
  | .thread c _ => c

/-- The context (address space) of the issuing agent. -/
def myCtx (s : State) : Nat := match s.cur with
  | .slot g _ => (s.grp g).ctx
  | .thread c t => ((s.thread c t).kick.map (·.ctx)).getD 0

def pc (s : State) : Word := match s.cur with
  | .slot _ _ => s.myPath.pc
  | .thread c t => (s.thread c t).pc

def setPc (s : State) (x : Word) : State := match s.cur with
  | .slot _ _ => s.modMyPath fun p => { p with pc := x }
  | .thread c t => s.modThread c t fun h => { h with pc := x }

def flags (s : State) : Flags := match s.cur with
  | .slot _ _ => s.myPath.flags
  | .thread c t => (s.thread c t).flags

def setFlags (s : State) (f : Flags) : State := match s.cur with
  | .slot _ _ => s.modMyPath fun p => { p with flags := f }
  | .thread c t => s.modThread c t fun h => { h with flags := f }

/-- Writes the error flag alone (R48). -/
def setE (s : State) (e : Bool) : State := s.setFlags { s.flags with e := e }

def prog (s : State) : Prog := match s.cur with
  | .slot _ _ => s.myPath.prog
  | .thread c t => (s.thread c t).prog

def setProg (s : State) (p : Prog) : State := match s.cur with
  | .slot _ _ => s.modMyPath fun x => { x with prog := p }
  | .thread c t => s.modThread c t fun h => { h with prog := p }

/-! ### s registers -/

/-- Reads an s register of the issuing agent: s0 is zero, full and clean (R40). -/
def sreg (s : State) (r : Nat) : SReg :=
  if r = 0 then SReg.zero else
  match s.cur with
  | .slot g _ => vget SReg.zero (s.grp g).image.s r
  | .thread c t => vget SReg.zero (s.thread c t).s r

/-- Sets an s register: s0 ignores it (R40). -/
def putS (s : State) (r : Nat) (x : SReg) : State :=
  if r = 0 then s else
  match s.cur with
  | .slot g _ => s.modImage g fun im => { im with s := vmod im.s r fun _ => x }
  | .thread c t => s.modThread c t fun h => { h with s := vmod h.s r fun _ => x }

/-- The value of an s register. -/
def sval (s : State) (r : Nat) : Word := (s.sreg r).val

/-- A result written at once: full and clean (R43). -/
def writeS (s : State) (r : Nat) (x : Word) : State := s.putS r ⟨x, true, none⟩

/-- The destination of a pending result is marked empty (R43). -/
def emptyS (s : State) (r : Nat) : State := s.putS r { s.sreg r with full := false }

/-! ### v and k registers -/

def vreg (s : State) (r : Nat) : VReg := vget VReg.zero s.me.image.v r

def modV (s : State) (r : Nat) (f : VReg → VReg) : State :=
  s.modImage s.curGrp fun im => { im with v := vmod im.v r f }

/-- One lane of a v register. -/
def vlane (s : State) (r lane : Nat) : Word := vget 0 (s.vreg r).lanes lane

/-- The destination of a pending result is marked empty (R43). -/
def emptyV (s : State) (r : Nat) : State := s.modV r fun v => { v with full := false }

def kreg (s : State) (r : Nat) : Word := s.me.image.kreg s.me.width r

def writeK (s : State) (r : Nat) (x : Word) : State :=
  s.modImage s.curGrp fun im => im.setK s.me.width r x

/-! ### Lanes -/

/-- Lanes of a mask below the group width, ascending. -/
def lanesIn (width : Nat) (m : Word) : List Nat := (List.range width).filter fun l => m.getLsbD l

/-- The issuing slot's lane mask. -/
def slotMask (s : State) : Word := s.myPath.mask

/-- The active lanes: the slot's lanes under the guard (R8). -/
def active (s : State) : Word := s.slotMask &&& s.kreg (s.me.image.mode.toNat % 16)

/-- Active lanes as a list, ascending. -/
def lanes (s : State) : List Nat := lanesIn s.me.width s.active

end State

/-- Writes lanes of a v register; a lane written loses its poison (R146). -/
def VReg.writeLanes (v : VReg) (ls : List (Nat × Word)) : VReg :=
  { v with
    lanes := ls.foldl (fun a p => vmod a p.1 fun _ => p.2) v.lanes
    poison := v.poison.filter fun q => ls.all fun p => p.1 ≠ q.1 }

/-- Writes lanes that a result brings, with their poison. -/
def VReg.writeVals (v : VReg) (ls : List LaneVal) : VReg :=
  let w := v.writeLanes (ls.map fun l => (l.lane, l.val))
  { w with poison := w.poison ++ ls.filterMap fun l => l.poison.map fun p => (l.lane, p) }

/-- The poison of one lane. -/
def VReg.poisonOf (v : VReg) (lane : Nat) : Option Poison := (v.poison.find? fun p => p.1 = lane).map (·.2)

namespace State

/-- Writes lanes of a v register at once (R43). -/
def writeV (s : State) (r : Nat) (ls : List (Nat × Word)) : State := s.modV r fun v => v.writeLanes ls

/-! ### The mode (Table 3-7) -/

def mode (s : State) : Nat := s.me.image.mode.toNat
def etype (s : State) : Nat := bitsOf s.mode 4 4
def round (s : State) : Nat := bitsOf s.mode 8 3
def subn (s : State) : Nat := bitsOf s.mode 11 2
def sat (s : State) : Bool := bitsOf s.mode 13 1 = 1
def srcpol (s : State) (slot : Nat) : Bool := bitsOf s.mode (14 + slot) 1 = 1
def nanprop (s : State) : Bool := bitsOf s.mode 17 1 = 1

end State

end Sys2Proof.Machine
end

