-- ==== Sys2Proof/Machine/Scratch.lean ====
section
/-! DEFINITION. The scratchpad controller: a team's bytes whether it is resident or saved, its buffers and full bits (08_buffers_and_access.md), and the counted barriers (09_barriers_and_channels.md). -/

namespace Sys2Proof.Machine

open Sys2Proof

/-- Changes one entry of a list. -/
def lmod {α : Type} (l : List α) (i : Nat) (f : α → α) : List α := l.modify i f

/-- Which of its cores a core of a team is: 0, or 1 for the upper core of a pair. -/
def Team.part (t : Team) (core : Nat) : Nat := core - t.core

namespace State

/-! ### Bytes of a team's scratchpad: in place, or in its save image (R149) -/

def scrByte (s : State) (t core a : Nat) : Byte :=
  let tm := s.team t
  if tm.resident then s.mem.byte (scrHome tm.col core a) else ((tm.saved.getD (tm.part core) []).getD (a - tm.scrBase) 0)

def scrBytes (s : State) (t core a n : Nat) : List Byte := (List.range n).map fun i => s.scrByte t core (a + i)

def scrNat (s : State) (t core a n : Nat) : Nat := leNat (s.scrBytes t core a n)

/-- Writes bytes into a list from a position on. -/
def overlay (l : List Byte) (a : Nat) (bs : List Byte) : List Byte := l.take a ++ bs ++ l.drop (a + bs.length)

def scrStore (s : State) (t core : Nat) (ps : List (Nat × List Byte)) (carries : Bool) : State :=
  let tm := s.team t
  if tm.resident then { s with mem := s.mem.store (ps.map fun p => (scrHome tm.col core p.1, p.2)) carries }
  else s.modTeam t fun x => { x with
    saved := lmod x.saved (x.part core) fun l => ps.foldl (fun l p => overlay l (p.1 - x.scrBase) p.2) l
    savedPoison := if carries then ps.foldl (fun q p => setPut q (lineOf (scrHome x.col core p.1))) x.savedPoison else x.savedPoison }

/-- The line of a scratchpad byte is poisoned. -/
def scrPoisoned (s : State) (t core a n : Nat) : Bool :=
  let tm := s.team t
  let h := scrHome tm.col core a
  if tm.resident then s.mem.anyPoisoned h n else tm.savedPoison.any fun l => decide (l < h + n) && decide (h < l + 128)

/-! ### Buffers -/

def buf (s : State) (t core b : Nat) : Buffer := ((s.team t).bufs.getD ((s.team t).part core) []).getD b Buffer.blank

def modBuf (s : State) (t core b : Nat) (f : Buffer → Buffer) : State :=
  s.modTeam t fun x => { x with bufs := lmod x.bufs (x.part core) fun l => lmod l b f }

end State

/-- The line of the buffer, counted from its first, that holds the line `ln` of the segment. -/
def Buffer.lineAt (b : Buffer) (ln : Nat) : Option Nat :=
  if b.declared && decide (b.start ≤ ln) && decide (ln < b.start + b.lines) then some (ln - b.start) else none

def Buffer.isFull (b : Buffer) (i : Nat) : Bool := b.bits.getD i false

/-- The bits of `Table 8-4` for a state. -/
def BufState.code : BufState → Nat
  | .empty => 0
  | .filling => 1
  | .full => 2
  | .draining => 3

/-- Sets the full bit of a line; a FILLING buffer whose every line is full becomes FULL (Table 8-2). -/
def Buffer.setLine (b : Buffer) (i : Nat) : Buffer :=
  let bits := b.bits.set i true
  if b.st = .filling && bits.all id then { b with bits := bits, st := .full, owner := none, kick := none, bound := false }
  else { b with bits := bits }

def Buffer.toEmpty (b : Buffer) (keep : Bool) : Buffer :=
  { b with st := .empty, bits := if keep then b.bits else List.replicate b.lines false, owner := none, kick := none, bound := false }

def Buffer.toFull (b : Buffer) (all : Bool) : Buffer :=
  { b with st := .full, bits := if all then List.replicate b.lines true else b.bits, owner := none, kick := none, bound := false }

namespace State

/-- The buffer, and its line, that holds a byte of a team's scratchpad on a core. -/
def bufAt (s : State) (t core a : Nat) : Option (Nat × Nat) :=
  let tm := s.team t
  if a < tm.scrBase then none else
  (List.range 16).findSome? fun b => ((s.buf t core b).lineAt ((a - tm.scrBase) / 128)).map fun i => (b, i)

/-- The buffer lines that bytes of a team's scratchpad reach. -/
def bufLines (s : State) (t core a n : Nat) : List (Nat × Nat) :=
  if n = 0 then [] else
  (List.range ((a + n - 1) / 128 + 1 - a / 128)).filterMap fun i => s.bufAt t core ((a / 128 + i) * 128)

/-- The kinds of access that Table 8-3 tells apart. -/
inductive AccKind where
  | load
  | store
  | atom
  deriving DecidableEq, Repr

/-- Table 8-3 on one buffer line: none performs it; a cause refuses it. -/
def bufRefuses (k : AccKind) (b : Buffer) (i : Nat) : Option Nat :=
  match k, b.st with
  | .load, .empty => if b.isFull i then none else some 0x80
  | .atom, .empty => if b.isFull i then none else some 0x80
  | .store, .empty => none
  | .load, _ => none
  | _, .filling => some 0x81
  | _, .full => none
  | _, .draining => some 0x81

/-- A load meets a FILLING line that is not yet full (Table 8-3). -/
def bufWaits (b : Buffer) (i : Nat) : Bool := b.st = .filling && !b.isFull i

/-- The first refusal of Table 8-3 among bytes of a team's scratchpad, with its detail word. -/
def bufCheck (s : State) (t core a n : Nat) (k : AccKind) : Option (Nat × Nat) :=
  (s.bufLines t core a n).findSome? fun p =>
    let b := s.buf t core p.1
    (bufRefuses k b p.2).map fun c => (c, p.1 + b.st.code * 256)

/-- Some line of the bytes is one that a load waits for. -/
def bufHolds (s : State) (t core a n : Nat) : Bool :=
  (s.bufLines t core a n).any fun p => bufWaits (s.buf t core p.1) p.2

/-- A store that reaches buffer lines sets their full bits (R143). -/
def bufFill (s : State) (t core a n : Nat) : State :=
  (s.bufLines t core a n).foldl (fun s p => s.modBuf t core p.1 fun b => b.setLine p.2) s

end State

/-! ### Results on their way (R398, R146) -/

namespace State

def flipBit (x : Word) (b : Nat) : Word := x ^^^ BitVec.ofNat 64 (2 ^ b)

/-- Strikes a lane of a result on its way. -/
def strikeLanes (k : Option Strike) (ls : List LaneVal) : List LaneVal :=
  match k with
  | none => ls
  | some k => ls.map fun l =>
      if l.lane ≠ k.lane then l
      else if k.kind = 1 then { l with val := flipBit l.val k.bit } else { l with poison := some .line }

/-- Strikes a scalar result on its way. -/
def strikeVal (k : Option Strike) (x : Word) (p : Option Poison) : Word × Option Poison :=
  match k with
  | none => (x, p)
  | some k => if k.kind = 1 then (flipBit x k.bit, p) else (x, some .line)

end State

/-- Lane values from pieces: sub-element values in their places, the poison of any of them. -/
def gatherLanes (ps : List Piece) : List LaneVal :=
  ((ps.map (·.lane)).foldl setPut []).map fun l =>
    let mine := ps.filter fun p => p.lane = l
    ⟨l, BitVec.ofNat 64 (mine.foldl (fun x p => x + p.val % 2 ^ (8 * p.size) * 2 ^ (8 * p.size * p.sub)) 0), mine.findSome? (·.poison)⟩

/-- The result item of a load: lanes, or the single word of a scalar load. -/
def resultItem (d : Dest) (ls : List LaneVal) (k : Option Strike) (load : Bool) : Item :=
  match d with
  | .vreg _ _ => .result d (State.strikeLanes k ls) 0 none load
  | _ =>
    let x := State.strikeVal k ((ls.head?.map (·.val)).getD 0) (ls.head?.bind (·.poison))
    .result d [] x.1 x.2 load

namespace State

/-- What one access of a load reads at the scratchpad: its bytes as a number, and its poison (R156). -/
def scrPiece (s : State) (r : ScrReq) (a : Acc) : Piece :=
  ⟨a.lane, a.sub, a.size, s.scrNat r.team r.core a.addr a.size, if s.scrPoisoned r.team r.core a.addr a.size then some .line else none⟩

/-- The access meets a line that it waits for (Table 8-3). -/
def accHolds (s : State) (r : ScrReq) (a : Acc) : Bool := s.bufHolds r.team r.core a.addr a.size

/-- A load reads the lines that let it, and waits for the others alone (R145, Table 8-3). -/
def readReady (s : State) (r : ScrReq) : ScrReq :=
  { r with waiting := true, accs := r.accs.filter (s.accHolds r), got := r.got ++ (r.accs.filter fun a => !s.accHolds r a).map (s.scrPiece r) }

/-- A load as it stands: the result it brings once every access of it is performed (R145, R156). -/
def loadItem (s : State) (r : ScrReq) : Item :=
  let x := s.readReady r
  match x.accs, x.dst with
  | [], some d => resultItem d (gatherLanes x.got) x.strike true
  | _, _ => .scr x

/-- A load that waited goes on with the lines that have become full (R145). -/
def wakeLoad (s : State) (t core : Nat) (f : Flight) : Flight :=
  match f.item with
  | .scr r => if r.waiting && r.op = .load && r.team = t && r.core = core then ⟨f.id, s.loadItem r⟩ else f
  | _ => f

/-- Performs what the loads that wait read of the lines that have just been filled. -/
def wakeLoads (s : State) (t core : Nat) : State := { s with flight := s.flight.map (s.wakeLoad t core) }

/-- A team's store into its scratchpad with the full bits of R143. -/
def scrWrite (s : State) (t core : Nat) (ps : List (Nat × List Byte)) (carries : Bool) : State :=
  (ps.foldl (fun s p => s.bufFill t core p.1 p.2.length) (s.scrStore t core ps carries)).wakeLoads t core

end State

/-! ### Counted barriers (Table 9-1) -/

structure Bar where
  gen : Nat
  dead : Bool
  overflow : Bool
  underflow : Bool
  timeout : Bool
  fault : Bool
  scope : Nat
  kind : Nat
  parity : Nat
  /-- 0 UNINIT, 1 ARMED, 2 COMPLETE, 3 ERROR -/
  st : Nat
  expect : Nat
  remain : Nat
  /-- a reserved bit is set -/
  reserved : Bool
  deriving DecidableEq, Repr

/-- The object that sixteen bytes hold. -/
def Bar.ofNat (x : Nat) : Bar :=
  { gen := bitsOf x 104 8, dead := bitsOf x 100 1 = 1, overflow := bitsOf x 99 1 = 1, underflow := bitsOf x 98 1 = 1,
    timeout := bitsOf x 97 1 = 1, fault := bitsOf x 96 1 = 1, scope := bitsOf x 68 2, kind := bitsOf x 67 1, parity := bitsOf x 66 1,
    st := bitsOf x 64 2, expect := bitsOf x 32 32, remain := bitsOf x 0 32,
    reserved := bitsOf x 112 16 != 0 || bitsOf x 101 3 != 0 || bitsOf x 70 26 != 0 }

def bit (b : Bool) : Nat := if b then 1 else 0

/-- `ERRF` of Table 9-5: DEAD, OVERFLOW, UNDERFLOW, TIMEOUT, FAULT from high to low. -/
def Bar.errf (b : Bar) : Nat := bit b.dead * 16 + bit b.overflow * 8 + bit b.underflow * 4 + bit b.timeout * 2 + bit b.fault

/-- The sixteen bytes of an object, every reserved bit zero. -/
def Bar.toNat (b : Bar) : Nat :=
  b.remain + b.expect * 2 ^ 32 + b.st * 2 ^ 64 + b.parity * 2 ^ 66 + b.kind * 2 ^ 67 + b.scope * 2 ^ 68 + b.errf * 2 ^ 96 + b.gen * 2 ^ 104

/-- An operation treats the object as UNINIT (R166, R167). -/
def Bar.uninit (b : Bar) : Bool := b.st = 0 || b.reserved || b.scope = 3

/-- The count-down of R168 on an object whose `GEN` it carries. -/
def Bar.countdown (b : Bar) (n : Nat) : Bar :=
  if b.st = 3 || n = 0 then b else
  let b := if b.st = 2 then { b with remain := b.expect, st := 1 } else b
  if b.remain < n then { b with st := 3, underflow := true }
  else if b.remain = n then { b with remain := 0, st := 2, parity := 1 - b.parity }
  else { b with remain := b.remain - n }

/-- `bar.init` (Table 9-2, R170). -/
def Bar.init (b : Bar) (c : Nat) : Bar :=
  { gen := (b.gen + 1) % 256, dead := false, overflow := false, underflow := false, timeout := false, fault := false, scope := b.scope,
    kind := b.kind, parity := if c = 0 then 1 else 0, st := if c = 0 then 2 else 1, expect := c, remain := c, reserved := false }

/-- `bar.exp` (Table 9-2). -/
def Bar.addExpect (b : Bar) (n : Nat) : Bar :=
  if b.st = 1 then
    if b.remain + n < 2 ^ 32 then { b with remain := b.remain + n } else { b with st := 3, overflow := true }
  else if b.st = 2 then
    if b.expect + n = 0 then b
    else if b.expect + n < 2 ^ 32 then { b with st := 1, remain := b.expect + n } else { b with st := 3, overflow := true }
  else b

/-- An error event (Table 9-2): flags 0 FAULT, 1 TIMEOUT, 2 UNDERFLOW, 3 OVERFLOW, 4 DEAD. -/
def Bar.error (b : Bar) (flag : Nat) : Bar :=
  let b := { b with st := 3 }
  if flag = 0 then { b with fault := true } else if flag = 1 then { b with timeout := true }
  else if flag = 2 then { b with underflow := true } else if flag = 3 then { b with overflow := true } else { b with dead := true }

/-- The snapshot of `bar.test` (Table 9-5): an object that is treated as UNINIT shows that state (R167). -/
def Bar.snapshot (b : Bar) : Nat :=
  b.remain + (if b.uninit then 0 else b.st) * 2 ^ 35 + b.parity * 2 ^ 37 + b.scope * 2 ^ 38 + b.kind * 2 ^ 40 + b.errf * 2 ^ 41 + b.gen * 2 ^ 46

namespace State

def barRead (s : State) (t core a : Nat) : Bar := Bar.ofNat (s.scrNat t core a 16)

/-- The atomic unit writes the object back; buffer states leave it alone (R167). -/
def barWrite (s : State) (t core a : Nat) (b : Bar) : State := s.scrStore t core [(a, leBytes 16 b.toNat)] false

/-- A count-down that carries a generation (R168); it answers whether the object was UNINIT. -/
def barCount (s : State) (x : BarBind) (n : Nat) : State × Bool :=
  let b := s.barRead x.team x.core x.addr
  if b.uninit then (s, true)
  else if x.gen ≠ b.gen || b.st = 3 || n = 0 then (s, false)
  else (s.barWrite x.team x.core x.addr (b.countdown n), false)

/-- An error event that carries a generation (R168): discarded when stale or UNINIT. -/
def barFail (s : State) (x : BarBind) (flag : Nat) : State :=
  let b := s.barRead x.team x.core x.addr
  if b.uninit || x.gen ≠ b.gen then s else s.barWrite x.team x.core x.addr (b.error flag)

/-- Binds a barrier at its current generation. -/
def barBind (s : State) (t core a : Nat) : BarBind := ⟨t, core, a, (s.barRead t core a).gen⟩

end State

end Sys2Proof.Machine
end

