-- ==== Sys2Proof/Machine/Homes.lean ====
section
/-! DEFINITION. Reading and writing the homes of TAL, GLB and ARG: stores, the L1 caches (R156, R158), and the accesses of an agent that have passed their checks and are not performed yet (R254, R263, R264, R268). -/

namespace Sys2Proof.Machine

open Sys2Proof

/-! ### Atomic operations (Table 3-25) -/

/-- The new value at a location of `w` bits. -/
def atomNew (op w : Nat) (signed : Bool) (old x c : Nat) : Nat :=
  let lt : Nat → Nat → Bool := fun a b => if signed then asSigned w a < asSigned w b else a < b
  match op with
  | 0 => (old + x) % 2 ^ w
  | 1 => if lt x old then x else old
  | 2 => if lt old x then x else old
  | 3 => old &&& x
  | 4 => old ||| x
  | 5 => old ^^^ x
  | 6 => x
  | 7 => if old = c then x else old
  | 8 => max old x
  | _ => if x ≤ old then 0 else (old + 1) % 2 ^ w

namespace State

/-! ### Stores at homes -/

/-- Byte of a queue descriptor that no store changes (Table 17-1 `RO`): `HEAD`, the reserved bytes, `ERRCODE`, `ERRTICK`, `STATE`. -/
def roByte (s : State) (a : Nat) : Bool :=
  let b := (recQtabPa s.record)
  decide (b ≤ a) && decide (a < b + 16384) && ((24 ≤ (a - b) % 64 && (a - b) % 64 < 32) || decide (34 ≤ (a - b) % 64))

/-- The byte of a queue descriptor whose low half alone a store changes: `LOG2SZ` lies beneath reserved bits (Table 17-1 [263:260]). -/
def roHalf (s : State) (a : Nat) : Bool :=
  let b := (recQtabPa s.record)
  decide (b ≤ a) && decide (a < b + 16384) && (a - b) % 64 = 32

/-- Puts the read-only bits of queue descriptors back after a store of these pieces: what `old` has there (R283). -/
def keepRo (s : State) (old : Memory) (ps : List (Nat × Nat)) (m : Memory) : Memory :=
  (ps.flatMap fun p => (List.range p.2).map fun i => p.1 + i).foldl (fun m a =>
    if s.roByte a then m.put a (old.byte a)
    else if s.roHalf a then m.put a (BitVec.ofNat 8 ((m.byte a).toNat % 16 + (old.byte a).toNat / 16 * 16))
    else m) m

/-- A store at homes by any agent of the device (R339–R341). -/
def storeHome (s : State) (ps : List (Nat × List Byte)) (carries : Bool) : State :=
  { s with mem := s.keepRo s.mem (ps.map fun p => (p.1, p.2.length)) (s.mem.store ps carries) }

/-! ### The L1 caches -/

/-- A store's bytes in one line of an L1 cache; one that writes all of the line clears or keeps the mark as the home has it (R340). -/
def l1Line (m : Memory) (ps : List (Nat × List Byte)) (l : L1Line) : L1Line :=
  if l.invariant then l
  else { l with
    bytes := ps.foldl (fun bs p => (List.range p.2.length).foldl (fun bs i =>
      if l.line ≤ p.1 + i && p.1 + i < l.line + 128 then bs.set (p.1 + i - l.line) (p.2.getD i 0) else bs) bs) l.bytes
    poisoned := if Memory.covers ps l.line then m.isPoisoned l.line else l.poisoned }

/-- Stores to a core's lines keep its L1 copies of them current (R156). -/
def l1Store (s : State) (col core : Nat) (ps : List (Nat × List Byte)) : State :=
  s.modCore col core fun k => { k with l1 := k.l1.map (l1Line s.mem ps) }

/-- The line of an L1 cache that holds an address, for an ordinary load (R156) or for `vldi` (R158). -/
def l1Find (k : Core) (line : Nat) (inv : Bool) : Option L1Line := k.l1.find? fun l => l.line = line && l.invariant = inv

/-- A line as its home holds it. -/
def homeLine (s : State) (line : Nat) (inv : Bool) : L1Line := ⟨line, s.mem.bytes line 128, s.mem.isPoisoned line, inv⟩

/-- Puts a line into the L1 of a core; the line held longest makes room. -/
def l1Put (s : State) (col core line : Nat) (inv : Bool) : State :=
  s.modCore col core fun k => { k with l1 := (s.homeLine line inv :: k.l1).take Config.l1Lines }

/-- Brings a line into the L1 of a core unless it is there. -/
def l1Fill (s : State) (col core line : Nat) (inv : Bool) : State :=
  match l1Find (s.core col core) line inv with
  | some _ => s
  | none => s.l1Put col core line inv

/-- One byte as the L1 of a core has it, the home where it has none. -/
def l1Byte (s : State) (col core a : Nat) (inv : Bool) : Byte :=
  match l1Find (s.core col core) (lineOf a) inv with
  | some l => l.bytes.getD (a - lineOf a) 0
  | none => s.mem.byte a

def l1Poisoned (s : State) (col core a : Nat) (inv : Bool) : Bool :=
  match l1Find (s.core col core) (lineOf a) inv with
  | some l => l.poisoned
  | none => s.mem.isPoisoned a

/-- The column whose memory a home lies in. -/
def homeCol (h : Nat) : Nat := if 2 ^ 42 ≤ h then (h - 2 ^ 42) / 2 ^ 25 else if 2 ^ 41 ≤ h then (h - 2 ^ 41) / 2 ^ 22 else h / 2 ^ 35

/-- The lines that pieces reach. -/
def pieceLines (ps : List (Nat × Nat)) : List Nat := (ps.flatMap fun p => Memory.spanLines p.1 p.2).foldl setPut []

/-- Splits the bytes of an access over its pieces. -/
def cutBytes : List (Nat × Nat) → List Byte → List (Nat × List Byte)
  | [], _ => []
  | p :: ps, bs => (p.1, bs.take p.2) :: cutBytes ps (bs.drop p.2)

/-! ### Accesses that are not performed yet -/

/-- Two lists of pieces have a byte in common. -/
def meetPieces (ps qs : List (Nat × Nat)) : Bool :=
  ps.any fun p => qs.any fun q => decide (p.1 < q.1 + q.2) && decide (q.1 < p.1 + p.2)

/-- The pieces of a late access. -/
def latePieces (l : Late) : List (Nat × Nat) := l.accs.flatMap (·.pieces)

/-- The pieces of a late store with their bytes, lane by lane. -/
def lateBytes (l : Late) : List (Nat × List Byte) := l.accs.flatMap fun a => cutBytes a.pieces (leBytes a.size a.data)

/-- The late access is of this core (`thr` none), or of this stream thread. -/
def lateOf (col core : Nat) (thr : Option Nat) (l : Late) : Bool := l.col = col && l.thr = thr && (thr.isSome || l.core = core)

/-- The last of the agent's own stores placed before `bound` that writes the byte: its loads see it though it is not performed (R156, R263). -/
def lateByte (s : State) (col core : Nat) (thr : Option Nat) (bound a : Nat) : Option Byte :=
  s.flight.foldl (fun o f => if f.id < bound then
    match f.item with
    | .late l =>
      if lateOf col core thr l && l.op = .store then
        (lateBytes l).foldl (fun o p => if p.1 ≤ a ∧ a < p.1 + p.2.length then some (p.2.getD (a - p.1) 0) else o) o
      else o
    | _ => o
    else o) none

/-- One byte as a core sees it: its own stores first, then its L1 (R156, R263). -/
def coreByte (s : State) (col core bound a : Nat) (inv : Bool) : Byte := (s.lateByte col core none bound a).getD (s.l1Byte col core a inv)

/-- A load of a core at homes, after its stores placed before `bound`: it fills the L1 lines it misses, and answers the bytes and whether a line is poisoned (R156). -/
def loadAt (s : State) (col core bound : Nat) (ps : List (Nat × Nat)) (inv : Bool) : State × List Byte × Bool :=
  let s := (pieceLines ps).foldl (fun s l => s.l1Fill col core l inv) s
  (s, ps.flatMap fun p => (List.range p.2).map fun i => s.coreByte col core bound (p.1 + i) inv, (pieceLines ps).any fun l => s.l1Poisoned col core l inv)

/-- A load of a core that is performed at its issue. -/
def loadPieces (s : State) (col core : Nat) (ps : List (Nat × Nat)) (inv : Bool) : State × List Byte × Bool := s.loadAt col core s.nextId ps inv

/-- A read at the homes themselves: stream threads, matrix queues, the hardware (R256). -/
def readPieces (s : State) (ps : List (Nat × Nat)) : List Byte × Bool :=
  (ps.flatMap fun p => s.mem.bytes p.1 p.2, (pieceLines ps).any s.mem.isPoisoned)

/-- A read of a stream thread at the homes, after its own stores placed before `bound`. -/
def readAt (s : State) (col thr bound : Nat) (ps : List (Nat × Nat)) : List Byte × Bool :=
  (ps.flatMap fun p => (List.range p.2).map fun i => (s.lateByte col 0 (some thr) bound (p.1 + i)).getD (s.mem.byte (p.1 + i)),
   (pieceLines ps).any s.mem.isPoisoned)

/-- The pieces of a remote access of a core to its own column, as the page table has them (R366). -/
def reqPieces (s : State) (r : Remote) : List (Nat × Nat) :=
  let n := if r.bytes.isEmpty then r.size else r.bytes.length
  let cut := 65536 - r.off % 65536
  let ps := if n ≤ cut then [(r.off, n)] else [(r.off, cut), ((r.off + cut) % 2 ^ 48, n - cut)]
  ps.filterMap fun p => match walkTable s r.ctx r.tcol p.1 with
    | .leaf e l _ => some (leafHome r.tcol e (levelShift l) p.1, p.2)
    | _ => none

/-- The request is one of a core's instructions to its own column, and not performed yet. -/
def ownRequest (col core : Nat) (r : Remote) : Bool :=
  r.dev.isNone && r.host.isNone && r.answer.isNone && r.col = col && r.tcol = col && r.core = core && (match r.why with
    | .lane _ _ _ => true
    | _ => false)

/-- An earlier access of the agent to some of these bytes is not performed yet, so that this one is performed after it (R254, R261, R266); a load passes its agent's stores, whose bytes it sees. -/
def clash (s : State) (col core : Nat) (thr : Option Nat) (bound : Nat) (load : Bool) (ps : List (Nat × Nat)) : Bool :=
  s.flight.any fun f => decide (f.id < bound) && (match f.item with
    | .late l => lateOf col core thr l && !(load && l.op = .store) && meetPieces (latePieces l) ps
    | .remote r => thr.isNone && ownRequest col core r && meetPieces (s.reqPieces r) ps
    | _ => false)

/-- The lanes of an atomic at their homes, ascending, each one step (R163): the values they return. -/
def atomHomes (s : State) (col core : Nat) (op w : Nat) (signed : Bool) : List LateAcc → State × List Piece
  | [] => (s, [])
  | a :: as =>
    let h := (a.pieces.head?.map (·.1)).getD 0
    let old := s.mem.nat h (w / 8)
    let bad := s.mem.isPoisoned h
    let ps := [(h, leBytes (w / 8) (atomNew op w signed old a.data a.cmp))]
    let t := atomHomes ((s.storeHome ps false).l1Store col core ps) col core op w signed as
    (t.1, ⟨a.lane, 0, 8, old, if bad then some .line else none⟩ :: t.2)

/-- Reads the accesses of a late load. -/
def lateReads (s : State) (l : Late) (bound : Nat) (inv : Bool) : List LateAcc → State × List Piece
  | [] => (s, [])
  | a :: as =>
    let r := match l.thr with
      | some t => (s, s.readAt l.col t bound a.pieces)
      | none => s.loadAt l.col l.core bound a.pieces inv
    let t := lateReads r.1 l bound inv as
    (t.1, ⟨a.lane, a.sub, a.size, leNat r.2.1, if r.2.2 then some .line else none⟩ :: t.2)

/-- The value on its way to the register that a late access is for. -/
def lateResult (s : State) (id : Nat) (l : Late) (ps : List Piece) : State :=
  match l.dst with
  | some d => s.setItem id (resultItem d (gatherLanes ps) l.strike true)
  | none => s.drop id

/-- A late access is performed at its homes (R254). -/
def performLate (s : State) (id : Nat) : State :=
  match s.item id with
  | some (.late l) =>
    match l.op with
    | .store =>
      let t := (s.drop id).storeHome (lateBytes l) false
      if l.thr.isSome then t else t.l1Store l.col l.core (lateBytes l)
    | .load inv =>
      let r := s.lateReads l id inv l.accs
      r.1.lateResult id l r.2
    | .atom op w signed =>
      let r := s.atomHomes l.col l.core op w signed l.accs
      r.1.lateResult id l r.2
  | _ => s

/-- The late access can be performed: no earlier one of its agent to its bytes stands before it. -/
def latePerforms (s : State) (id : Nat) (l : Late) : Bool :=
  !s.clash l.col l.core l.thr id (match l.op with
    | .load _ => true
    | _ => false) (latePieces l)

/-- Performs late accesses in the order of their issue: those for which `p` holds. -/
def settle (s : State) (p : Late → Bool) : State :=
  (s.flight.filter fun f => match f.item with
    | .late l => p l
    | _ => false).foldl (fun s f => s.performLate f.id) s

/-- The late stores that are due, the oldest first. -/
def dueLate (s : State) : Option Nat :=
  (s.flight.find? fun f => match f.item with
    | .late l => l.op = .store && s.latePerforms f.id l
    | _ => false).map (·.id)

/-- A store of a core: at the homes and in its own L1 (R156). -/
def storeCore (s : State) (col core : Nat) (ps : List (Nat × List Byte)) : State := (s.storeHome ps false).l1Store col core ps

end State

end Sys2Proof.Machine
end

