-- ==== Sys2Proof/Machine/Ops.lean ====
section
/-! DEFINITION. The shared operations: releases and acquires (R255, R256), the end of a launch and of a context, taking a trap and returning from it (20_traps.md), rollback and escalation (R351–R354), the fault of a stream thread (R208), and the way an instruction issues (R42–R44, R54, R122). -/

namespace Sys2Proof.Machine

open Sys2Proof

/-- A cause an instruction raises. -/
structure Trap where
  cause : Nat
  detail : Nat
  /-- `ADDR` of the frame, if an address is involved -/
  addr : Option Word
  /-- `FLANE` -/
  lane : Nat
  /-- the frame's `PC` is the next instruction (R325) -/
  next : Bool
  /-- `addr` is a CODE offset -/
  code : Bool
  deriving DecidableEq, Repr

/-- A cause with its detail word and no address. -/
def Trap.of (cause detail : Nat) : Trap := ⟨cause, detail, none, 0, false, false⟩

/-- Why an instruction does not complete: it raises a cause, or it does not issue and leaves the state given (R122). -/
inductive Stop where
  | trap (t : Trap)
  /-- it raises a cause, and the state has changed by what it did to others -/
  | trapIn (s : State) (t : Trap)
  | hold (s : State)
  /-- its context has been killed (R354) -/
  | gone (s : State)
  deriving DecidableEq, Repr

abbrev Eff (α : Type) := Except Stop α

abbrev Out' := Host.Outcome State Fault Refusal

def trap {α : Type} (cause : Nat) (detail : Nat := 0) : Eff α := .error (.trap (Trap.of cause detail))

def hold {α : Type} (s : State) : Eff α := .error (.hold s)

/-! ### Fields of the launch record (Table 18-1) -/

namespace Launch

def entry (l : Launch) : Word := BitVec.ofNat 64 (bv l.record 0 64)
def shape (l : Launch) : Nat := bv l.record 640 64
def width (l : Launch) : Nat := 16 * 2 ^ bitsOf l.shape 0 2
def ngroups (l : Launch) : Nat := bitsOf l.shape 8 8
def nv (l : Launch) : Nat := bitsOf l.shape 16 7
def ns (l : Launch) : Nat := bitsOf l.shape 24 7
def coop (l : Launch) : Bool := bitsOf l.shape 51 1 = 1
def ridge (l : Launch) : Bool := bitsOf l.shape 52 1 = 1
def indirect (l : Launch) : Bool := bitsOf l.shape 53 1 = 1
def pairs (l : Launch) : Bool := bitsOf l.shape 54 1 = 1
def prio (l : Launch) : Nat := bitsOf l.shape 58 2
def weight (l : Launch) : Nat := bitsOf l.shape 60 4
def roundUp (n : Nat) : Nat := (n + 127) / 128 * 128
def scrb (l : Launch) : Nat := roundUp (bv l.record 768 32)
def cairnb (l : Launch) : Nat := roundUp (bv l.record 800 32)

end Launch

namespace State

/-! ### Releases and acquires (R255, R256) -/

/-- The phases of the issuing agent: its core's, or its thread's. -/
def phases (s : State) : Phase := match s.cur with
  | .slot g _ => (s.core (s.grp g).col (s.grp g).core).phase
  | .thread c t => (s.thread c t).phase

def modPhases (s : State) (f : Phase → Phase) : State := match s.cur with
  | .slot g _ => s.modCore (s.grp g).col (s.grp g).core fun k => { k with phase := f k.phase }
  | .thread c t => s.modThread c t fun h => { h with phase := f h.phase }

/-- Opens a release of the issuing agent at a scope; its number is the next one. With three tags open it holds (R255). -/
def openRelease (s : State) (scope : Nat) : Option State :=
  if 3 ≤ s.phases.opened.length then none else
  let id := s.nextId
  let s := s.modPhases fun p => { p with counter := p.counter + 1, opened := p.opened ++ [id] }
  some (s.place (match s.cur with
    | .slot g _ => .release (s.grp g).col (s.grp g).core false scope
    | .thread c t => .release c t true scope))

/-- The item is a load or atomic of the core whose result has not returned (R256 step 1). -/
def loadOf (s : State) (col core : Nat) (i : Item) : Bool :=
  let of (d : Dest) : Bool := match d with
    | .vreg g _ => decide ((s.grp g).col = col) && decide ((s.grp g).core = core)
    | .sreg g _ => decide ((s.grp g).col = col) && decide ((s.grp g).core = core)
    | .thread _ _ _ => false
  match i with
  | .result d _ _ _ load => load && of d
  | .late l => (l.dst.map of).getD false
  | .gather d _ _ _ => of d
  | .scr r => (match r.op with | .load => true | .atom _ _ => true | _ => false) && (r.dst.map of).getD false
  | _ => false

/-- The item is a load of the stream thread whose result has not returned. -/
def loadOfThread (c t : Nat) (i : Item) : Bool :=
  match i with
  | .result (.thread c' t' _) _ _ _ load => load && c' = c && t' = t
  | .late l => l.thr = some t && l.col = c && l.dst.isSome
  | .scr r => r.thr = some t && r.col = c && decide (r.op = .load)
  | _ => false

/-- Some load or atomic that the issuing agent made before `bound` has not returned. -/
def loadsPending (s : State) (bound : Nat) : Bool :=
  s.flight.any fun f => decide (f.id < bound) && (match s.cur with
    | .slot g _ => s.loadOf (s.grp g).col (s.grp g).core f.item
    | .thread c t => loadOfThread c t f.item)

/-- Step 2 of an acquire: the core drops its lines but those filled by `vldi` (R256, R158). -/
def dropLines (s : State) : State := match s.cur with
  | .slot g _ => s.modCore (s.grp g).col (s.grp g).core fun k => { k with l1 := k.l1.filter (·.invariant) }
  | .thread _ _ => s

/-- The end of an instruction that acquires: it waits for the loads placed before `bound`, then drops the lines (R256). -/
def acquireFrom (s : State) (bound : Nat) (e : Bool) : Eff State :=
  if s.loadsPending bound then hold ((s.setProg (.released bound e)).awaits (.loads bound)) else .ok s.dropLines

/-- The acquire of an instruction that then writes E (R172, R257). -/
def acquireE (s : State) (e : Bool) : Eff State :=
  match s.prog with
  | .released bound e => (s.acquireFrom bound e).map fun t => t.setE e
  | _ => (s.acquireFrom s.nextId e).map fun t => t.setE e

/-! ### Sealing (R350) -/

/-- A publication seals every open region of the issuing agent (R350, R355). -/
def sealAll (s : State) : State := match s.cur with
  | .slot g _ => s.modGroup g fun x => { x with regions := x.regions.map fun r => { r with sealed := true } }
  | .thread c t => s.modThread c t fun h => { h with regions := h.regions.map fun r => { r with sealed := true } }

/-- A store of a group to lines of TAL or GLB that its innermost region does not preserve seals every region that is not IDEM (R350). -/
def sealStore (s : State) (g : Nat) (lines : List Nat) : State :=
  s.modGroup g fun x => match x.regions with
    | [] => x
    | r :: rs =>
      if lines.all fun l => r.undo.any fun u => u.line = l then x
      else { x with regions := (r :: rs).map fun r => if r.idem then r else { r with sealed := true } }

/-- The same for a stream thread, which preserves no line (R355). -/
def sealThreadStore (s : State) (c t : Nat) : State :=
  s.modThread c t fun h => { h with regions := h.regions.map fun r => if r.idem then r else { r with sealed := true } }

/-! ### Queues: status words (R284) -/

def qSize (q : Queue) : Nat := 2 ^ (q.log2sz + 4)

/-- Home address of the status word of a ticket (R283). -/
def statAddr (s : State) (q t : Nat) : Nat := (s.queue q).statPa + 8 * (t % qSize (s.queue q))

def writeStatus (s : State) (q t status detail : Nat) : State :=
  { s with mem := s.mem.storeNat (s.statAddr q t) 8 (status + detail % 2 ^ 24 * 2 ^ 8 + t % 2 ^ 32 * 2 ^ 32) }

/-- A context goes FAULTED (R272). -/
def faultCtx (s : State) (c : Nat) : State := s.modCtx c fun x => if x.st = .active then { x with st := .faulted } else x

/-- A launch that ended FAILED or LAUNCH_ERROR puts its queue in ERROR, the first failure being kept (R288). -/
def errQueue (s : State) (q t code : Nat) : State :=
  let old := s.queue q
  if old.st = .disabled then s else
  let s := if old.st = .error then s else s.setQueue q fun x => { x with st := .error, errTick := t % 2 ^ 32, errCode := code }
  s.faultCtx old.ctx

/-- The launch has been dispatched and has no final status (Table 18-4). -/
def Launch.live (l : Launch) : Bool :=
  l.st = .waitingDeps || l.st = .admitting || l.st = .running || l.st = .draining || l.st = .failing

/-- The launch has been dispatched, has no final status and has not been stopped. -/
def Launch.going (l : Launch) : Bool := Launch.live l && l.st ≠ .failing

/-- A launch of the queue is in flight. -/
def inFlight (s : State) (q : Nat) : Bool := s.launches.any fun l => l.queue = q && Launch.live l

/-- The head entry of a queue is READY (R286). -/
def headReady (s : State) (q : Nat) : Bool :=
  let x := s.queue q
  let w := s.mem.nat (s.statAddr q x.head) 8
  bitsOf w 0 8 = 1 && bitsOf w 32 32 = x.head % 2 ^ 32

/-- What the end of a launch does to its queue: the head is examined (R289), a wait for it ends, a queue with nothing in flight goes IDLE or, where a disable command waits, DISABLED (Table 17-4). -/
def settleQueue (s : State) (q : Nat) : State :=
  let x := s.queue q
  if x.st = .disabled then s
  else if x.disabling && !s.inFlight q then s.setQueue q fun y => { y with st := .disabled, disabling := false, wake := false }
  else
    let waits := s.launches.any fun l => l.queue = q && (l.st = .waitingDeps || l.st = .admitting)
    let st := if x.st = .blocked && !waits then .running else x.st
    let st := if st = .running && !s.inFlight q && !s.headReady q then .idle else st
    s.setQueue q fun y => { y with st := st, wake := true }

/-! ### The end of a launch (R279, R353) -/

/-- The register a result is bound for belongs to a group that `p` accepts. -/
def destOf (p : Nat → Bool) : Dest → Bool
  | .vreg g _ => p g
  | .sreg g _ => p g
  | .thread _ _ _ => false

/-- Work in progress of groups, kicks and teams that end; the rows of an epilogue that has started are written (R279). -/
def workOf (grp kick team : Nat → Bool) : Item → Bool
  | .result d _ _ _ _ => destOf grp d
  | .gather d _ _ _ => destOf grp d
  | .csmov d _ _ _ => destOf grp d
  | .late l => grp l.grp
  | .scr r => (r.grp.map fun x => grp x.1).getD (team r.team)
  | .kick k _ _ _ _ _ _ => team k.team
  | .xfer x => kick x.kick
  | .mcline _ t _ _ _ _ _ => team t
  | .chan t _ _ _ => team t
  | .grant t _ _ _ => team t
  | .mx m => team m.team
  | .countdown b _ _ _ => team b.team
  | .barError b _ => team b.team
  | _ => false

/-- A remote write of a discarded transfer that has not been sent (R279). -/
def unsentOf (kick : Nat → Bool) (fl : List Flight) : Item → Bool
  | .remote r => !r.sent && (match r.why with
    | .element x _ => fl.any fun f => f.id = x && (match f.item with
      | .xfer y => kick y.kick
      | _ => false)
    | _ => false)
  | _ => false

/-- A vector on its way to a group of a launch. -/
def permOf (l : Nat) : Item → Bool
  | .perm v _ => v.launch = l
  | _ => false

def Thread.freed (h : Thread) : Thread := { Thread.reset with phase := h.phase, credit := h.credit }

/-- A group ends with no region committed. -/
def exitGroup (g : Group) : Group :=
  let im := { g.image with slotA := none, slotB := none, stack := [] }
  { g with st := .exited, privileged := false, halted := false, susp := .none, replay := none, frameWait := none, regions := [], async := [], walkFault := none, image := im }

/-- Stops all work of a launch: its groups exit, its stream threads become FREE, its matrix instructions and chunks are dropped (R279). -/
def stopLaunch (s : State) (l : Nat) : State :=
  let s := s.settle fun x => (s.grp x.grp).launch = l
  let isTeam := fun t => (s.team t).launch = l
  let isGrp := fun g => (s.grp g).launch = l
  let kicksOf := fun (hs : List Thread) => hs.filterMap fun h => (h.kick.filter fun k => k.launch = l).map (·.id)
  let kicks := kicksOf (s.cols.flatMap fun c => c.threads.toList) ++ kicksOf (s.ctxs.flatMap fun c => c.saved.map (·.2))
  let clearThread := fun (h : Thread) => if (h.kick.map fun k => decide (k.launch = l)).getD false then Thread.freed h else h
  let clearCore := fun (k : Core) => { k with
    kicks := k.kicks.filter fun x => x.launch ≠ l
    latches := k.latches.filter fun a => !isGrp a.grp
    perms := k.perms.filter fun p => p.launch ≠ l
    resident := k.resident.filter fun r => !isTeam r.team }
  { s with
    groups := s.groups.map fun g => if g.launch = l then exitGroup g else g
    teams := s.teams.map fun t => if t.launch = l then { t with ended := true, resident := false } else t
    flight := s.flight.filter fun f => !workOf isGrp kicks.contains isTeam f.item && !permOf l f.item && !unsentOf kicks.contains s.flight f.item
    ctxs := s.ctxs.map fun c => { c with saved := c.saved.filter fun x => (x.2.kick.map fun k => decide (k.launch ≠ l)).getD true }
    cols := s.cols.map fun c => { c with
      threads := c.threads.map clearThread
      cores := c.cores.map clearCore
      keys := c.keys.filter fun k => !(k.armed && isTeam k.team) } }

/-- A write of a launch is on its way to its home: the launch's device-scope release waits for it (R259, R286). -/
def writeOf (s : State) (l : Nat) (i : Item) : Bool :=
  match i with
  | .remote r => r.launch = l && r.answer.isNone && r.kind ≠ .frame
  | .row r => (s.grp r.grp).launch = l
  | .late x => (s.grp x.grp).launch = l && x.op = .store
  | .release col core false _ => s.teams.any fun t => t.launch = l && t.col = col && (core = t.core || (t.pair && core = t.core + 1))
  | _ => false

/-- The device-scope release of a launch has completed (R259, R299). -/
def released (s : State) (l : Nat) : Bool := !s.flight.any fun f => s.writeOf l f.item

/-- A stopped launch ends FAILED once its release has completed: its status is written, its queue enters ERROR, its context goes FAULTED (R286, R298, R353). -/
def finishFailed (s : State) (l : Nat) : State :=
  let x := s.launch l
  if x.st = .failing && s.released l then
    let s := (s.modLaunch l fun y => { y with st := .failed }).writeStatus x.queue x.ticket 4 (x.cause.getD 0)
    (s.errQueue x.queue x.ticket 4).settleQueue x.queue
  else s

/-- A launch is ended by containment with a cause: its work stops, its context goes FAULTED, and FAILED follows (R298, R353). -/
def failLaunch (s : State) (l cause : Nat) : State :=
  let x := s.launch l
  if !Launch.going x then s
  else
    let s := (s.stopLaunch l).modLaunch l fun y => { y with st := .failing, cause := some (x.cause.getD cause) }
    (s.faultCtx x.ctx).finishFailed l

/-- The leaf of a page takes a state (R312). -/
def setPage (s : State) (leaf st : Nat) : State :=
  let e := s.mem.nat leaf 8
  { s with mem := s.mem.storeNat leaf 8 (e - pteState e * 2 ^ 53 + st * 2 ^ 53) }

/-- A page goes QUARANTINED, from INVALID, VALID, POISONED or FREE (Table 19-3). -/
def quarantine (s : State) (leaf : Nat) : State :=
  let e := s.mem.nat leaf 8
  if pteLeaf e && (pteState e ≤ 2 || pteState e = 5) then s.setPage leaf 3 else s

/-- The leaves that map a range of a column, each as eight times its address plus its level (R273). -/
def leavesOf (s : State) (ctx col base units : Nat) : List Nat :=
  (List.range (min units 4096)).foldl (fun a i => match walkTable s ctx col ((base + 65536 * i) % 2 ^ 48) with
    | .leaf _ l at_ => setPut a (8 * at_ + l)
    | _ => a) []

/-- The leaves of the pages of a context's save area in every column of its partition (R273, R279). -/
def saveLeaves (s : State) (c : Nat) : List Nat :=
  let r := (s.ctx c).record
  (List.range (s.ncol c)).flatMap fun k => s.leavesOf c (s.colOf c k) (bv r 272 48) (bv r 352 32)

/-- The leaf in which the walk of an offset ends, if it ends in one. -/
def leafAt (s : State) (ctx col off : Nat) : Option Nat :=
  match walkTable s ctx col off with
  | .leaf _ l a => some (8 * a + l)
  | .absent e l a bad => if pteLeaf e && !bad then some (8 * a + l) else none
  | .struck => none

/-- The pages for which accesses of a context wait (R313, R321). -/
def awaitedLeaves (s : State) (c : Nat) : List Nat :=
  (List.range s.cols.length).flatMap fun k => ((s.col k).walks.filter fun w => w.ctx = c).filterMap fun w => s.leafAt c k w.off

/-- The pages of a context whose frames lie in columns that no longer serve memory (R21, R312). -/
def lostLeaves (s : State) (c : Nat) : List Nat :=
  (List.range (s.ncol c)).flatMap fun n => if s.colDead (s.colOf c n) then allLeaves s c (s.colOf c n) else []

/-- A page that a context touched (R279). -/
def touchPage (s : State) (ctx leaf : Nat) : State := s.modCtx ctx fun c => { c with pages := setPut c.pages leaf }

/-- The hardware touches the page of an offset. -/
def touchAt (s : State) (ctx col off : Nat) : State :=
  match walkTable s ctx col off with
  | .leaf _ l a => s.touchPage ctx (8 * a + l)
  | _ => s

/-- The chunks of a pod context id leave an endpoint (R279). -/
def chunkOf (pod : Nat) (i : Item) : Bool :=
  match i with
  | .frame _ f => f.pod = pod && pod ≠ 0
  | .remote r => !r.sent && pod ≠ 0 && (match r.why with
    | .frame _ f => f.pod = pod
    | _ => false)
  | _ => false

/-- The walker and the endpoints of a column drop what is a context's: its walks with their records, and its keys (R279, R314). -/
def dropCtx (c pod : Nat) (k : Column) : Column :=
  { k with
    walks := k.walks.filter fun w => w.ctx ≠ c
    ring := k.ring.filter fun r => bv r 5 6 ≠ c
    keys := k.keys.filter fun y => y.key.pod ≠ pod || pod = 0 }

/-- A kill of a context: all its work stops, its queues are DISABLED, the pages it touched are QUARANTINED, and its launches end FAILED (R279, R288, R312). -/
def killCtx (s : State) (c : Nat) : State :=
  let x := s.ctx c
  if x.st = .unused || x.st = .killed || x.st = .quarantined then s else
  let live := (s.launches.filter fun l => l.ctx = c && Launch.live l).map (·.id)
  let pages := (s.saveLeaves c ++ s.awaitedLeaves c ++ s.lostLeaves c).foldl setPut x.pages
  let pod := bv x.record 128 20
  let s : State := live.foldl (fun (s : State) l => (s.stopLaunch l).modLaunch l fun y => { y with st := .failing }) s
  let qs := (List.range s.queues.length).filter fun q => (s.queue q).ctx = c && (s.queue q).st ≠ .disabled
  let s := qs.foldl (fun (s : State) (q : Nat) => s.setQueue q fun y => { y with st := .disabled, wake := false, disabling := false }) s
  let s : State := { s with cols := s.cols.map (dropCtx c pod), flight := s.flight.filter fun f => !chunkOf pod f.item }
  let s := pages.foldl (fun s a => s.quarantine (a / 8)) s
  let s := s.modCtx c fun y => { y with st := .killed, saved := [], expiry := false, pages := pages }
  live.foldl finishFailed s

/-- A pre-emption of the context is held back: a HALTED group, or a resident team whose images do not fit the save area (R275). -/
def heldBack (s : State) (c : Nat) : Bool :=
  s.groups.any (fun g => g.ctx = c && g.halted) || s.teams.any fun t => t.ctx = c && t.resident && t.exempt && !t.ended && !Launch.ridge (s.launch t.launch)

/-- A pre-emption of the context is under way (R275, R276). -/
def preempting (s : State) (c : Nat) : Bool := ((s.ctx c).st = .active || (s.ctx c).st = .faulted) && (s.ctx c).expiry && !s.heldBack c

/-- A group of the ridge partition, which no pre-emption touches (R275, R303). -/
def ridgeLaunch (s : State) (l : Nat) : Bool := Launch.ridge (s.launch l)

/-- Some buffer of a team is DRAINING (R149). -/
def teamDraining (s : State) (t : Nat) : Bool := (s.team t).bufs.any fun bs => bs.any fun b => b.st = .draining

/-- The contexts whose agents run: ACTIVE and FAULTED ones (R272). -/
def ctxRuns (s : State) (c : Nat) : Bool := (s.ctx c).st = .active || (s.ctx c).st = .faulted

/-- The first trap cause of a launch is kept for its status word (R298). -/
def noteCause (s : State) (l cause : Nat) : State := s.modLaunch l fun x => { x with cause := some (x.cause.getD cause) }

/-! ### Taking a trap (R324–R329) -/

/-- `sr.cc` of a slot's flags (Table 3-10). -/
def ccOf (f : Flags) : Nat := bit f.z + bit f.n * 2 + bit f.c * 4 + bit f.v * 8 + bit f.e * 16

def ofCc (x : Nat) : Flags :=
  ⟨bitsOf x 0 1 = 1, bitsOf x 1 1 = 1, bitsOf x 2 1 = 1, bitsOf x 3 1 = 1, bitsOf x 4 1 = 1⟩

/-- The pointer names another column or device (Table 20-2 `REMOTE`). -/
def namesAway (s : State) (addr : Option Word) (num : Nat) : Bool :=
  addr.any fun addr =>
  let dev := bitsOf addr.toNat 54 10
  let c := bitsOf addr.toNat 48 6
  !((dev = 0x3FF || dev = s.dev) && (c = 0x3F || c = num))

/-- The frame of a group (Table 20-1). -/
def frameOf (s : State) (r : Raise) : Nat :=
  let g := s.grp r.grp
  let p := (g.image.slot r.slot).getD Path.blank
  let fl := bit (!r.code && s.namesAway r.addr (s.colNum g.ctx g.col)) + bit r.async * 8 + bit (s.ctx g.ctx).expiry * 32 +
    bit (g.image.slot (!r.slot)).isSome * 64
  r.cause + fl * 2 ^ 8 + bit r.slot * 2 ^ 16 + g.regions.length * 2 ^ 17 + r.lane % 64 * 2 ^ 24 + r.pc.toNat % 2 ^ 32 * 2 ^ 32 +
  r.insn % 2 ^ 32 * 2 ^ 64 + g.image.mode.toNat * 2 ^ 96 + ccOf p.flags * 2 ^ 114 + (r.addr.getD 0).toNat * 2 ^ 128 + r.lanes.toNat * 2 ^ 192 +
  r.detail % 2 ^ 64 * 2 ^ 256 + (vget SReg.zero g.image.s 62).val.toNat * 2 ^ 320 + s.time % 2 ^ 64 * 2 ^ 384

/-- Virtual offset at which a group's frame lies: its STACK segment and `sr.frame` (R326). -/
def frameOff (g : Group) : Nat := (bv (vget 0 g.seg 6) 29 35 * 2 ^ 13 + g.frame) % 2 ^ 48

/-- The home of a group's frame: through the TLB of its core, else by a walk (R309, R326, R329). -/
def frameTrans (s : State) (g : Group) (kind : Nat) : Trans :=
  match lookTlb (s.core g.col g.core).tlb g.ctx g.col (frameOff g) kind with
  | .miss => walkNow s g.ctx g.col (frameOff g) kind
  | t => t

/-- The home of a group's frame, if its page lets the hardware write it at once. -/
def frameHome (s : State) (g : Group) : Option Nat :=
  match s.frameTrans g 1 with
  | .ok h => some h
  | _ => none

/-- The late accesses of a core to some bytes are performed: the hardware comes after them. -/
def settleAt (s : State) (col core : Nat) (ps : List (Nat × Nat)) : State :=
  s.settle fun l => lateOf col core none l && meetPieces (latePieces l) ps

/-- Writes a group's frame at its home, as a store of the group's core after its earlier ones: the handler's loads see it (R326, R327). -/
def writeFrame (s : State) (r : Raise) (h : Nat) : State :=
  let g := s.grp r.grp
  let bs := leBytes 64 (s.frameOf r)
  let s := (s.settleAt g.col g.core [(h, 64)]).touchAt g.ctx g.col (frameOff g)
  ({ s with mem := s.mem.store [(h, bs)] false }).l1Store g.col g.core [(h, bs)]

/-- The group stops in TRAPPED with no handler run, and its context goes FAULTED (R329). -/
def stopGroup (s : State) (g : Nat) : State :=
  (s.modGroup g fun x => { x with st := .trapped, susp := .none, frameWait := none }).faultCtx (s.grp g).ctx

/-- The frame's page is not present: the trap waits on a walk, or for a walk slot (R309, R311, R313). -/
def awaitFrame (s : State) (r : Raise) : State :=
  let g := s.grp r.grp
  match startWalk s g.col g.ctx (frameOff g) 1 none (.slot r.grp) with
  | some t => t.modGroup r.grp fun x => { x with susp := .walk (frameOff g), frameWait := some r }
  | none => s.modGroup r.grp fun x => { x with susp := .full, frameWait := some r }

/-- Trap entry (R326) on a group that is not privileged, and the stops of R329. -/
def enterTrap (s : State) (r : Raise) : State :=
  let g := s.grp r.grp
  match s.frameTrans g 1 with
  | .refused 0x60 _ => s.awaitFrame r
  | .struck => s.killCtx g.ctx
  | .refused _ _ => s.stopGroup r.grp
  | .miss => s.stopGroup r.grp
  | .ok h =>
    let s := s.writeFrame r h
    if g.trapbase = 0 then s.stopGroup r.grp
    else s.modGroup r.grp fun x => { x with
      privileged := true
      trapSlot := r.slot
      trapAt := s.cycles
      image := ({ x.image with
        s := vmod x.image.s 62 fun _ => ⟨BitVec.ofNat 64 (0xFFFF * 2 ^ 48 + frameOff x), true, none⟩
        mode := 0 }).modSlot r.slot fun p => { p with pc := x.trapbase, prog := .start } }

/-- The PC of the instruction that raised the cause: the one before the frame's `PC` for SOFT_TRAP and DEBUG_BREAK (R325, R329). -/
def raisedAt (r : Raise) : Word := if r.cause = 0xB6 ∨ r.cause = 0xB7 then r.pc - 4 else r.pc

/-- A fault while privileged: the first frame is kept, the management core takes a report with NESTED, the group stops (R329). -/
def nestedFault (s : State) (r : Raise) : State :=
  let g := s.grp r.grp
  { s.stopGroup r.grp with report := some ⟨g.ctx, g.col, g.core, g.gid, r.cause, raisedAt r⟩ }

/-- A cause whose delivery is the handler (Table 20-4). -/
def deliver (s : State) (r : Raise) : State :=
  let g := s.grp r.grp
  let s := (s.noteCause g.launch r.cause).modGroup r.grp fun x => { x with susp := .none, replay := none, waitFrom := none }
  if g.privileged then s.nestedFault r else s.enterTrap r

/-! ### Rollback and escalation (R351–R353) -/

/-- A result of the group that is still pending, from a producer with a number from `n` on (R351 step 1). -/
def pendingOf (g n : Nat) (f : Flight) : Bool :=
  decide (n ≤ f.id) && (match f.item with
    | .result d _ _ _ _ => destOf (· = g) d
    | .gather d _ _ _ => destOf (· = g) d
    | .csmov d _ _ _ => destOf (· = g) d
    | .late l => (l.dst.map (destOf (· = g))).getD false
    | .scr r => (r.dst.map (destOf (· = g))).getD false && !(match r.op with | .atom _ _ => true | _ => false)
    | .mx m => match m.kind with
      | .acv _ d _ _ => destOf (· = g) d
      | .csum _ _ _ => m.grp = g
      | _ => false
    | _ => false)

/-- The `CSUM` bit of an epilogue block (Table 12-8). -/
def csumBit : BitVec 512 := BitVec.ofNat 512 (2 ^ 56)

/-- An atomic on its way is performed, but its result is discarded; an epilogue writes its rows, but its fold is discarded. -/
def forget (g n : Nat) (f : Flight) : Flight :=
  if n ≤ f.id then
    match f.item with
    | .scr r => if (r.dst.map (destOf (· = g))).getD false then ⟨f.id, .scr { r with dst := none }⟩ else f
    | .mx m => match m.kind with
      | .epi c b ds sc bi bar gens => if m.grp = g then ⟨f.id, .mx { m with kind := .epi c (b &&& ~~~csumBit) ds sc bi bar gens }⟩ else f
      | _ => f
    | _ => f
  else f

/-- Writes an undo entry back at its home, a whole line with its mark (R351 step 2). -/
def undoLine (s : State) (g : Group) (u : Undo) : State :=
  let m := (s.mem.putBytes u.line u.bytes).bump u.line
  let m := if u.poisoned then m.poisonLine u.line else m.clearLine u.line
  ({ s with mem := s.keepRo s.mem [(u.line, 128)] m }).l1Store g.col g.core [(u.line, u.bytes)]

/-- Rollback of the innermost region of a group (R351). -/
def rollback (s : State) (gi cause : Nat) : State :=
  let g := s.grp gi
  match g.regions with
  | [] => s
  | r :: rs =>
    let s := s.settle (lateOf g.col g.core none)
    let s : State := { s with flight := (s.flight.filter fun f => !pendingOf gi r.openedAt f).map (forget gi r.openedAt) }
    let s := s.modCore g.col g.core fun k => { k with latches := k.latches.filter fun a => a.grp ≠ gi }
    let s := s.modCore g.col (s.team g.team).core fun k => { k with latches := k.latches.filter fun a => a.grp ≠ gi }
    let s := r.undo.foldl (fun s u => s.undoLine g u) s
    let restart := fun (p : Path) => { p with prog := .start, waitFrom := none }
    s.modGroup gi fun x => { x with
      image := { r.image with slotA := r.image.slotA.map restart, slotB := r.image.slotB.map restart }
      regions := { r with retry := r.retry + 1 } :: rs
      rollbacks := min (x.rollbacks + 1) 65535
      lastCause := cause
      susp := .none
      replay := none
      frameWait := none
      walkFault := none
      waitFrom := none }

/-- Queue level (R353): the frame with the escalated cause, no handler, and the launch ends FAILED. -/
def queueLevel (s : State) (r : Raise) : State :=
  let g := s.grp r.grp
  let s := s.noteCause g.launch r.cause
  let s := match s.frameHome g with
    | some h => s.writeFrame r h
    | none => s
  s.failLaunch g.launch r.cause

/-- Table 21-2: where a recovery cause that reaches a group ends. `back` is the cause a rollback records. -/
def recover (s : State) (r : Raise) (back : Nat) : State :=
  let g := s.grp r.grp
  if g.privileged then s.deliver r
  else match g.regions with
    | [] => s.deliver r
    | x :: _ =>
      if x.sealed then s.queueLevel { r with cause := 0xB4, detail := back }
      else if x.retry = 2 then s.queueLevel { r with cause := 0xB5, detail := back }
      else s.rollback r.grp back

/-- A cause reaches a group: CHECK_FAIL and POISON_CONSUMED go through Table 21-2, the others to the handler (R337, R352). -/
def raise (s : State) (r : Raise) : State :=
  if r.cause = 0xB0 || r.cause = 0xB1 then s.recover r r.cause else s.deliver r

/-- A cause that the matrix queue, a timer or the scrubber raises at a group: it is held for an instruction boundary; for a group that has exited the cause acts at queue level (R242, R245, R334, R353). -/
def asyncCause (s : State) (gi cause detail : Nat) : State :=
  let g := s.grp gi
  if g.st = .exited then
    if Launch.going (s.launch g.launch) then s.queueLevel ⟨gi, false, cause, detail, none, 0, 0, 0, 0, true, false⟩ else s
  else s.modGroup gi fun x => { x with async := x.async ++ [⟨cause, detail⟩] }

/-! ### The fault of a stream thread (R208, R355) -/

/-- The frame of a stream thread (R324). -/
def threadFrame (s : State) (c t cause detail : Nat) (addr : Option Word) (pc : Word) (insn : Nat) : Nat :=
  let h := s.thread c t
  let ctx := (h.kick.map (·.ctx)).getD 0
  cause + (2 + bit (s.namesAway addr (s.colNum ctx c)) + bit (s.ctx ctx).expiry * 32) * 2 ^ 8 + h.regions.length * 2 ^ 17 + pc.toNat % 2 ^ 32 * 2 ^ 32 +
  insn % 2 ^ 32 * 2 ^ 64 + ccOf h.flags * 2 ^ 114 + (addr.getD 0).toNat * 2 ^ 128 + detail % 2 ^ 64 * 2 ^ 256 + s.time % 2 ^ 64 * 2 ^ 384

/-- Loads that wait on a line of a buffer that leaves FILLING for EMPTY complete with their lanes poisoned (R146). -/
def poisonWaiter (s : State) (t core b : Nat) (f : Flight) : Flight :=
  match f.item with
  | .scr r =>
    if r.waiting && r.op = .load && r.team = t && r.core = core &&
      r.accs.any (fun a => (s.bufLines t core a.addr a.size).any fun p => p.1 = b && !(s.buf t core b).isFull p.2) then
      match r.dst with
      | some d => ⟨f.id, resultItem d (gatherLanes ((r.got ++ r.accs.map (s.scrPiece r)).map fun p => { p with poison := some .line })) r.strike true⟩
      | none => f
    else f
  | _ => f

/-- A transfer that waits on a line of such a buffer reads it poisoned (R146, R203). -/
def breakWait (s : State) (t core b : Nat) (f : Flight) : Flight :=
  match f.item with
  | .xfer x =>
    let k := (s.thread x.col x.thr).kick
    if (k.map (·.team)) = some t && (k.map (·.core)) = some core then
      ⟨f.id, .xfer { x with broken := (x.waitsOn.filter fun p => p.1 = b && !(s.buf t core b).isFull p.2) ++ x.broken }⟩
    else f
  | _ => f

/-- A buffer of a team leaves FILLING for EMPTY, or DRAINING for FULL, because the thread that fills, drains or is bound to it faults (R144, R208 step 4). -/
def releaseBuffer (s : State) (t core b : Nat) : State :=
  let x := s.buf t core b
  if x.st = .filling then
    ({ s with flight := s.flight.map fun f => s.breakWait t core b (s.poisonWaiter t core b f) }).modBuf t core b fun x => x.toEmpty true
  else if x.st = .draining then s.modBuf t core b fun x => x.toFull false
  else s

/-- Every buffer that a thread fills, drains or is bound to: team, core, buffer. -/
def buffersOf (s : State) (c t : Nat) : List (Nat × Nat × Nat) :=
  (s.teams.filter fun x => x.col = c).flatMap fun x =>
    (List.range x.bufs.length).flatMap fun k =>
      (List.range 16).filterMap fun b =>
        if (s.buf x.id (x.core + k) b).owner = some (c, t) then some (x.id, x.core + k, b) else none

/-- Transfers of a thread in progress. -/
def xferOf (c t : Nat) (i : Item) : Bool := match i with
  | .xfer x => x.col = c && x.thr = t
  | _ => false

/-- Lines of a transfer in progress. -/
def lineOfXfer (ids : List Nat) (i : Item) : Bool := match i with
  | .mcline x _ _ _ _ _ _ => ids.contains x
  | _ => false

/-- Discards transfers, with the lines of theirs that are on their way. -/
def dropXfers (s : State) (ids : List Nat) : State :=
  { s with flight := s.flight.filter fun f => !ids.contains f.id && !lineOfXfer ids f.item }

/-- A thread whose fault has acted becomes FREE once no transfer of its is left (R208 step 5). -/
def endThread (s : State) (c t : Nat) : State :=
  if s.flight.any fun f => xferOf c t f.item then s.modThread c t fun x => { x with st := .ending, susp := .none }
  else s.modThread c t Thread.freed

/-- Steps 2 to 5 of R208: the transfers from `upto` on are discarded, the barriers enter ERROR, the buffers are released; the thread becomes FREE once its earlier transfers have ended. -/
def streamEnd (s : State) (c t upto : Nat) : State :=
  let h := s.thread c t
  let s := s.settle (lateOf c 0 (some t))
  let s := s.dropXfers ((s.flight.filter fun f => decide (upto ≤ f.id) && xferOf c t f.item).map (·.id))
  let s := h.bars.foldl (fun s b => s.barFail b 0) s
  let s := (s.buffersOf c t).foldl (fun s b => s.releaseBuffer b.1 b.2.1 b.2.2) s
  s.endThread c t

/-- The home of a stream thread's save slot: through the streamer's TLB, else by a walk (R188, R309). -/
def threadSlot (s : State) (k : Kick) (c t : Nat) : Trans × Nat :=
  let off := (bv (vget 0 k.seg 6) 29 35 * 2 ^ 13 + 64 * t) % 2 ^ 48
  (match lookTlb (s.col c).tlb k.ctx c off 1 with
    | .miss => walkNow s k.ctx c off 1
    | x => x, off)

/-- A fault of a stream thread (R208): its frame, then the rest. A frame whose page is not present waits for it (R313), one whose page refuses it is not written. Once a fault has acted, an earlier transfer that faults too stops and writes no frame. `upto` is the number of the faulting transfer. -/
def streamFault (s : State) (c t cause detail : Nat) (addr : Option Word) (pc : Word) (insn : Nat) (upto : Nat) : State :=
  let h := s.thread c t
  match h.kick with
  | none => s
  | some k =>
    if h.st = .ending then (s.dropXfers [upto]).endThread c t
    else match s.threadSlot k c t with
      | (.ok home, off) =>
        let s := s.touchAt k.ctx c off
        { s with mem := s.mem.store [(home, leBytes 64 (s.threadFrame c t cause detail addr pc insn))] false }.streamEnd c t upto
      | (.refused 0x60 _, off) =>
        let r : ThreadRaise := ⟨cause, detail, addr, pc, insn, upto⟩
        match startWalk s c k.ctx off 1 none (.thread t) with
        | some u => u.modThread c t fun x => { x with susp := .walk off, frameWait := some r }
        | none => s.modThread c t fun x => { x with susp := .full, frameWait := some r }
      | (.struck, _) => s.killCtx k.ctx
      | _ => s.streamEnd c t upto

/-- A recovery cause that reaches a stream thread (R355). -/
def streamRecover (s : State) (c t cause back detail : Nat) (addr : Option Word) (pc : Word) (insn : Nat) : State :=
  let h := s.thread c t
  match h.regions with
  | [] => s.streamFault c t cause detail addr pc insn s.nextId
  | r :: _ =>
    if r.sealed then s.streamFault c t 0xB4 back addr pc insn s.nextId
    else if r.retry = 2 then s.streamFault c t 0xB5 back addr pc insn s.nextId
    else s.modThread c t fun x => { x with st := .rolling back ⟨cause, detail, addr, pc, insn, 0⟩, susp := .none }

/-! ### Moving contexts (R129) and lost reconvergence (R132) -/

def isRunning (p : Path) : Bool := p.parked.isNone

/-- Takes the topmost RUNNING entry off a stack, with what stays. -/
def popRunning : List Path → Option (Path × List Path)
  | [] => none
  | p :: ps => if isRunning p then some (p, ps) else (popRunning ps).map fun x => (x.1, p :: x.2)

/-- Exchanges the topmost RUNNING entry with a PARKED context, which takes its place. -/
def swapRunning (q : Path) : List Path → Option (Path × List Path)
  | [] => none
  | p :: ps => if isRunning p then some (p, q :: ps) else (swapRunning q ps).map fun x => (x.1, p :: x.2)

/-- A context that enters a slot counts as never having issued there (R123). -/
def entering (p : Path) : Path := { p with lastIssue := none, prog := .start, waitFrom := none }

/-- R129 for one slot. -/
def fillSlot (im : Image) (b : Bool) : Image :=
  match im.slot b with
  | none => match popRunning im.stack with
    | some (p, rest) => ({ im with stack := rest }).setSlot b (some (entering p))
    | none => im
  | some q =>
    if isRunning q then im else
    match swapRunning q im.stack with
    | some (p, rest) => ({ im with stack := rest }).setSlot b (some (entering p))
    | none => im

/-- The moves of R129 after an issue. -/
def settlePaths (im : Image) : Image := fillSlot (fillSlot im false) true

/-- All contexts of a group. -/
def pathsOf (im : Image) : List Path := im.slotA.toList ++ im.slotB.toList ++ im.stack

/-- The lanes that have not exited (R121). -/
def liveMask (im : Image) : Word := (pathsOf im).foldl (fun m p => m ||| p.mask) 0

end State

end Sys2Proof.Machine
end

