-- ==== Sys2Proof/Machine/Issue.lean ====
section
/-! DEFINITION. How an instruction issues: which agents can issue (R122), the decode checks that depend on the state (Table 3-26), full bits and source policies (R43, R44), poisoned sources (R146), the injection strike (R398), and what follows an issue (R129, R132). -/

namespace Sys2Proof.Machine

open Sys2Proof

/-- The engines that execute an opcode (Tables 3-14 to 3-24). -/
inductive Engine where
  | both
  | core
  | stream
  deriving DecidableEq, Repr

/-- Register files (Table 3-6). -/
inductive File where
  | v
  | s
  | k
  | j
  | i
  deriving DecidableEq, Repr

/-- Which lanes of a v source an instruction reads. -/
inductive Rd where
  | no
  | active
  | all
  deriving DecidableEq, Repr

/-- One register field of an instruction: its file, its field (0 `D`, 1 `A`, 2 `B`, 3 `C`), the source slot it is read through (0 a, 1 b, 2 c), whether it is written. -/
structure Use where
  file : File
  pos : Nat
  num : Nat
  slot : Option Nat
  dst : Bool
  rd : Rd
  deriving DecidableEq, Repr

namespace Use

def sd (r : Reg) : Use := ⟨.s, 0, r.toNat, none, true, .no⟩
def sa (r : Reg) : Use := ⟨.s, 1, r.toNat, some 0, false, .no⟩
def sb (r : Reg) : Use := ⟨.s, 2, r.toNat, some 1, false, .no⟩
def sc (r : Reg) : Use := ⟨.s, 3, r.toNat, some 2, false, .no⟩
/-- a `D` field that is read as a source uses slot c (R44) -/
def sdc (r : Reg) : Use := ⟨.s, 0, r.toNat, some 2, false, .no⟩
def vd (r : Reg) : Use := ⟨.v, 0, r.toNat, none, true, .no⟩
def va (r : Reg) (x : Rd) : Use := ⟨.v, 1, r.toNat, some 0, false, x⟩
def vb (r : Reg) (x : Rd) : Use := ⟨.v, 2, r.toNat, some 1, false, x⟩
def vc (r : Reg) (x : Rd) : Use := ⟨.v, 3, r.toNat, some 2, false, x⟩
def vdc (r : Reg) (x : Rd) : Use := ⟨.v, 0, r.toNat, some 2, false, x⟩
/-- a `D` that is read through slot c and written -/
def vdcw (r : Reg) (x : Rd) : Use := ⟨.v, 0, r.toNat, some 2, true, x⟩
def kAt (pos : Nat) (r : Reg) : Use := ⟨.k, pos, r.toNat, none, false, .no⟩
def jd (r : Reg) : Use := ⟨.j, 0, r.toNat, none, false, .no⟩
def iAt (pos : Nat) (r : Reg) : Use := ⟨.i, pos, r.toNat, none, false, .no⟩

end Use

/-- The result that an injection can strike (R398): none, an s register, lanes of a v register (all of them, the active ones, or the active ones of a mask), or one that a pending result brings. -/
inductive Res where
  | none
  | s (r : Nat)
  | v (r : Nat) (all : Bool)
  | part (r : Nat) (lanes : Word)
  | pending
  deriving DecidableEq, Repr

/-- How an instruction stands towards the checks that come before its own. -/
structure Form where
  engine : Engine
  /-- a lane instruction: it acts on the slot's lanes under the guard (R8) -/
  guarded : Bool
  uses : List Use
  res : Res
  /-- privileged (R54 check 4) -/
  priv : Bool
  /-- a reserved value that depends on the engine or the register named (R50, R258) -/
  reserved : Bool
  /-- its own text places POISON_CONSUMED after its other checks (R356) -/
  latePoison : Bool
  /-- it empties its slot, so what enters it has not issued there (R123, R133) -/
  leaves : Bool
  deriving DecidableEq, Repr

namespace Form

def core (guarded : Bool) (uses : List Use) (res : Res) : Form := ⟨.core, guarded, uses, res, false, false, false, false⟩
def both (uses : List Use) (res : Res) : Form := ⟨.both, false, uses, res, false, false, false, false⟩
def stream (uses : List Use) : Form := ⟨.stream, false, uses, .none, false, false, false, false⟩

end Form

namespace State

/-! ### Who can issue (R122) -/

/-- Die of a column: physical columns 0–16 lie on die 0, 17–33 on die 1 (Table 2-1). -/
def dieOf (s : State) (c : Nat) : Nat := (s.col c).phys / 17

/-- The stretched cycles of a droop alarm run on the column's die: nothing issues there (R395). -/
def stretched (s : State) (c : Nat) : Bool := ((s.dies[s.dieOf c]?).map (·.stretch)).getD false

/-- Nothing suspends the fetch of an agent of a column: a miss that found no walk slot goes on once one is free (R311). -/
def fetchOn (s : State) (c : Nat) (x : Susp) : Bool := x = .none || (x = .full && (freeSlot (s.col c).walks).isSome)

/-- The pre-emption of a context stands before the next instruction of its groups; one that arises in this very cycle comes after the instruction that issues in it (R335, R336). -/
def expiryBars (s : State) (c : Nat) : Bool := s.preempting c && (s.ctx c).expiryAt ≠ s.cycles

/-- The slot of a group can be asked for its next instruction: a handler's slot whatever became of its context before (R134), and the slot whose instruction waited on its checks before the other (R122). -/
def slotReady (s : State) (gi : Nat) (b : Bool) : Bool :=
  let g := s.grp gi
  s.hasGroup gi && !s.stretched g.col && g.st = .active && !g.halted && !g.out && s.fetchOn g.col g.susp && g.frameWait.isNone &&
  (!g.privileged || g.trapSlot = b) && (g.replay.isNone || g.replay = some b) &&
  ((g.image.slot b).map fun p => g.privileged || isRunning p).getD false && (s.team g.team).resident &&
  (s.ridgeLaunch g.launch || (s.ctxRuns g.ctx && (g.privileged || !s.expiryBars g.ctx)))

/-- A transfer of the thread waits for a page that is not present: FAULT-WAIT (Table 11-1). -/
def faultWaits (s : State) (c t : Nat) : Bool :=
  s.cols.any fun x => x.walks.any fun w => w.st ≠ .walking && w.waiters.any fun y => match y with
    | .item id => ((s.item id).map (xferOf c t)).getD false
    | _ => false

/-- The stream thread can be asked for its next instruction. -/
def threadReady (s : State) (c t : Nat) : Bool :=
  let h := s.thread c t
  decide (c < s.cols.length) && decide (t < 16) && !s.stretched c && h.st = .active && s.fetchOn c h.susp && h.frameWait.isNone && !s.faultWaits c t &&
  (h.kick.map fun k => s.ridgeLaunch k.launch || !s.preempting k.ctx || s.teamDraining k.team).getD false

def canIssue (s : State) : Bool := match s.cur with
  | .slot g b => s.slotReady g b
  | .thread c t => s.threadReady c t

/-! ### Decode checks that depend on the state (Table 3-26) -/

/-- The group has the register (R42). -/
def useOk (s : State) (u : Use) : Bool :=
  match u.file with
  | .v => decide (u.num < s.me.vregs)
  | .s => if s.onCore then decide (u.num < s.me.sregs) || u.num = 62 || u.num = 63 else decide (u.num < 32)
  | .k => decide (u.num < 16)
  | .j => decide (u.num < 4)
  | .i => decide (u.num < 8)

/-- The engine lacks the opcode (check 3). -/
def wrongEngine (s : State) (e : Engine) : Bool :=
  match e with
  | .both => false
  | .core => !s.onCore
  | .stream => s.onCore

/-- Checks 3 to 6 of Table 3-26. BAD_REGISTER names the first refused field of D, A, B, C (DESIGN CHOICE, log 40). -/
def decodeRefuses (s : State) (f : Form) : Option Trap :=
  if s.wrongEngine f.engine then some (Trap.of 0x03 0)
  else if f.priv && !s.me.privileged then some (Trap.of 0x04 0)
  else if f.reserved then some (Trap.of 0x02 0)
  else (f.uses.find? fun u => !s.useOk u).map fun u => Trap.of 0x05 (u.num + u.pos * 256)

/-! ### Full bits, policies, poison (R43, R44, R146) -/

def useFull (s : State) (u : Use) : Bool :=
  match u.file with
  | .v => (s.vreg u.num).full
  | .s => (s.sreg u.num).full
  | _ => true

/-- The source slot of an empty register waits rather than traps: policy bit 0, and always on a streamer (R44, R187). -/
def slotWaits (s : State) (k : Nat) : Bool := !s.onCore || !s.srcpol k

/-- `DETAIL` of REG_EMPTY and POISON_CONSUMED (Table 20-4). -/
def useDetail (u : Use) : Nat := u.num + u.slot.getD 0 * 256 + (if u.file = .s then 1024 else 0)

/-- The cause and detail word that the consumer of a poisoned register raises (R146, R319, R372). -/
def poisonCause (p : Poison) (detail : Nat) : Nat × Nat :=
  match p with
  | .line => (0xB1, detail)
  | .dead => (0x44, 0)
  | .denied d => (0x45, d)

/-- The poisoned lane that an instruction reads first among these lanes. -/
def poisonedLane (s : State) (r : Nat) (ls : List Nat) : Option (Nat × Poison) :=
  ls.findSome? fun l => ((s.vreg r).poisonOf l).map fun p => (l, p)

/-- The trap that a poisoned source raises. -/
def usePoison (s : State) (u : Use) : Option Trap :=
  match u.file, u.slot with
  | .s, some _ => (s.sreg u.num).poison.map fun p =>
      let c := poisonCause p (useDetail u)
      Trap.of c.1 c.2
  | .v, some _ =>
    let ls := match u.rd with
      | .no => []
      | .active => s.lanes
      | .all => List.range s.me.width
    (s.poisonedLane u.num ls).map fun q =>
      let c := poisonCause q.2 (useDetail u)
      { Trap.of c.1 c.2 with lane := q.1 }
  | _, _ => none

/-- The uses that are sources, in slot order a, b, c. -/
def sources (f : Form) : List Use := [0, 1, 2].flatMap fun k => f.uses.filter fun u => u.slot = some k

/-- The instruction waits for the empty registers among those it uses. -/
def awaitUses (s : State) (f : Form) : State :=
  let empty := f.uses.filter fun u => !s.useFull u
  s.awaits (.regs ((empty.filter fun u => u.file = .v).map (·.num)) ((empty.filter fun u => u.file = .s).map (·.num)))

/-- What keeps the instruction from issuing, or what it traps with, before its own checks (R43, R44, R146). A source that waits comes before one that traps, the first in slot order a, b, c is named, and poison comes after empty registers and before the checks of the mode (DESIGN CHOICE, log 40). -/
def issueRefuses (s : State) (f : Form) : Option Stop :=
  if f.uses.any fun u => u.dst && !s.useFull u then some (.hold (s.awaitUses f))
  else if (sources f).any fun u => !s.useFull u && s.slotWaits (u.slot.getD 0) then some (.hold (s.awaitUses f))
  else match (sources f).find? fun u => !s.useFull u with
    | some u => some (.trap (Trap.of 0x20 (useDetail u)))
    | none => if f.latePoison then none else ((sources f).findSome? fun u => s.usePoison u).map .trap

/-! ### Injection (R397, R398) -/

def einjKind (g : Group) : Nat := bv g.einj 60 2
def einjCount (g : Group) : Nat := bv g.einj 32 16

/-- The armed injection counts the issues of this opcode. -/
def einjMatches (g : Group) (i : Instr) : Bool :=
  (einjKind g = 1 || einjKind g = 2) && insnWord i / 2 ^ 24 = bv g.einj 48 8

/-- The strike that this issue makes, if its result is one that can be struck. -/
def strikeOf (s : State) (i : Instr) : Option Strike :=
  if s.onCore && einjMatches s.me i && einjCount s.me = 0 then some ⟨einjKind s.me, bv s.me.einj 26 6, bv s.me.einj 20 6⟩ else none

/-- Strikes an s register. -/
def strikeS (s : State) (k : Strike) (r : Nat) : State :=
  let x := s.sreg r
  s.putS r (if k.kind = 1 then { x with val := flipBit x.val k.bit } else { x with poison := some .line })

/-- Strikes a lane of a v register. -/
def strikeV (s : State) (k : Strike) (r : Nat) : State :=
  s.modV r fun v =>
    if k.kind = 1 then { v with lanes := vmod v.lanes k.lane fun x => flipBit x k.bit }
    else { v with poison := (k.lane, .line) :: v.poison.filter fun p => p.1 ≠ k.lane }

/-- The count and the disarming of an injection at an issue that passed its checks; `old` is the state before it (R398). -/
def injectAt (old : State) (i : Instr) (f : Form) (s : State) : State :=
  if old.onCore && einjMatches old.me i && s.me.einj = old.me.einj then
    if einjCount old.me > 0 then
      s.modMe fun g => { g with einj := BitVec.ofNat 64 (g.einj.toNat - 2 ^ 32) }
    else
      let off := fun (s : State) => s.modMe fun g => { g with einj := BitVec.ofNat 64 (g.einj.toNat - einjKind g * 2 ^ 60) }
      match f.res, old.strikeOf i with
      | .s r, some k => off (s.strikeS k r)
      | .v r all, some k =>
        if decide (k.lane < old.me.width) && (all || old.active.getLsbD k.lane) then off (s.strikeV k r) else off s
      | .part r m, some k => if decide (k.lane < old.me.width) && (old.active &&& m).getLsbD k.lane then off (s.strikeV k r) else off s
      | .pending, _ => off s
      | _, _ => s
  else s

/-! ### After an issue -/

/-- Agents held are asked again once something changes. -/
def changed (s : State) : State := { s with held := [], issues := s.issues + 1 }

/-- The context that parked last, where several are parked. -/
def lastParked (ps : List Path) : Option Path :=
  ps.foldl (fun a p => if p.parked.isSome && (match a with | none => true | some q => decide (q.parkStamp ≤ p.parkStamp)) then some p else a) none

def unpark (p : Path) : Path := { p with parked := none }

/-- Lost reconvergence (R132) of a group that holds a PARKED context and no RUNNING one: the released image, and where JOIN_INCOMPLETE is taken if `JOINTRAP` asks for it: slot, join register, context. -/
def loseJoins (im : Image) : Image × Option (Bool × Nat × Path) :=
  let ps := pathsOf im
  match lastParked ps with
  | none => (im, none)
  | some last =>
    let at_ := ps.filterMap (·.parked)
    let js := at_.foldl (fun js j => vmod js j fun _ => ⟨0, 0⟩) im.j
    let free := { im with j := js, joinLost := true, slotA := im.slotA.map unpark, slotB := im.slotB.map unpark, stack := im.stack.map unpark }
    if !im.joinTrap then (free, none)
    else
      let d := last.parked.getD 0
      if im.slotA = some last then (free, some (false, d, unpark last))
      else if im.slotB = some last then (free, some (true, d, unpark last))
      else
        let rest := im.stack.erase last
        let stack := rest.map unpark
        if im.slotA.isNone then ({ free with slotA := some (entering (unpark last)), stack := stack }, some (false, d, unpark last))
        else if im.slotB.isNone then ({ free with slotB := some (entering (unpark last)), stack := stack }, some (true, d, unpark last))
        else
          let place := im.stack.map fun p => if p = last then (im.slotA.map unpark).getD Path.blank else unpark p
          ({ free with slotA := some (entering (unpark last)), stack := place }, some (false, d, unpark last))

/-- The moves of R129 and the lost reconvergence of R132 after an issue of a group; a handler's issues leave the control state frozen (R134). -/
def settleGroup (s : State) (gi : Nat) : State :=
  if (s.grp gi).privileged then s else
  let s := s.modImage gi settlePaths
  let im := (s.grp gi).image
  if (pathsOf im).any (fun p => p.parked.isSome) && !(pathsOf im).any isRunning then
    let r := loseJoins im
    let s := s.modImage gi fun _ => r.1
    match r.2 with
    | none => s.modImage gi settlePaths
    | some (b, d, p) =>
      s.raise ⟨gi, b, 0x24, d, none, 0, p.mask, f3 0x0A d 0 0 0, p.pc, false, false⟩
  else s

/-- The issue of a slot ends in JOIN_INCOMPLETE (R132). -/
def joinTraps (s : State) : Bool :=
  match s.cur with
  | .slot g _ =>
    let im := settlePaths (s.grp g).image
    !(s.grp g).privileged && im.joinTrap && (pathsOf im).any (fun p => p.parked.isSome) && !(pathsOf im).any isRunning
  | .thread _ _ => false

/-- The bookkeeping of the issue with number `n` in a context, a group and a stream thread; a suspension that the issue begins counts from now (R122). -/
def issuedPath (n : Nat) (p : Path) : Path := { p with lastIssue := some n, prog := .start, waitFrom := none, await := .none }

def issuedGroup (n now : Nat) (x : Group) : Group :=
  { x with
    lastIssue := n
    waitFrom := if x.susp = .none ∨ x.susp = .full ∨ x.susp = .perm then none else some now
    walkFault := none
    replay := none
    susp := if x.susp = .full then .none else x.susp }

def issuedThread (n : Nat) (i : Instr) (h : Thread) : Thread :=
  { h with lastIssue := n, prog := .start, walkFault := none, word := insnWord i, susp := if h.susp = .full then .none else h.susp }

/-- The bookkeeping of an instruction that has issued and passed its checks; one that traps JOIN_INCOMPLETE is not counted by an injection (R398). -/
def retire (old : State) (i : Instr) (f : Form) (s : State) : State :=
  let n := s.issues + 1
  let s := if s.joinTraps then s else injectAt old i f s
  match s.cur with
  | .slot g _ =>
    let s := if f.leaves then s else s.modMyPath (issuedPath n)
    ((s.modGroup g (issuedGroup n s.cycles)).settleGroup g).changed
  | .thread c t => (s.modThread c t (issuedThread n i)).changed

/-- The cause an instruction raises reaches its agent. -/
def fail (s : State) (i : Instr) (f : Form) (t : Trap) : State :=
  let at_ := if t.next then s.pc + 4 else s.pc
  match s.cur with
  | .slot g b =>
    let r : Raise := ⟨g, b, t.cause, t.detail, t.addr, t.lane, if f.guarded then s.active else s.slotMask, insnWord i, at_, false, t.code⟩
    let s := s.modGroup g fun x => { x with walkFault := none }
    (if t.cause = 0xFF then s.recover r 0xFF else s.raise r).changed
  | .thread c t' =>
    let s := s.modThread c t' fun h => { h with walkFault := none }
    (if t.cause = 0xB1 || t.cause = 0xFF then s.streamRecover c t' t.cause t.cause t.detail t.addr at_ (insnWord i)
     else s.streamFault c t' t.cause t.detail t.addr at_ (insnWord i) s.nextId).changed

/-- Every slot of a group that could issue is held: the slots with a RUNNING context, or the one that replays alone (R122). -/
def allHeld (s : State) (gi : Nat) : Bool :=
  let g := s.grp gi
  [false, true].all fun b => !((g.image.slot b).map isRunning).getD false || (g.replay.isSome && g.replay != some b) || s.held.contains (.slot gi b)

/-- The agent's next instruction does not issue; the wait counts from its beginning, but for that of a suspended `xperm` (R122, R124). -/
def holdAt (old s : State) : State :=
  let s : State := { (s.setPc old.pc) with held := if s.held.contains s.cur then s.held else s.cur :: s.held }
  match s.cur with
  | .slot g _ =>
    let s := s.modMyPath fun p => { p with waitFrom := some (p.waitFrom.getD s.cycles) }
    if (s.grp g).susp = .perm then s.modGroup g fun x => { x with waitFrom := none }
    else if s.allHeld g || (s.grp g).susp ≠ .none then s.modGroup g fun x => { x with waitFrom := some (x.waitFrom.getD s.cycles) } else s
  | .thread _ _ => s

/-- The program counter goes on to the next instruction (R39). -/
def advance (s : State) : State := s.setPc (s.pc + 4)

/-- What comes of an instruction that stops. -/
def stopped' (s : State) (i : Instr) (f : Form) : Stop → State
  | .trap t => s.fail i f t
  | .trapIn u t => (u.setPc s.pc).fail i f t
  | .hold t => s.holdAt t
  | .gone t => t.changed

/-- An instruction issues: its agent can issue, the decode checks and the register checks pass (an instruction that goes on has passed them), and then its own effect, from a state whose program counter has gone on. -/
def issue (i : Instr) (f : Form) (body : State → Eff State) (s : State) : Out' :=
  if s.canIssue then
    match s.decodeRefuses f with
    | some t => .next (s.fail i f t)
    | none =>
      match if s.prog = .start then s.issueRefuses f else none with
      | some st => .next (s.stopped' i f st)
      | none =>
        match body s.advance with
        | .ok t => .next (s.retire i f t)
        | .error st => .next (s.stopped' i f st)
  else .fault .cannotIssue

end State

end Sys2Proof.Machine
end

