-- ==== Sys2Proof/Machine/Access.lean ====
section
/-! DEFINITION. The checks of an ordinary memory access in the order of R31, translation with its walks (R309–R311), and reading and writing the homes and the L1 cache (R156, R158). -/

namespace Sys2Proof.Machine

open Sys2Proof

/-! ### Pointers (Table 2-3) -/

def ptrDev (p : Word) : Nat := bitsOf p.toNat 54 10
def ptrCol (p : Word) : Nat := bitsOf p.toNat 48 6
def ptrOff (p : Word) : Nat := p.toNat % 2 ^ 48

/-- The pointer to an offset of a column of a device (R24). -/
def pointerTo (dev col off : Nat) : Word := BitVec.ofNat 10 dev ++ BitVec.ofNat 6 col ++ BitVec.ofNat 48 off

/-- The pointer with another offset (R27). -/
def withOff (p : Word) (o : Nat) : Word := BitVec.ofNat 64 (p.toNat / 2 ^ 48 * 2 ^ 48 + o % 2 ^ 48)

/-- One access of an instruction: the lane and element it belongs to, its pointer, its offset (R27) and its bytes. -/
structure Req where
  lane : Nat
  sub : Nat
  ptr : Word
  off : Nat
  size : Nat
  deriving DecidableEq, Repr

/-- The segment register that a space field selects (R29). -/
def segOf (space : Nat) : Nat := if space = 3 then 5 else space

/-- Start and size of a segment (Table 2-6). -/
def segBase (x : Word) : Nat := bv x 29 35 * 2 ^ 13
def segLimit (x : Word) : Nat := bv x 0 29 * 2 ^ 7

namespace State

/-- The segment registers of the issuing agent: the group's, or those the kick copied (R161). -/
def segs (s : State) : Vector Word 8 := match s.cur with
  | .slot g _ => (s.grp g).seg
  | .thread c t => ((s.thread c t).kick.map (·.seg)).getD (Vector.replicate 8 0)

def seg (s : State) (n : Nat) : Word := vget 0 s.segs n

/-- A privileged group's space TAL is the column's whole virtual space (R327). -/
def wholeSpace (s : State) (space : Nat) : Bool := s.onCore && s.me.privileged && space = 1

/-- The team on whose behalf the agent acts, and the core whose scratchpad space SCR names (R161). -/
def myTeam (s : State) : Nat := match s.cur with
  | .slot g _ => (s.grp g).team
  | .thread c t => ((s.thread c t).kick.map (·.team)).getD 0

def myCore (s : State) : Nat := match s.cur with
  | .slot g _ => (s.grp g).core
  | .thread c t => ((s.thread c t).kick.map (·.core)).getD 0

/-- `sr.col` of the issuing agent (R19). -/
def myColNum (s : State) : Nat := s.colNum s.myCtx s.myCol

/-- The pointer names the issuing device and column (R3, R26). -/
def ptrHere (s : State) (p : Word) : Bool :=
  (ptrDev p = 0x3FF || ptrDev p = s.dev) && (ptrCol p = 0x3F || ptrCol p = s.myColNum)

/-- The check of R26, in a context, for pointers of instructions that may leave the column. -/
def ptrBadIn (s : State) (ctx : Nat) (p : Word) : Bool :=
  (decide (32 ≤ ptrCol p) && decide (ptrCol p ≤ 62)) ||
  ((ptrDev p = 0x3FF || ptrDev p = s.dev) && ptrCol p ≠ 0x3F && decide (s.ncol ctx ≤ ptrCol p))

def ptrBad (s : State) (p : Word) : Bool := s.ptrBadIn s.myCtx p

/-! ### Translation -/

def myTlb (s : State) : List TlbEntry := match s.cur with
  | .slot g _ => (s.core (s.grp g).col (s.grp g).core).tlb
  | .thread c _ => (s.col c).tlb

def myWalkFault (s : State) : Option WalkFault := match s.cur with
  | .slot g _ => (s.grp g).walkFault
  | .thread c t => (s.thread c t).walkFault

def mySusp (s : State) (x : Susp) : State := match s.cur with
  | .slot g _ => s.modGroup g fun h => { h with susp := x }
  | .thread c t => s.modThread c t fun h => { h with susp := x }

def myWaiter (s : State) : Waiter := match s.cur with
  | .slot g _ => .slot g
  | .thread _ t => .thread t

/-- A fault at an address of a lane. -/
def trapAt {α : Type} (cause detail : Nat) (addr : Option Word) (lane : Nat) : Eff α := .error (.trap ⟨cause, detail, addr, lane, false, false⟩)

/-- The agent waits on its instruction's checks: that instruction replays before the group's other slot issues (R122, R322). -/
def replays (s : State) : State := match s.cur with
  | .slot g b => s.modGroup g fun h => { h with replay := some b }
  | .thread _ _ => s

/-- A cause that the page of an access raises; a fetch names a CODE offset. -/
def pageTrap {α : Type} (cause detail kind : Nat) (addr : Option Word) (lane : Nat) : Eff α :=
  .error (.trap ⟨cause, detail, addr, lane, false, kind = 3⟩)

/-- Translates a virtual offset for the issuing agent (R309): a fault that a walk has delivered is taken here (R314); else through its TLB; a miss starts or joins a walk, or waits for a walk slot (R311). -/
def translate (s : State) (off kind : Nat) (addr : Option Word) (lane : Nat) : Eff Nat :=
  match s.myWalkFault.filter fun w => w.off = off with
  | some w => pageTrap w.cause w.detail kind addr lane
  | none =>
    match lookTlb s.myTlb s.myCtx s.myCol off kind with
    | .ok h => .ok h
    | .refused c e => pageTrap c e kind addr lane
    | _ =>
      match startWalk s s.myCol s.myCtx off kind none s.myWaiter with
      | some s' => hold (((s'.mySusp (.walk off)).replays).awaits .none)
      | none => hold (((s.mySusp .full).replays).awaits .none)

/-- A cause that names a CODE offset. -/
def trapCode {α : Type} (cause detail : Nat) (t : Word) : Eff α := pageTrap cause detail 3 (some t) 0

/-- Translates the bytes of one access: one piece, or two where it crosses a 64 KiB page (R154). -/
def translateSpan (s : State) (off n kind : Nat) (addr : Option Word) (lane : Nat) : Eff (List (Nat × Nat)) := do
  let a ← s.translate off kind addr lane
  let cut := 65536 - off % 65536
  if n ≤ cut then .ok [(a, n)]
  else
    let b ← s.translate (off + cut) kind addr lane
    .ok [(a, cut), (b, n - cut)]

/-! ### The checks of R31 and R154 -/

/-- Steps 1 to 4 of R31 on the accesses of an instruction; kinds: 0 load, 1 store, 2 atomic. -/
def checkReqs (s : State) (space kind align : Nat) (rs : List Req) : Eff Unit :=
  match rs.find? fun r => !s.ptrHere r.ptr with
  | some r => trapAt 0x42 0 r.ptr r.lane
  | none =>
    if space = 3 && kind ≠ 0 && !rs.isEmpty then trapAt 0x41 0 (rs.head?.map (·.ptr)) ((rs.head?.map (·.lane)).getD 0) else
    let lim := segLimit (s.seg (segOf space))
    match if s.wholeSpace space then none else rs.find? fun r => decide (lim < r.off + r.size) with
    | some r => trapAt 0x40 (segOf space) (withOff r.ptr r.off) r.lane
    | none =>
      match rs.find? fun r => r.off % align ≠ 0 with
      | some r => trapAt 0x43 align (withOff r.ptr r.off) r.lane
      | none => .ok ()

/-- Step 5 of R31 for a translated space: the homes of every access, lowest lane first. -/
def homes (s : State) (space kind : Nat) : List Req → Eff (List (List (Nat × Nat)))
  | [] => .ok []
  | r :: rs => do
    let base := if s.wholeSpace space then 0 else segBase (s.seg (segOf space))
    let h ← s.translateSpan (base + r.off) r.size kind (withOff r.ptr r.off) r.lane
    let t ← homes s space kind rs
    .ok (h :: t)

/-- Byte address of an SCR access in its core's scratchpad (R30). -/
def scrAddr (s : State) (r : Req) : Nat := segBase (s.seg 0) + r.off

/-! ### Stores and results -/

/-- A store of a group to TAL or GLB: at the homes, in its core's own view (R156), with the seal of R350. -/
def storeGroup (s : State) (ps : List (Nat × List Byte)) : State :=
  let s := (s.storeHome ps false).l1Store s.myCol s.myCore ps
  s.sealStore s.curGrp (Memory.linesOf ps)

/-- The stream thread that issues, if it is one. -/
def myThr (s : State) : Option Nat := match s.cur with
  | .slot _ _ => none
  | .thread _ t => some t

/-- The group that issues, or whose kick the issuing thread runs. -/
def myGrp (s : State) : Nat := match s.cur with
  | .slot g _ => g
  | .thread c t => ((s.thread c t).kick.map (·.grp)).getD 0

/-- The accesses of the issuing instruction at these homes are performed later: the schedule has it so, or an earlier access of its agent to the same bytes is not performed yet (R254, R264). -/
def defers (s : State) (load : Bool) (ps : List (Nat × Nat)) : Bool := s.late || s.clash s.myCol s.myCore s.myThr s.nextId load ps

/-- Places the accesses of the issuing instruction to be performed later. -/
def placeLate (s : State) (op : LateOp) (accs : List LateAcc) (d : Option Dest) (k : Option Strike) : State :=
  s.place (.late { col := s.myCol, core := s.myCore, thr := s.myThr, grp := s.myGrp, op := op, accs := accs, dst := d, strike := k })

/-- Requests with their homes, their data and their compare values. -/
def lateAccs (xs : List (Req × List (Nat × Nat))) (data cmp : Req → Nat) : List LateAcc :=
  xs.map fun x => ⟨x.1.lane, x.1.sub, x.1.size, x.2, data x.1, cmp x.1⟩

/-- The pieces of requests with their homes. -/
def zipPieces (xs : List (Req × List (Nat × Nat))) : List (Nat × Nat) := xs.flatMap (·.2)

/-- The strike of a pending result, carried by the thing in progress (R398). -/
def placeResult (s : State) (d : Dest) (ls : List LaneVal) (k : Option Strike) (load : Bool) : State :=
  s.place (.result d (strikeLanes k ls) 0 none load)

def placeScalar (s : State) (d : Dest) (x : Word) (p : Option Poison) (k : Option Strike) (load : Bool) : State :=
  let r := strikeVal k x p
  s.place (.result d [] r.1 r.2 load)

/-- The v register of the issuing group as a destination. -/
def destV (s : State) (r : Nat) : Dest := .vreg s.curGrp r

/-- The s register of the issuing agent as a destination. -/
def destS (s : State) (r : Nat) : Dest := match s.cur with
  | .slot g _ => .sreg g r
  | .thread c t => .thread c t r

/-! ### Control objects (R412) -/

/-- A store or atomic of a core to some bytes of its scratchpad has issued and is not performed yet (R254, R265). -/
def scrWrites (col core a n : Nat) (i : Item) : Bool :=
  match i with
  | .scr r => r.col = col && r.core = core && r.thr.isNone && (match r.op with
      | .store => true
      | .atom _ _ => true
      | _ => false) && r.accs.any fun x => decide (x.addr < a + n) && decide (a < x.addr + x.size)
  | _ => false

/-- An earlier store or atomic of the issuing core to these bytes is on its way. -/
def scrComing (s : State) (a n : Nat) : Bool := s.onCore && s.flight.any fun f => scrWrites s.myCol s.myCore a n f.item

/-- The bytes of an SCR control object: the core's own earlier stores to them come first (R265), and a poisoned line refuses it (R412). -/
def scrTaken (s : State) (ptr : Word) (n a : Nat) : Eff Nat :=
  if s.scrComing a n then hold (s.replays.awaits (.lines a n))
  else if s.scrPoisoned s.myTeam s.myCore a n then trap 0xB1 (ptrOff ptr + 2 ^ 62)
  else .ok (s.scrNat s.myTeam s.myCore a n)

/-- A read of an SCR control object that meets no buffer check: the argument block of `stk`, the descriptor of `rred.coll` (R193, R374): the checks of R31 as a load of `n` bytes, its own alignment, and R412. -/
def scrBlock (s : State) (ptr : Word) (n align : Nat) : Eff Nat := do
  let r : Req := ⟨0, 0, ptr, ptrOff ptr, n⟩
  s.checkReqs 0 0 align [r]
  s.scrTaken ptr n (s.scrAddr r)

/-- A read of an SCR control object by the issuing agent: the checks of R31 as a load of `n` bytes, its own alignment, the buffer check of Table 8-3, and R412; it answers the number the bytes stand for. -/
def scrObject (s : State) (ptr : Word) (n align : Nat) : Eff Nat := do
  let r : Req := ⟨0, 0, ptr, ptrOff ptr, n⟩
  s.checkReqs 0 0 align [r]
  let a := s.scrAddr r
  match s.bufCheck s.myTeam s.myCore a n .load with
  | some (c, d) => trapAt c d ptr 0
  | none => if s.bufHolds s.myTeam s.myCore a n then hold (s.replays.awaits (.lines a n)) else s.scrTaken ptr n a

end State

end Sys2Proof.Machine
end

