-- ==== Sys2Proof/Machine/Operands.lean ====
section
/-! DEFINITION. Elements of lanes (R55): widths, packing, integer values and their fit (R59, R69, R85), and the maps that lane instructions make over active lanes (R83). -/

namespace Sys2Proof.Machine

open Sys2Proof

/-- Width in bits of an element of an `ETYPE` value, 0 for a reserved one (Table 3-7). -/
def ewidth (t : Nat) : Nat :=
  match t with
  | 0 => 8
  | 1 => 8
  | 2 => 16
  | 3 => 16
  | 4 => 32
  | 5 => 32
  | 6 => 64
  | 7 => 64
  | 8 => 16
  | 9 => 16
  | 10 => 32
  | 11 => 64
  | 12 => 8
  | 13 => 8
  | _ => 0

/-- A signed integer type. -/
def esigned (t : Nat) : Bool := t = 0 || t = 2 || t = 4 || t = 6

/-- Sub-elements of a lane. -/
def perLane (w : Nat) : Nat := 64 / w

/-- Sub-element `e` of a lane (R55). -/
def elemOf (x : Word) (w e : Nat) : Nat := bitsOf x.toNat (w * e) w

/-- The sub-elements of a lane, ascending. -/
def elems (w : Nat) (x : Word) : List Nat := (List.range (perLane w)).map (elemOf x w)

/-- The number that a list of `w`-bit elements makes, the first in the lowest bits. -/
def packNat (w : Nat) : List Nat → Nat
  | [] => 0
  | x :: xs => x % 2 ^ w + 2 ^ w * packNat w xs

/-- A lane of these sub-elements (R55). -/
def packLane (w : Nat) (xs : List Nat) : Word := BitVec.ofNat 64 (packNat w xs)

/-- The integer that an element stands for (R59). -/
def ival (t x : Nat) : Int := if esigned t then asSigned (ewidth t) x else ((x % 2 ^ ewidth t : Nat) : Int)

/-- Smallest and largest value of an integer type (Table 4-3). -/
def iminOf (t : Nat) : Int := if esigned t then -((2 ^ (ewidth t - 1) : Nat) : Int) else 0

def imaxOf (t : Nat) : Int := if esigned t then ((2 ^ (ewidth t - 1) : Nat) : Int) - 1 else ((2 ^ ewidth t : Nat) : Int) - 1

/-- The fit of an exact integer to a type (R69, R85): clamped, or wrapped modulo 2^w. -/
def fit (t : Nat) (sat : Bool) (x : Int) : Nat :=
  let w := ewidth t
  if sat then wrapTo w (max (iminOf t) (min (imaxOf t) x)) else wrapTo w x

/-- A list of lanes under a function of one element. -/
def lane1 (w : Nat) (f : Nat → Nat) (x : Word) : Word := packLane w ((elems w x).map f)

def lane2 (w : Nat) (f : Nat → Nat → Nat) (x y : Word) : Word :=
  packLane w ((List.range (perLane w)).map fun e => f (elemOf x w e) (elemOf y w e))

def lane3 (w : Nat) (f : Nat → Nat → Nat → Nat) (x y z : Word) : Word :=
  packLane w ((List.range (perLane w)).map fun e => f (elemOf x w e) (elemOf y w e) (elemOf z w e))

/-- Extends an element as `slane` does: with the sign from a signed integer type, with zeros else (R112). -/
def extendElem (t x : Nat) : Word :=
  if esigned t then BitVec.ofNat 64 (wrapTo 64 (asSigned (ewidth t) x)) else BitVec.ofNat 64 (x % 2 ^ ewidth t)

namespace State

/-- Element positions of a register of the issuing group (R72). -/
def positions (s : State) (w : Nat) : Nat := s.me.width * perLane w

/-- The element at a position of a v register (R55). -/
def velem (s : State) (r w p : Nat) : Nat := elemOf (s.vlane r (p / perLane w)) w (p % perLane w)

/-- Writes `f lane` in every active lane of a v register (R83). -/
def mapLanes (s : State) (d : Nat) (f : Nat → Word) : State := s.writeV d (s.lanes.map fun l => (l, f l))

/-- The mode check of R83: the element type is accepted, and the rounding value is one where the instruction reads it. -/
def needs (s : State) (ok : Nat → Bool) (rounds : Bool) : Eff Unit :=
  if !ok s.etype || (rounds && decide (6 ≤ s.round)) then trap 0x21 else .ok ()

/-- Positions of a v register replaced: pairs of position and element, the others kept (R100, R115). -/
def writeElems (s : State) (d w : Nat) (ps : List (Nat × Nat)) : State :=
  s.writeV d ((lanesIn s.me.width (BitVec.ofNat 64 (2 ^ 64 - 1))).filterMap fun l =>
    let mine := ps.filter fun p => p.1 / perLane w = l
    if mine.isEmpty then none
    else some (l, packLane w ((List.range (perLane w)).map fun e =>
      match mine.find? (fun p => p.1 % perLane w = e) with
      | some p => p.2
      | none => elemOf (s.vlane d l) w e)))

/-- Sets the bits of the active lanes of a k register, keeping the others (R95, R109). -/
def writeBallot (s : State) (d : Nat) (f : Nat → Bool) : State :=
  let on := s.lanes.foldl (fun m l => if f l then m ||| BitVec.ofNat 64 (2 ^ l) else m) (0 : Word)
  s.writeK d ((s.kreg d &&& ~~~s.active) ||| on)

end State

def isInt (t : Nat) : Bool := decide (t < 8)
def isArith (t : Nat) : Bool := decide (8 ≤ t) && decide (t < 12)
def isFloat (t : Nat) : Bool := decide (8 ≤ t) && decide (t < 14)
def isElem (t : Nat) : Bool := decide (t < 14)
def isShort (t : Nat) : Bool := decide (8 ≤ t) && decide (t < 11)

end Sys2Proof.Machine
end

