-- ==== Sys2Proof/Machine/Memory.lean ====
section
/-! DEFINITION. Meanings of the column-local memory family: `vld`, `vst`, `vldx`, `vstx`, `sld`, `sst`, `vldi`, `atom` (R153–R163). Loads of TAL, GLB and ARG are read through the L1 cache at issue and arrive later; stores and atomics are performed at their home at issue; every access to SCR goes to the scratchpad controller. -/

namespace Sys2Proof.Machine

open Sys2Proof

namespace State

/-- The program counter of the instruction that is issuing, whose state has gone on (R39). -/
def herePc (s : State) : Word := s.pc - 4

/-- Sends the accesses of an instruction to the scratchpad controller; the agent's fetch is suspended until they arrive (R145, R153). -/
def scrIssue (s : State) (i : Instr) (op : ScrOp) (accs : List Acc) (dst : Option Dest) (lanes : Word) (suspend : Bool) : State :=
  let id := s.nextId
  let r : ScrReq :=
    { col := s.myCol, core := s.myCore, team := s.myTeam, op := op, accs := accs, dst := dst, waiting := false, got := [],
      grp := match s.cur with
        | .slot g b => some (g, b)
        | .thread _ _ => none
      thr := match s.cur with
        | .slot _ _ => none
        | .thread _ t => some t
      pc := s.herePc, insn := insnWord i, lanes := lanes, strike := s.strikeOf i, einj := s.me.einj }
  let s := s.place (.scr r)
  if suspend then s.mySusp (.arrival id) else s

/-- The accesses of requests, with their data and compare values. -/
def accsOf (s : State) (rs : List Req) (data cmp : Req → Nat) : List Acc :=
  rs.map fun r => ⟨r.lane, r.sub, s.scrAddr r, r.size, data r, cmp r, withOff r.ptr r.off⟩

/-- The element width that a vector memory instruction reads from the mode (R155). -/
def memWidth (s : State) (ok : Nat → Bool) : Eff Nat := do
  s.needs ok false
  .ok (ewidth s.etype)

/-- Reads requests at their homes through the core's L1 cache (R156). -/
def readAll (s : State) (inv : Bool) : List (Req × List (Nat × Nat)) → State × List Piece
  | [] => (s, [])
  | x :: xs =>
    let r := s.loadPieces s.myCol s.myCore x.2 inv
    let t := readAll r.1 inv xs
    (t.1, ⟨x.1.lane, x.1.sub, x.1.size, leNat r.2.1, if r.2.2 then some .line else none⟩ :: t.2)

/-- A load into a v register, after its own mode check (R153, R157, R159). -/
def loadV (s : State) (i : Instr) (space align : Nat) (inv : Bool) (d : Reg) (rs : List Req) : Eff State := do
  s.checkReqs space 0 align rs
  if rs.isEmpty then .ok s
  else if space = 0 then
    .ok ((s.emptyV d.toNat).scrIssue i .load (s.accsOf rs (fun _ => 0) fun _ => 0) (some (s.destV d.toNat)) s.active true)
  else
    let hs ← s.homes space 0 rs
    if s.defers true (zipPieces (rs.zip hs)) then
      .ok ((s.emptyV d.toNat).placeLate (.load inv) (lateAccs (rs.zip hs) (fun _ => 0) fun _ => 0) (some (s.destV d.toNat)) (s.strikeOf i))
    else
    let r := s.readAll inv (rs.zip hs)
    .ok ((r.1.emptyV d.toNat).placeResult (s.destV d.toNat) (gatherLanes r.2) (s.strikeOf i) true)

/-- A store of a group at its homes: performed, or left for later (R254, R264); it seals at its issue (R350). -/
def storeOrLate (s : State) (xs : List (Req × List (Nat × Nat))) (data : Req → Nat) : State :=
  let ps := xs.flatMap fun x => cutBytes x.2 (leBytes x.1.size (data x.1))
  if s.defers false (zipPieces xs) then (s.placeLate .store (lateAccs xs data fun _ => 0) none none).sealStore s.curGrp (Memory.linesOf ps)
  else s.storeGroup ps

/-- A store of requests with their data (R153, R157, R159). -/
def storeV (s : State) (i : Instr) (space align : Nat) (rs : List Req) (data : Req → Nat) (lanes : Word) : Eff State := do
  s.checkReqs space 1 align rs
  if rs.isEmpty then .ok s
  else if space = 0 then .ok (s.scrIssue i .store (s.accsOf rs data fun _ => 0) none lanes true)
  else
    let hs ← s.homes space 1 rs
    .ok (s.storeOrLate (rs.zip hs) data)

/-- The accesses of a contiguous instruction: eight bytes for each active lane (R157). -/
def lineReqs (s : State) (a : Reg) (o : BitVec 10) (w : Nat) : List Req :=
  let p := s.sval a.toNat
  let base := (ptrOff p + o.toNat * (w / 8)) % 2 ^ 48
  s.lanes.map fun l => ⟨l, 0, p, (base + 8 * l) % 2 ^ 48, 8⟩

/-- The accesses of an indexed instruction: one element for each sub-element of the active lanes (R159). -/
def indexReqs (s : State) (a b : Reg) (scale : BitVec 4) (w : Nat) : List Req :=
  let p := s.sval a.toNat
  s.lanes.flatMap fun l => (List.range (perLane w)).map fun e =>
    ⟨l, e, p, (ptrOff p + elemOf (s.vlane b.toNat l) w e * 2 ^ scale.toNat) % 2 ^ 48, w / 8⟩

/-- The access of a scalar instruction (R160). -/
def wordReq (s : State) (a : Reg) (o : BitVec 10) : Req :=
  let p := s.sval a.toNat
  ⟨0, 0, p, (ptrOff p + 8 * o.toNat) % 2 ^ 48, 8⟩

/-- The lanes of a TAL or GLB `atom`, ascending, each one step at its home (R163). -/
def atomAll (s : State) (op w : Nat) (signed : Bool) (data cmp : Nat → Nat) : List (Req × List (Nat × Nat)) → State × List Piece
  | [] => (s, [])
  | x :: xs =>
    let h := (x.2.head?.map (·.1)).getD 0
    let old := s.mem.nat h (w / 8)
    let bad := s.mem.isPoisoned h
    let s := s.storeGroup [(h, leBytes (w / 8) (atomNew op w signed old (data x.1.lane) (cmp x.1.lane)))]
    let t := atomAll s op w signed data cmp xs
    (t.1, ⟨x.1.lane, 0, 8, old, if bad then some .line else none⟩ :: t.2)

/-- A word read by a stream thread at its homes (R256), or left to be read later; a poisoned one raises the cause (R161). -/
def threadLoad (s : State) (d : Reg) (ps : List (Nat × Nat)) : Eff State :=
  let r := s.readAt s.myCol (s.myThr.getD 0) s.nextId ps
  if s.defers true ps then
    .ok (((s.emptyS d.toNat).placeLate (.load false) [⟨0, 0, 8, ps, 0, 0⟩] (some (s.destS d.toNat)) none).mySusp (.arrival s.nextId))
  else if r.2 then trap 0xB1 (d.toNat + 1024)
  else
    let id := s.nextId
    .ok (((s.emptyS d.toNat).place (.result (s.destS d.toNat) [] (BitVec.ofNat 64 (leNat r.1)) none true)).mySusp (.arrival id))

end State

/-! ### Meanings -/

/-- `vld` (R157). -/
def execVld (d a : Reg) (p : BitVec 2) (o : BitVec 10) (s : State) : Out' :=
  s.issue (.vld d a p o) (.core true [.vd d, .sa a] .pending) fun t => do
    let w ← t.memWidth isElem
    t.loadV (.vld d a p o) p.toNat (w / 8) false d (t.lineReqs a o w)

/-- `vldi` (R157, R158). -/
def execVldi (d a : Reg) (p : BitVec 2) (o : BitVec 10) (s : State) : Out' :=
  s.issue (.vldi d a p o) (.core true [.vd d, .sa a] .pending) fun t => do
    let w ← t.memWidth isElem
    t.loadV (.vldi d a p o) p.toNat (w / 8) true d (t.lineReqs a o w)

/-- `vst` (R157). -/
def execVst (d a : Reg) (p : BitVec 2) (o : BitVec 10) (s : State) : Out' :=
  s.issue (.vst d a p o) (.core true [.vdc d .active, .sa a] .none) fun t => do
    let w ← t.memWidth isElem
    t.storeV (.vst d a p o) p.toNat (w / 8) (t.lineReqs a o w) (fun r => (t.vlane d.toNat r.lane).toNat) t.active

/-- `vldx` (R159). -/
def execVldx (d a b : Reg) (p : BitVec 2) (sc : BitVec 4) (s : State) : Out' :=
  s.issue (.vldx d a b p sc) (.core true [.vd d, .sa a, .vb b .active] .pending) fun t => do
    let w ← t.memWidth isElem
    t.loadV (.vldx d a b p sc) p.toNat (w / 8) false d (t.indexReqs a b sc w)

/-- `vstx`: in ascending position order (R159). -/
def execVstx (d a b : Reg) (p : BitVec 2) (sc : BitVec 4) (s : State) : Out' :=
  s.issue (.vstx d a b p sc) (.core true [.vdc d .active, .sa a, .vb b .active] .none) fun t => do
    let w ← t.memWidth isElem
    t.storeV (.vstx d a b p sc) p.toNat (w / 8) (t.indexReqs a b sc w) (fun r => elemOf (t.vlane d.toNat r.lane) w r.sub) t.active

/-- `sld` (R160, R161). -/
def execSld (d a : Reg) (p : BitVec 2) (o : BitVec 10) (s : State) : Out' :=
  s.issue (.sld d a p o) (.both [.sd d, .sa a] .pending) fun t => do
    let r := t.wordReq a o
    t.checkReqs p.toNat 0 8 [r]
    if p.toNat = 0 then
      .ok ((t.emptyS d.toNat).scrIssue (.sld d a p o) .load (t.accsOf [r] (fun _ => 0) fun _ => 0) (some (t.destS d.toNat)) (if t.onCore then t.slotMask else 0) true)
    else
      let h ← t.translateSpan ((if t.wholeSpace p.toNat then 0 else segBase (t.seg (segOf p.toNat))) + r.off) 8 0 (withOff r.ptr r.off) 0
      if t.onCore then
        if t.defers true h then
          .ok ((t.emptyS d.toNat).placeLate (.load false) [⟨0, 0, 8, h, 0, 0⟩] (some (t.destS d.toNat)) (t.strikeOf (.sld d a p o)))
        else
        let x := t.loadPieces t.myCol t.myCore h false
        .ok ((x.1.emptyS d.toNat).placeScalar (t.destS d.toNat) (BitVec.ofNat 64 (leNat x.2.1)) (if x.2.2 then some .line else none)
          (t.strikeOf (.sld d a p o)) true)
      else t.threadLoad d h

/-- `sst` (R160, R161). -/
def execSst (d a : Reg) (p : BitVec 2) (o : BitVec 10) (s : State) : Out' :=
  s.issue (.sst d a p o) (.both [.sdc d, .sa a] .none) fun t => do
    let r := t.wordReq a o
    let data := (t.sval d.toNat).toNat
    if t.onCore then t.storeV (.sst d a p o) p.toNat 8 [r] (fun _ => data) t.slotMask
    else
      t.checkReqs p.toNat 1 8 [r]
      if p.toNat = 0 then .ok (t.scrIssue (.sst d a p o) .store (t.accsOf [r] (fun _ => data) fun _ => 0) none 0 true)
      else
        let h ← t.translateSpan (segBase (t.seg (segOf p.toNat)) + r.off) 8 1 (withOff r.ptr r.off) 0
        match t.cur with
        | .thread c th =>
          if t.defers false h then .ok ((t.placeLate .store [⟨0, 0, 8, h, data, 0⟩] none none).sealThreadStore c th)
          else .ok ((t.storeHome (State.cutBytes h (leBytes 8 data)) false).sealThreadStore c th)
        | .slot _ _ => .ok t

/-- `atom` (R162, R163). -/
def execAtom (d a b : Reg) (p : BitVec 2) (o : BitVec 4) (s : State) : Out' :=
  s.issue (.atom d a b p o) (.core true [.vdc d .active, .va a .active, .vb b .active] .pending) fun t => do
    let pmax : Bool := o.toNat = 8
    t.needs (fun e => pmax || (decide (4 ≤ e) && decide (e < 8))) false
    let w := if pmax then 64 else ewidth t.etype
    let signed := !pmax && esigned t.etype
    let rs := t.lanes.map fun l =>
      let q := t.vlane b.toNat l
      (⟨l, 0, q, ptrOff q, w / 8⟩ : Req)
    let data := fun l => (t.vlane a.toNat l).toNat % 2 ^ w
    let cmp := fun l => (t.vlane d.toNat l).toNat % 2 ^ w
    t.checkReqs p.toNat 2 (w / 8) rs
    if rs.isEmpty then .ok t
    else if p.toNat = 0 then
      .ok ((t.emptyV d.toNat).scrIssue (.atom d a b p o) (.atom o.toNat signed) (t.accsOf rs (fun r => data r.lane) fun r => cmp r.lane)
        (some (t.destV d.toNat)) t.active true)
    else
      let hs ← t.homes p.toNat 2 rs
      if t.defers false (State.zipPieces (rs.zip hs)) then
        .ok (((t.emptyV d.toNat).placeLate (.atom o.toNat w signed) (State.lateAccs (rs.zip hs) (fun r => data r.lane) fun r => cmp r.lane)
          (some (t.destV d.toNat)) (t.strikeOf (.atom d a b p o))).sealStore t.curGrp (State.pieceLines (State.zipPieces (rs.zip hs))))
      else
      let r := t.atomAll o.toNat w signed data cmp (rs.zip hs)
      .ok ((r.1.emptyV d.toNat).placeResult (t.destV d.toNat) (gatherLanes r.2) (t.strikeOf (.atom d a b p o)) true)

end Sys2Proof.Machine
end

