-- ==== Sys2Proof/Machine/Arrive.lean ====
section
/-! DEFINITION. Results that return to their registers, accesses that arrive at a scratchpad controller, releases that complete (R45, R145, R151, R152, R255). -/

namespace Sys2Proof.Machine

open Sys2Proof

/-- An event that names nothing in progress, or whose conditions do not hold, does not come about. -/
def notPending : Out' := .fault .notPending

namespace State

/-- `sr.einj` without the count or the disarming of an issue that has faulted after all (R398): `old` is what it was before that issue; another value has been written since. -/
def uncount (old now : Word) : Word :=
  if now = old - BitVec.ofNat 64 (2 ^ 32) ∨ now = old - BitVec.ofNat 64 (bv old 60 2 * 2 ^ 60) then old else now

/-- The cause an instruction of a group raises at an arrival: its program counter goes back to it, and it does not count for an injection (R322, R398). -/
def faultAt (s : State) (g : Nat) (b : Bool) (pc : Word) (einj : Word) (r : Raise) : State :=
  let s := s.modGroup g fun x => { x with image := x.image.modSlot b fun p => { p with pc := pc }, einj := uncount einj x.einj, susp := .none }
  (s.raise r).changed

/-- A result reaches its register, which becomes full (R45); lanes that have exited get none (R133). A stream thread raises the poison of its word itself (R161). -/
def deliverResult (s : State) (d : Dest) (ls : List LaneVal) (x : Word) (p : Option Poison) : State :=
  match d with
  | .vreg g r => s.modImage g fun im =>
      { im with v := vmod im.v r fun v => { v.writeVals (ls.filter fun l => (liveMask im).getLsbD l.lane) with full := true } }
  | .sreg g r => s.modImage g fun im => { im with s := if r = 0 then im.s else vmod im.s r fun _ => ⟨x, true, p⟩ }
  | .thread c t r =>
    let h := s.thread c t
    match p with
    | some q =>
      let k := poisonCause q (r + 1024)
      let s := s.modThread c t fun h => { h with s := vmod h.s r fun y => { y with full := true }, pc := h.pc - 4, susp := .none }
      s.streamRecover c t k.1 k.1 k.2 none (h.pc - 4) h.word
    | none => s.modThread c t fun h => { h with s := if r = 0 then h.s else vmod h.s r fun _ => ⟨x, true, none⟩, susp := .none }

/-- A pending destination fills again without its value, because its instruction has faulted. -/
def refill (s : State) (d : Option Dest) : State :=
  match d with
  | some (.vreg g r) => s.modImage g fun im => { im with v := vmod im.v r fun v => { v with full := true } }
  | some (.sreg g r) => s.modImage g fun im => { im with s := vmod im.s r fun x => { x with full := true } }
  | some (.thread c t r) => s.modThread c t fun h => { h with s := vmod h.s r fun x => { x with full := true } }
  | none => s

/-- Ends the suspension of an agent. -/
def unsuspend (s : State) (r : ScrReq) : State :=
  match r.grp, r.thr with
  | some (g, _), _ => s.modGroup g fun x => { x with susp := .none }
  | none, some t => s.modThread r.col t fun x => { x with susp := .none }
  | none, none => s

/-- Table 8-3 for one access of a request; a stream thread's `sst` to a line that its own kick fills is a fill write (R161). -/
def accRefused (s : State) (r : ScrReq) (a : Acc) : Option (Nat × Nat) :=
  let kind : AccKind := match r.op with
    | .store => .store
    | .atom _ _ => .atom
    | _ => .load
  (s.bufLines r.team r.core a.addr a.size).findSome? fun p =>
    let b := s.buf r.team r.core p.1
    let own := match r.thr with
      | some t => b.st = .filling && b.kick.isSome && b.kick = (s.thread r.col t).kick.map (·.id)
      | none => false
    if own && kind = .store then none else (bufRefuses kind b p.2).map fun c => (c, p.1 + b.st.code * 256)

/-- The cause that a request raises at the controller: cause, detail, pointer, lane. -/
def reqRefused (s : State) (r : ScrReq) : Option (Nat × Nat × Option Word × Nat) :=
  match r.op with
  | .bufSet _ target b =>
    let x := s.buf r.team r.core b
    if x.declared && (target = 0 || target = 2) && (x.st = .empty || x.st = .full) then none
    else some (0x82, b + (if x.declared then x.st.code * 256 else 0), none, 0)
  | .bufGet _ => none
  | _ => r.accs.findSome? fun a => (s.accRefused r a).map fun c => (c.1, c.2, some a.ptr, a.lane)

/-- The buffers that accesses reach, each once. -/
def buffersHit (s : State) (r : ScrReq) : List Nat :=
  (r.accs.flatMap fun a => (s.bufLines r.team r.core a.addr a.size).map (·.1)).foldl setPut []

/-- Counts a store of a group for each buffer it reaches (R147). -/
def countStores (s : State) (r : ScrReq) : State :=
  match r.grp with
  | some (g, _) => (s.buffersHit r).foldl (fun s b => s.modGroup g fun x => { x with bufStores := vmod x.bufStores b (· + 1) }) s
  | none => s

/-- The lanes of an `atom` on SCR, ascending (R163). -/
def scrAtoms (s : State) (r : ScrReq) (op : Nat) (signed : Bool) : List Acc → State × List Piece
  | [] => (s, [])
  | a :: as =>
    let old := s.scrPiece r a
    let s := s.scrWrite r.team r.core [(a.addr, leBytes a.size (atomNew op (8 * a.size) signed old.val a.data a.cmp))] false
    let t := scrAtoms s r op signed as
    (t.1, { old with size := 8 } :: t.2)

/-- The word that `buf.get` writes (Table 8-4). -/
def bufWord (b : Buffer) : Nat :=
  if b.declared then b.st.code + (b.bits.filter id).length * 2 ^ 16 + b.lines * 2 ^ 32 else 0

/-- The lanes of an `atom` that has arrived are performed at their banks (R163, R164). -/
def performAtom (s : State) (id : Nat) (r : ScrReq) (op : Nat) (signed : Bool) : State :=
  let x := s.scrAtoms r op signed r.accs
  match r.dst with
  | some d => x.1.setItem id (resultItem d (gatherLanes x.2) r.strike true)
  | none => x.1.drop id

/-- Performs the atomics that have arrived and for which `p` holds, in the order of their arrival. -/
def settleAtoms (s : State) (p : ScrReq → Bool) : State :=
  s.flight.foldl (fun s f => match f.item with
    | .scr r => match r.op with
      | .atom op signed => if r.waiting && p r then s.performAtom f.id r op signed else s
      | _ => s
    | _ => s) s

/-- Two requests reach a byte of the same scratchpad. -/
def meetReqs (r q : ScrReq) : Bool :=
  r.col = q.col && r.core = q.core && meetPieces (r.accs.map fun a => (a.addr, a.size)) (q.accs.map fun a => (a.addr, a.size))

/-- The atomics that a request comes after at its controller: those of its group, of the bytes it reaches, and, for `buf.set`, of its team (R148, R163). -/
def comesAfter (r q : ScrReq) : Bool :=
  (r.grp.isSome && (q.grp.map (·.1)) = r.grp.map (·.1)) || meetReqs r q ||
  (match r.op with
    | .bufSet _ _ _ => q.team = r.team && q.core = r.core
    | _ => false)

/-- An earlier request of the same core to some of its bytes has not arrived (R254). -/
def coreBefore (s : State) (id : Nat) (r : ScrReq) : Bool :=
  r.thr.isNone && s.earlier id fun i => match i with
    | .scr q => !q.waiting && q.thr.isNone && meetReqs r q
    | _ => false

/-- The request is performed at the controller; an atomic is, once its banks come to it. -/
def performReq (s : State) (id : Nat) (r : ScrReq) : State :=
  match r.op with
  | .load =>
    let s := s.setItem id (s.loadItem r)
    if r.thr.isSome then s else s.unsuspend r
  | .store => (((s.drop id).countStores r).scrWrite r.team r.core (r.accs.map fun a => (a.addr, leBytes a.size a.data)) false).unsuspend r
  | .atom _ _ => ((s.countStores r).setItem id (.scr { r with waiting := true })).unsuspend r
  | .bufSet keep target b =>
    let s := s.drop id
    (if target = 0 then s.modBuf r.team r.core b fun x => x.toEmpty keep else s.modBuf r.team r.core b fun x => x.toFull true).unsuspend r
  | .bufGet b =>
    match r.dst with
    | some d => s.setItem id (resultItem d [⟨0, BitVec.ofNat 64 (bufWord (s.buf r.team r.core b)), none⟩] r.strike false)
    | none => s.drop id

/-- A fold of a group into an invariant register that has not been made (R235). -/
def foldInto (g ireg : Nat) (i : Item) : Bool :=
  match i with
  | .mx m => m.grp = g && (match m.kind with
    | .csum _ _ r => r = ireg
    | .epi _ block _ _ _ _ _ => bvBit block 56 && bv block 57 3 = ireg
    | _ => false)
  | _ => false

/-- A fold of a group into an invariant register is pending, of those placed before `bound`. -/
def foldPending (s : State) (g ireg bound : Nat) : Bool := s.earlier bound (foldInto g ireg)

/-- A part of an invariant register: 0 the integer sum, 1 the binary64 sum. -/
def ipartOf (s : State) (g ireg part : Nat) : Word :=
  let i := vget ⟨0, 0⟩ (s.grp g).image.i ireg
  if part = 1 then i.fpart else i.ipart

/-- A `csmov` takes its value as soon as no earlier fold into its register is pending (R344). -/
def wakeMove (s : State) (f : Flight) : Flight :=
  match f.item with
  | .csmov (.sreg g r) ireg part k =>
    if s.foldPending g ireg f.id then f else ⟨f.id, resultItem (.sreg g r) [⟨0, s.ipartOf g ireg part, none⟩] k false⟩
  | _ => f

def wakeMoves (s : State) : State := { s with flight := s.flight.map s.wakeMove }

/-- The request, or kick, of a group that has not yet arrived. -/
def onItsWay (g : Nat) (i : Item) : Bool :=
  match i with
  | .scr r => !r.waiting && (r.grp.map (·.1)) = some g
  | .kick k _ _ _ _ _ _ => k.grp = g
  | _ => false

end State

namespace State

/-- What a quote says of the device as it is (R391). -/
def quoteOf (s : State) (nonce : BitVec 256) : Quote :=
  { nonce := nonce, digest := Config.shake256 (recBytes s.record), seqno := recSeqno s.record, rom := Config.romVersion,
    cols := s.cols.map (·.phys), split := s.split, dev := s.dev }

/-- The bytes of a quote that are signed, in the order of R391. -/
def quoteBytes (q : Quote) : List Byte :=
  leBytes 32 q.nonce.toNat ++ q.digest ++ leBytes 4 q.seqno ++ leBytes 8 q.rom ++ q.cols.flatMap (leBytes 1) ++
  q.split.flatMap (fun p => leBytes 1 p.1 ++ leBytes 1 p.2) ++ leBytes 2 q.dev

/-- A quote is in progress. -/
def isQuote : Item → Bool
  | .quote _ _ => true
  | _ => false

/-- What has issued and is not performed yet is performed: a late access that no earlier one of its agent stands before, an atomic at its scratchpad (R164, R254), a quote that no other is in progress before (R391). -/
def performItem (s : State) (id : Nat) : State :=
  match s.item id with
  | some (.late l) => if s.latePerforms id l then s.performLate id else s
  | some (.scr r) => match r.op with
    | .atom op signed => if r.waiting then s.performAtom id r op signed else s
    | _ => s
  | some (.quote port nonce) =>
    if s.earlier id isQuote then s
    else
      let q := s.quoteOf nonce
      ((s.drop id).out (.quote port q (Config.sign s.draws (quoteBytes q)))).respond port true
  | _ => s

/-- A late store, an atomic that waits for its banks, or a quote that can be performed. -/
def performsNow (s : State) (f : Flight) : Bool :=
  match f.item with
  | .late l => s.latePerforms f.id l
  | .scr r => r.waiting && (match r.op with
    | .atom _ _ => true
    | _ => false)
  | .quote _ _ => !s.earlier f.id isQuote
  | _ => false

end State

/-- A result returns to its register (R45); the access that brings it is performed by then. -/
def execResultArrival (id : Nat) (s : State) : Out' :=
  let s := s.performItem id
  match s.item id with
  | some (.result d ls x p _) => .next (((s.drop id).deliverResult d ls x p).changed)
  | _ => notPending

/-- The accesses of an instruction arrive at a scratchpad controller, are checked together and performed (R145, R148). -/
def execScratchpadArrival (id : Nat) (s : State) : Out' :=
  match s.item id with
  | some (.scr r) =>
    let g := (r.grp.map (·.1)).getD 0
    if r.waiting || (r.grp.isSome && s.earlier id (State.onItsWay g)) || s.coreBefore id r then notPending
    else
    let s := s.settleAtoms (State.comesAfter r)
    match s.reqRefused r with
    | none => .next ((s.performReq id r).changed)
    | some (cause, detail, ptr, lane) =>
      let s := (s.drop id).refill r.dst
      match r.grp, r.thr with
      | some (g, b), _ => .next (s.faultAt g b r.pc r.einj ⟨g, b, cause, detail, ptr, lane, r.lanes, r.insn, r.pc, false, false⟩)
      | none, some t => .next ((s.streamFault r.col t cause detail ptr r.pc r.insn s.nextId).changed)
      | none, none => notPending
  | _ => notPending

end Sys2Proof.Machine
end

