-- ==== Sys2Proof/Machine/Links.lean ====
section
/-! DEFINITION. Remote requests (23_links.md): how a pointer is resolved, how a request is sent, and how it ends (R260, R317–R319, R363–R372). -/

namespace Sys2Proof.Machine

open Sys2Proof

namespace State

/-! ### Where a pointer leads (R363, R366) -/

/-- What a pointer names. -/
inductive Target where
  /-- this device, a column of the issuing context's partition -/
  | here (col : Nat)
  /-- a host, through a port -/
  | host (port : Nat)
  /-- another pod member, a column number there -/
  | member (m col : Nat)
  deriving DecidableEq, Repr

def hostPort (s : State) (dev : Nat) : Option Nat := s.hostdev.findIdx? (· = some dev)

/-- Resolves a pointer for an agent in column number `num` of its partition. -/
def resolve (s : State) (p : Word) (num : Nat) : Target :=
  let c := if ptrCol p = 0x3F then num else ptrCol p
  if ptrDev p = 0x3FF || ptrDev p = s.dev then .here c
  else match s.hostPort (ptrDev p) with
    | some port => .host port
    | none => .member (ptrDev p) c

def isLost (s : State) (m : Nat) : Bool := s.lost.contains m

/-- The target is a member that is LOST, or a column that cannot serve memory (R371). -/
def targetDead (s : State) (ctx : Nat) (t : Target) : Bool :=
  match t with
  | .here c => s.colDead (s.colOf ctx c)
  | .host _ => false
  | .member m _ => s.isLost m

/-- A host window holds all bytes of an access (R363). -/
def inWindow (off size : Nat) (w : HostWindow) : Bool := decide (w.base ≤ off) && decide (off + size ≤ w.base + 65536 * w.units)

/-- A host window permits an access. -/
def permits (read write : Bool) (w : HostWindow) : Bool := (w.r || !read) && (w.w || !write)

/-- The check of the host windows (R363): the cause that refuses an access, or none. -/
def hostRefuses (s : State) (port : Nat) (p : Word) (size : Nat) (read write : Bool) : Option Nat :=
  let ws := (s.windows.getD port []).filter (inWindow (ptrOff p) size)
  if ptrCol p ≠ 0 then some 0x46
  else if ws.isEmpty then some 0x60
  else if ws.any (permits read write) then none
  else some 0x61

/-- The host address of an access: that of the first window that permits it (R363). -/
def hostAddr (s : State) (port : Nat) (r : Remote) : Nat :=
  match (s.windows.getD port []).find? fun w => inWindow r.off (if r.bytes.isEmpty then r.size else r.bytes.length) w && permits (r.kind ≠ .write) (r.kind ≠ .read) w with
  | some w => w.host + (r.off - w.base)
  | none => 0

/-! ### Streams of requests (R260, R365) -/

/-- The group whose request it is, if one's. -/
def remGroup (r : Remote) : Option Nat :=
  match r.why with
  | .lane g _ _ => some g
  | .row _ g _ _ => some g
  | .element _ _ => none
  | .frame g _ => g

/-- Bytes of a request. -/
def remBytes (r : Remote) : Nat := if r.bytes.isEmpty then r.size else r.bytes.length

/-- Two requests to one (device, column) reach a common byte. -/
def meetRemotes (a b : Remote) : Bool := decide (a.off < b.off + remBytes b) && decide (b.off < a.off + remBytes a)

/-- Two requests that keep their order: those of one group to one (device, column) (R260); of those to the same bytes, the ones of one core's instructions (R254) and the elements of one transfer (R205). -/
def sameStream (a b : Remote) : Bool :=
  a.dev = b.dev && a.host = b.host && a.tcol = b.tcol &&
  (((remGroup a).isSome && remGroup a = remGroup b) || (meetRemotes a b && (match a.why, b.why with
    | .lane _ _ _, .lane _ _ _ => a.col = b.col && a.core = b.core
    | .element x _, .element y _ => x = y
    | _, _ => false)))

/-- An earlier request of the stream for which `p` holds. -/
def earlierInStream (s : State) (id : Nat) (r : Remote) (p : Remote → Bool) : Bool :=
  s.earlier id fun i => match i with
    | .remote q => sameStream q r && p q
    | _ => false

/-- The port by which a request leaves the device, if one carries traffic: its host's, or one of the pod (R359, R363). -/
def portFor (s : State) (r : Remote) : Option Nat :=
  match r.host with
  | some p => if s.portCarries p then some p else none
  | none => s.podPort

/-- A request leaves by a port; while none carries traffic it stays with the device (R359). -/
def emit (s : State) (id : Nat) (r : Remote) : State :=
  let via := s.portFor r
  let s := s.setItem id (.remote { r with via := via })
  match via, r.dev, r.why with
  | none, _, _ => s
  | some _, some m, .frame _ f => s.out (.frame m { f with ext := true, src := s.dev, id := id })
  | some _, some m, _ => s.out (.request m id)
  | some p, none, _ => s.out (.hostAccess p id (s.hostAddr p r))

/-- The request goes to another member or a host. -/
def leaves (r : Remote) : Bool := r.dev.isSome || r.host.isSome

/-- Sends a request whose release has completed and whose predecessors in its stream have been sent; none leaves the device before its first member number (R361). -/
def sendOne (s : State) (f : Flight) : State :=
  match f.item with
  | .remote r =>
    if r.sent || r.release.isSome || (r.dev.isSome && !s.devSet) || s.earlierInStream f.id r fun q => !q.sent || q.waiting then s
    else
      let r := { r with sent := true, sentAt := s.time }
      if r.answer.isNone && leaves r then s.emit f.id r else s.setItem f.id (.remote r)
  | _ => s

def sendAll (s : State) : State := s.flight.foldl sendOne s

/-! ### How a request ends -/

/-- A store that reached no target shows at the next publishing release of its agent (R257). -/
def noteDropped (s : State) (id : Nat) (r : Remote) : State :=
  let away := r.dev.isSome || r.host.isSome
  s.modCore r.col r.core fun k => { k with phase := { k.phase with dropped := k.phase.dropped ++ [(id, away)] } }

/-- A value has come for a lane of an instruction: with the last one the result is on its way to its register (R368). -/
def gatherLane (s : State) (g : Nat) (v : LaneVal) : State :=
  match s.item g with
  | some (.gather d left got strike) =>
    if left ≤ 1 then s.setItem g (resultItem d (got ++ [v]) strike true) else s.setItem g (.gather d (left - 1) (got ++ [v]) strike)
  | _ => s

/-- Some row of an epilogue has not been performed. -/
def rowOf (epi : Nat) (i : Item) : Bool :=
  match i with
  | .row r => r.epi = epi
  | .remote r => (match r.why with
    | .row e _ _ _ => e = epi
    | _ => false)
  | _ => false

/-- A row of an epilogue has been performed: its count on a BYTES barrier; one for the whole on an ARRIVALS barrier (R242). -/
def rowDone (s : State) (epi : Nat) (bar : Option BarBind) (bytes : Nat) : State :=
  match bar with
  | none => s
  | some b =>
    if (s.barRead b.team b.core b.addr).kind = 1 then s.place (.countdown b bytes none none)
    else if s.flight.any fun f => rowOf epi f.item then s
    else s.place (.countdown b 1 none none)

/-- How a request ends. -/
inductive RemEnd where
  /-- performed; the value it returns and its poison -/
  | done (val : Word) (poison : Bool)
  | refused (cause : Nat)
  | dead
  deriving DecidableEq, Repr

def RemEnd.poison : RemEnd → Option Poison
  | .done _ p => if p then some .line else none
  | .refused c => some (.denied c)
  | .dead => some .dead

def RemEnd.val : RemEnd → Word
  | .done v _ => v
  | _ => 0

def RemEnd.failed : RemEnd → Bool
  | .done _ _ => false
  | _ => true

/-- A value as wide as the access (R368). -/
def cutVal (size : Nat) (x : Word) : Word := BitVec.ofNat 64 (x.toNat % 2 ^ (8 * size))

/-- The pointer by which a transfer reached an element elsewhere (Table 20-1 `ADDR`). -/
def remotePtr (s : State) (r : Remote) : Word := BitVec.ofNat 64 (r.dev.getD s.dev % 2 ^ 10 * 2 ^ 54 + r.tcol % 2 ^ 6 * 2 ^ 48 + r.off % 2 ^ 48)

/-- A transfer of a stream thread meets a fault: the thread's program counter is that of the transfer (R208). -/
def xferFault (s : State) (id cause detail : Nat) (addr : Option Word) : State :=
  match s.item id with
  | some (.xfer x) => s.streamFault x.col x.thr cause detail addr x.pc x.insn id
  | _ => s

/-- The end of a remote request (R319, R368–R372, R244, R201). -/
def endRemote (s : State) (id : Nat) (r : Remote) (e : RemEnd) : State :=
  let s := s.drop id
  match r.why with
  | .lane _ lane (some g) => s.gatherLane g ⟨lane, cutVal r.size e.val, e.poison⟩
  | .lane _ _ none => if e.failed then s.noteDropped id r else s
  | .row epi _ bar bytes =>
    match e with
    | .done _ _ => s.rowDone epi bar bytes
    | .refused _ => s.noteDropped id r
    | .dead =>
      let s := s.noteDropped id r
      match bar with
      | some b => s.place (.barError b 4)
      | none => s
  | .element x k =>
    match e with
    | .done v p => match s.item x with
      | some (.xfer y) => s.setItem x (.xfer { y with got := (k, cutVal r.size v, p) :: y.got })
      | _ => s
    | .refused c => s.xferFault x 0x45 c (s.remotePtr r)
    | .dead => s.xferFault x 0x44 0 (s.remotePtr r)
  | .frame _ _ => s

/-- Places a remote request; one whose target is dead ends at once, one that a host port refuses has its answer (R363, R371). -/
def placeRemote (s : State) (r : Remote) (t : Target) (p : Word) : State :=
  let r : Remote := match t with
    | .here c => { r with tcol := s.colOf r.ctx c }
    | .host port =>
      { r with
        host := some port
        tcol := ptrCol p
        answer := (s.hostRefuses port p (remBytes r) (r.kind ≠ .write) (r.kind ≠ .read)).map fun c => (0, some (.denied c), false) }
    | .member m c => { r with dev := some m, tcol := c }
  let id := s.nextId
  let s := s.place (.remote r)
  if s.targetDead r.ctx t then s.endRemote id r .dead else s

/-- A release has completed: the requests that waited for it go out (R260). -/
def releaseRemotes (s : State) (rel : Nat) : State :=
  let free := fun (f : Flight) => match f.item with
    | .remote r => if r.release = some rel then ⟨f.id, .remote { r with release := none }⟩ else f
    | _ => f
  ({ s with flight := s.flight.map free }).sendAll

/-- The launch of the issuing group. -/
def myLaunch (s : State) : Nat := s.me.launch

/-- A request of the issuing agent, without its target. -/
def newRemote (s : State) (kind : RemKind) (why : RemWhy) (off size : Nat) (data : Word) : Remote :=
  { kind := kind, why := why, ctx := s.myCtx, launch := s.myLaunch, col := s.myCol, core := s.myCore, dev := none, host := none, tcol := 0, off := off, size := size,
    data := data, cmp := 0, op := 0, signed := false, poison := false, bytes := [], sentAt := s.time, backoff := 0, sent := false,
    waiting := false, release := none, via := none, answer := none }

end State

end Sys2Proof.Machine
end

