-- ==== Sys2Proof/Machine/Barriers.lean ====
section
/-! DEFINITION. Meanings of the counted barriers, `phase`, `fenceq`, `buf.set` and `buf.get`, and the events of count-downs, error events and releases (R151, R152, R168–R173, R255–R258). -/

namespace Sys2Proof.Machine

open Sys2Proof

namespace State

/-! ### Barriers by index (R166, R170) -/

/-- The core whose scratchpad holds a team's barriers: its own, or the lower one of its pair. -/
def barCore (s : State) (t : Nat) : Nat := (s.team t).core

/-- Step 1 of R170: the address of a barrier by its index, or SEG_LIMIT. -/
def barAddr (s : State) (i : BitVec 12) : Eff Nat :=
  if segLimit (s.seg 0) < i.toNat * 16 + 16 then trap 0x40 0 else .ok (segBase (s.seg 0) + i.toNat * 16)

/-- Table 9-4 for `bar.arr` and `bar.exp`: BAR_UNINIT or BAR_ERROR with their detail words. -/
def barCheck (b : Bar) (i : BitVec 12) : Eff Unit :=
  if b.uninit then trap 0x83 i.toNat
  else if b.st = 3 then trap 0x84 (i.toNat + b.errf * 2 ^ 16)
  else .ok ()

/-- The count of `bar.arr` and `bar.exp`: a field of 0 is a literal one (R170). -/
def barCountOf (s : State) (a : Reg) : Nat := if a.toNat = 0 then 1 else (s.sval a.toNat).toNat % 2 ^ 32

def barCountUse (a : Reg) : List Use := if a.toNat = 0 then [] else [.sa a]

/-! ### Releases (R255) -/

/-- The scope at which a home is reached: 0 for the agent's own column, 2 for another column, 3 for another member (Table 14-1). -/
def targetScope (r : Remote) : Nat :=
  if r.dev.isSome || r.host.isSome then 3 else if r.tcol = r.col then 0 else 2

/-- A store of an agent that a release at a scope has to see arrive, or see dropped (R257); atomics are none (R255, R270). -/
def storeOf (col core : Nat) (thread : Bool) (scope : Nat) (i : Item) : Bool :=
  match i with
  | .scr r =>
    r.col = col && !r.waiting && r.op = .store && (if thread then r.thr = some core else r.thr.isNone && r.core = core)
  | .remote r =>
    !thread && r.col = col && r.core = core && (match r.why with
      | .lane _ _ _ => true
      | _ => false) && (r.kind = .write || r.kind = .reduce) && decide (targetScope r ≤ scope) && (r.answer.all fun a => a.2.1.isSome)
  | .late l => lateOf col core (if thread then some core else none) l && l.op = .store
  | _ => false

/-- The phases of a core or a stream thread. -/
def phaseOf (s : State) (col core : Nat) (thread : Bool) : Phase :=
  if thread then (s.thread col core).phase else (s.core col core).phase

def modPhaseOf (s : State) (col core : Nat) (thread : Bool) (f : Phase → Phase) : State :=
  if thread then s.modThread col core fun h => { h with phase := f h.phase }
  else s.modCore col core fun k => { k with phase := f k.phase }

/-- What waited for a release goes on with whether a store was dropped. -/
def releasePath (id bound : Nat) (e : Bool) (p : Path) : Path := if p.prog = .release id then { p with prog := .released bound e } else p

def releaseThread (id bound : Nat) (e : Bool) (h : Thread) : Thread := if h.prog = .release id then { h with prog := .released bound e } else h

/-- A `phase` holds its slot or thread for this release: such a release reports the stores that were dropped (R257, R372). -/
def phaseHolds (s : State) (id : Nat) : Bool :=
  s.groups.any (fun g => (pathsOf g.image).any fun p => p.prog = .release id) ||
  s.cols.any fun c => c.threads.toList.any fun h => h.prog = .release id

def releaseWaiters (s : State) (id : Nat) (e : Bool) : State :=
  let bound := s.nextId
  let f := releasePath id bound e
  let im := fun (im : Image) => { im with slotA := im.slotA.map f, slotB := im.slotB.map f, stack := im.stack.map f }
  { s with
    groups := s.groups.map fun g => { g with image := im g.image }
    cols := s.cols.map fun c => { c with threads := c.threads.map (releaseThread id bound e) } }

/-! ### The queues of `fenceq` (R258) -/

/-- The kick counts for a fence of group `g` on core `core`: its class, and the bound. -/
def kickFenced (g core cls bound : Nat) (k : Kick) : Bool := k.grp = g && k.core = core && k.cls = cls && decide (k.id < bound)

/-- Some kick of a stream queue has not completed; `self` is the fencing thread's own kick, which is left out, with those accepted after it in its own queue. -/
def kicksPending (s : State) (col g core cls bound : Nat) (self : Option Kick) : Bool :=
  let bound := match self with
    | some k => if k.cls = cls then min bound k.id else bound
    | none => bound
  let counts := fun (k : Kick) => kickFenced g core cls bound k && self.map (·.id) ≠ some k.id
  (s.flight.any fun f => match f.item with
    | .kick k c _ _ _ _ _ => c = col && counts k
    | _ => false) ||
  (s.core col core).kicks.any counts ||
  (s.col col).threads.toList.any fun h => (h.kick.map counts).getD false

/-- A member of a matrix operation belongs to the group. -/
def mxOfGroup (g : Nat) (m : MxOp) : Bool :=
  m.grp = g || (match m.kind with
    | .joint _ ms => ms.any fun x => x.grp = g
    | _ => false)

def mxPending (s : State) (g bound : Nat) : Bool :=
  s.flight.any fun f => decide (f.id < bound) && (match f.item with
    | .mx m => mxOfGroup g m
    | .row r => r.grp = g
    | .remote r => (match r.why with
      | .row _ h _ _ => h = g
      | _ => false)
    | _ => false)

def remotePending (s : State) (g bound : Nat) : Bool :=
  s.flight.any fun f => decide (f.id < bound) && (match f.item with
    | .remote r => (match r.why with
      | .lane h _ _ => h = g
      | _ => false)
    | _ => false)

/-- Some chunk that the group armed at its column's endpoint is not complete. -/
def chunksPending (s : State) (col g bound : Nat) : Bool := (s.col col).keys.any fun k => k.armed && k.grp = g && decide (k.armedAt < bound)

/-- Some operation in the queues of the mask that the issuing (or kicking) group placed before `bound` has not completed. -/
def fencePending (s : State) (m : Nat) (bound : Nat) : Bool :=
  let self := match s.cur with
    | .slot _ _ => none
    | .thread c t => (s.thread c t).kick
  let g := match s.cur with
    | .slot g _ => g
    | .thread _ _ => (self.map (·.grp)).getD 0
  let col := s.myCol
  ((List.range 8).any fun n => bitsOf m n 1 = 1 && s.kicksPending col g s.myCore n bound self) ||
  (bitsOf m 8 1 = 1 && s.mxPending g bound) || (bitsOf m 9 1 = 1 && s.remotePending g bound) ||
  (bitsOf m 10 1 = 1 && s.chunksPending col g bound)

end State

/-! ### `phase` and `fenceq` -/

/-- The release half of `phase`: it opens a release and holds the slot until that completes (R255, R257). -/
def phaseRelease (t : State) (scope : Nat) (done : State → Bool → Eff State) : Eff State :=
  match t.prog with
  | .released _ e => done t e
  | .release id => hold (t.awaits (.release id))
  | _ => match t.openRelease scope with
    | none => hold (t.awaits .phases)
    | some u => hold ((u.sealAll.setProg (.release t.nextId)).awaits (.release t.nextId))

/-- `phase` (R257). -/
def execPhase (k sc : BitVec 2) (s : State) : Out' :=
  s.issue (.phase k sc) (.both [] .none) fun t =>
    match k.toNat with
    | 1 => phaseRelease t sc.toNat fun u e => .ok (u.setE e)
    | 2 => t.acquireE false
    | _ => phaseRelease t sc.toNat fun u e => u.acquireE e

/-- `fenceq` (R258). -/
def execFenceq (m : BitVec 11) (s : State) : Out' :=
  s.issue (.fenceq m) { Form.both [] .none with reserved := !s.onCore && bitsOf m.toNat 8 2 != 0 } fun t =>
    if m.toNat = 0 then .ok t
    else match t.prog with
    | .released bound e => t.acquireFrom bound e
    | .fence bound => if t.fencePending m.toNat bound then hold (t.awaits (.fence m.toNat bound)) else t.acquireFrom bound false
    | _ => if t.fencePending m.toNat t.nextId then hold ((t.setProg (.fence t.nextId)).awaits (.fence m.toNat t.nextId)) else t.acquireFrom t.nextId false

/-! ### Barrier instructions -/

/-- `bar.init` (Table 9-2, R170). -/
def execBarInit (a : Reg) (i : BitVec 12) (s : State) : Out' :=
  s.issue (.barInit a i) (.core false [.sa a] .none) fun t => do
    let x ← t.barAddr i
    let c := t.barCore t.myTeam
    .ok (t.barWrite t.myTeam c x ((t.barRead t.myTeam c x).init ((t.sval a.toNat).toNat % 2 ^ 32)))

/-- `bar.arr`: a release at the barrier's scope, and a count-down sent once it has completed (R170, R171). -/
def execBarArr (a : Reg) (i : BitVec 12) (s : State) : Out' :=
  s.issue (.barArr a i) (.core false (State.barCountUse a) .none) fun t => do
    let x ← t.barAddr i
    let c := t.barCore t.myTeam
    let b := t.barRead t.myTeam c x
    match t.openRelease b.scope with
    | none => hold (t.awaits .phases)
    | some u =>
      State.barCheck b i
      .ok (u.sealAll.place (.countdown ⟨t.myTeam, c, x, b.gen⟩ (t.barCountOf a) none (some t.nextId)))

/-- `bar.wait` (R172). -/
def execBarWait (p : BitVec 1) (i : BitVec 12) (s : State) : Out' :=
  s.issue (.barWait p i) (.core false [] .none) fun t => do
    let x ← t.barAddr i
    match t.prog with
    | .released _ e => t.acquireE e
    | _ =>
      let b := t.barRead t.myTeam (t.barCore t.myTeam) x
      if b.uninit then trap 0x83 i.toNat
      else if b.st = 3 then t.acquireE true
      else if b.parity ≠ p.toNat then t.acquireE false
      else hold (t.awaits (.barrier (t.barCore t.myTeam) x p.toNat))

/-- `bar.test`: a snapshot that fills its register later (R173). -/
def execBarTest (d : Reg) (i : BitVec 12) (s : State) : Out' :=
  s.issue (.barTest d i) (.core false [.sd d] .pending) fun t => do
    let x ← t.barAddr i
    let b := t.barRead t.myTeam (t.barCore t.myTeam) x
    .ok ((t.emptyS d.toNat).placeScalar (t.destS d.toNat) (BitVec.ofNat 64 b.snapshot) none (t.strikeOf (.barTest d i)) false)

/-- `bar.exp` (Table 9-2). -/
def execBarExp (a : Reg) (i : BitVec 12) (s : State) : Out' :=
  s.issue (.barExp a i) (.core false (State.barCountUse a) .none) fun t => do
    let x ← t.barAddr i
    let c := t.barCore t.myTeam
    let b := t.barRead t.myTeam c x
    State.barCheck b i
    .ok (t.barWrite t.myTeam c x (b.addExpect (t.barCountOf a)))

/-! ### Buffers -/

/-- `buf.set` (R151). -/
def execBufSet (k : BitVec 1) (t : BitVec 2) (b : BitVec 4) (s : State) : Out' :=
  s.issue (.bufSet k t b) (.core false [] .none) fun u =>
    .ok (u.scrIssue (.bufSet k t b) (.bufSet (k = 1) t.toNat b.toNat) [] none u.slotMask true)

/-- `buf.get` (R152). -/
def execBufGet (d : Reg) (b : BitVec 4) (s : State) : Out' :=
  s.issue (.bufGet d b) (.core false [.sd d] .pending) fun t =>
    .ok ((t.emptyS d.toNat).scrIssue (.bufGet d b) (.bufGet b.toNat) [] (some (t.destS d.toNat)) t.slotMask false)

/-! ### Events -/

/-- A count-down of the same thread on the same barrier: they arrive in issue order (R205). -/
def sameCount (b : BarBind) (src : Option CountSrc) (i : Item) : Bool :=
  match i, src with
  | .countdown b' _ (some x) _, some y => x.col = y.col && x.thr = y.thr && b' = b
  | _, _ => false

/-- A count-down arrives: after its release, if it has one (R168, R171). A stream thread whose count-down finds UNINIT faults at the transfer that sent it (R170, R208). -/
def execCountdown (id : Nat) (s : State) : Out' :=
  match s.item id with
  | some (.countdown b n src rel) =>
    if (rel.map fun r => (s.item r).isSome).getD false || s.earlier id (sameCount b src) then notPending
    else
      let x := (s.drop id).barCount b n
      match x.2, src with
      | true, some y =>
        let h := s.thread y.col y.thr
        if h.kick.isSome && h.bars.contains b then
          .next ((x.1.streamFault y.col y.thr 0x83 ((b.addr - (s.team b.team).scrBase) / 16 % 4096) none y.pc y.insn y.xfer).changed)
        else .next x.1.changed
      | _, _ => .next x.1.changed
  | _ => notPending

/-- An error event reaches a barrier (R168, Table 9-2). -/
def execBarrierErrorEvent (id : Nat) (s : State) : Out' :=
  match s.item id with
  | some (.barError b flag) => .next (((s.drop id).barFail b flag).changed)
  | _ => notPending

/-- A release completes once its stores have arrived and every older one of its agent has completed (R255). Stores that it published and that were dropped show in the E of a `phase` (R257). -/
def execReleaseComplete (id : Nat) (s : State) : Out' :=
  match s.item id with
  | some (.release col core thread scope) =>
    let p := s.phaseOf col core thread
    if p.opened.head? ≠ some id || s.earlier id (State.storeOf col core thread scope) then notPending
    else
      let mine := fun (d : Nat × Bool) => s.phaseHolds id && decide (d.1 < id) && decide ((if d.2 then 3 else 2) ≤ scope)
      let e := p.dropped.any mine
      let s := (s.drop id).modPhaseOf col core thread fun p => { p with opened := p.opened.tail, dropped := p.dropped.filter fun d => !mine d }
      .next (((s.releaseWaiters id e).releaseRemotes id).changed)
  | _ => notPending

end Sys2Proof.Machine
end

