-- ==== Sys2Proof/Machine/Flags.lean ====
section
/-! DEFINITION. Flags: what a compare and `ktest` set (R48, R108) and the conditions that read them (Table 3-8), the conditions of the vector compares (R95, R109). -/

namespace Sys2Proof.Machine

open Sys2Proof

/-- Z, N, C and V of a − b; E is kept (R48). -/
def cmpFlags (old : Flags) (a b : Word) : Flags :=
  let d := a - b
  { z := a = b, n := d.msb, c := decide (a.toNat < b.toNat), v := a.msb != b.msb && d.msb != a.msb, e := old.e }

/-- The flags of `ktest` over a slot's mask; E is kept (R108). -/
def ktestFlags (old : Flags) (t m : Word) : Flags := { z := t = 0, n := false, c := t ≠ m, v := false, e := old.e }

/-- A condition of Table 3-8. -/
def condHolds (f : Flags) (c : Nat) : Bool :=
  match c with
  | 0 => f.z
  | 1 => !f.z
  | 2 => f.n != f.v
  | 3 => f.n == f.v
  | 4 => f.c
  | 5 => !f.c
  | 6 => !f.z && f.n == f.v
  | 7 => f.z || f.n != f.v
  | 8 => f.e
  | 9 => !f.e
  | _ => false

/-- A condition of `vcmpk` on two elements of an integer type (R109). -/
def icond (t c x y : Nat) : Bool :=
  match c with
  | 0 => x = y
  | 1 => x ≠ y
  | 2 => decide (ival t x < ival t y)
  | 3 => decide (ival t y ≤ ival t x)
  | 4 => decide (x < y)
  | 5 => decide (y ≤ x)
  | 6 => decide (ival t y < ival t x)
  | 7 => decide (ival t x ≤ ival t y)
  | _ => false

/-- A condition of `vfcmpk` on the order of two elements, none where either is a NaN (R95). -/
def fcond (c : Nat) (o : Option Ordering) : Bool :=
  match c, o with
  | 0, some .eq => true
  | 1, some .eq => false
  | 1, _ => true
  | 2, some .lt => true
  | 3, some .lt => false
  | 3, some _ => true
  | 4, some .lt => true
  | 4, none => true
  | 5, some .lt => false
  | 5, _ => true
  | 6, some .gt => true
  | 7, some .gt => false
  | 7, some _ => true
  | _, _ => false

end Sys2Proof.Machine
end

