-- ==== Sys2Proof/Machine/Float.lean ====
section
/-! DEFINITION. Floating-point formats (Table 4-1), exact values, rounding (R66, R67), overflow and flushing (R68, R69), NaNs (R58), arithmetic (R91) and conversions (R70). -/

namespace Sys2Proof.Machine

open Sys2Proof

/-! ### Formats (Table 4-1) -/

/-- How a format uses its top exponent. -/
inductive Top where
  /-- infinity and NaNs as IEEE 754 -/
  | ieee
  /-- e4m3: one NaN of each sign, no infinity -/
  | nanOnly
  /-- every pattern is finite -/
  | finite
  deriving DecidableEq, Repr

structure Fmt where
  ew : Nat
  mw : Nat
  bias : Nat
  top : Top
  deriving DecidableEq, Repr

namespace Fmt

def f64 : Fmt := ⟨11, 52, 1023, .ieee⟩
def f32 : Fmt := ⟨8, 23, 127, .ieee⟩
def f16 : Fmt := ⟨5, 10, 15, .ieee⟩
def bf16 : Fmt := ⟨8, 7, 127, .ieee⟩
def e5m2 : Fmt := ⟨5, 2, 15, .ieee⟩
def e4m3 : Fmt := ⟨4, 3, 7, .nanOnly⟩
def e3m2 : Fmt := ⟨3, 2, 3, .finite⟩
def e2m3 : Fmt := ⟨2, 3, 1, .finite⟩
def e2m1 : Fmt := ⟨2, 1, 1, .finite⟩

/-- Bits of a pattern. -/
def width (f : Fmt) : Nat := 1 + f.ew + f.mw

/-- The sign bit's weight. -/
def signBit (f : Fmt) : Nat := 2 ^ (f.ew + f.mw)

/-- Exponent of the least subnormal. -/
def minExp (f : Fmt) : Int := 1 - (f.bias : Int) - f.mw

/-- The pattern of an infinity. -/
def infPat (f : Fmt) : Nat := (2 ^ f.ew - 1) * 2 ^ f.mw

/-- The pattern of the largest finite value (Table 4-1). -/
def maxPat (f : Fmt) : Nat := match f.top with
  | .ieee => f.infPat - 1
  | .nanOnly => f.signBit - 2
  | .finite => f.signBit - 1

/-- The default NaN (Table 4-2). -/
def defNan (f : Fmt) : Nat := match f.top with
  | .nanOnly => f.signBit - 1
  | _ => f.infPat + 2 ^ (f.mw - 1)

def signed (f : Fmt) (neg : Bool) (x : Nat) : Nat := (if neg then f.signBit else 0) + x

end Fmt

/-- The format of an `ETYPE` value 8–13 (Table 3-7). -/
def fmtOf (t : Nat) : Fmt :=
  match t with
  | 8 => .f16
  | 9 => .bf16
  | 11 => .f64
  | 12 => .e4m3
  | 13 => .e5m2
  | _ => .f32

/-- A value of a format: a NaN with its pattern, an infinity, or ±m·2^e. -/
inductive FVal where
  | nan (pat : Nat)
  | inf (neg : Bool)
  | fin (neg : Bool) (m : Nat) (e : Int)
  deriving DecidableEq, Repr

/-- The value of a pattern (R57); with `flush`, a subnormal reads as a zero of its sign (R68). -/
def unpack (f : Fmt) (flush : Bool) (x : Nat) : FVal :=
  let neg := x / f.signBit % 2 = 1
  let ex := x / 2 ^ f.mw % 2 ^ f.ew
  let m := x % 2 ^ f.mw
  let mag := x % f.signBit
  if f.top = .ieee && ex = 2 ^ f.ew - 1 then (if m = 0 then .inf neg else .nan x)
  else if f.top = .nanOnly && mag = f.signBit - 1 then .nan x
  else if ex = 0 then .fin neg (if flush then 0 else m) f.minExp
  else .fin neg (m + 2 ^ f.mw) (f.minExp + (ex - 1))

/-! ### Rounding -/

/-- What rounding reads: `ROUND`, `SAT`, the output half of `SUBN`, the generator after this element's step. -/
structure Rm where
  round : Nat
  sat : Bool
  flush : Bool
  gen : BitVec 32
  deriving DecidableEq, Repr

/-- Round to nearest even, nothing flushed: the matrix engine and the exact conversions. -/
def Rm.rne : Rm := ⟨0, false, false, 0⟩

/-- One step of a lane generator (R67). -/
def genStep (g : BitVec 32) : BitVec 32 :=
  let g := g ^^^ (g <<< 13)
  let g := g ^^^ (g >>> 17)
  g ^^^ (g <<< 5)

/-- The generator of a lane at group start (R67). -/
def genInit (col tid gid lane : Nat) : BitVec 32 :=
  let g := (0x6A09E667 : BitVec 32) ^^^ BitVec.ofNat 32 (col * 2 ^ 24) ^^^ BitVec.ofNat 32 (tid * 2 ^ 16) ^^^ BitVec.ofNat 32 (gid * 2 ^ 8) ^^^
    BitVec.ofNat 32 lane
  if g = 0 then 1 else g

/-- Rounds the magnitude n / d to an integer (R66, R67). -/
def roundInt (r : Rm) (neg : Bool) (n d : Nat) : Nat :=
  let k := n / d
  let m := n % d
  if m = 0 then k else
  let up := match r.round with
    | 0 => d < 2 * m || (2 * m = d && k % 2 = 1)
    | 1 => false
    | 2 => !neg
    | 3 => neg
    | 4 => d ≤ 2 * m
    | _ => 65536 ≤ m * 65536 / d + r.gen.toNat % 65536
  if up then k + 1 else k

/-- The fraction n · 2^e / d as a numerator and a denominator. -/
def shiftFrac (n d : Nat) (e : Int) : Nat × Nat := if 0 ≤ e then (n * 2 ^ e.toNat, d) else (n, d * 2 ^ (-e).toNat)

/-- floor(log2 (n / d)). -/
def floorLog (n d : Nat) : Int :=
  let k : Int := (Nat.log2 n : Int) - Nat.log2 d
  let x := shiftFrac n d (-k)
  if x.2 ≤ x.1 then k else k - 1

/-- The result of an overflow (Table 4-7). -/
def overflowPat (f : Fmt) (r : Rm) (neg : Bool) : Nat :=
  let away := r.round = 1 || (r.round = 3 && !neg) || (r.round = 2 && neg)
  f.signed neg (if r.sat || away then f.maxPat else match f.top with
    | .ieee => f.infPat
    | .nanOnly => f.defNan
    | .finite => f.maxPat)

/-- An infinite result (R69, Table 4-8). -/
def infPatOf (f : Fmt) (sat neg : Bool) : Nat :=
  f.signed neg (match f.top with
    | .ieee => f.infPat
    | .nanOnly => if sat then f.maxPat else f.defNan
    | .finite => f.maxPat)

/-- Rounds ±(n / d)·2^e, n > 0, once into a format (R66–R69). The result is rounded on the format's grid with unbounded exponent above, and below as well where outputs are flushed; formats without special values keep their subnormals. -/
def roundTo (f : Fmt) (r : Rm) (neg : Bool) (n d : Nat) (e : Int) : Nat :=
  if n = 0 then f.signed neg 0 else
  let flush := r.flush && f.top ≠ .finite
  let x := floorLog n d + e - f.mw
  let g := if flush then x else max x f.minExp
  let q := shiftFrac n d (e - g)
  let k := roundInt r neg q.1 q.2
  if g < f.minExp && decide ((shiftFrac k 1 (g - f.minExp)).1 < 2 ^ f.mw * (shiftFrac k 1 (g - f.minExp)).2) then f.signed neg 0
  else
    let pat := if g < f.minExp then 2 ^ f.mw else (g - f.minExp).toNat * 2 ^ f.mw + k
    if f.maxPat < pat then overflowPat f r neg else f.signed neg pat

/-! ### NaNs (R58) -/

/-- A NaN operand of one format made quiet in another. -/
def quiet (dst src : Fmt) (pat : Nat) : Nat :=
  let pay := pat % 2 ^ src.mw
  let kept := if dst.mw ≤ src.mw then pay / 2 ^ (src.mw - dst.mw) else pay * 2 ^ (dst.mw - src.mw)
  let neg := pat / src.signBit % 2 = 1
  if kept = 0 then dst.defNan
  else match dst.top with
    | .nanOnly => dst.signed neg dst.defNan
    | _ => dst.signed neg (dst.infPat + (if 2 ^ (dst.mw - 1) ≤ kept then kept else kept + 2 ^ (dst.mw - 1)))

/-- The NaN that an instruction writes, from its operands in slot order (R58). -/
def nanOf (f : Fmt) (prop : Bool) (ops : List FVal) : Nat :=
  match ops.findSome? fun v => match v with
    | .nan p => some p
    | _ => none with
  | some p => if prop then quiet f f p else f.defNan
  | none => f.defNan

/-! ### Exact arithmetic -/

def FVal.isNan : FVal → Bool
  | .nan _ => true
  | _ => false

def FVal.neg : FVal → FVal
  | .nan p => .nan p
  | .inf s => .inf (!s)
  | .fin s m e => .fin (!s) m e

/-- The signed integer m·2^(e − g) of a finite value for g ≤ e. -/
def scaledInt (neg : Bool) (m : Nat) (e g : Int) : Int := if neg then -((m * 2 ^ (e - g).toNat : Nat) : Int) else ((m * 2 ^ (e - g).toNat : Nat) : Int)

/-- The exact sum, none for ∞ − ∞; a zero sum of unlike signs is +0, −0 under RDN (R91). NaNs are the caller's. -/
def addVal (round : Nat) (x y : FVal) : Option FVal :=
  match x, y with
  | .inf a, .inf b => if a = b then some (.inf a) else none
  | .inf a, _ => some (.inf a)
  | _, .inf b => some (.inf b)
  | .fin a m e, .fin b n h =>
    let g := min e h
    let t := scaledInt a m e g + scaledInt b n h g
    if t = 0 then some (.fin (if a = b then a else round = 3) 0 g) else some (.fin (decide (t < 0)) t.natAbs g)
  | _, _ => none

/-- The exact product, none for 0 × ∞. -/
def mulVal (x y : FVal) : Option FVal :=
  match x, y with
  | .inf a, .inf b => some (.inf (a != b))
  | .inf a, .fin b m _ => if m = 0 then none else some (.inf (a != b))
  | .fin a m _, .inf b => if m = 0 then none else some (.inf (a != b))
  | .fin a m e, .fin b n h => some (.fin (a != b) (m * n) (e + h))
  | _, _ => none

/-- The order of two values, none where either is a NaN; −0 equals +0 (R57). -/
def cmpVal (x y : FVal) : Option Ordering :=
  match x, y with
  | .nan _, _ => none
  | _, .nan _ => none
  | .inf a, .inf b => some (if a = b then .eq else if a then .lt else .gt)
  | .inf a, .fin _ _ _ => some (if a then .lt else .gt)
  | .fin _ _ _, .inf b => some (if b then .gt else .lt)
  | .fin a m e, .fin b n h =>
    let g := min e h
    some (compare (scaledInt a m e g) (scaledInt b n h g))

/-- Rounds a value into a format. -/
def putVal (f : Fmt) (r : Rm) (v : FVal) : Nat :=
  match v with
  | .nan p => p
  | .inf s => infPatOf f r.sat s
  | .fin s m e => roundTo f r s m 1 e

/-- The mode as a floating-point instruction reads it. -/
structure FMode where
  f : Fmt
  round : Nat
  sat : Bool
  /-- flush inputs -/
  fin : Bool
  /-- flush outputs -/
  fout : Bool
  prop : Bool
  deriving DecidableEq, Repr

def FMode.rm (c : FMode) (g : BitVec 32) : Rm := ⟨c.round, c.sat, c.fout, g⟩

def FMode.read (c : FMode) (x : Nat) : FVal := unpack c.f c.fin x

/-- The result of an exact computation on operands, invalid where it is none (R91). -/
def FMode.result (c : FMode) (g : BitVec 32) (ops : List FVal) (x : Option FVal) : Nat :=
  if ops.any FVal.isNan then nanOf c.f c.prop ops
  else match x with
    | none => c.f.defNan
    | some v => putVal c.f (c.rm g) v

def fadd (c : FMode) (g : BitVec 32) (x y : Nat) : Nat :=
  let a := c.read x
  let b := c.read y
  c.result g [a, b] (addVal c.round a b)

def fsub (c : FMode) (g : BitVec 32) (x y : Nat) : Nat :=
  let a := c.read x
  let b := c.read y
  c.result g [a, b] (addVal c.round a b.neg)

def fmul (c : FMode) (g : BitVec 32) (x y : Nat) : Nat :=
  let a := c.read x
  let b := c.read y
  c.result g [a, b] (mulVal a b)

def fma (c : FMode) (g : BitVec 32) (x y z : Nat) : Nat :=
  let a := c.read x
  let b := c.read y
  let t := c.read z
  c.result g [a, b, t] ((mulVal a b).bind fun p => addVal c.round p t)

/-- An operand passed on as a result: its pattern after input flushing, flushed on output (R93). -/
def passVal (c : FMode) (x : Nat) : Nat :=
  let flush := c.fin || c.fout
  if flush && x / 2 ^ c.f.mw % 2 ^ c.f.ew = 0 then x / c.f.signBit % 2 * c.f.signBit else x

/-- `vfmin` (`less` true) and `vfmax` (R93). -/
def fminmax (c : FMode) (less : Bool) (x y : Nat) : Nat :=
  let a := c.read x
  let b := c.read y
  if a.isNan && b.isNan then nanOf c.f c.prop [a, b]
  else if a.isNan then passVal c y
  else if b.isNan then passVal c x
  else match cmpVal a b with
    | some .lt => passVal c (if less then x else y)
    | some .gt => passVal c (if less then y else x)
    | _ => passVal c x

/-- `vscl`: a factor of 2^n (R97). A shift beyond ±5,000 gives what any such shift gives. -/
def fscl (c : FMode) (g : BitVec 32) (x : Nat) (n : Int) : Nat :=
  let a := c.read x
  c.result g [a] (match a with
    | .fin s m e => some (.fin s m (e + max (-5000) (min 5000 n)))
    | v => some v)

/-- `vfrnd`: to an integral value in the same format (R98). -/
def frnd (c : FMode) (g : BitVec 32) (x : Nat) : Nat :=
  let a := c.read x
  c.result g [a] (match a with
    | .fin s m e => if 0 ≤ e then some (.fin s m e) else some (.fin s (roundInt (c.rm g) s m (2 ^ (-e).toNat)) 0)
    | v => some v)

/-! ### Conversions (R70, Table 4-8) -/

/-- Float to integer. -/
def toInteger (t : Nat) (r : Rm) (v : FVal) : Nat :=
  let off := fun (neg : Bool) => if r.sat then (if neg then iminOf t else imaxOf t) else if esigned t then iminOf t else imaxOf t
  wrapTo (ewidth t) (match v with
    | .nan _ => 0
    | .inf s => off s
    | .fin s m e =>
      let q := shiftFrac m 1 e
      let k := roundInt r s q.1 q.2
      let x : Int := if s then -(k : Int) else k
      if x < iminOf t || imaxOf t < x then off s else x)

/-- Converts an element from one `ETYPE` to another. A negative signed integer saturates to 0 in a wider unsigned type under SAT=1 (DESIGN CHOICE, log 41). -/
def convertElem (src dst : Nat) (c : FMode) (g : BitVec 32) (x : Nat) : Nat :=
  if isInt src then
    if isInt dst then
      let v := ival src x
      if iminOf dst ≤ v && v ≤ imaxOf dst then wrapTo (ewidth dst) v else fit dst c.sat v
    else
      let v := ival src x
      roundTo (fmtOf dst) (c.rm g) (decide (v < 0)) v.natAbs 1 0
  else
    let sf := fmtOf src
    let v := unpack sf c.fin x
    if isInt dst then toInteger dst (c.rm g) v
    else
      let df := fmtOf dst
      if sf.width < df.width then
        match v with
        | .nan p => quiet df sf p
        | v => putVal df .rne v
      else match v with
        | .nan p => if c.prop then quiet df sf p else df.defNan
        | v => putVal df (c.rm g) v

namespace State

/-- The mode read by a floating-point instruction (R46). -/
def fmode (s : State) : FMode :=
  ⟨fmtOf s.etype, s.round, s.sat, s.subn % 2 = 1, decide (2 ≤ s.subn), s.nanprop⟩

def gen (s : State) (lane : Nat) : BitVec 32 := vget 0 s.me.image.gens lane

def setGens (s : State) (gs : Vector (BitVec 32) 64) : State := s.modImage s.curGrp fun im => { im with gens := gs }

end State

/-- The elements of a lane computed in ascending order, the generator stepped before each where `steps` (R67). -/
def genElems (steps : Bool) (f : BitVec 32 → Nat → Nat) : List Nat → BitVec 32 → List Nat × BitVec 32
  | [], g => ([], g)
  | e :: es, g =>
    let g := if steps then genStep g else g
    let r := genElems steps f es g
    (f g e :: r.1, r.2)

/-- One lane under a function of the generator and a sub-element number. -/
def genLane (w : Nat) (steps : Bool) (f : BitVec 32 → Nat → Nat) (g : BitVec 32) : Word × BitVec 32 :=
  let r := genElems steps f (List.range (perLane w)) g
  (packLane w r.1, r.2)

namespace State

/-- Writes a computed lane in each active lane and steps the lanes' generators where the mode rounds stochastically (R67, R91). -/
def mapGen (s : State) (d w : Nat) (f : Nat → BitVec 32 → Nat → Nat) : State :=
  let rs := s.lanes.map fun l => (l, genLane w (s.round = 5) (f l) (s.gen l))
  let gs := rs.foldl (fun gs r => vmod gs r.1 fun _ => r.2.2) s.me.image.gens
  (s.writeV d (rs.map fun r => (r.1, r.2.1))).setGens gs

end State

end Sys2Proof.Machine
end

