-- ==== Sys2Proof/Machine/Mask.lean ====
section
/-! DEFINITION. Mask and cross-lane instructions 0x40–0x4F (R106–R115), with the tree of reductions and scans (R72, R73). -/

namespace Sys2Proof.Machine

open Sys2Proof

/-! ### The tree of R72 -/

/-- A node: its value and the lowest present position, or ABSENT. -/
abbrev Node := Option (Nat × Nat)

abbrev Gens := Vector (BitVec 32) 64

/-- How two elements combine, and whether a combine steps the generator of its lane. -/
structure Comb where
  per : Nat
  steps : Bool
  op : BitVec 32 → Nat → Nat → Nat

/-- comb of two nodes (R72). -/
def Comb.node (c : Comb) (gs : Gens) (x y : Node) : Gens × Node :=
  match x, y with
  | some a, some b =>
    let lane := a.2 / c.per
    let gs := if c.steps then vmod gs lane genStep else gs
    (gs, some (c.op (vget 0 gs lane) a.1 b.1, a.2))
  | some a, none => (gs, some a)
  | none, y => (gs, y)

/-- One level of the tree from the level below it, in ascending order of its nodes. -/
def Comb.level (c : Comb) : Gens → List Node → Gens × List Node
  | gs, x :: y :: r =>
    let n := c.node gs x y
    let t := c.level n.1 r
    (t.1, n.2 :: t.2)
  | gs, l => (gs, l)

/-- All levels of the tree, the elements first. -/
def Comb.levels (c : Comb) : Nat → Gens → List Node → Gens × List (List Node)
  | 0, gs, l => (gs, [l])
  | n + 1, gs, l =>
    let u := c.level gs l
    let t := c.levels n u.1 u.2
    (t.1, l :: t.2)

/-- Some active position above `p` lies in the node of level `l` that holds `p`. -/
def above (act : List Nat) (p l : Nat) : Bool := act.any fun q => decide (p < q) && q / 2 ^ l = p / 2 ^ l

/-- The inclusive prefix at `p` from the levels of the full tree (R73): `l` counts the level of the nodes in the list's head. -/
def Comb.prefixFrom (c : Comb) (act : List Nat) (p : Nat) : Nat → List (List Node) → Gens → Node → Gens × Node
  | l, lower :: upper :: rest, gs, cur =>
    if !above act p (l + 1) then c.prefixFrom act p (l + 1) (upper :: rest) gs (upper.getD (p / 2 ^ (l + 1)) none)
    else if p / 2 ^ l % 2 = 1 then
      let n := c.node gs (lower.getD (p / 2 ^ l - 1) none) cur
      c.prefixFrom act p (l + 1) (upper :: rest) n.1 n.2
    else c.prefixFrom act p (l + 1) (upper :: rest) gs cur
  | _, _, gs, cur => (gs, cur)

/-- The prefixes of all active positions, ascending. -/
def Comb.prefixes (c : Comb) (act : List Nat) (levels : List (List Node)) : List Nat → Gens → Gens × List (Nat × Nat)
  | [], gs => (gs, [])
  | p :: ps, gs =>
    let n := c.prefixFrom act p 0 levels gs ((levels.headD []).getD p none)
    let t := c.prefixes act levels ps n.1
    (t.1, match n.2 with
      | some v => (p, v.1) :: t.2
      | none => t.2)

/-- The combine of an operation value on a type (Table 6-3). -/
def combOf (t opr : Nat) (c : FMode) (sat : Bool) : BitVec 32 → Nat → Nat → Nat := fun g x y =>
  match opr with
  | 0 => if isInt t then fit t sat (ival t x + ival t y) else fadd c g x y
  | 1 => if isInt t then (if ival t y < ival t x then y else x) else fminmax c true x y
  | 2 => if isInt t then (if ival t x < ival t y then y else x) else fminmax c false x y
  | 3 => x &&& y
  | 4 => x ||| y
  | _ => x ^^^ y

namespace State

/-- The combine of `vred` and `vscan` under the mode. Only the addition steps a generator (DESIGN CHOICE, log 41). -/
def comb (s : State) (opr : Nat) : Comb :=
  { per := perLane (ewidth s.etype), steps := decide (opr = 0) && isArith s.etype && s.round = 5, op := combOf s.etype opr s.fmode s.sat }

/-- The element types that an operation accepts, and whether it reads `ROUND` (R114, R47). -/
def needsRed (s : State) (opr : Nat) : Eff Unit :=
  s.needs (fun t => if opr = 0 then decide (t < 12) else isElem t) (decide (opr = 0) && isArith s.etype)

/-- The element positions of a register, those in active lanes present. -/
def nodes (s : State) (a : Nat) : List Node :=
  let w := ewidth s.etype
  (List.range (s.positions w)).map fun p => if s.active.getLsbD (p / perLane w) then some (s.velem a w p, p) else none

/-- The cause of the first poisoned lane among these, as a source of an instruction (R146). -/
def clean (s : State) (u : Use) (ls : List Nat) : Eff Unit :=
  match s.poisonedLane u.num ls with
  | none => .ok ()
  | some q =>
    let c := poisonCause q.2 (useDetail u)
    .error (.trap { Trap.of c.1 c.2 with lane := q.1 })

/-- The cross-lane index is in range (R110). -/
def inRange (s : State) (w i : Nat) : Bool := decide (i / 8 < s.me.width) && decide (i % 8 < perLane w)

/-- The element at a cross-lane index (R110). -/
def crossElem (s : State) (r w i : Nat) : Nat := elemOf (s.vlane r (i / 8)) w (i % 8)

end State

/-! ### Shapes -/

/-- A mask instruction of two masks (R107). -/
def mask3 (i : Instr) (d a b : Reg) (f : Word → Word → Word) (s : State) : Out' :=
  s.issue i (.core false [.kAt 0 d, .kAt 1 a, .kAt 2 b] .none) fun t => .ok (t.writeK d.toNat (f (t.kreg a.toNat) (t.kreg b.toNat)))

/-- A mask instruction that writes an s register (R107). -/
def maskS (i : Instr) (d a : Reg) (f : Word → Nat) (s : State) : Out' :=
  s.issue i (.core false [.sd d, .kAt 1 a] (.s d.toNat)) fun t => .ok (t.writeS d.toNat (BitVec.ofNat 64 (f (t.kreg a.toNat))))

def popCount (x : Word) : Nat := ((List.range 64).filter fun i => x.getLsbD i).length

def firstSet (x : Word) : Nat := ((List.range 64).find? fun i => x.getLsbD i).getD 64

/-! ### Meanings -/

/-- `kand` (R107). -/
def execKand (d a b : Reg) (s : State) : Out' := mask3 (.kand d a b) d a b (fun x y => x &&& y) s

/-- `kor` (R107). -/
def execKor (d a b : Reg) (s : State) : Out' := mask3 (.kor d a b) d a b (fun x y => x ||| y) s

/-- `kxor` (R107). -/
def execKxor (d a b : Reg) (s : State) : Out' := mask3 (.kxor d a b) d a b (fun x y => x ^^^ y) s

/-- `kandn` (R107). -/
def execKandn (d a b : Reg) (s : State) : Out' := mask3 (.kandn d a b) d a b (fun x y => x &&& ~~~y) s

/-- `ksmov` (R107). -/
def execKsmov (d a : Reg) (s : State) : Out' :=
  s.issue (.ksmov d a) (.core false [.kAt 0 d, .sa a] .none) fun t => .ok (t.writeK d.toNat (t.sval a.toNat))

/-- `skmov` (R107). -/
def execSkmov (d a : Reg) (s : State) : Out' := maskS (.skmov d a) d a BitVec.toNat s

/-- `kpop` (R107). -/
def execKpop (d a : Reg) (s : State) : Out' := maskS (.kpop d a) d a popCount s

/-- `kfirst` (R107). -/
def execKfirst (d a : Reg) (s : State) : Out' := maskS (.kfirst d a) d a firstSet s

/-- `ktest` (R108). -/
def execKtest (a b : Reg) (s : State) : Out' :=
  s.issue (.ktest a b) (.core false [.kAt 1 a, .kAt 2 b] .none) fun t =>
    .ok (t.setFlags (ktestFlags t.flags (t.kreg a.toNat &&& t.kreg b.toNat &&& t.slotMask) t.slotMask))

/-- `vcmpk` (R109). -/
def execVcmpk (d a b : Reg) (c : BitVec 4) (s : State) : Out' :=
  s.issue (.vcmpk d a b c) (.core true [.kAt 0 d, .va a .active, .vb b .active] .none) fun t => do
    t.needs isInt false
    let w := ewidth t.etype
    .ok (t.writeBallot d.toNat fun l => (List.range (perLane w)).all fun e =>
      icond t.etype c.toNat (elemOf (t.vlane a.toNat l) w e) (elemOf (t.vlane b.toNat l) w e))

/-- `vshuf` (R111). -/
def execVshuf (d a b : Reg) (s : State) : Out' :=
  s.issue (.vshuf d a b) (.core true [.vd d, .va a .no, .vb b .active] (.v d.toNat false)) fun t => do
    t.needs isElem false
    let w := ewidth t.etype
    let idx := t.lanes.flatMap fun l => (elems w (t.vlane b.toNat l)).filter (t.inRange w)
    t.clean (.va a .no) (idx.map (· / 8))
    .ok (t.mapLanes d.toNat fun l => lane1 w (fun i => if t.inRange w i then t.crossElem a.toNat w i else 0) (t.vlane b.toNat l))

/-- The index that `vbcast` and `slane` read, or LANE_INDEX (R112). -/
def laneIndex (t : State) (a b : Reg) : Eff (Nat × Nat) := do
  t.needs isElem false
  let w := ewidth t.etype
  let i := (t.sval b.toNat).toNat
  if i < 512 && t.inRange w i then
    t.clean (.va a .no) [i / 8]
    .ok (w, t.crossElem a.toNat w i)
  else trap 0x22 i

/-- `vbcast` (R112). -/
def execVbcast (d a b : Reg) (s : State) : Out' :=
  s.issue (.vbcast d a b) (.core true [.vd d, .va a .no, .sb b] (.v d.toNat false)) fun t => do
    let x ← laneIndex t a b
    .ok (t.mapLanes d.toNat fun _ => packLane x.1 (List.replicate (perLane x.1) x.2))

/-- `slane` (R112). -/
def execSlane (d a b : Reg) (s : State) : Out' :=
  s.issue (.slane d a b) (.core false [.sd d, .va a .no, .sb b] (.s d.toNat)) fun t => do
    let x ← laneIndex t a b
    .ok (t.writeS d.toNat (extendElem t.etype x.2))

/-- The table registers of `vtbl` after the first, as far as the group has them (R113). -/
def tableUses (s : State) (a c : Reg) : List Use :=
  let n := (s.sval c.toNat).toNat % 16
  if (s.sreg c.toNat).full && decide (n ≤ 8) then
    (List.range n).filterMap fun k => if 0 < k && decide (a.toNat + k < s.me.vregs) then some ⟨.v, 1, a.toNat + k, some 0, false, .no⟩ else none
  else []

/-- `vtbl` (R113). -/
def execVtbl (d a b c : Reg) (s : State) : Out' :=
  s.issue (.vtbl d a b c) (.core true ([.vd d, .va a .no, .vb b .active, .sc c] ++ tableUses s a c) (.v d.toNat false)) fun t => do
    t.needs isElem false
    let x := (t.sval c.toNat).toNat
    let n := x % 16
    if n = 0 || decide (8 < n) || bitsOf x 4 4 != 0 || bitsOf x 16 48 != 0 then trap 0x21
    else if t.me.vregs < a.toNat + n then trap 0x05 ((a.toNat + n - 1) % 64 + 256)
    else
      let w := ewidth t.etype
      let np := t.positions w
      let fill := packNat 8 (List.replicate (w / 8) (bitsOf x 8 8))
      let hits := t.lanes.flatMap fun l => (elems w (t.vlane b.toNat l)).filter fun i => decide (i < n * np)
      (List.range n).forM fun k => t.clean ⟨.v, 1, a.toNat + k, some 0, false, .no⟩ ((hits.filter fun i => i / np = k).map fun i => i % np / perLane w)
      .ok (t.mapLanes d.toNat fun l => lane1 w (fun i => if i < n * np then t.velem (a.toNat + i / np) w (i % np) else fill) (t.vlane b.toNat l))

/-- `vred` (R115). -/
def execVred (d a : Reg) (o : BitVec 4) (s : State) : Out' :=
  s.issue (.vred d a o) (.core true [.sd d, .va a .active] (.s d.toNat)) fun t => do
    t.needsRed o.toNat
    let r := (t.comb o.toNat).levels (Nat.log2 (t.positions (ewidth t.etype))) t.me.image.gens (t.nodes a.toNat)
    let root := ((r.2.getLast?.getD []).headD none).map (·.1)
    .ok ((t.setGens r.1).writeS d.toNat (match root with
      | some x => extendElem t.etype x
      | none => 0))

/-- `vscan` (R115). -/
def execVscan (d a : Reg) (o : BitVec 4) (s : State) : Out' :=
  s.issue (.vscan d a o) (.core true [.vd d, .va a .active] (.v d.toNat false)) fun t => do
    t.needsRed o.toNat
    let w := ewidth t.etype
    let nodes := t.nodes a.toNat
    let c := t.comb o.toNat
    let r := c.levels (Nat.log2 (t.positions w)) t.me.image.gens nodes
    let act := nodes.filterMap fun n => n.map (·.2)
    let p := c.prefixes act r.2 act r.1
    .ok ((t.setGens p.1).writeElems d.toNat w p.2)

end Sys2Proof.Machine
end

