-- ==== Sys2Proof/Machine/Layout.lean ====
section
/-! DEFINITION. Layout records, their windows, distribution and swizzle (R32–R34, R197–R200, R202). -/

namespace Sys2Proof.Machine

open Sys2Proof

/-- RNE, subnormals kept, NaNs the default, overflow to infinity, for an element type (R211). -/
def rneMode (t : Nat) : FMode := ⟨fmtOf t, 0, false, false, false, false⟩

/-- An operation of `tred` and of remote reductions: 0 add, 1 min, 2 max, the location's element first (R211, R370). -/
def combine (efmt op old x : Nat) : Nat :=
  if isFloat efmt then
    if op = 0 then fadd (rneMode efmt) 0 old x else fminmax (rneMode efmt) (op = 1) old x
  else
    let w := ewidth efmt
    if op = 0 then (old + x) % 2 ^ w
    else
      let le := decide (ival efmt old ≤ ival efmt x)
      if op = 1 then (if le then old else x) else if le then x else old

/-- A layout record (Table 11-3). -/
structure LRec where
  base : Word
  efmt : Nat
  rank : Nat
  oob : Nat
  /-- `MODE`, `DIM` and `BLK` of the distribution field (Table 2-7) -/
  mode : Nat
  dim : Nat
  blk : Nat
  swz : Nat
  space : Nat
  fillv : Nat
  /-- extents, 1 at and above `RANK` -/
  dims : List Nat
  strides : List Nat
  deriving DecidableEq, Repr

namespace LRec

def of (b : BitVec 512) : LRec :=
  let rank := bv b 72 3
  { base := BitVec.ofNat 64 (bv b 0 64), efmt := bv b 64 4, rank := rank, oob := bv b 75 2, mode := bv b 83 2, dim := bv b 80 3, blk := bv b 77 3,
    swz := bv b 85 4, space := bv b 89 2, fillv := bv b 96 32, dims := (List.range 5).map fun d => if d < rank then bv b (128 + 32 * d) 32 else 1,
    strides := (List.range 5).map fun d => bv b (288 + 40 * d) 40 }

/-- Bytes of an element. -/
def esize (r : LRec) : Nat := ewidth r.efmt / 8

/-- The refusals of R198 and R32. -/
def bad (b : BitVec 512) : Bool :=
  let r := of b
  bv b 68 4 != 0 || bv b 91 5 != 0 || bv b 488 24 != 0 || decide (14 ≤ r.efmt) || r.rank = 0 || decide (5 < r.rank) || r.oob = 3 ||
  decide (r.rank ≤ r.dim) || (decide (r.mode < 2) && (r.dim != 0 || r.blk != 0)) || decide (7 < r.swz) || (r.swz != 0 && r.space != 0) ||
  ((List.range 5).any fun d =>
    let n := bv b (128 + 32 * d) 32
    let t := bv b (288 + 40 * d) 40
    (decide (d < r.rank) && n = 0) || (decide (r.rank ≤ d) && (n != 0 || t != 0)) || t % r.esize != 0) ||
  ptrOff r.base % r.esize != 0

/-- Every coordinate lies within its extent (R200). -/
def inBounds (r : LRec) (x : List Int) : Bool := (List.range 5).all fun d => decide (0 ≤ x.getD d 0) && decide (x.getD d 0 < r.dims.getD d 1)

/-- R33: the column number and the local coordinates. -/
def distribute (r : LRec) (ncol own : Nat) (x : List Int) : Int × List Int :=
  let v := x.getD r.dim 0
  let p : Int := max ncol 1
  match r.mode with
  | 0 => (if ptrCol r.base = 0x3F then own else ptrCol r.base, x)
  | 1 => (own, x)
  | 2 =>
    let b : Int := (r.dims.getD r.dim 1 + ncol - 1) / p
    (v / b, x.set r.dim (v % b))
  | _ =>
    let b : Int := 2 ^ r.blk
    (v / b % p, x.set r.dim (v / (b * p) * b + v % b))

/-- The column number and byte offset of coordinates, before the offset wraps (R33, R199). -/
def spotAt (r : LRec) (ncol own : Nat) (x : List Int) : Int × Int :=
  let y := r.distribute ncol own x
  (y.1, ptrOff r.base + ((List.range 5).map fun d => y.2.getD d 0 * (r.strides.getD d 0 : Int)).sum)

/-- The swizzle (R199). -/
def swizzle (swz o : Nat) : Nat := if swz = 0 then o else o ^^^ (o / 2 ^ (6 + swz) % 8 * 16)

/-- The column number and byte offset of an element in bounds (R199). -/
def spot (r : LRec) (ncol own : Nat) (x : List Int) : Nat × Nat :=
  let y := r.spotAt ncol own x
  (y.1.toNat, swizzle r.swz (y.2 % 2 ^ 48).toNat)

/-- The pattern that `FILLV` supplies under the record's element type (R202). -/
def fillPattern (r : LRec) : Nat :=
  if r.efmt = 6 then wrapTo 64 (asSigned 32 r.fillv)
  else if r.efmt = 7 then r.fillv
  else if r.efmt = 11 then convertElem 10 11 (rneMode 11) 0 r.fillv
  else r.fillv % 2 ^ (8 * r.esize)

/-- The window that `tlrec` gives a record (R200). -/
def slotOf (b : BitVec 512) : RecSlot :=
  let r := of b
  { valid := true, record := b, org := Vector.replicate 5 0, shp := Vector.ofFn fun d : Fin 5 => BitVec.ofNat 32 (r.dims.getD d.val 1) }

end LRec

namespace RecSlot

def lrec (w : RecSlot) : LRec := LRec.of w.record

def origin (w : RecSlot) : List Int := w.org.toList.map BitVec.toInt

def shape (w : RecSlot) : List Nat := w.shp.toList.map BitVec.toNat

end RecSlot

/-- The number of elements of a shape. -/
def countOf (shp : List Nat) : Nat := shp.foldl (· * ·) 1

/-- The coordinates of element `k` of a window: mixed radix, dimension 0 fastest (R200). -/
def coordsOf : List Int → List Nat → Nat → List Int
  | o :: os, n :: ns, k => (o + (k % n : Nat)) :: coordsOf os ns (k / n)
  | os, _, _ => os

end Sys2Proof.Machine
end

