-- ==== Sys2Proof/Machine/Fetch.lean ====
section
/-! DEFINITION. Fetching an instruction word through the CODE segment (R125, R309) and what stands before an agent's next instruction: a cause held for an instruction boundary, a debugger's halt (R331, R334, R335). -/

namespace Sys2Proof.Machine

open Sys2Proof

/-- What the fetch of an agent's next word gives. -/
inductive Fetched where
  | word (w : Word32)
  /-- the program counter lies at or beyond the CODE limit (R125) -/
  | past
  /-- the page refuses the fetch or must be walked for (R309, R311) -/
  | stop (st : Stop)
  deriving DecidableEq, Repr

namespace State

/-- Fetches the word at the issuing agent's program counter. -/
def fetch (s : State) : Fetched :=
  let code := s.seg 4
  if segLimit code ≤ s.pc.toNat then .past
  else match s.translate (segBase code + s.pc.toNat) 3 (withOff s.pc s.pc.toNat) 0 with
    | .ok h => .word (BitVec.ofNat 32 (s.mem.nat h 4))
    | .error st => .stop st

/-- The cause that the issuing group takes at this boundary rather than issue: held causes wait while it is privileged (R327, R334), and an `xperm` that has sent its vector stands at no boundary (R181). -/
def boundaryCause (s : State) : Option Async := match s.cur with
  | .slot g _ =>
    let sent := match s.myPath.prog with
      | .sent _ => true
      | _ => false
    if (s.grp g).privileged || sent then none else (s.grp g).async.head?
  | .thread _ _ => none

/-- Delivers a held cause: the frame goes to slot A if that slot holds a live context, else to slot B (R334). -/
def deliverAsync (s : State) (g : Nat) (a : Async) : State :=
  let x := s.grp g
  let b := x.image.slotA.isNone
  let p := (x.image.slot b).getD Path.blank
  let s := s.modGroup g fun x => { x with async := x.async.tail }
  (s.raise ⟨g, b, a.cause, a.detail, none, 0, p.mask, 0, p.pc, true, false⟩).changed

/-- A debugger's halt takes effect (R331). -/
def haltNow (s : State) (g : Nat) : State := (s.modGroup g fun x => { x with halted := true, haltPending := false }).changed

/-- The debugger asked the issuing group to stop at its next boundary. -/
def haltsHere (s : State) : Bool := match s.cur with
  | .slot g _ => (s.grp g).haltPending
  | .thread _ _ => false

/-- The form of a fetch that stops: no word is known. -/
def fetchForm : Form := Form.both [] .none

end State

end Sys2Proof.Machine
end

