-- ==== Sys2Proof/Machine/Schedule.lean ====
section
/-! DEFINITION. What the next step is where the schedule says nothing: the events that may be due, and the agent that issues (R123, R187). -/

namespace Sys2Proof.Machine

open Sys2Proof

namespace State

/-- The Brixel request of a remote access of this device to itself (R364). -/
def brixelOf (s : State) (id : Nat) (r : Remote) : Brixel :=
  { ext := false, id := id, src := s.dev, pod := bv (s.ctx r.ctx).record 128 20, ctx := r.ctx, col := r.tcol, off := r.off, size := r.size,
    data := r.data, bytes := r.bytes, cmp := r.cmp, op := r.op, signed := r.signed, poison := r.poison }

/-- The event by which a request is served at its home. -/
def brixelEvents (k : RemKind) (q : Brixel) : List Instr :=
  match k with
  | .read => [.brixelRead q]
  | .write => [.brixelWrite q]
  | .reduce => [.brixelReduce q]
  | .atomic => [.brixelAtomic q]
  | .cas => [.brixelCompareAndSwap q]
  | .frame => []

/-- The event by which a remote access of this device to itself goes on: it is performed, or its answer arrives. -/
def remoteEvent (s : State) (id : Nat) (r : Remote) : List Instr :=
  match r.answer with
  | some (x, none, true) => [.dataResponse id x]
  | some (_, none, false) => [.acknowledgement id]
  | some (_, some (.denied c), _) => [.refusal id c]
  | some (_, some _, _) => [.poison id]
  | none =>
    if r.waiting then [.retryBackoff id]
    else if r.dev.isSome || r.host.isSome then []
    else brixelEvents r.kind (s.brixelOf id r)

/-- The event of a collective frame at the endpoint of its next entry (R375). -/
def frameEvent (f : Frame) : Instr :=
  match f.entries with
  | [] => .hop f
  | e :: _ => if bv e 14 3 = 1 then .acc f else if bv e 14 3 = 2 then .dlv f else .hop f

/-- The events that a thing in progress may be due for. -/
def itemEvents (s : State) (f : Flight) : List Instr :=
  match f.item with
  | .result _ _ _ _ _ => [.resultArrival f.id]
  | .scr _ => [.scratchpadArrival f.id]
  | .late _ => []
  | .kick _ _ _ _ _ _ _ => [.transitionPoint f.id]
  | .countdown _ _ _ _ => [.countdown f.id]
  | .barError _ _ => [.barrierErrorEvent f.id]
  | .release _ _ _ _ => [.releaseComplete f.id]
  | .xfer _ => [.transferComplete f.id]
  | .mcline _ _ _ _ _ _ _ => [.multicastLine f.id]
  | .perm _ _ => [.xpermArrival f.id]
  | .chan _ _ _ _ => [.channelMessageArrival f.id]
  | .grant t c _ _ => [.channelGrant t c]
  | .mx m => match m.kind with
    | .ldb _ _ => [.mxLdbPerform f.id]
    | .joint _ _ => [.jointOperation f.id]
    | .zero _ => [.mxZeroPerform f.id]
    | .epi _ _ _ _ _ _ _ => [.mxEpiPerform f.id]
    | .acv _ _ _ _ => [.mxAcvPerform f.id]
    | .vac _ _ _ _ => [.mxVacPerform f.id]
    | .csum _ _ _ => [.mxCsumPerform f.id]
  | .row _ => [.epilogueRowArrival f.id]
  | .shootdown _ _ _ _ _ _ => [.shootdownColumnDone f.id]
  | .gather _ _ _ _ => []
  | .remote r => s.remoteEvent f.id r ++ [.requestTimeout f.id]
  | .frame _ fr => [frameEvent fr]
  | .brixel k q => brixelEvents k q
  | .csmov _ _ _ _ => []
  | .quote _ _ => []

/-- The events of a column's own engines. -/
def columnEvents (c : Nat) (x : Column) : List Instr :=
  x.walks.flatMap (fun w => [.walkComplete c w.fid, .faultRecordPost c w.fid]) ++ [.kickStart c] ++
  (List.range 16).flatMap (fun t => [.kickEnd c t, .streamRollback c t]) ++
  x.keys.flatMap fun k => if k.armed then [.keyTimeout c k.key] else [.unarmedKeyExpiry c k.key]

/-- The events of the queues, the distributor, the schedulers and the timers. -/
def serviceEvents (s : State) : List Instr :=
  (List.range 256).flatMap (fun q => if (s.queue q).st = .disabled then [] else [.queueExamine q, .queuePoll q]) ++
  s.launches.flatMap (fun l => .launchAdmission l.id :: .launchComplete l.id :: (List.range s.cols.length).map fun c => .teamPlacement l.id c) ++
  s.ctxs.flatMap (fun c => [.quantumExpiry c.num, .preemptionComplete c.num, .contextResume c.num, .contextQuarantine c.num]) ++
  s.teams.flatMap (fun t => [.teamReadmit t.id, .teamSwap t.id]) ++
  s.groups.flatMap fun g => [.gangTimeout g.id false, .gangTimeout g.id true, .watchdog g.id, .preempt g.id]

/-- Every event that may be due of itself, in the order in which the model looks. -/
def dueEvents (s : State) : List Instr :=
  s.flight.flatMap s.itemEvents ++ (List.range s.cols.length).flatMap (fun c => columnEvents c (s.col c)) ++ s.serviceEvents

/-- The slot of a group that issues next (R123): the one that issued less recently, never counting first, slot A on a tie. -/
def slotChoice (s : State) (g : Group) : Option Bool :=
  let can : Bool → Bool := fun b => s.slotReady g.id b && !s.held.contains (.slot g.id b)
  let last : Bool → Nat := fun b => ((g.image.slot b).map fun p => p.lastIssue.getD 0).getD 0
  if can false && can true then some (decide (last true < last false))
  else if can false then some false
  else if can true then some true
  else none

/-- One group comes before another on a pipe: it issued less recently, or as recently and its `sr.gid` is lower (R123). -/
def firstOf (g h : Group) : Bool := decide (g.lastIssue < h.lastIssue) || (g.lastIssue = h.lastIssue && decide (g.gid < h.gid))

/-- Two groups share a pipe: that of `sr.gid` mod 4 of their core (R123). -/
def samePipe (g h : Group) : Bool := g.col = h.col && g.core = h.core && g.gid % 4 = h.gid % 4

/-- The group that issues next: the one that issued least recently, the lower `sr.gid` on a tie (R123). -/
def groupChoice (s : State) : Option (Group × Agent) :=
  s.groups.foldl (fun best g =>
    match s.slotChoice g with
    | none => best
    | some b => if best.all (fun p => firstOf g p.1) then some (g, .slot g.id b) else best) none

/-- A slot is the one that its pipe takes next: its group before every other that can issue there, and within the group the slot itself (R123). -/
def slotTurn (s : State) (gi : Nat) (b : Bool) : Bool :=
  let g := s.grp gi
  s.slotChoice g = some b && s.groups.all fun h => !(samePipe h g && firstOf h g && (s.slotChoice h).isSome)

/-- A stream thread can issue, as far as is known. -/
def threadCan (s : State) (c t : Nat) : Bool := s.threadReady c t && !s.held.contains (.thread c t)

/-- A stream thread is the one that its streamer takes next: no other that can issue issued less recently, or as recently with a lower number (R187). -/
def threadTurn (s : State) (c t : Nat) : Bool :=
  let n := (s.thread c t).lastIssue
  s.threadCan c t && (List.range 16).all fun u =>
    !(s.threadCan c u && (decide ((s.thread c u).lastIssue < n) || ((s.thread c u).lastIssue = n && decide (u < t))))

/-- The agent is the one that its pipe or streamer takes next (R123, R187). -/
def isTurn (s : State) : Agent → Bool
  | .slot g b => s.slotTurn g b
  | .thread c t => s.threadTurn c t

/-- The stream thread that issues next: the one that issued least recently, the lower number on a tie (R187). -/
def threadChoice (s : State) : Option (Nat × Agent) :=
  ((List.range s.cols.length).flatMap fun c => (List.range 16).map fun t => (c, t)).foldl (fun best p =>
    if s.threadCan p.1 p.2 then
      let n := (s.thread p.1 p.2).lastIssue
      match best with
      | none => some (n, .thread p.1 p.2)
      | some (m, a) => if n < m then some (n, .thread p.1 p.2) else some (m, a)
    else best) none

/-- The agent that issues next. -/
def agentChoice (s : State) : Option Agent :=
  match s.groupChoice, s.threadChoice with
  | none, none => none
  | some (_, a), none => some a
  | none, some (_, a) => some a
  | some (g, a), some (m, b) => if m < g.lastIssue then some b else some a

/-- An ACTIVE context that holds residency counts the time (R275). -/
def countHeld (s : State) (ns : Nat) (c : Context) : Context :=
  if c.st = .active && s.teams.any (fun t => t.ctx = c.num && t.resident) then { c with held := c.held + ns } else c

/-- Time passes with each step (R140): how much is free. -/
def tick (s : State) : State :=
  { s with time := s.time + Config.elapsedNs s.draws, cycles := s.cycles + Config.elapsedCycles s.draws, draws := s.draws + 1, late := false,
           ctxs := s.ctxs.map (s.countHeld (Config.elapsedNs s.draws)) }

/-- A core brings a line of a home into its L1 cache (R156 promises no line a place): as its ordinary loads see it if it is not there, or one more copy as its invariant loads do (R158, R267). -/
def fetchLine (s : State) (c k line : Nat) (inv : Bool) : State :=
  if inv then s.l1Put c k line true else s.l1Fill c k line false

/-- A core drops its newest copy of a line from its L1 cache. -/
def evictLine (s : State) (c k line : Nat) (inv : Bool) : State :=
  s.modCore c k fun x => { x with l1 := x.l1.eraseP fun l => l.line = line && l.invariant = inv }

/-- The line lies in a column that serves memory, and the core is one of the device's. -/
def lineThere (s : State) (c k line : Nat) : Bool :=
  decide (line % 128 = 0) && decide (c < s.cols.length) && decide (k < 4) && decide (homeCol line < s.cols.length) && !s.colDead (homeCol line)

/-- The device runs: the reset has ended and power is on (R387, R392). -/
def running (s : State) : Bool := s.boot = .ready && s.power ≠ .off

end State

/-- The events that act on a device that stays in reset or is off (R387, R392): of one that is off, the return of power alone; of one that stays in reset, what its Larnar ports and its mailbox do. -/
def actsInReset (s : State) (i : Instr) : Bool :=
  match i with
  | .powerOn _ => s.power = .off
  | .reset _ _ => s.power ≠ .off
  | .off _ => s.power ≠ .off
  | .training l _ => s.power ≠ .off && decide (l < 2)
  | .hostRead _ _ _ => s.power ≠ .off
  | .larnarLinkDown _ => s.power ≠ .off
  | .thermalTrip _ => s.power ≠ .off
  | _ => false

end Sys2Proof.Machine
end

