-- ==== Sys2Proof/Machine/Remote.lean ====
section
/-! DEFINITION. The remote instructions `rld`, `rst`, point `rred`, `ratom`, `rcas` (R366–R371), Brixel requests at their target (R317–R319, R364), and the events of their answers (R365, R372). -/

namespace Sys2Proof.Machine

open Sys2Proof

namespace State

/-! ### Issue (R366, R371) -/

/-- The lanes of a remote instruction with their pointers, after the checks of R366. -/
def remoteLanes (s : State) (v size : Nat) : Eff (List (Nat × Word)) :=
  let ls := s.lanes.map fun l => (l, s.vlane v l)
  match ls.find? fun x => s.ptrBad x.2 with
  | some x => trapAt 0x46 0 x.2 x.1
  | none =>
    match ls.find? fun x => ptrOff x.2 % size ≠ 0 with
    | some x => trapAt 0x43 size x.2 x.1
    | none => .ok ls

/-- Some active lane names a member that is LOST or a column that cannot serve memory: E (R371). -/
def anyDead (s : State) (ls : List (Nat × Word)) : Bool := ls.any fun x => s.targetDead s.myCtx (s.resolve x.2 s.myColNum)

/-- A remote instruction publishes, and sends one request for each lane, ascending (R350, R371). `make` gives a lane's request without its target. -/
def sendLanes (s : State) (ls : List (Nat × Word)) (make : State → Nat × Word → Remote) : State :=
  let e := s.anyDead ls
  let s := ls.foldl (fun s x => s.placeRemote (make s x) (s.resolve x.2 s.myColNum) x.2) s
  (s.sendAll).setE e

/-- The requests of an instruction that returns a value: they gather into its register (R368, R369). -/
def sendGather (s : State) (d : Reg) (k : Option Strike) (ls : List (Nat × Word)) (make : State → Nat × Word → Nat → Remote) : State :=
  if ls.isEmpty then s.setE false
  else
    let g := s.nextId
    let s := (s.emptyV d.toNat).place (.gather (s.destV d.toNat) ls.length [] k)
    s.sendLanes ls fun s x => make s x g

end State

/-! ### Meanings -/

/-- `rld` (R368). -/
def execRld (d a : Reg) (sc : BitVec 3) (s : State) : Out' :=
  s.issue (.rld d a sc) { Form.core true [.vd d, .va a .active] .pending with reserved := decide (4 ≤ sc.toNat) } fun t => do
    let ls ← t.remoteLanes a.toNat (2 ^ sc.toNat)
    .ok (t.sealAll.sendGather d (t.strikeOf (.rld d a sc)) ls fun u x g =>
      u.newRemote .read (.lane u.curGrp x.1 (some g)) (ptrOff x.2) (2 ^ sc.toNat) 0)

/-- `rst` (R368). -/
def execRst (d a : Reg) (sc : BitVec 3) (s : State) : Out' :=
  s.issue (.rst d a sc) { Form.core true [.vdc d .active, .va a .active] .none with reserved := decide (4 ≤ sc.toNat) } fun t => do
    let ls ← t.remoteLanes a.toNat (2 ^ sc.toNat)
    .ok (t.sealAll.sendLanes ls fun u x =>
      u.newRemote .write (.lane u.curGrp x.1 none) (ptrOff x.2) (2 ^ sc.toNat) (State.cutVal (2 ^ sc.toNat) (u.vlane d.toNat x.1)))

/-- Bytes of a point reduction's element (Table 23-4). -/
def ropSize (o : Nat) : Nat := if o = 1 || o = 2 then 4 else 8

/-- `rred` in point mode (R370). -/
def execRred (d a : Reg) (o : BitVec 4) (s : State) : Out' :=
  s.issue (.rred d a o) { Form.core true [.vdc d .active, .va a .active] .none with reserved := decide (5 ≤ o.toNat) } fun t => do
    let n := ropSize o.toNat
    let ls ← t.remoteLanes a.toNat n
    .ok (t.sealAll.sendLanes ls fun u x =>
      { u.newRemote .reduce (.lane u.curGrp x.1 none) (ptrOff x.2) n (State.cutVal n (u.vlane d.toNat x.1)) with op := o.toNat })

namespace State

/-- `ratom` and `rcas`: the mode, the checks, the release if `REL` asks for one, the requests (R260, R369). -/
def remoteAtom (s : State) (d b : Reg) (rel : Bool) (k : Option Strike) (make : State → Nat × Word → Nat → Nat → Remote) : Eff State := do
  s.needs (fun e => decide (4 ≤ e) && decide (e < 8)) false
  let w := ewidth s.etype / 8
  let ls ← s.remoteLanes b.toNat w
  let t := s.sealAll
  if rel then
    match t.openRelease 3 with
    | none => hold (s.awaits .phases)
    | some u => .ok (u.sendGather d k ls fun v x g => { make v x g w with release := some t.nextId })
  else .ok (t.sendGather d k ls fun v x g => make v x g w)

end State

/-- `ratom` (R369). -/
def execRatom (d a b : Reg) (r : BitVec 1) (o : BitVec 4) (s : State) : Out' :=
  s.issue (.ratom d a b r o)
    { Form.core true [.vdc d .active, .va a .active, .vb b .active] .pending with reserved := o = 7 || o = 8 || decide (10 ≤ o.toNat) } fun t =>
    t.remoteAtom d b (r = 1) (t.strikeOf (.ratom d a b r o)) fun u x g w =>
      { u.newRemote .atomic (.lane u.curGrp x.1 (some g)) (ptrOff x.2) w (State.cutVal w (u.vlane a.toNat x.1)) with
        op := o.toNat
        signed := esigned t.etype }

/-- `rcas` (R369). -/
def execRcas (d a b : Reg) (r : BitVec 1) (s : State) : Out' :=
  s.issue (.rcas d a b r) (.core true [.vdc d .active, .va a .active, .vb b .active] .pending) fun t =>
    t.remoteAtom d b (r = 1) (t.strikeOf (.rcas d a b r)) fun u x g w =>
      { u.newRemote .cas (.lane u.curGrp x.1 (some g)) (ptrOff x.2) w (State.cutVal w (u.vlane a.toNat x.1)) with
        op := 7
        cmp := State.cutVal w (t.vlane d.toNat x.1) }

/-! ### A request at its target -/

/-- The operations of Table 23-4 on one element of the width of the operation; from 16 on, those of `tred` on its element types (R211). -/
def ropElem (o old x : Nat) : Nat :=
  match o with
  | 0 => combine 6 0 old x
  | 1 => combine 4 0 old x
  | 2 => combine 10 0 old x
  | 3 => combine 6 2 old x
  | 4 => combine 6 1 old x
  | n => combine ((n - 16) / 4) ((n - 16) % 4) old x

/-- The new value that a request leaves at its home; a read leaves the old one. -/
def brixelNew (k : RemKind) (q : Brixel) (old : Nat) : Nat :=
  match k with
  | .read | .frame => old
  | .write => q.data.toNat
  | .reduce => ropElem q.op old q.data.toNat
  | .atomic => atomNew q.op (8 * q.size) q.signed old q.data.toNat q.cmp.toNat
  | .cas => atomNew 7 (8 * q.size) false old q.data.toNat q.cmp.toNat

namespace State

/-- The context in which a request of another member is translated: the live one that has its pod context id (R317, R367). -/
def podContext (s : State) (pod : Nat) : Option Nat :=
  if pod = 0 then none else
  (s.ctxs.find? fun c => (c.st = .created || c.st = .active || c.st = .preempted || c.st = .faulted) && bv c.record 128 20 = pod).map (·.num)

/-- What an offset of a request meets at the target column. -/
inductive Met where
  | home (h : Nat)
  | refused (cause : Nat)
  | miss
  deriving DecidableEq, Repr

/-- The permission that a kind of request needs: 0 read, 1 write, 2 both (R309). -/
def kindCode (k : RemKind) : Nat :=
  match k with
  | .read => 0
  | .write => 1
  | _ => 2

/-- Translates an offset for a remote access: R309, `RMT`, and no CAIRN leaf (R317, R318, R366). -/
def meets (s : State) (ctx col off kind : Nat) : Met :=
  match (s.col col).tlb.find? (fun t => t.ctx = ctx && decide (t.base ≤ off) && decide (off < t.base + t.size)) with
  | none => .miss
  | some t =>
    let e := t.leaf.toNat
    match leafRefuses e kind with
    | some c => .refused c
    | none => if !pteRmt e || pteTgt e = 2 then .refused 0x61 else .home (physHome col (pteTgt e) (ptePa e + (off - t.base)))

/-- The pieces of an access, cut where it crosses a 64 KiB page. -/
def pageCuts (off n : Nat) : List (Nat × Nat) :=
  let cut := 65536 - off % 65536
  if n ≤ cut then [(off, n)] else [(off, cut), ((off + cut) % 2 ^ 48, n - cut)]

/-- Bytes of a request. -/
def brixelBytes (q : Brixel) : Nat := if q.bytes.isEmpty then q.size else q.bytes.length

/-- How an access ends at its target. -/
inductive Served where
  /-- performed, with the value it returns and its poison -/
  | done (s : State) (val : Word) (bad : Bool)
  | refused (cause : Nat)
  /-- it must wait for a walk of this offset -/
  | miss (off : Nat)

/-- Performs a request in a context at a column, if every page of it lets it (R309, R317–R319). -/
def serve (s : State) (k : RemKind) (q : Brixel) (ctx col : Nat) : Served :=
  let cuts := pageCuts q.off (brixelBytes q)
  let ms := cuts.map fun c => (c, s.meets ctx col c.1 (kindCode k))
  match ms.findSome? fun m => match m.2 with
    | .refused c => some c
    | _ => none with
  | some c => .refused c
  | none =>
    match ms.find? fun m => m.2 = .miss with
    | some m => .miss m.1.1
    | none =>
      let ps := ms.filterMap fun m => match m.2 with
        | .home h => some (h, m.1.2)
        | _ => none
      let r := s.readPieces ps
      let old := leNat r.1
      let new := if q.bytes.isEmpty then leBytes q.size (brixelNew k q old) else q.bytes
      let s := if k = .read then s else s.storeHome (cutBytes ps new) q.poison
      .done s (BitVec.ofNat 64 (if k = .write || k = .reduce then 0 else old)) (r.2 && k ≠ .write && k ≠ .reduce)

/-- Starts the walk that a request waits for (R311, R318). -/
def walkFor (s : State) (col ctx off : Nat) (k : RemKind) (q : Brixel) (item : Nat) : Option State :=
  startWalk s col ctx off (kindCode k) (some (q.src, q.pod)) (.item item)

/-- A core's own access at its column is performed at the home: its ordinary L1 copies of the lines give way to what the home has (R156, R261). -/
def ownView (s : State) (r : Remote) : State :=
  if ownRequest r.col r.core r then
    let ls := pieceLines (s.reqPieces r)
    s.modCore r.col r.core fun k => { k with l1 := k.l1.filter fun l => l.invariant || !ls.contains l.line }
  else s

/-- The item waits on a walk of some column. -/
def itemWalks (s : State) (id : Nat) : Bool := s.cols.any fun c => c.walks.any fun w => w.waiters.contains (.item id)

/-- A request of a core to its own column waits for the core's earlier accesses to its bytes (R254, R261, R266). -/
def behindOwn (s : State) (id : Nat) (r : Remote) : Bool := ownRequest r.col r.core r && s.clash r.col r.core none id false (s.reqPieces r)

/-- A request of this device to itself is performed (R366, R367). -/
def serveOwn (s : State) (k : RemKind) (q : Brixel) : Out' :=
  match s.item q.id with
  | some (.remote r) =>
    if r.kind ≠ k || !r.sent || r.waiting || r.answer.isSome || r.dev.isSome || r.host.isSome || s.brixelOf q.id r ≠ q || s.itemWalks q.id ||
      s.stoppedAt r.tcol || s.behindOwn q.id r || s.earlierInStream q.id r (fun x => x.answer.isNone) then notPending
    else match s.serve k q r.ctx r.tcol with
    | .refused c => .next ((s.setItem q.id (.remote { r with answer := some (0, some (.denied c), false) })).changed)
    | .miss off => match s.walkFor r.tcol r.ctx off k q q.id with
      | some t => .next t.changed
      | none => notPending
    | .done t v bad =>
      let returns := !(k = .write || k = .reduce)
      .next (((t.ownView r).setItem q.id (.remote { r with answer := some (v, if bad then some .line else none, returns) })).changed)
  | _ => notPending

/-- An earlier request of the source's to the column was turned away and has not come again for less than 4 ms, or waits here for its page: a later one does not pass it (R260, R365). -/
def passes (s : State) (src pod col id : Nat) : Bool :=
  (s.turned.any fun t => t.src = src && t.pod = pod && t.col = col && decide (t.id < id) && decide (s.time < t.time + 4000000)) ||
  s.flight.any fun f => match f.item with
    | .brixel _ x => x.src = src && x.pod = pod && x.col = col && decide (x.id < id)
    | _ => false

/-- A request is taken: it is no longer among those turned away. -/
def takeIn (s : State) (src id : Nat) : State := { s with turned := s.turned.filter fun t => !(t.src = src && t.id = id) }

/-- A request is answered with retry-later (R365). -/
def turnAway (s : State) (src pod col id : Nat) : State :=
  let s := s.takeIn src id
  { s with turned := s.turned ++ [Turned.mk src pod col id s.time] }.out (.retryLater src id)

/-- A request of another member, its number in progress if it waits here (R317–R319, R361, R364). A column that cannot serve memory answers with poison (R21); in a partition whose routers have stopped no request arrives (R37); one that finds no walk slot, or would pass another of its source's, is turned away. -/
def serveExt (s : State) (k : RemKind) (q : Brixel) : Out' :=
  let held := s.flight.find? fun f => f.item = .brixel k q
  let base := (match held with
    | some f => s.drop f.id
    | none => s).takeIn q.src q.id
  let answer : Out → Out' := fun o => .next ((base.out o).changed)
  if (held.map fun f => s.itemWalks f.id).getD s.podPort.isNone then notPending
  else if s.isLost q.src then .next base.changed
  else if !s.devSet then answer (.refused q.src q.id Config.earlyRefusal)
  else match s.podContext q.pod with
  | none => answer (.refused q.src q.id 0x45)
  | some c =>
    let col := s.colOf c q.col
    if s.ncol c ≤ q.col then answer (.refused q.src q.id 0x46)
    else if s.stoppedAt col then .next base.changed
    else if s.colDead col then answer (.poisoned q.src q.id)
    else if held.isNone && s.passes q.src q.pod q.col q.id then .next ((s.turnAway q.src q.pod q.col q.id).changed)
    else match s.serve k q c col with
    | .refused x => answer (.refused q.src q.id x)
    | .miss off => match held with
      | some f => match s.walkFor col c off k q f.id with
        | some u => .next u.changed
        | none => notPending
      | none => match (base.place (.brixel k q)).walkFor col c off k q base.nextId with
        | some u => .next u.changed
        | none => .next ((s.turnAway q.src q.pod q.col q.id).changed)
    | .done t v bad =>
      let t := (match held with
        | some f => t.drop f.id
        | none => t).takeIn q.src q.id
      let o : Out := if k = .write || k = .reduce then .ack q.src q.id else if bad then .poisoned q.src q.id else .data q.src q.id v
      .next ((t.out o).changed)

def brixel (s : State) (k : RemKind) (q : Brixel) : Out' := if q.ext then s.serveExt k q else s.serveOwn k q

end State

/-- A read request arrives at its target column (R364). -/
def execBrixelRead (q : Brixel) (s : State) : Out' := s.brixel .read q

/-- A write request arrives at its target column (R364). -/
def execBrixelWrite (q : Brixel) (s : State) : Out' := s.brixel .write q

/-- A reduce request arrives at its target column (R370). -/
def execBrixelReduce (q : Brixel) (s : State) : Out' := s.brixel .reduce q

/-- An atomic request arrives at its target column (R369). -/
def execBrixelAtomic (q : Brixel) (s : State) : Out' := s.brixel .atomic q

/-- A compare-and-swap request arrives at its target column (R369). -/
def execBrixelCompareAndSwap (q : Brixel) (s : State) : Out' := s.brixel .cas q

/-! ### Answers -/

namespace State

/-- The request that an answer is for: it has been sent and waits for it. -/
def awaiting (s : State) (id : Nat) : Option Remote :=
  match s.item id with
  | some (.remote r) => if r.sent && !r.waiting then some r else none
  | _ => none

/-- The request has gone to another member or the host by a port, and no answer is known. -/
def faraway (r : Remote) : Bool := leaves r && r.via.isSome && r.answer.isNone

/-- The request returns a value. -/
def returns (r : Remote) : Bool := r.kind = .read || r.kind = .atomic || r.kind = .cas

/-- A request ends, and what waited behind it goes out. -/
def finish (s : State) (id : Nat) (r : Remote) (e : RemEnd) : Out' := .next ((s.endRemote id r e).sendAll.changed)

end State

/-- A data response (R364, R368). -/
def execDataResponse (id : Nat) (data : Word) (s : State) : Out' :=
  match s.awaiting id with
  | some r =>
    if r.answer = some (data, none, true) || (State.faraway r && State.returns r) then s.finish id r (.done data false) else notPending
  | none => notPending

/-- An acknowledgement (R368, R370). -/
def execAcknowledgement (id : Nat) (s : State) : Out' :=
  match s.awaiting id with
  | some r =>
    let own := match r.answer with
      | some (_, none, false) => true
      | _ => false
    if own || (State.faraway r && !State.returns r) then s.finish id r (.done 0 false) else notPending
  | none => notPending

/-- A refusal with its cause (R319). -/
def execRefusal (id : Nat) (cause : Nat) (s : State) : Out' :=
  match s.awaiting id with
  | some r =>
    let own := match r.answer with
      | some (_, some (.denied c), _) => c = cause
      | _ => false
    if own || State.faraway r then s.finish id r (.refused cause) else notPending
  | none => notPending

/-- A poison response: the value comes from a poisoned line, or its home is gone (R21, R339, R279); a store that gets one has not been performed. -/
def execPoison (id : Nat) (s : State) : Out' :=
  match s.awaiting id with
  | some r =>
    match r.answer with
    | some (v, some .line, _) => s.finish id r (.done v true)
    | some (_, some .dead, _) => s.finish id r .dead
    | some _ => notPending
    | none => if State.faraway r then s.finish id r (if !State.returns r || Config.homeGone id then .dead else .done 0 true) else notPending
  | none => notPending

namespace State

/-- The later requests of the stream wait behind one that is sent again (R365). -/
def waitBehind (id : Nat) (r : Remote) (f : Flight) : Flight :=
  match f.item with
  | .remote q => if decide (id < f.id) && sameStream q r && q.answer.isNone then ⟨f.id, .remote { q with sent := false, waiting := false }⟩ else f
  | _ => f

end State

/-- A retry-later: the sender waits, twice as long at each further one, up to 64 µs (R365). -/
def execRetryLater (id : Nat) (s : State) : Out' :=
  match s.awaiting id with
  | some r =>
    if !State.faraway r || r.host.isSome then notPending
    else
      let w := if r.backoff = 0 then 1 else min 64 (2 * r.backoff)
      let s := s.setItem id (.remote { r with waiting := true, backoff := w, sentAt := s.time })
      .next (({ s with flight := s.flight.map (State.waitBehind id r) }).changed)
  | none => notPending

/-- The back-off of a request has expired: it is sent again once those before it in its stream have been, and those behind it in issue order (R365). -/
def execRetryBackoff (id : Nat) (s : State) : Out' :=
  match s.item id with
  | some (.remote r) =>
    if r.waiting && decide (r.sentAt + 1000 * r.backoff ≤ s.time) && !s.earlierInStream id r (fun q => !q.sent || q.waiting) then
      .next ((s.emit id { r with waiting := false, sentAt := s.time }).sendAll.changed)
    else notPending
  | _ => notPending

/-- No response has come for 4 ms: the request completes as if its target were LOST (R365). -/
def execRequestTimeout (id : Nat) (s : State) : Out' :=
  match s.awaiting id with
  | some r => if r.dev.isSome && r.answer.isNone && decide (r.sentAt + 4000000 ≤ s.time) then s.finish id r .dead else notPending
  | none => notPending

end Sys2Proof.Machine
end

