-- ==== Sys2Proof/Machine/Collectives.lean ====
section
/-! DEFINITION. Collectives: `rred.coll`, the endpoints' keys, the frames HOP, ACC and DLV, and the timers of the keys (R373–R378). -/

namespace Sys2Proof.Machine

open Sys2Proof

/-! ### Route entries and descriptors (Tables 23-5, 23-6) -/

def entDev (e : BitVec 32) : Nat := bv e 22 10
def entCol (e : BitVec 32) : Nat := bv e 17 5
def entAct (e : BitVec 32) : Nat := bv e 14 3
def entBuf (e : BitVec 32) : Nat := bv e 6 8

/-- The entries in use of a descriptor. -/
def routeEntries (x : Nat) : List (BitVec 32) := (List.range (min (bitsOf x 40 4) 8)).map fun n => BitVec.ofNat 32 (bitsOf x (256 + 32 * n) 32)

/-- The refusals of check 2 of R374, for a device of this number whose partition has `ncol` columns. -/
def routeBad (dev ncol x : Nat) : Bool :=
  bitsOf x 156 100 != 0 || bitsOf x 44 4 != 0 || bitsOf x 38 2 != 0 || bitsOf x 40 4 = 0 || decide (8 < bitsOf x 40 4) ||
  (routeEntries x).any fun e => bv e 0 6 != 0 || decide (2 < entAct e) || decide (15 < entBuf e) ||
    ((entDev e = 0x3FF || entDev e = dev) && decide (ncol ≤ entCol e))

/-- The combination of one lane of two payloads (Table 23-4). -/
def ropLane (o : Nat) (x y : Word) : Word :=
  if o = 1 || o = 2 then packLane 32 ((List.range 2).map fun e => ropElem o (elemOf x 32 e) (elemOf y 32 e))
  else BitVec.ofNat 64 (ropElem o x.toNat y.toNat)

namespace State

/-! ### Keys -/

def keyAt (s : State) (col : Nat) (k : KeyId) : Option Key := (s.col col).keys.find? fun x => x.key = k

def putKey (s : State) (col : Nat) (k : Key) : State :=
  s.modCol col fun c => { c with keys := if c.keys.any fun x => x.key = k.key then c.keys.map fun x => if x.key = k.key then k else x else c.keys ++ [k] }

def dropKey (s : State) (col : Nat) (k : KeyId) : State := s.modCol col fun c => { c with keys := c.keys.filter fun x => x.key ≠ k }

/-- A key that a frame creates unarmed (R375). -/
def unarmedKey (s : State) (k : KeyId) (rop : Option Nat) : Key :=
  { key := k, armed := false, expect := 0, team := 0, grp := 0, bar := none, since := s.time, tmo := 0, rop := rop, arrived := 0, acc := [],
    accPoison := false, entries := [], armedAt := 0 }

def frameKey (f : Frame) : KeyId := ⟨f.pod, f.tag, f.chunk⟩

/-- An error event at a key's barrier. -/
def keyError (s : State) (k : Key) (flag : Nat) : State :=
  match k.bar with
  | some b => s.place (.barError b flag)
  | none => s

/-! ### Frames on their way -/

/-- The partition of a column. -/
def partAt (s : State) (col : Nat) : Nat × Nat := (s.split.find? fun p => decide (p.1 ≤ col) && decide (col < p.1 + p.2)).getD (0, 0)

/-- The request that brings a frame to the endpoint of an entry at another member. -/
def frameRequest (s : State) (col : Nat) (grp : Option Nat) (f : Frame) (e : BitVec 32) : Remote :=
  { s.newRemote .frame (.frame grp f) 0 0 0 with
    ctx := (match grp with
      | some _ => s.myCtx
      | none => (s.podContext f.pod).getD 64)
    col := col
    dev := some (entDev e)
    tcol := entCol e
    poison := f.poison }

/-- Sends a frame from a column, for a group if one sends it, to the endpoint of its next entry; one without entries ends, one whose next hop is LOST is dropped (R364, R367, R372, R375). -/
def shipFrame (s : State) (col : Nat) (grp : Option Nat) (f : Frame) : State :=
  match f.entries with
  | [] => s
  | e :: _ =>
    let p := s.partAt col
    let f := { f with ext := false, src := s.dev, id := 0 }
    if entDev e = s.dev then (if entCol e < p.2 then s.place (.frame (p.1 + entCol e) f) else s)
    else if s.isLost (entDev e) then s
    else (s.place (.remote (s.frameRequest col grp f e))).sendAll

/-- Where a frame stands. -/
inductive Arrived where
  /-- at the endpoint of this column; `held` says that it was in progress already -/
  | at_ (col : Nat) (s : State) (held : Bool)
  /-- it is discarded, or answered with a refusal, poison or retry-later -/
  | gone (s : State)
  | nowhere

/-- A frame that has come to the endpoint of a column: accepted, unless the column cannot serve memory or its routers have stopped (R21, R37). -/
def frameAtCol (s : State) (f : Frame) (col num : Nat) : Arrived :=
  if s.stoppedAt col then .gone s
  else if s.colDead col then .gone (s.out (.poisoned f.src f.id))
  else if s.passes f.src f.pod num f.id then .gone (s.turnAway f.src f.pod num f.id)
  else .at_ col ((s.takeIn f.src f.id).out (.ack f.src f.id)) false

/-- A frame in progress, or one that arrives from another member (R361, R364, R367, R372). -/
def takeFrame (s : State) (f : Frame) : Arrived :=
  match s.flight.find? fun x => match x.item with
    | .frame _ g => g = f
    | _ => false with
  | some x => match x.item with
    | .frame col _ => if s.stoppedAt col then .nowhere else if s.colDead col then .gone (s.drop x.id) else .at_ col (s.drop x.id) true
    | _ => .nowhere
  | none =>
    if !f.ext || s.podPort.isNone then .nowhere
    else if s.isLost f.src then .gone s
    else if !s.devSet then .gone (s.out (.refused f.src f.id Config.earlyRefusal))
    else match f.entries with
    | [] => .gone (s.out (.ack f.src f.id))
    | e :: _ =>
      if entDev e ≠ s.dev then .nowhere
      else match s.podContext f.pod with
      | none => .gone (s.out (.refused f.src f.id 0x45))
      | some c => if s.ncol c ≤ entCol e then .gone (s.out (.ack f.src f.id)) else s.frameAtCol f (s.colOf c (entCol e)) (entCol e)

/-- The action of a frame's next entry. -/
def frameAct (f : Frame) : Nat := (f.entries.head?.map entAct).getD 7

/-- The frame with its first entry popped. -/
def popped (f : Frame) : Frame := { f with entries := f.entries.tail }

/-- A frame that needs a new key at a full endpoint: one of this device goes on waiting, another is answered with retry-later (R374). -/
def noPlace (s : State) (f : Frame) (held : Bool) : Out' :=
  if held then notPending else .next ((s.turnAway f.src f.pod ((f.entries.head?.map entCol).getD 0) f.id).changed)

/-- The accumulation of a key is complete: the finished frame sets out (R375). -/
def finishKey (s : State) (col : Nat) (k : Key) : State :=
  let f : Frame := ⟨false, s.dev, 0, k.key.pod, k.key.tag, k.key.chunk, k.rop.getD 0, k.expect, k.entries, k.acc, k.accPoison⟩
  s.shipFrame col none f

/-- The key has accumulated what completes it. -/
def keyComplete (k : Key) : Bool := k.armed && !k.acc.isEmpty && k.arrived = k.expect

/-- Arms a key (R374). -/
def armKey (s : State) (col : Nat) (id : KeyId) (expect : Word) (tmo rop : Nat) (b : BarBind) : State :=
  let old := s.keyAt col id
  let base := old.getD (s.unarmedKey id (some rop))
  let k := { base with
    armed := true
    expect := expect
    team := s.me.team
    grp := s.curGrp
    bar := some b
    since := s.time
    tmo := tmo
    armedAt := s.nextId }
  let s := { s with nextId := s.nextId + 1 }.putKey col k
  if keyComplete k && !((old.map keyComplete).getD false) then s.finishKey col k else s

end State

/-- `rred` of a collective (R374). A poisoned active lane of `D` traps (R146); the frame carries the poison of the others (R339). DEDUCED, log 25. -/
def execRredColl (d a : Reg) (o : BitVec 4) (s : State) : Out' :=
  s.issue (.rredColl d a o)
    { Form.core true [.vdc d .active, .va a .no] .none with reserved := decide (5 ≤ o.toNat) } fun t =>
    match t.lanes with
    | [] => .ok (t.setE false)
    | lead :: _ => do
      t.clean (.va a .active) [lead]
      let p := t.vlane a.toNat lead
      t.checkReqs 0 0 64 [⟨lead, 0, p, ptrOff p, 64⟩]
      let x ← t.scrBlock p 64 64
      if routeBad t.dev (t.ncol t.myCtx) x then State.trapAt 0x46 0 p lead
      else
        let i := BitVec.ofNat 12 (bitsOf x 144 12)
        let at_ ← t.barAddr i
        let c := t.barCore t.myTeam
        if (t.barRead t.myTeam c at_).uninit then trap 0x83 i.toNat
        else
          let id : KeyId := ⟨bv (t.ctx t.myCtx).record 128 20, bitsOf x 0 32, bitsOf x 128 16⟩
          if (t.keyAt t.myCol id).isNone && decide (Config.keys ≤ (t.col t.myCol).keys.length) then hold (t.awaits .keys)
          else
            let own := fun (e : BitVec 32) => if entDev e = 0x3FF then BitVec.ofNat 32 (t.dev * 2 ^ 22 + e.toNat % 2 ^ 22) else e
            let es := (routeEntries x).map own
            let lost := es.any fun e => if entDev e = t.dev then t.colDead (t.colOf t.myCtx (entCol e)) else t.isLost (entDev e)
            let tmo := bitsOf x 48 16
            let u := t.sealAll.armKey t.myCol id (BitVec.ofNat 64 (bitsOf x 64 64)) (if tmo = 0 then 2000 else tmo) o.toNat (t.barBind t.myTeam c at_)
            let f : Frame :=
              { ext := false, src := t.dev, id := 0, pod := id.pod, tag := id.tag, chunk := id.chunk, rop := o.toNat, bitmap := BitVec.ofNat 64 (2 ^ bitsOf x 32 6),
                entries := es, payload := (List.range t.me.width).map fun l => t.vlane d.toNat l
                poison := (List.range t.me.width).any fun l => ((t.vreg d.toNat).poisonOf l).isSome }
            .ok ((u.shipFrame t.myCol (some t.curGrp) f).setE lost)

/-! ### Events -/

/-- A frame whose next entry is HOP: it goes on to the following one (R375). -/
def execHop (f : Frame) (s : State) : Out' :=
  if State.frameAct f ≠ 0 then notPending
  else match s.takeFrame f with
  | .at_ col t _ => .next ((t.shipFrame col none (State.popped f)).changed)
  | .gone t => .next t.changed
  | .nowhere => notPending

/-- A frame whose next entry is ACC: it is accumulated, or discarded with UNDERFLOW; either way a key that is complete then sends its result (R375). -/
def execAcc (f : Frame) (s : State) : Out' :=
  if State.frameAct f ≠ 1 then notPending
  else match s.takeFrame f with
  | .gone t => .next t.changed
  | .nowhere => notPending
  | .at_ col t held =>
    let id := State.frameKey f
    let old := t.keyAt col id
    if old.isNone && decide (Config.keys ≤ (t.col col).keys.length) then s.noPlace f held
    else
      let k := old.getD (t.unarmedKey id (some f.rop))
      if k.arrived &&& f.bitmap != 0 || (k.armed && f.bitmap &&& ~~~k.expect != 0) || ((k.rop.map fun r => r != f.rop).getD false) then
        let t := t.keyError k 2
        .next ((if State.keyComplete k then t.finishKey col k else t).changed)
      else
        let k := { k with
          rop := some f.rop
          arrived := k.arrived ||| f.bitmap
          acc := if k.acc.isEmpty then f.payload else List.zipWith (ropLane f.rop) k.acc f.payload
          accPoison := k.accPoison || f.poison
          entries := f.entries.tail }
        let t := t.putKey col k
        .next ((if State.keyComplete k then t.finishKey col k else t).changed)

namespace State

/-- The core whose instance of a buffer a DLV writes: that of the arming group, else its team's. -/
def keyCore (s : State) (k : Key) : Nat := if s.hasGroup k.grp then (s.grp k.grp).core else (s.team k.team).core

/-- The write of a DLV: the scratchpad address, or none where it does not lie in the buffer or Table 8-3 refuses it (R375). -/
def dlvAt (s : State) (k : Key) (f : Frame) (buf : Nat) : Option Nat :=
  let core := s.keyCore k
  let b := s.buf k.team core buf
  let n := 8 * f.payload.length
  let a := (s.team k.team).scrBase + 128 * b.start + f.chunk * n
  if !b.declared || decide (128 * b.lines < f.chunk * n + n) || (s.bufCheck k.team core a n .store).isSome then none else some a

/-- A DLV at an armed key (R375). -/
def deliverFrame (s : State) (col : Nat) (k : Key) (f : Frame) : State :=
  let buf := (f.entries.head?.map entBuf).getD 0
  let s := match s.dlvAt k f buf, k.bar with
    | some a, some b =>
      let n := 8 * f.payload.length
      let s := s.scrWrite k.team (s.keyCore k) [(a, f.payload.flatMap fun (x : Word) => leBytes 8 x.toNat)] f.poison
      (s.place (.countdown b (if (s.barRead b.team b.core b.addr).kind = 1 then n else 1) none none)).dropKey col k.key
    | _, _ => s.keyError k 0
  s.shipFrame col none (popped f)

end State

/-- A frame whose next entry is DLV: at an armed key it is delivered; at one that is not, it is held with the key (R375). -/
def execDlv (f : Frame) (s : State) : Out' :=
  if State.frameAct f ≠ 2 then notPending
  else match s.takeFrame f with
  | .gone t => .next t.changed
  | .nowhere => notPending
  | .at_ col t held =>
    match t.keyAt col (State.frameKey f) with
    | some k =>
      if k.armed then .next ((t.deliverFrame col k f).changed)
      else if held then notPending
      else .next ((t.place (.frame col f)).changed)
    | none =>
      if Config.keys ≤ (t.col col).keys.length then s.noPlace f held
      else
        let k := s.unarmedKey (State.frameKey f) none
        .next ((if held then s.putKey col k else (t.putKey col k).place (.frame col f)).changed)

/-- An armed key has not completed within its `TMO` (R377). -/
def execKeyTimeout (col : Nat) (key : KeyId) (s : State) : Out' :=
  match s.keyAt col key with
  | some k => if k.armed && decide (k.since + 1000 * k.tmo ≤ s.time) then .next (((s.keyError k 1).dropKey col key).changed) else notPending
  | none => notPending

/-- An unarmed key is discarded with its frames 2 ms after its creation (R375). -/
def execUnarmedKeyExpiry (col : Nat) (key : KeyId) (s : State) : Out' :=
  match s.keyAt col key with
  | some k =>
    if k.armed || decide (s.time < k.since + 2000000) then notPending
    else
      let s := s.dropKey col key
      let mine := fun (x : Flight) => match x.item with
        | .frame c f => c = col && State.frameKey f = key && State.frameAct f = 2
        | _ => false
      .next ({ s with flight := s.flight.filter fun x => !mine x }.changed)
  | none => notPending

end Sys2Proof.Machine
end

