-- ==== Sys2Proof/Machine/Walks.lean ====
section
/-! DEFINITION. The walker's events and the page commands (19_pages.md): walks that end, fault records, resolves, shootdowns, writes of leaves. -/

namespace Sys2Proof.Machine

open Sys2Proof

namespace State

/-! ### How a walk ends for those who wait -/

/-- The agent waits no longer; a fault, if there is one, meets it when it comes to the access again (R309, R314). -/
def wakeGroup (f : Option (Nat × Nat)) (g : Group) : Group :=
  match g.susp with
  | .walk off => { g with susp := .none, walkFault := f.map fun c => ⟨off, c.1, c.2⟩ }
  | _ => g

def wakeThread (f : Option (Nat × Nat)) (h : Thread) : Thread :=
  match h.susp with
  | .walk off => { h with susp := .none, walkFault := f.map fun c => ⟨off, c.1, c.2⟩ }
  | _ => h

/-- A thing in progress meets the fault of its page: a transfer at its next step, a remote access by a refusal (R314, R319). -/
def itemFault (s : State) (id cause detail : Nat) : State :=
  match s.item id with
  | some (.xfer x) => s.setItem id (.xfer { x with walkFault := some ⟨x.walkOff, cause, detail⟩ })
  | some (.remote r) => s.setItem id (.remote { r with answer := some (0, some (.denied cause), false) })
  | some (.brixel _ q) => (s.drop id).out (.refused q.src q.id cause)
  | _ => s

/-- A trap whose frame waited goes on, or stops its group where the page refuses the frame (R309, R329). -/
def frameGoesOn (s : State) (g : Nat) (r : Raise) (ok : Bool) : State :=
  let s := s.modGroup g fun x => { x with susp := .none, frameWait := none }
  if ok then s.enterTrap r else s.stopGroup g

/-- The same for a stream thread: the rest of R208 follows with the frame or without it. -/
def threadGoesOn (s : State) (col t : Nat) (r : ThreadRaise) (ok : Bool) : State :=
  let s := s.modThread col t fun x => { x with susp := .none, frameWait := none }
  if ok then s.streamFault col t r.cause r.detail r.addr r.pc r.insn r.upto else s.streamEnd col t r.upto

/-- Ends the wait of one waiter. -/
def wakeWaiter (col : Nat) (f : Option (Nat × Nat)) (s : State) (w : Waiter) : State :=
  match w with
  | .slot g => match (s.grp g).frameWait with
    | some r => s.frameGoesOn g r f.isNone
    | none => s.modGroup g (wakeGroup f)
  | .thread t => match (s.thread col t).frameWait with
    | some r => s.threadGoesOn col t r f.isNone
    | none => s.modThread col t (wakeThread f)
  | .item id => match f with
    | some (c, d) => s.itemFault id c d
    | none => s

/-- Fills the TLB of the core or streamer that a waiter uses (R310). -/
def fillFor (col : Nat) (t : TlbEntry) (s : State) (w : Waiter) : State :=
  match w with
  | .slot g => s.modCore col (s.grp g).core fun k => { k with tlb := fillTlb Config.coreTlb k.tlb t }
  | _ => s.modCol col fun c => { c with tlb := fillTlb Config.streamTlb c.tlb t }

def walkAt (s : State) (col fid : Nat) : Option Walk := (s.col col).walks.find? fun w => w.fid = fid

def dropWalk (s : State) (col fid : Nat) : State := s.modCol col fun c => { c with walks := c.walks.filter fun w => w.fid ≠ fid }

def putWalk (s : State) (col : Nat) (w : Walk) : State := s.modCol col fun c => { c with walks := c.walks.map fun x => if x.fid = w.fid then w else x }

/-- The frames of a column that wait for a walk slot ask for one again (R311). -/
def retryFrames (s : State) (col : Nat) : State :=
  let s := s.groups.foldl (fun s g => match g.frameWait with
    | some r => if g.col = col && g.susp = .full then s.frameGoesOn g.id r true else s
    | none => s) s
  (List.range 16).foldl (fun s t => match (s.thread col t).frameWait with
    | some r => if (s.thread col t).susp = .full then s.threadGoesOn col t r true else s
    | none => s) s

/-- The access of a privileged group does not wait for a page that is not present: it is a nested fault (R329, R333). -/
def privilegedWaiter (s : State) (w : Waiter) : Bool :=
  match w with
  | .slot g => (s.grp g).privileged
  | _ => false

/-- Posts the fault record of a walk, if the ring has room (R313). -/
def postRecord (s : State) (col : Nat) (w : Walk) : Option State :=
  match w.st with
  | .absent e l bad false =>
    if Config.ringSize ≤ (s.col col).ring.length then none
    else
      let w := { w with st := .absent e l bad true }
      some (((s.putWalk col w).modCol col fun c => { c with ring := c.ring ++ [faultRecord w col] }).out (.notify col w.fid))
  | _ => none

/-- Frees the ring entry of a record that a resolve names (R313, R314). -/
def freeRecord (s : State) (col fid : Nat) : State := s.modCol col fun c => { c with ring := c.ring.filter fun r => bv r 0 5 ≠ fid }

end State

/-- A walk ends: on a VALID leaf its waiters replay; on a leaf in another state they meet its cause; on PAGE_NOT_PRESENT they wait on, but for privileged groups, and a record is posted; a poisoned entry kills the context (R309–R313, R354). -/
def execWalkComplete (col fid : Nat) (s : State) : Out' :=
  match s.walkAt col fid with
  | none => notPending
  | some w =>
    if w.st ≠ .walking then notPending
    else match walkTable s w.ctx col w.off with
    | .struck => .next ((s.killCtx w.ctx).changed)
    | .leaf e l at_ =>
      let s := s.dropWalk col fid
      if pteState e = 1 then
        let sh := levelShift l
        let t : TlbEntry := ⟨w.ctx, w.off / 2 ^ sh * 2 ^ sh, 2 ^ sh, BitVec.ofNat 64 e⟩
        let s := w.waiters.foldl (State.fillFor col t) (s.touchPage w.ctx (8 * at_ + l))
        .next (((w.waiters.foldl (State.wakeWaiter col none) s).retryFrames col).changed)
      else .next (((w.waiters.foldl (State.wakeWaiter col (some ((leafRefuses e 0).getD 0x62, e))) s).retryFrames col).changed)
    | .absent e l _ bad =>
      let nested := w.waiters.filter s.privilegedWaiter
      let w := { w with st := .absent (BitVec.ofNat 64 e) l bad false, time := s.time, waiters := w.waiters.filter fun x => !s.privilegedWaiter x }
      let s := nested.foldl (State.wakeWaiter col (some (0x60, e))) (s.putWalk col w)
      .next (((s.postRecord col w).getD s).changed)

/-- A held record is posted once the ring has room (R313). -/
def execFaultRecordPost (col fid : Nat) (s : State) : Out' :=
  match (s.walkAt col fid).bind (s.postRecord col) with
  | some t => .next t.changed
  | none => notPending

/-! ### Resolves (R314) -/

namespace State

/-- What a host port does comes about only while the port carries traffic (R280, R359). -/
def hostAct (s : State) (port : Nat) (act : Out') : Out' := if port < 2 && s.portCarries port then act else notPending

/-- The management core performs a command of a port: the submitted command that arrived first (R272, R396). -/
def command (s : State) (port : Nat) (act : State → Out') : Out' :=
  if port < 2 && s.portCarries port && s.submitted.head? = some port then act { s with submitted := s.submitted.tail } else notPending

/-- A walk that waits for a resolve. -/
def waitingWalk (s : State) (col fid : Nat) : Option Walk :=
  (s.walkAt col fid).bind fun w => match w.st with
    | .absent _ _ _ true => some w
    | _ => none

end State

/-- A resolve with outcome RETRY; one that names no waiting walk is ignored (R314). -/
def execRetry (port col fid : Nat) (s : State) : Out' :=
  s.command port fun s =>
  match s.waitingWalk col fid with
  | some w => .next ((((s.freeRecord col fid).putWalk col { w with st := .walking }).respond port true).changed)
  | none => .next ((s.respond port true).changed)

/-- A resolve with outcome FAULT; one that names no waiting walk is ignored (R314). -/
def execFault (port col fid : Nat) (s : State) : Out' :=
  s.command port fun s =>
  match s.waitingWalk col fid with
  | some w =>
    let e := match w.st with
      | .absent e _ _ _ => e.toNat
      | .walking => 0
    let s := (s.freeRecord col fid).dropWalk col fid
    .next ((((w.waiters.foldl (State.wakeWaiter col (some (0x60, e))) s).retryFrames col).respond port true).changed)
  | none => .next ((s.respond port true).changed)

/-! ### Shootdowns (R316) -/

namespace State

/-- A command is refused with a configuration error and changes nothing. -/
def configError (s : State) (port : Nat) : Out' := .next ((s.respond port false).changed)

/-- A command has been performed. -/
def accepted (s : State) (port : Nat) : Out' := .next ((s.respond port true).changed)

/-- The context takes no more commands: it does not exist, or it has been killed (R272). -/
def noContext (s : State) (c : Nat) : Bool := (s.ctx c).st = .unused || (s.ctx c).st = .killed || (s.ctx c).st = .quarantined

/-- The entry lies in the range of a shootdown. -/
def inRangeOf (ctx base npg : Nat) (t : TlbEntry) : Bool :=
  t.ctx = ctx && (npg = 0 || (decide (t.base < base + npg * 65536) && decide (base < t.base + t.size)))

/-- The entries of the range that the TLBs of a column hold: base and size of each (R316 step 1). -/
def goneFrom (ctx base npg : Nat) (c : Column) : List (Nat × Nat) :=
  ((c.tlb ++ c.cores.toList.flatMap (·.tlb)).filter (inRangeOf ctx base npg)).map fun t => (t.base, t.size)

/-- A column removes the entries of the range from its TLBs (R316 step 1); what its agents have issued through them and not yet performed at the homes of TAL, GLB and ARG is performed first. -/
def shootColumn (ctx base npg : Nat) (s : State) (col : Nat) : State :=
  let keep := fun (l : List TlbEntry) => l.filter fun t => !inRangeOf ctx base npg t
  (s.settle fun l => l.col = col).modCol col fun c => { c with tlb := keep c.tlb, cores := c.cores.map fun k => { k with tlb := keep k.tlb } }

end State

/-- The shootdown command: the completion word, and each named column's removals; its decrement follows (R316). -/
def execShootdown (port : Nat) (block : BitVec 256) (s : State) : Out' :=
  let ctx := bv block 0 6
  let base := bv block 144 48
  let npg := bv block 112 32
  let mask := bv block 80 32
  let cnt := bv block 192 64
  s.command port fun s =>
  if s.noContext ctx || mask / 2 ^ s.ncol ctx != 0 || bv block 6 74 != 0 || base % 65536 != 0 then s.configError port
  else
    let cols := ((List.range 32).filter fun c => bitsOf mask c 1 = 1).map (s.colOf ctx)
    let s : State := { s with mem := s.mem.storeNat cnt 8 cols.length }
    let s := cols.foldl (fun s c =>
      (State.shootColumn ctx base npg s c).place (.shootdown c ctx base npg cnt (State.goneFrom ctx base npg (s.col c)))) s
    s.accepted port

namespace State

/-- A page of the cairn was translated by a removed entry. -/
def cairnThrough (gone : List (Nat × Nat)) (c : CairnMap) : Bool :=
  c.pages.any fun p => gone.any fun t => decide (p.1 * 65536 < t.1 + t.2) && decide (t.1 < p.1 * 65536 + 65536)

/-- An access translated by a removed entry has not been performed (R316 step 3): what waits at a latch or in a matrix queue. Every other access is performed at its home in the step that translates it, or in the step that removes the entry. -/
def usesGone (s : State) (col ctx id : Nat) (gone : List (Nat × Nat)) : Bool :=
  (s.flight.any fun f => match f.item with
    | .mx m => m.col = col && (s.team m.team).ctx = ctx && decide (f.id < id) && (cairnThrough gone m.cmap || (match m.kind with
      | .joint _ ms => ms.any fun x => cairnThrough gone x.cmap
      | _ => false))
    | _ => false) ||
  (s.col col).cores.toList.any fun k => k.latches.any fun a => (s.team a.team).ctx = ctx && cairnThrough gone a.cmap

end State

/-- A column's accesses through the removed entries have been performed: it subtracts 1 from the completion word (R316). -/
def execShootdownColumnDone (id : Nat) (s : State) : Out' :=
  match s.item id with
  | some (.shootdown col ctx _ _ cnt gone) =>
    if s.usesGone col ctx id gone then notPending else
    let n := s.mem.nat cnt 8
    .next ((({ s with mem := s.mem.storeNat cnt 8 ((n + (2 ^ 64 - 1)) % 2 ^ 64) }).drop id).changed)
  | _ => notPending

/-- The command that writes a page-table entry (R312, R315). -/
def execLeafWrite (port addr : Nat) (entry : Word) (s : State) : Out' :=
  let old := s.mem.nat addr 8
  s.command port fun s =>
  if pteLeaf old && (pteState old = 3 || pteState old = 4) then s.configError port
  else ({ s with mem := s.mem.storeNat addr 8 entry.toNat }).accepted port

end Sys2Proof.Machine
end

