-- ==== Sys2Proof/Machine/Queues.lean ====
section
/-! DEFINITION. The queue engine (17_queues.md): examination of heads, dispatch, and the commands and doorbells of queues. -/

namespace Sys2Proof.Machine

open Sys2Proof

namespace State

/-! ### Examination and dispatch (R286, R289) -/

/-- The record of the head entry lies here (R283). -/
def headRecord (s : State) (q : Nat) : Nat := (s.queue q).ringPa + 128 * ((s.queue q).head % qSize (s.queue q))

/-- A word of the queue that the engine reads has been struck: descriptor, status word, or the ring record of a READY head (R354). -/
def queueStruck (s : State) (q : Nat) : Bool :=
  s.mem.isPoisoned ((recQtabPa s.record) + 64 * q) || s.mem.isPoisoned (s.statAddr q (s.queue q).head) ||
  (s.headReady q && s.mem.isPoisoned (s.headRecord q))

/-- The engine may examine the head: the queue is IDLE, RUNNING or ERROR, and its context runs and is not being pre-empted (R276, R288). -/
def canExamine (s : State) (q : Nat) : Bool :=
  let x := s.queue q
  (x.st = .idle || x.st = .running || x.st = .error) && !x.disabling && s.ctxRuns x.ctx && !s.preempting x.ctx

/-- How far a queue stands behind the one served last (R289). -/
def turn (s : State) (q : Nat) : Nat := (q + 512 - s.lastQueue - 1) % 256

/-- The queue would be served before `q` (R289). -/
def before (s : State) (q r : Nat) : Bool :=
  s.canExamine r && (s.queue r).wake && s.headReady r &&
  (decide ((s.queue q).prio < (s.queue r).prio) || (decide ((s.queue q).prio = (s.queue r).prio) && decide (s.turn r < s.turn q)))

/-- No other queue with a READY head comes first. -/
def served (s : State) (q : Nat) : Bool := !s.headReady q || !(List.range 256).any fun r => s.before q r

/-- The launch of the head entry, as the engine copies it. -/
def newLaunch (s : State) (q : Nat) : Launch :=
  { id := s.nextId, queue := q, ticket := (s.queue q).head, ctx := (s.queue q).ctx, record := BitVec.ofNat 1024 (s.mem.nat (s.headRecord q) 128),
    st := .waitingDeps, grid := [], placed := [], cause := none, admitted := false, bufs := [], chans := [], xsets := [], imaged := false }

/-- Dispatch of a READY head: DISPATCHED, the copy of the record, and `HEAD` advances (R286); the launch waits for its dependences (R298). -/
def dispatch (s : State) (q : Nat) : State :=
  let l := s.newLaunch q
  let s := s.writeStatus q l.ticket 2 0
  let s := s.setQueue q fun x => { x with st := .blocked, head := (x.head + 1) % 2 ^ 64, wake := true }
  { s with launches := s.launches ++ [l], nextId := s.nextId + 1, lastQueue := q }

/-- A READY head of a queue in ERROR is written FLUSHED (R284, R288). -/
def flushHead (s : State) (q : Nat) : State :=
  let x := s.queue q
  (s.writeStatus q x.head 5 (x.errTick % 2 ^ 23)).setQueue q fun x => { x with head := (x.head + 1) % 2 ^ 64, wake := true }

/-- One examination of a head. A further READY entry is examined after it. -/
def examine (s : State) (q : Nat) : State :=
  let s := s.modQueue q fun x => { x with wake := false, examined := s.time }
  let x := s.queue q
  if s.queueStruck q then s.killCtx x.ctx
  else if s.headReady q then (if x.st = .error then s.flushHead q else s.dispatch q)
  else if x.st = .running && !s.inFlight q then s.setQueue q fun y => { y with st := .idle }
  else s

end State

/-- The engine examines a head after a wake, or after a launch or a dependence has ended (R289). -/
def execQueueExamine (q : Nat) (s : State) : Out' :=
  if q < 256 && s.canExamine q && (s.queue q).wake && s.served q then .next ((s.examine q).changed) else notPending

/-- The 64 µs poll of an IDLE queue (R289). -/
def execQueuePoll (q : Nat) (s : State) : Out' :=
  if q < 256 && s.canExamine q && (s.queue q).st = .idle && decide ((s.queue q).examined + 64000 ≤ s.time) && s.served q then
    .next ((s.examine q).changed)
  else notPending

/-! ### Doorbells (R290, R362) -/

/-- A write of some doorbell words, all of them in the region: each sets its queue's wake bit (R290, R362). -/
def State.doorbells (s : State) (qs : List Nat) : State :=
  qs.foldl (fun (s : State) q => s.modQueue q fun x => if x.st = .disabled then x else { x with wake := true }) s

/-- A write of any value to a doorbell word sets the queue's wake bit (R290); outside the 256 words the write is answered with an error (R362). -/
def State.doorbell (s : State) (port q : Nat) : Out' :=
  if 256 ≤ q then .next ((s.out (.hostError port)).changed)
  else .next ((s.doorbells [q]).changed)

/-- A host write to a doorbell word: either port may ring every queue (R280). -/
def execDoorbellWrite (port q : Nat) (s : State) : Out' := s.hostAct port (s.doorbell port q)

/-! ### Commands (R288) -/

namespace State

/-- A descriptor as it stands in memory. -/
def descriptor (s : State) (q : Nat) : BitVec 512 := BitVec.ofNat 512 (s.mem.nat ((recQtabPa s.record) + 64 * q) 64)

/-- A descriptor that an enable command refuses: a reserved bit, a misaligned address, `LOG2SZ` above 12, a context in another state, or a ring or status array that is not device memory. -/
def descriptorBad (s : State) (d : BitVec 512) : Bool :=
  let sz := 2 ^ (bv d 256 4 + 4)
  let c := (s.ctx (bv d 266 6)).st
  bv d 323 189 != 0 || bv d 272 8 != 0 || bv d 260 4 != 0 || decide (12 < bv d 256 4) || bv d 0 64 % 128 != 0 || bv d 64 64 % 8 != 0 ||
  !(c = .created || c = .active) || !s.physSpan (bv d 0 64) (128 * sz) || !s.physSpan (bv d 64 64) (8 * sz)

/-- The queue as the engine latches it (R283): IDLE, with `HEAD` at `TAIL`. -/
def latched (s : State) (d : BitVec 512) (old : Queue) : Queue :=
  { st := .idle, errTick := old.errTick, errCode := old.errCode, ctx := bv d 266 6, prio := bv d 264 2, log2sz := bv d 256 4, head := bv d 128 64,
    statPa := bv d 64 64, ringPa := bv d 0 64, wake := true, disabling := false, examined := s.time }

end State

/-- The enable command: the descriptor is latched and its context becomes ACTIVE (R272, R288). -/
def execQueueEnable (port q : Nat) (s : State) : Out' :=
  let d := s.descriptor q
  s.command port fun s =>
  if 256 ≤ q || (s.queue q).st ≠ .disabled || s.descriptorBad d then s.configError port
  else if s.mem.isPoisoned ((recQtabPa s.record) + 64 * q) then .next (((s.killCtx (bv d 266 6)).respond port false).changed)
  else
    let s := s.setQueue q (s.latched d)
    let s := s.modCtx (bv d 266 6) fun c => if c.st = .created then { c with st := .active, held := 0 } else c
    s.accepted port

/-- The disable command: the queue goes DISABLED once its launches in flight have completed. -/
def execQueueDisable (port q : Nat) (s : State) : Out' :=
  s.command port fun s =>
  if 256 ≤ q || (s.queue q).st = .disabled then s.configError port
  else ((s.modQueue q fun x => { x with disabling := true }).settleQueue q).accepted port

/-- The reset-queue command: an ERROR queue goes IDLE with its `HEAD`. -/
def execResetQueue (port q : Nat) (s : State) : Out' :=
  s.command port fun s =>
  if 256 ≤ q || (s.queue q).st ≠ .error then s.configError port
  else (s.setQueue q fun x => { x with st := .idle, wake := true }).accepted port

end Sys2Proof.Machine
end

