-- ==== Sys2Proof/Machine/Exchange.lean ====
section
/-! DEFINITION. Meanings of channels (R175–R178) and exchange sets (R179–R181), with their events. -/

namespace Sys2Proof.Machine

open Sys2Proof

def noChannel : Channel :=
  { slots := [], start := 0, slotsz := 0, ccol := 0, ctid := 0, ptid := 0, cgids := 0, pgids := 0, pcols := 0, nextGrant := 0, nextClaim := 0 }

namespace State

/-! ### Channels -/

/-- The declaration of a channel as a team's launch has it. -/
def chanDecl (s : State) (t ch : Nat) : Channel := (s.team t).chans.getD ch noChannel

/-- The team that consumes a channel, where it is placed: its record of the channel holds the slots. -/
def chanTeam (s : State) (t ch : Nat) : Option Team :=
  let d := s.chanDecl t ch
  let x := s.team t
  s.teams.find? fun y => y.launch = x.launch && y.col = s.colOf x.ctx d.ccol && y.tid = d.ctid

def modChan (s : State) (t ch : Nat) (f : Channel → Channel) : State := s.modTeam t fun x => { x with chans := lmod x.chans ch f }

/-- The slot can be granted: FREE, or freed by the arrival of the message an `xrecv` claimed (R176). -/
def slotFree (s : State) (x : ChanSlot) : Bool :=
  match x with
  | .free => true
  | .claimed id => (s.item id).isNone
  | _ => false

/-- Message for a slot is on its way. -/
def messageFor (t ch k : Nat) (i : Item) : Bool :=
  match i with
  | .chan t' c k' _ => t' = t && c = ch && k' = k
  | _ => false

/-- The slot granted to a slot of a group that has not sent into it. -/
def grantedSlot (s : State) (t ch by_ : Nat) : Option Nat :=
  let c := (s.team t).chans.getD ch noChannel
  (List.range c.slots.length).find? fun k => c.slots[k]? = some (.reserved by_) && !s.flight.any fun f => messageFor t ch k f.item

/-- A request for a slot of a channel is waiting. -/
def grantAsked (s : State) (t ch g : Nat) (b : Bool) : Bool :=
  s.flight.any fun f => f.item = .grant t ch g b

/-- Every consumer group of a channel has exited (R178). -/
def consumersGone (s : State) (d : Channel) (t : Team) : Bool :=
  (s.teamGroups t.id).all fun g => bitsOf d.cgids g.gid 1 = 0 || g.st = .exited

/-- Bytes of a slot, and the scratchpad address of slot `k` of a channel in its consumer's core (R175). -/
def slotBytes (c : Channel) : Nat := 128 * 2 ^ c.slotsz

def slotAddr (t : Team) (c : Channel) (k : Nat) : Nat := t.scrBase + 128 * c.start + k * slotBytes c

/-! ### Exchange sets -/

/-- Member columns of a set as column numbers, ascending (R179). -/
def setCols (s : State) (t set : Nat) : List Nat := (List.range 32).filter fun c => bitsOf ((s.team t).xsets.getD set 0) c 1 = 1

/-- Where a group sends, and from which column it receives (R180): column numbers, none where the instruction faults. -/
def xpermPlan (members : List Nat) (c code : Nat) : Option (List Nat × Nat) :=
  if !members.contains c then none else
  let k := members.length
  let p := members.findIdx (· = c)
  if code < 0x20 then
    let m := c ^^^ code
    if members.contains m then some ([m], m) else none
  else if code < 0x3F then
    let n := (code - 0x20) % k
    some ([members.getD ((p + n) % k) 0], members.getD ((p + k - n) % k) 0)
  else some (if p = 0 then members else [], members.headD 0)

/-- A vector of this exchange that the group has sent is not yet accepted. -/
def sentPending (s : State) (g : Group) (set serial : Nat) : Bool :=
  s.flight.any fun f => match f.item with
    | .perm v _ => v.launch = g.launch && v.tid = g.tid && v.gid = g.gid && v.set = set && v.serial = serial && v.fromCol = s.colNum g.ctx g.col
    | _ => false

/-- The vector is the group's for this exchange. -/
def vecFor (g : Group) (set serial : Nat) (v : PermVec) : Bool :=
  v.launch = g.launch && v.tid = g.tid && v.gid = g.gid && v.set = set && v.serial = serial

/-- The vectors that a group's core holds for this exchange and those before it on the set. -/
def vecUpTo (g : Group) (set serial : Nat) (v : PermVec) : Bool :=
  v.launch = g.launch && v.tid = g.tid && v.gid = g.gid && v.set = set && decide (v.serial ≤ serial)

/-- The completion of an `xperm` whose vector has been sent (R181): a vector of another code or from another column than its partner's makes it fault, also one that came too late for its own exchange (R180). -/
def xpermFinish (s : State) (d : Reg) (set code serial source : Nat) : Eff State :=
  let g := s.me
  let held := (s.core g.col g.core).perms.filter (vecUpTo g set serial)
  let done := s.modCore g.col g.core fun k => { k with perms := k.perms.filter fun x => !vecUpTo g set serial x }
  match held.find? fun v => v.serial ≠ serial || v.code ≠ code || v.fromCol ≠ source with
  | some v => .error (.trapIn done (Trap.of 0x85 (set * 64 + v.code)))
  | none =>
    let waits := (s.mySusp .perm).replays
    if s.sentPending g set serial then hold waits
    else match held.head? with
    | none => hold waits
    | some v => .ok (done.writeV d.toNat ((List.range g.width).map fun l => (l, v.data.getD l 0)))

end State

/-! ### Meanings -/

/-- `xsend` (R176–R178). -/
def execXsend (a : Reg) (c : BitVec 4) (s : State) : Out' :=
  s.issue (.xsend a c) (.core false [.va a .all] .none) fun t =>
    let g := t.me
    let d := t.chanDecl g.team c.toNat
    let mine := bitsOf d.pcols t.myColNum 1 = 1 && d.ptid = g.tid && bitsOf d.pgids g.gid 1 = 1
    if d.slots.isEmpty || !mine then trap 0x85 c.toNat
    else if t.colDead (t.colOf g.ctx d.ccol) then trap 0x44
    else match t.chanTeam g.team c.toNat with
    | none => hold (t.awaits (.slot g.team c.toNat))
    | some y =>
      if t.consumersGone d y then trap 0x85 c.toNat
      else
        let by_ := 2 * g.id + bit t.curSlot
        match t.grantedSlot y.id c.toNat by_ with
        | some k =>
          .ok (t.sealAll.place (.chan y.id c.toNat k ((List.range g.width).map fun l => t.vlane a.toNat l)))
        | none => if t.grantAsked y.id c.toNat g.id t.curSlot then hold (t.awaits (.slot y.id c.toNat))
          else hold ((t.place (.grant y.id c.toNat g.id t.curSlot)).awaits (.slot y.id c.toNat))

/-- `xrecv` (R176, R178). -/
def execXrecv (d : Reg) (c : BitVec 4) (s : State) : Out' :=
  s.issue (.xrecv d c) (.core false [.vd d] .pending) fun t =>
    let g := t.me
    let ch := t.chanDecl g.team c.toNat
    let mine := t.myColNum = ch.ccol && ch.ctid = g.tid && bitsOf ch.cgids g.gid 1 = 1
    if ch.slots.isEmpty || !mine then trap 0x85 c.toNat
    else match ch.slots[ch.nextClaim]? with
    | some .full =>
      let y := t.team g.team
      let at_ := State.slotAddr y ch ch.nextClaim
      let bad := fun l => if t.scrPoisoned g.team y.core (at_ + 8 * l) 8 then some Poison.line else none
      let ls := (List.range g.width).map fun l => (⟨l, BitVec.ofNat 64 (t.scrNat g.team y.core (at_ + 8 * l) 8), bad l⟩ : LaneVal)
      let id := t.nextId
      let u := (t.emptyV d.toNat).placeResult (t.destV d.toNat) ls (t.strikeOf (.xrecv d c)) false
      .ok (u.modChan g.team c.toNat fun x => { x with slots := x.slots.set x.nextClaim (.claimed id), nextClaim := (x.nextClaim + 1) % x.slots.length })
    | _ => hold (t.awaits (.message c.toNat))

/-- `xperm` (R180, R181). -/
def execXperm (d a : Reg) (sc c : BitVec 6) (s : State) : Out' :=
  s.issue (.xperm d a sc c) (.core false [.vd d, .va a .all] (.v d.toNat true)) fun t =>
    let g := t.me
    let me := t.myColNum
    match State.xpermPlan (t.setCols g.team sc.toNat) me c.toNat with
    | none => trap 0x85 (sc.toNat * 64 + c.toNat)
    | some (dests, source) =>
      match t.prog with
      | .sent serial => t.xpermFinish d sc.toNat c.toNat serial source
      | _ =>
        let serial := vget 0 g.perms sc.toNat + 1
        let data := (List.range g.width).map fun l => t.vlane a.toNat l
        let v : PermVec := ⟨g.launch, g.tid, g.gid, sc.toNat, serial, c.toNat, me, data⟩
        let t := dests.foldl (fun t x => t.place (.perm v (t.colOf g.ctx x))) t.sealAll
        let t := (t.modMe fun x => { x with perms := vmod x.perms sc.toNat fun _ => serial }).setProg (.sent serial)
        t.xpermFinish d sc.toNat c.toNat serial source

/-! ### Events -/

/-- The controller grants the next slot of a channel, in ring order, to the request that has waited longest (R176). -/
def execChannelGrant (team ch : Nat) (s : State) : Out' :=
  let c := (s.team team).chans.getD ch noChannel
  match s.flight.find? (fun f => match f.item with
    | .grant t c' _ _ => t = team && c' = ch
    | _ => false), c.slots[c.nextGrant]? with
  | some f, some x =>
    match f.item with
    | .grant _ _ g b =>
      if !s.slotFree x then notPending
      else .next (((s.drop f.id).modChan team ch fun y =>
        { y with slots := y.slots.set y.nextGrant (.reserved (2 * g + bit b)), nextGrant := (y.nextGrant + 1) % y.slots.length }).changed)
    | _ => notPending
  | _, _ => notPending

/-- A message arrives: its bytes go into the slot, which becomes FULL (R176); where the team is out they go into its save image (R177). -/
def execChannelMessageArrival (id : Nat) (s : State) : Out' :=
  match s.item id with
  | some (.chan t ch k data) =>
    let y := s.team t
    let c := y.chans.getD ch noChannel
    let s := (s.drop id).scrStore t y.core [(State.slotAddr y c k, data.flatMap fun x => leBytes 8 x.toNat)] false
    .next ((s.modChan t ch fun c => { c with slots := c.slots.set k .full }).changed)
  | _ => notPending

/-- A vector arrives at its receiver's core, which accepts up to four for each group and set before their `xperm` issues; its sender and its receiver look again (R181). -/
def execXpermArrival (id : Nat) (s : State) : Out' :=
  match s.item id with
  | some (.perm v col) =>
    match s.groups.find? fun g => g.launch = v.launch && g.col = col && g.tid = v.tid && g.gid = v.gid with
    | none => notPending
    | some g =>
      let early := (s.core col g.core).perms.filter fun x => x.launch = v.launch && x.tid = v.tid && x.gid = v.gid && x.set = v.set &&
        decide (vget 0 g.perms v.set < x.serial)
      if decide (vget 0 g.perms v.set < v.serial) && decide (Config.permVectors ≤ early.length) then notPending
      else
        let s := (s.drop id).modCore col g.core fun k => { k with perms := k.perms ++ [v] }
        let ends := fun (x : Group) => x.id = g.id || (x.tid = v.tid && x.gid = v.gid && s.colNum x.ctx x.col = v.fromCol)
        let wake := fun (x : Group) => if x.susp = .perm && x.launch = v.launch && ends x then { x with susp := .none, waitFrom := none } else x
        .next (({ s with groups := s.groups.map wake }).changed)
  | _ => notPending

end Sys2Proof.Machine
end

