-- ==== Sys2Proof/Machine/MatrixMath.lean ====
section
/-! DEFINITION. The arithmetic of the matrix engine: operand formats (Table 4-4), the format block (Table 12-4), alignment within K-blocks (R230), slice sums (R231, R232), special values (R65), sparse lines (R225). -/

namespace Sys2Proof.Machine

open Sys2Proof

/-! ### Operand formats (Tables 4-4, 12-2) -/

/-- Element format of an operand code. -/
def elemFmt (code : Nat) : Nat := code % 16

/-- The code marks block scaling. -/
def isScaled (code : Nat) : Bool := decide (16 ≤ code)

/-- The four reserved codes (R60). -/
def badCode (code : Nat) : Bool := code = 0x10 || code = 0x11 || code = 0x12 || code = 0x1F

/-- Width of an element in bits (Table 4-4). -/
def codeBits (code : Nat) : Nat :=
  match elemFmt code with
  | 0 => 32
  | 1 => 16
  | 2 => 16
  | 3 => 8
  | 4 => 8
  | 5 => 6
  | 6 => 6
  | 8 => 8
  | 9 => 8
  | 13 => 3
  | 14 => 2
  | 15 => 2
  | _ => 4

/-- An unscaled integer code (R61). -/
def intCode (code : Nat) : Bool := code = 8 || code = 9 || code = 10 || code = 11 || code = 15

/-- A codebook format. -/
def codebookFmt (code : Nat) : Bool := elemFmt code = 12 || elemFmt code = 13 || elemFmt code = 14

/-- Bytes of a codebook (R62). -/
def codebookBytes (code : Nat) : Nat := 2 * 2 ^ codeBits code

/-- The `TAG` of a sparse class, 0 outside the three classes (R225). -/
def sparseTag (code : Nat) : Nat :=
  match elemFmt code with
  | 1 => 1
  | 2 => 1
  | 3 => 2
  | 4 => 2
  | 8 => 2
  | 9 => 2
  | 7 => 3
  | 10 => 3
  | 11 => 3
  | 12 => 3
  | _ => 0

/-- K of an arrangement (Table 12-1). -/
def arrK (arr : Nat) : Nat := match arr with
  | 0 => 256
  | 1 => 512
  | 2 => 1024
  | _ => 4096

/-- N of an arrangement for one core (Table 12-1). -/
def arrN (arr : Nat) : Nat := match arr with
  | 0 => 1024
  | 1 => 512
  | 2 => 256
  | _ => 64

/-- N_eff (Table 12-2), doubled for a pair (R219). -/
def nEff (bfmt arr : Nat) (pair : Bool) : Nat :=
  let n := if pair then 2 * arrN arr else arrN arr
  match elemFmt bfmt with
  | 0 => n / 4
  | 1 => n / 2
  | 2 => n / 2
  | 12 => n / 2
  | 13 => n / 2
  | 14 => n / 2
  | 7 => 2 * n
  | 10 => 2 * n
  | 11 => 2 * n
  | 15 => 2 * n
  | _ => n

/-- K_log (R220). -/
def kLog (arr : Nat) (sparse : Bool) : Nat := if sparse then 2 * arrK arr else arrK arr

/-- Significand width with the hidden bit (R230). -/
def sigBits (code : Nat) : Nat :=
  match elemFmt code with
  | 0 => 24
  | 2 => 11
  | 3 => 3
  | 5 => 3
  | 4 => 4
  | 6 => 4
  | 7 => 2
  | _ => 8

/-- Values packed as a little-endian bit stream of `w`-bit codes, eight of them in `w` bytes (R56). -/
def codesOf (w : Nat) : Nat → List Byte → List Nat
  | 0, _ => []
  | n + 1, bs =>
    let x := leNat (bs.take w)
    (List.range 8).map (fun i => bitsOf x (w * i) w) ++ codesOf w n (bs.drop w)

/-- The entries of a codebook (R62). -/
def entriesOf (code x : Nat) : List Nat := (List.range (2 ^ codeBits code)).map fun i => bitsOf x (16 * i) 16

/-! ### The format block (Table 12-4) -/

def fbA (b : BitVec 256) : Nat := bv b 0 5
def fbB (b : BitVec 256) : Nat := bv b 8 5
def fbLen (b : BitVec 256) : Nat := match bv b 16 2 with
  | 0 => 32
  | 1 => 16
  | _ => 64
def fbAcc (b : BitVec 256) : Nat := bv b 18 2
def fbSparse (b : BitVec 256) : Bool := bvBit b 20
def fbRows (b : BitVec 256) : Nat := bv b 24 4 + 1
/-- NB -/
def fbCols (b : BitVec 256) : Nat := 64 * (bv b 32 6 + 1)
def fbAsoff (b : BitVec 256) : Nat := bv b 48 16
def fbBscale (b : BitVec 256) : Word := BitVec.ofNat 64 (bv b 64 64)
def fbCba (b : BitVec 256) : Word := BitVec.ofNat 64 (bv b 128 64)
def fbCbb (b : BitVec 256) : Word := BitVec.ofNat 64 (bv b 192 64)

/-- The lowest bit number of an offending field or span of a format block, if there is one (R223); `cols` is the greatest `BCOLS` + 1 that `mx.ldb` accepts. -/
def fbBad (b : BitVec 256) (cols : Option Nat) : Option Nat :=
  let tests : List (Nat × Bool) := [
    (0, badCode (fbA b)), (5, bv b 5 3 != 0), (8, badCode (fbB b)), (13, bv b 13 3 != 0), (16, bv b 16 2 = 3),
    (18, fbAcc b = 3 || (fbAcc b != 0 && !(intCode (fbA b) && intCode (fbB b)))), (20, fbSparse b && sparseTag (fbB b) = 0),
    (21, bv b 21 3 != 0), (28, bv b 28 4 != 0), (32, (cols.map fun c => decide (c < bv b 32 6 + 1)).getD false), (38, bv b 38 10 != 0)]
  (tests.find? fun t => t.2).map (·.1)

/-! ### Elements of a K-block (R64, R230) -/

/-- What an element counts as in a sum of products (R65). -/
inductive Cls where
  | zero
  | fin (neg : Bool)
  | inf (neg : Bool)
  | nan
  deriving DecidableEq, Repr

/-- An aligned element: its integer and what it counts as. -/
structure MElem where
  i : Int
  cls : Cls
  deriving DecidableEq, Repr

/-- A K-block: elements by their place in it, the shift, the scale m · 2^e. -/
structure MBlock where
  els : List (Nat × MElem)
  shift : Int
  sm : Nat
  se : Int
  deriving DecidableEq, Repr

/-- An element's own value (R64). -/
def ownValue (code : Nat) (book : List Nat) (x : Nat) : FVal :=
  let int := fun (w : Nat) (sgn : Bool) =>
    let v : Int := if sgn then asSigned w x else ((x % 2 ^ w : Nat) : Int)
    FVal.fin (decide (v < 0)) v.natAbs 0
  match elemFmt code with
  | 0 => unpack .f32 false x
  | 1 => unpack .bf16 false x
  | 2 => unpack .f16 false x
  | 3 => unpack .e5m2 false x
  | 4 => unpack .e4m3 false x
  | 5 => unpack .e3m2 false x
  | 6 => unpack .e2m3 false x
  | 7 => unpack .e2m1 false x
  | 8 => int 8 true
  | 9 => int 8 false
  | 10 => int 4 true
  | 11 => int 4 false
  | 15 => int 2 true
  | _ => unpack .bf16 false (book.getD x 0)

def intFmt (code : Nat) : Bool := intCode (elemFmt code)

def clsOf (v : FVal) : Cls :=
  match v with
  | .nan _ => .nan
  | .inf s => .inf s
  | .fin s m _ => if m = 0 then .zero else .fin s

/-- floor(log2 |v|) of a finite, non-zero value. -/
def expOf (v : FVal) : Option Int :=
  match v with
  | .fin _ m e => if m = 0 then none else some ((Nat.log2 m : Int) + e)
  | _ => none

def maxExp (vs : List FVal) : Option Int :=
  vs.foldl (fun a v => match a, expOf v with
    | none, e => e
    | a, none => a
    | some x, some y => some (max x y)) none

/-- The aligned integer of a value for a shift (R230). -/
def alignInt (shift : Int) (v : FVal) : Int :=
  match v with
  | .fin s m e =>
    let q := shiftFrac m 1 (e - shift)
    if q.1 < q.2 then 0
    else
      let k : Int := roundInt .rne s q.1 q.2
      if s then -k else k
  | _ => 0

/-- A K-block of an operand: codes by their place in the block, under a scale byte if the format is scaled (R63, R64, R230). -/
def blockOf (code : Nat) (book : List Nat) (scale : Option Nat) (xs : List (Nat × Nat)) : MBlock :=
  match scale with
  | some 0 => ⟨xs.map fun x => (x.1, ⟨0, .zero⟩), 0, 0, 0⟩
  | some 0x7F => ⟨xs.map fun x => (x.1, ⟨0, .nan⟩), 0, 0, 0⟩
  | _ =>
    let sc := match scale.map (unpack .e4m3 false) with
      | some (.fin _ m e) => (m, e)
      | _ => (1, 0)
    let vs := xs.map fun x => (x.1, ownValue code book x.2)
    if intFmt code then ⟨vs.map fun v => (v.1, ⟨alignInt 0 v.2, clsOf v.2⟩), 0, sc.1, sc.2⟩
    else match maxExp (vs.map (·.2)) with
      | none => ⟨vs.map fun v => (v.1, ⟨0, clsOf v.2⟩), 0, sc.1, sc.2⟩
      | some em =>
        let shift := em - sigBits code - 1
        ⟨vs.map fun v => (v.1, ⟨alignInt shift v.2, clsOf v.2⟩), shift, sc.1, sc.2⟩

/-! ### Slice sums -/

/-- What the product of two elements counts as (R65). -/
def mulCls (a b : Cls) : Cls :=
  match a, b with
  | .nan, _ => .nan
  | _, .nan => .nan
  | .inf _, .zero => .nan
  | .zero, .inf _ => .nan
  | .inf s, .inf t => .inf (s != t)
  | .inf s, .fin t => .inf (s != t)
  | .fin s, .inf t => .inf (s != t)
  | .zero, _ => .zero
  | _, .zero => .zero
  | .fin s, .fin t => .fin (s != t)

/-- What a sum of terms counts as so far: a NaN wins, infinities of both signs make one (R65). -/
def addCls (a b : Cls) : Cls :=
  match a, b with
  | .nan, _ => .nan
  | _, .nan => .nan
  | .inf s, .inf t => if s = t then .inf s else .nan
  | .inf s, _ => .inf s
  | _, .inf t => .inf t
  | a, _ => a

/-- The row's block by place, for products with a column's block. -/
structure ABlock where
  els : Array MElem
  shift : Int
  sm : Nat
  se : Int
  special : Bool
  deriving DecidableEq, Repr

def isSpecial (c : Cls) : Bool := match c with
  | .nan => true
  | .inf _ => true
  | _ => false

def MBlock.special (b : MBlock) : Bool := b.els.any fun x => isSpecial x.2.cls

/-- A block whose places are 0, 1, 2, … in order. -/
def MBlock.toA (b : MBlock) : ABlock := ⟨(b.els.map (·.2)).toArray, b.shift, b.sm, b.se, b.special⟩

def ABlock.get (a : ABlock) (j : Nat) : MElem := a.els.getD j ⟨0, .zero⟩

/-- Σ iA · iB over the places of a column's block. -/
def dot (a : ABlock) (b : MBlock) : Int := b.els.foldl (fun t x => t + (a.get x.1).i * x.2.i) 0

/-- What the terms of two blocks count as together. -/
def blockCls (a : ABlock) (b : MBlock) : Cls := b.els.foldl (fun c x => addCls c (mulCls (a.get x.1).cls x.2.cls)) .zero

/-- P_b as an integer times a power of two (R231 step 1). -/
def partial_ (a : ABlock) (b : MBlock) : Int × Int := (dot a b * ((a.sm * b.sm : Nat) : Int), a.shift + b.shift + a.se + b.se)

/-- floor(n · 2^e). -/
def floorScale (n : Int) (e : Int) : Int := if 0 ≤ e then n * ((2 ^ e.toNat : Nat) : Int) else n.fdiv ((2 ^ (-e).toNat : Nat) : Int)

/-- Steps 2 and 3 of R231 on the partials. -/
def sumPartials (ps : List (Int × Int)) : Nat :=
  let ps := ps.filter fun p => p.1 ≠ 0
  let x := ps.foldl (fun (m : Option Int) p =>
    let e := (Nat.log2 p.1.natAbs : Int) + p.2 + 1
    some (match m with
      | none => e
      | some y => max y e)) none
  match x with
  | none => 0
  | some x =>
    let q := x - 43
    let u := ps.foldl (fun t p => t + floorScale p.1 (p.2 - q)) (0 : Int)
    roundTo .f32 .rne (decide (u < 0)) u.natAbs 1 q

/-- The f32 slice sum of blocks of a row and a column (R65, R231). -/
def sliceFloat (as : List ABlock) (bs : List MBlock) : Nat :=
  let zs := as.zip bs
  let c := if zs.any fun z => z.1.special || z.2.special then zs.foldl (fun c z => addCls c (blockCls z.1 z.2)) .zero else Cls.zero
  match c with
  | .nan => Fmt.f32.defNan
  | .inf s => Fmt.f32.signed s Fmt.f32.infPat
  | _ => sumPartials (zs.map fun z => partial_ z.1 z.2)

/-- The exact integer slice sum (R232). -/
def sliceInt (as : List ABlock) (bs : List MBlock) : Int := (as.zip bs).foldl (fun t z => t + dot z.1 z.2) 0

/-- binary32 under RNE, subnormals kept, NaNs the default. -/
def f32Mode : FMode := ⟨.f32, 0, false, false, false, false⟩

/-- One update of a cairn word (R65, R232). -/
def cairnUpdate (acc w : Nat) (as : List ABlock) (bs : List MBlock) : Nat :=
  if acc = 0 then fadd f32Mode 0 w (sliceFloat as bs)
  else fit 4 (decide (acc = 2)) (asSigned 32 w + sliceInt as bs)

/-- Cuts a list into runs of `n`. -/
def runs {α : Type} (n : Nat) : Nat → List α → List (List α)
  | 0, _ => []
  | k + 1, l => l.take n :: runs n k (l.drop n)

/-- All slices of one output, ascending (R231, R233); `per` is the number of K-blocks of a slice. -/
def outputWord (acc per w : Nat) (as : List ABlock) (bs : List MBlock) : Nat :=
  let k := as.length / per
  ((runs per k as).zip (runs per k bs)).foldl (fun w z => cairnUpdate acc w z.1 z.2) w

/-! ### Rows of A and columns of B as K-blocks -/

/-- The K-blocks of a row of codes, with its scales. -/
def rowBlocks (code blen : Nat) (book : List Nat) (codes scales : List Nat) : List ABlock :=
  let n := codes.length / blen
  (runs blen n codes).zipIdx.map fun x =>
    (blockOf code book (if isScaled code then some (scales.getD x.2 0) else none) (x.1.zipIdx.map fun y => (y.2, y.1))).toA

/-- The K-blocks of a column: its elements by logical k, its scales block by block. -/
def colBlocks (code blen klog : Nat) (book : List Nat) (els : List (Nat × Nat)) (scales : List Nat) : List MBlock :=
  (List.range (klog / blen)).map fun b =>
    blockOf code book (if isScaled code then some (scales.getD b 0) else none)
      ((els.filter fun x => x.1 / blen = b).map fun x => (x.1 % blen, x.2))

/-- A column beyond the loaded ones: zeros (R224). -/
def zeroBlocks (blen klog : Nat) (sparse : Bool) : List MBlock :=
  List.replicate (klog / blen) ⟨if sparse then [] else (List.range blen).map fun j => (j, ⟨0, .zero⟩), 0, 1, 0⟩

/-! ### Sparse lines (Table 12-5) -/

/-- One step of CRC-32C for a byte, bit by bit. -/
def crcByte (c : Nat) (b : Byte) : Nat :=
  (List.range 8).foldl (fun c _ => if c % 2 = 1 then c / 2 ^^^ 0x82F63B78 else c / 2) (c ^^^ b.toNat)

/-- CRC-32C of bytes. -/
def crc32c (bs : List Byte) : Nat := (bs.foldl crcByte 0xFFFFFFFF) ^^^ 0xFFFFFFFF

/-- Header bytes, position bytes and values of a line of a class (R225). -/
def sparseShape (tag : Nat) : Nat × Nat × Nat := match tag with
  | 1 => (24, 13, 52)
  | 2 => (32, 24, 96)
  | _ => (48, 40, 160)

/-- A position of value `j` in a line. -/
def sparsePos (x j : Nat) : Nat := bitsOf x (64 + 2 * j) 2

/-- A line is refused (R225); `count` is what its `COUNT` must be. -/
def sparseBad (tag count : Nat) (bs : List Byte) : Bool :=
  let sh := sparseShape tag
  let x := leNat bs
  let crc := crc32c (bs.take 4 ++ [0, 0, 0, 0] ++ bs.drop 8)
  crc != bitsOf x 32 32 || bitsOf x 0 8 != tag || bitsOf x 16 16 != 0 ||
  ((bs.take sh.1).drop (8 + sh.2.1)).any (· != 0) ||
  (List.range (bitsOf x 8 8 / 2)).any (fun i => decide (sparsePos x (2 * i + 1) ≤ sparsePos x (2 * i))) ||
  bitsOf x 8 8 != count

end Sys2Proof.Machine
end

