-- ==== Sys2Proof/Machine/Matrix.lean ====
section
/-! DEFINITION. The matrix gang (12_matrix_gang.md): `mx.gang`, `mx.ldb`, `mx.mm`, `mx.zero`, `mx.acv`, `mx.vac`, `mx.csum`, and the events that perform them in the matrix queue. The epilogue stands in Epilogue.lean. -/

namespace Sys2Proof.Machine

open Sys2Proof

namespace Memory

/-- A 32-bit cairn word. -/
def cairnWord (m : Memory) (h : Nat) : Nat := m.nat h 4

def putCairn (m : Memory) (h x : Nat) : Memory := (m.putBytes h (leBytes 4 x)).bump h

/-- A cairn word is poisoned: by itself, or by its line (R245, R339). -/
def cairnBad (m : Memory) (h : Nat) : Bool := m.cairnPoison.contains h || m.isPoisoned h

def markCairn (m : Memory) (h : Nat) : Memory := { m with cairnPoison := setPut m.cairnPoison h }

end Memory

namespace State

/-! ### Operands in SCR (R31, Table 8-3) -/

/-- Checks spans of offsets of one SCR pointer as loads and answers their addresses in the core's scratchpad; with a FILLING line, or a store of the core on its way to them, the group's fetch stays suspended (R122, R233, R265). -/
def scrSpans (s : State) (p : Word) (align : Nat) (spans : List (Nat × Nat)) : Eff (List Nat) := do
  let rs := spans.map fun x => (⟨0, 0, p, x.1 % 2 ^ 48, x.2⟩ : Req)
  s.checkReqs 0 0 align rs
  match rs.findSome? fun r => s.bufCheck s.myTeam s.myCore (s.scrAddr r) r.size .load with
  | some (c, d) => trapAt c d p 0
  | none =>
    match rs.find? fun r => s.bufHolds s.myTeam s.myCore (s.scrAddr r) r.size || s.scrComing (s.scrAddr r) r.size with
    | some r => hold (s.replays.awaits (.lines (s.scrAddr r) r.size))
    | none => .ok (rs.map s.scrAddr)

/-- A codebook that a block names, a control object (R222, R412). -/
def readBook (s : State) (code : Nat) (p : Word) : Eff (List Nat) :=
  if codebookFmt code then (s.scrObject p (codebookBytes code) 8).map (entriesOf code) else .ok []

/-- Poison of `n` elements of `w` bits from an address on. -/
def elemPoison (s : State) (team core a w n : Nat) : List Bool :=
  if s.scrPoisoned team core a (w * n / 8) then
    (List.range n).map fun i => s.scrPoisoned team core (a + w * i / 8) ((w * i % 8 + w + 7) / 8)
  else List.replicate n false

/-- Bytes of a core's scratchpad as numbers. -/
def scrNats (s : State) (team core a n : Nat) : List Nat := (s.scrBytes team core a n).map (·.toNat)

/-- A scale byte with bit 7 set (R63). -/
def goodScales (xs : List Nat) : Eff Unit :=
  match xs.find? fun x => decide (0x80 ≤ x) with
  | some x => trap 0x93 x
  | none => .ok ()

/-! ### The cairn (R234) -/

/-- Home of a byte of a team's cairn from the home that its page gives: of a CAIRN page the byte lies on the team's own core, in a pair team interleaved over both cores (R234, R332). -/
def cairnPlace (tm : Team) (h : Nat) : Nat :=
  if h < 2 ^ 42 then h
  else if tm.pair then cairnHome tm.col ((tm.core + h / 256 % 2) * 2 ^ 23 + (h % 2 ^ 24 / 512 * 256 + h % 256))
  else cairnHome tm.col (tm.core * 2 ^ 23 + h % 2 ^ 23)

/-- Home of the byte at a cairn offset of a team (R234, R309). -/
def cairnAt (s : State) (t : Nat) (c : CairnMap) (o : Nat) : Nat :=
  let x := c.base + o
  cairnPlace (s.team t) (((c.pages.find? fun p => p.1 = x / 65536).map (·.2)).getD 0 + x % 65536)

def cairnBaseOf (s : State) : Nat := segBase (s.seg 3)

/-- The 64 KiB pages that a span of cairn offsets touches. -/
def cairnSpan (s : State) (x : Nat × Nat) : List Nat :=
  let a := (s.cairnBaseOf + x.1) / 65536
  (List.range ((s.cairnBaseOf + x.1 + x.2 - 1) / 65536 - a + 1)).map (a + ·)

/-- Translates the spans of cairn offsets of an instruction, page by page (R309): `R` for what it reads and `W` for what it writes. -/
def cairnPages (s : State) (kind : Nat) (spans : List (Nat × Nat)) : Eff CairnMap := do
  let ps ← ((spans.flatMap s.cairnSpan).foldl setPut []).mapM fun p => do
    let h ← s.translate (p * 65536) kind none 0
    .ok (p, h)
  .ok ⟨s.cairnBaseOf, ps⟩

/-- The check of an extent of `n` bytes at a cairn offset (R234). -/
def cairnOk (s : State) (o : Word) (n align : Nat) : Eff Unit :=
  if o.toNat % align ≠ 0 || segLimit (s.seg 3) < o.toNat + n then trap 0x94 o.toNat else .ok ()

/-! ### The matrix queue (R235) -/

/-- An instruction of the issuing group as the queue takes it. -/
def mxOp (s : State) (c : CairnMap) (k : MxKind) : MxOp :=
  { col := s.myCol, core := (s.team s.myTeam).core, team := s.myTeam, grp := s.curGrp, cmap := c, kind := k }

/-- Accepts an instruction into the matrix queue. -/
def mxAccept (s : State) (c : CairnMap) (k : MxKind) : State := s.place (.mx (s.mxOp c k))

/-- Something of a matrix queue. -/
def inQueue (col core : Nat) (i : Item) : Bool :=
  match i with
  | .mx m => m.col = col && m.core = core
  | _ => false

/-- A row of an `mx.epi` of a queue that has not been performed: the instruction has not completed. -/
def queueRow (s : State) (col core : Nat) (i : Item) : Bool :=
  match i with
  | .row r => r.col = col && (s.team r.team).core = core
  | .remote r => (match r.why with
    | .row _ g _ _ => r.col = col && (s.team (s.grp g).team).core = core
    | _ => false)
  | _ => false

/-- An instruction is the next of its queue to be performed: the earlier ones have completed (R235, R265). -/
def mxHead (s : State) (id : Nat) (m : MxOp) : Bool := !s.earlier id (inQueue m.col m.core) && !s.flight.any fun f => s.queueRow m.col m.core f.item

/-- The residency record as the instructions accepted so far have updated it (R226, R233). -/
def residentNow (s : State) (col core : Nat) : Option Residency :=
  s.flight.foldl (fun r f => match f.item with
    | .mx m => if m.col = col && m.core = core then (match m.kind with
      | .ldb x _ => some x
      | _ => r) else r
    | _ => r) (s.core col core).resident

/-! ### Gangs (R227–R229) -/

def gangPair (g : Group) : Bool := bv g.image.gang 32 1 = 1

/-- Members of a gang value, ascending. -/
def gangMembers (v : Word) : List Nat := (List.range 32).filter fun i => v.getLsbD i

/-- The core whose latch a group uses: the lower core of its pair for a PAIR gang, else its own (R228). -/
def latchCore (s : State) (g : Group) : Nat := if gangPair g then (s.team g.team).core else g.core

/-- The group has an `mx.mm` at a latch. -/
def atLatch (s : State) (g : Group) : Bool :=
  (s.core g.col g.core).latches.any (fun a => a.grp = g.id) || (s.core g.col (s.team g.team).core).latches.any fun a => a.grp = g.id

/-- A value of `mx.gang` that is refused (R227). -/
def gangBad (s : State) (v : Word) : Bool :=
  let g := s.me
  let ms := gangMembers v
  let pair := v.getLsbD 32
  let here := fun (i : Nat) => (s.teamGroups g.team).find? fun x => x.gid = i
  bv v 33 31 != 0 ||
  (v != 0 && (ms.length = 1 || decide (6 < ms.length) || !ms.contains g.gid || ms.any (fun i => (here i).isNone) ||
    (!pair && ms.any fun i => ((here i).map fun x => decide (x.core ≠ g.core)).getD false) || (pair && !(s.team g.team).pair)))

/-- The head arrival of each member at a latch, ascending in `sr.gid`, if every member has one. -/
def latchHeads (s : State) (col core team : Nat) (v : Word) : Option (List Arrival) :=
  let mine := (s.core col core).latches.filter fun a => a.team = team && a.gang = v
  (gangMembers v).mapM fun i => mine.find? fun a => (s.grp a.grp).gid = i

/-- The joint operation of arrivals (R228, R233). -/
def jointOf (s : State) (as : List Arrival) : Option MxKind :=
  as.head?.map fun a => .joint a.block (as.map fun x => ⟨x.grp, (s.grp x.grp).gid, x.cairn, x.cmap, x.src⟩)

/-- Sets what a slot of a group has come to. -/
def progOf (s : State) (g : Nat) (b : Bool) (p : Prog) : State := s.modImage g fun im => im.modSlot b fun x => { x with prog := p }

/-- The cause that an arrival traps with: it leaves the latch (R228, R229). -/
def latchTrap (s : State) (a : Arrival) (cause : Nat) : State :=
  let s := s.progOf a.grp a.slot .start
  s.raise ⟨a.grp, a.slot, cause, a.gang.toNat, none, 0, a.lanes, a.insn, a.pc, false, false⟩

/-- Takes arrivals out of a latch. -/
def leaveLatch (s : State) (col core : Nat) (as : List Arrival) : State :=
  s.modCore col core fun k => { k with latches := k.latches.filter fun a => !as.contains a }

/-- An `mx.mm` arrives (R228): a gang of one is accepted at once; the last member opens the latch, or every head traps. -/
def arriveAt (s : State) (a : Arrival) : Eff State :=
  let g := s.me
  if a.gang = 0 then
    match s.jointOf [a] with
    | some k => .ok (s.mxAccept a.cmap k)
    | none => .ok s
  else
    let core := s.latchCore g
    let s := s.modCore g.col core fun k => { k with latches := k.latches ++ [a] }
    let waits := (s.setProg .latched).awaits .latch
    match s.latchHeads g.col core g.team a.gang with
    | none => hold waits
    | some as =>
      if as.any fun x => x.block ≠ a.block then
        let s := s.leaveLatch g.col core as
        let s := (as.filter (· ≠ a)).foldl (fun s x => s.latchTrap x 0x90) s
        if as.contains a then .error (.trapIn s { Trap.of 0x90 a.gang.toNat with lane := 0 }) else hold ((s.setProg .latched).awaits .latch)
      else
        let s := s.leaveLatch g.col core as
        match s.jointOf as with
        | none => hold waits
        | some k =>
          let s := s.mxAccept a.cmap k
          let s := (as.filter (· ≠ a)).foldl (fun s x => s.progOf x.grp x.slot .accepted) s
          if as.contains a then .ok s else hold (((s.setProg .latched).awaits .latch).changed)

end State

/-! ### `mx.gang` -/

/-- `mx.gang` (R227). -/
def execMxGang (a : Reg) (s : State) : Out' :=
  s.issue (.mxGang a) (.core false [.sa a] .none) fun t =>
    let v := t.sval a.toNat
    if t.atLatch t.me then hold (t.awaits .unlatch)
    else if t.gangBad v then trap 0x90 v.toNat
    else .ok (t.modMe fun g => { g with image := { g.image with gang := v } })

/-! ### `mx.ldb` -/

/-- The lines of a sparse B, checked (R225): their bytes. -/
def sparseLines (s : State) (b : BitVec 256) (a total : Nat) : Eff (List (List Byte)) :=
  let tag := sparseTag (fbB b)
  let per := (sparseShape tag).2.2
  let n := (total + per - 1) / per
  let lines := (List.range n).map fun i => s.scrBytes s.myTeam s.myCore (a + 128 * i) 128
  match lines.zipIdx.find? fun l => sparseBad tag (if l.2 + 1 = n then total - per * (n - 1) else per) l.1 with
  | some l => trap 0x95 l.2
  | none => .ok lines

/-- The values of the `n` lines of a sparse B: code, position in its group of four, and whether its line is poisoned. -/
def sparseValues (s : State) (team core : Nat) (b : BitVec 256) (a n : Nat) : List (Nat × Nat × Bool) :=
  let sh := sparseShape (sparseTag (fbB b))
  let w := codeBits (fbB b)
  (List.range n).flatMap fun i =>
    let x := leNat (s.scrBytes team core (a + 128 * i) 128)
    let bad := s.scrPoisoned team core (a + 128 * i) 128
    (List.range (bitsOf x 8 8)).map fun j => (bitsOf x (8 * sh.1 + w * j) w, sparsePos x j, bad)

/-- Kept values of a sparse B, and the lines that hold them. -/
def sparseTotal (b : BitVec 256) (klog : Nat) : Nat := klog / 2 * fbCols b

def sparseCount (b : BitVec 256) (klog : Nat) : Nat :=
  let per := (sparseShape (sparseTag (fbB b))).2.2
  (sparseTotal b klog + per - 1) / per

/-- Scale bytes of B. -/
def bScaleCount (b : BitVec 256) (klog : Nat) : Nat := if isScaled (fbB b) then klog / fbLen b * fbCols b else 0

/-- The scale bytes of B, checked (R224, R226): their address. -/
def bScales (s : State) (b : BitVec 256) (klog : Nat) : Eff Nat :=
  if isScaled (fbB b) then do
    let as ← s.scrSpans (fbBscale b) 1 [(ptrOff (fbBscale b), bScaleCount b klog)]
    let a := as.headD 0
    State.goodScales (s.scrNats s.myTeam s.myCore a (bScaleCount b klog))
    .ok a
  else .ok 0

/-- B as it is read from the scratchpad, with the poison of each element (R224–R226, R245): `r` is the record it takes. -/
def loadB (s : State) (r : Residency) (b : BSource) : Residency :=
  let fb := b.block
  let klog := kLog r.arr r.sparse
  let nb := r.ncols
  let scales := s.scrNats r.team b.core b.scales (bScaleCount fb klog)
  let badScale := if isScaled (fbB fb) then s.elemPoison r.team b.core b.scales 8 (bScaleCount fb klog) else []
  if r.sparse then
    let vs := (sparseValues s r.team b.core fb b.at_ (sparseCount fb klog)).zipIdx
    let kOf := fun (y : (Nat × Nat × Bool) × Nat) => 4 * (y.2 / (2 * nb)) + y.1.2.1
    let bad := fun (y : (Nat × Nat × Bool) × Nat) => y.1.2.2 || badScale.getD (kOf y / r.blen * nb + y.2 / 2 % nb) false
    { r with codes := vs.map fun y => y.1.1, kept := vs.map kOf, scales := scales, poison := vs.map bad }
  else
    let w := codeBits (fbB fb)
    let n := klog * nb
    let bad := s.elemPoison r.team b.core b.at_ w n
    { r with
      codes := codesOf w (n / 8) (s.scrBytes r.team b.core b.at_ (n * w / 8))
      scales := scales
      poison := (if badScale.any id then bad.zipIdx.map fun y => y.1 || badScale.getD (y.2 / nb / r.blen * nb + y.2 % nb) false else bad) }

/-- `mx.ldb` (R222–R226): its checks; B itself is read when the queue performs it (R235, R265). -/
def execMxLdb (a b : Reg) (r : BitVec 2) (s : State) : Out' :=
  s.issue (.mxLdb a b r) (.core false [.sa a, .sb b] .none) fun t => do
    let p := t.sval a.toNat
    let pair := State.gangPair t.me
    let x ← t.scrObject (t.sval b.toNat) 32 32
    let fb := BitVec.ofNat 256 x
    match fbBad fb (some (nEff (fbB fb) r.toNat pair / 64)) with
    | some n => trap 0x92 n
    | none =>
      let _ ← t.readBook (fbA fb) (fbCba fb)
      let book ← t.readBook (fbB fb) (fbCbb fb)
      let klog := kLog r.toNat (fbSparse fb)
      let bytes := if fbSparse fb then sparseCount fb klog * 128 else klog * fbCols fb * codeBits (fbB fb) / 8
      let as ← t.scrSpans p (if fbSparse fb then 128 else 8) [(ptrOff p, bytes)]
      let sc ← bScales t fb klog
      let _ ← if fbSparse fb then sparseLines t fb (as.headD 0) (sparseTotal fb klog) else .ok []
      let rec_ : Residency := ⟨t.myTeam, pair, r.toNat, fbB fb, fbLen fb, fbSparse fb, fbCols fb, [], [], [], [], book⟩
      .ok (t.mxAccept ⟨0, []⟩ (.ldb rec_ ⟨t.myCore, fb, as.headD 0, sc⟩))

/-! ### `mx.mm` -/

/-- The record matches what a product asks for (R233 step 2). -/
def recordFits (team : Nat) (pair : Bool) (fb : BitVec 256) (r : Residency) : Bool :=
  r.team = team && r.bfmt = fbB fb && r.blen = fbLen fb && r.sparse = fbSparse fb && r.pair = pair

/-- Checks a member's rows of A and their scales (R224, R233 step 4): where they lie. -/
def readA (s : State) (fb : BitVec 256) (p : Word) (klog : Nat) (book : List Nat) : Eff ASource := do
  let rows := fbRows fb
  let size := klog * codeBits (fbA fb) / 8
  let as ← s.scrSpans p 8 ((List.range rows).map fun r => (ptrOff p + r * size, size))
  if isScaled (fbA fb) then
    let per := klog / fbLen fb
    let o := ptrOff p + 16 * fbAsoff fb
    let ss ← s.scrSpans p 1 ((List.range rows).map fun r => (o + r * per, per))
    State.goodScales (ss.flatMap fun x => s.scrNats s.myTeam s.myCore x per)
    .ok ⟨s.myCore, as, ss, klog, book⟩
  else .ok ⟨s.myCore, as, [], klog, book⟩

/-- A member's A as it is read from the scratchpad, with the poison of each element (R224, R233, R245). -/
def dataA (s : State) (team : Nat) (fb : BitVec 256) (x : ASource) : AData :=
  let w := codeBits (fbA fb)
  let bad := x.rows.flatMap fun a => s.elemPoison team x.core a w x.klog
  let per := x.klog / fbLen fb
  let sb := x.scales.flatMap fun a => s.elemPoison team x.core a 8 per
  { codes := x.rows.flatMap fun a => codesOf w (x.klog / 8) (s.scrBytes team x.core a (x.klog * w / 8))
    poison := (if sb.any id then bad.zipIdx.map fun y => y.1 || sb.getD (y.2 / fbLen fb) false else bad)
    scales := x.scales.flatMap fun a => s.scrNats team x.core a per
    codebook := x.book }

/-- `mx.mm` (R228, R233). -/
def execMxMm (d a b : Reg) (s : State) : Out' :=
  s.issue (.mxMm d a b) (.core false [.sdc d, .sa a, .sb b] .none) fun t =>
    match t.prog with
    | .latched => hold (t.awaits .latch)
    | .accepted => .ok t
    | _ => do
      let g := t.me
      let x ← t.scrObject (t.sval b.toNat) 32 32
      let fb := BitVec.ofNat 256 x
      match fbBad fb none with
      | some n => trap 0x92 n
      | none =>
        let book ← t.readBook (fbA fb) (fbCba fb)
        let _ ← t.readBook (fbB fb) (fbCbb fb)
        match t.residentNow t.myCol (t.team t.myTeam).core with
        | none => trap 0x92 0x100
        | some r =>
          if !recordFits t.myTeam (State.gangPair g) fb r then trap 0x92 0x100
          else
            let o := t.sval d.toNat
            let n := 4 * fbRows fb * nEff r.bfmt r.arr r.pair
            t.cairnOk o n 64
            let cm ← t.cairnPages 2 [(o.toNat, n)]
            let src ← readA t fb (t.sval a.toNat) (kLog r.arr r.sparse) book
            t.arriveAt ⟨g.id, t.curSlot, g.image.gang, g.team, fb, src, o.toNat, cm, t.cycles, t.herePc, insnWord (.mxMm d a b), t.slotMask⟩

/-! ### The other instructions of the queue -/

/-- `mx.zero` (R236). -/
def execMxZero (d : Reg) (s : State) : Out' :=
  s.issue (.mxZero d) (.core false [.sdc d] .none) fun t => do
    t.cairnOk (t.sval d.toNat) 4096 64
    let cm ← t.cairnPages 1 [((t.sval d.toNat).toNat, 4096)]
    .ok (t.mxAccept cm (.zero (t.sval d.toNat).toNat))

/-- The check of `mx.acv` and `mx.vac`: the words of the active lanes (R237). -/
def laneWords (s : State) (o : Word) : Eff Unit :=
  match s.lanes.getLast? with
  | none => .ok ()
  | some l => s.cairnOk o (8 * l + 8) 8

/-- `mx.acv` (R237). -/
def execMxAcv (d a : Reg) (s : State) : Out' :=
  s.issue (.mxAcv d a) (.core true [.vd d, .sa a] .pending) fun t => do
    laneWords t (t.sval a.toNat)
    if t.lanes.isEmpty then .ok t
    else
      let cm ← t.cairnPages 0 (t.lanes.map fun l => ((t.sval a.toNat).toNat + 8 * l, 8))
      .ok ((t.emptyV d.toNat).mxAccept cm (.acv (t.sval a.toNat).toNat (t.destV d.toNat) t.lanes (t.strikeOf (.mxAcv d a))))

/-- `mx.vac` (R238). -/
def execMxVac (d a : Reg) (s : State) : Out' :=
  s.issue (.mxVac d a) (.core true [.sdc d, .va a .active] .none) fun t => do
    t.needs (fun e => e = 4 || e = 5 || e = 10) false
    laneWords t (t.sval d.toNat)
    if t.lanes.isEmpty then .ok t
    else
      let cm ← t.cairnPages 2 (t.lanes.map fun l => ((t.sval d.toNat).toNat + 8 * l, 8))
      .ok (t.mxAccept cm (.vac (t.sval d.toNat).toNat (t.lanes.map fun l => (l, t.vlane a.toNat l)) t.etype t.sat))

/-! ### `mx.csum` (Table 12-7) -/

def tileRows (x : Word) : Nat := bv x 0 16
def tileCols (x : Word) : Nat := bv x 16 16
def tileStride (x : Word) : Nat := bv x 32 16
def tileInt (x : Word) : Bool := bvBit x 48

/-- The lowest offending field of a tile descriptor (R239). -/
def tileBad (x : Word) : Option Nat :=
  let tests : List (Nat × Bool) := [
    (0, tileRows x = 0 || decide (4096 < tileRows x)), (16, tileCols x = 0 || decide (4096 < tileCols x)),
    (32, decide (tileStride x < tileCols x)), (49, bv x 49 15 != 0)]
  (tests.find? fun t => t.2).map (·.1)

/-- `mx.csum` (R239). -/
def execMxCsum (d a b : Reg) (s : State) : Out' :=
  s.issue (.mxCsum d a b) (.core false [.iAt 0 d, .sa a, .sb b] .none) fun t =>
    let x := t.sval b.toNat
    if t.foldPending t.curGrp d.toNat t.nextId then hold (t.awaits (.fold d.toNat t.nextId))
    else match tileBad x with
    | some n => trap 0x92 n
    | none => do
      t.cairnOk (t.sval a.toNat) (4 * ((tileRows x - 1) * tileStride x + tileCols x)) 64
      let cm ← t.cairnPages 0 ((List.range (tileRows x)).map fun r => ((t.sval a.toNat).toNat + 4 * r * tileStride x, 4 * tileCols x))
      .ok (t.mxAccept cm (.csum (t.sval a.toNat).toNat x d.toNat))

/-! ### Performing -/

/-- The head of a matrix queue with its number, if the event names it. -/
def State.mxAt (s : State) (id : Nat) : Option MxOp :=
  match s.item id with
  | some (.mx m) => if s.mxHead id m then some m else none
  | _ => none

/-- The B of an `mx.ldb` is read and takes the macros (R226). -/
def execMxLdbPerform (id : Nat) (s : State) : Out' :=
  match s.mxAt id with
  | some m => match m.kind with
    | .ldb r b => .next (((s.drop id).modCore m.col m.core fun k => { k with resident := some (loadB s r b) }).changed)
    | _ => notPending
  | none => notPending

/-- The columns of a resident B: elements by logical k with their poison, scales block by block. -/
def columnOf (r : Residency) (codes : Array Nat) (bad : Array Bool) (kept : Array Nat) (n : Nat) : List (Nat × Nat × Bool) :=
  let klog := kLog r.arr r.sparse
  if r.sparse then
    (List.range (klog / 4)).flatMap fun g => [0, 1].map fun j =>
      let i := 2 * (g * r.ncols + n) + j
      (kept.getD i 0, codes.getD i 0, bad.getD i false)
  else (List.range klog).map fun k => (k, codes.getD (k * r.ncols + n) 0, bad.getD (k * r.ncols + n) false)

/-- A column of B as K-blocks, its kept places, and whether a cell is poisoned. -/
structure BCol where
  blocks : List MBlock
  ks : List Nat
  bad : Bool

def bColumns (r : Residency) : List BCol :=
  let codes := r.codes.toArray
  let bad := r.poison.toArray
  let kept := r.kept.toArray
  let scales := r.scales.toArray
  let klog := kLog r.arr r.sparse
  let zero : BCol := ⟨zeroBlocks r.blen klog r.sparse, [], false⟩
  (List.range (nEff r.bfmt r.arr r.pair)).map fun n =>
    if n < r.ncols then
      let es := columnOf r codes bad kept n
      let sc := (List.range (klog / r.blen)).map fun b => scales.getD (b * r.ncols + n) 0
      ⟨colBlocks r.bfmt r.blen klog r.codebook (es.map fun e => (e.1, e.2.1)) sc, es.map (·.1), es.any fun e => e.2.2⟩
    else zero

/-- A poisoned element of a row reaches a column: in a sparse B through a kept place (R245). -/
def reaches (r : Residency) (badRow : List Bool) (c : BCol) : Bool :=
  if r.sparse && !c.ks.isEmpty then c.ks.any fun k => badRow.getD k false else badRow.any id

/-- One row of a member: the words of its N_eff columns (R233). -/
def jointRow (s : State) (team : Nat) (cm : CairnMap) (fb : BitVec 256) (r : Residency) (cols : List BCol) (x : Nat) (row : List ABlock) (badRow : List Bool) : State :=
  let anyBad := badRow.any id
  cols.zipIdx.foldl (fun s c =>
    let h := s.cairnAt team cm (x + 4 * c.2)
    let w := outputWord (fbAcc fb) (256 / r.blen) (s.mem.cairnWord h) row c.1.blocks
    let m := s.mem.putCairn h w
    { s with mem := if c.1.bad || (anyBad && reaches r badRow c.1) then m.markCairn h else m }) s

/-- All rows of a member, ascending (R233). -/
def jointMember (team : Nat) (fb : BitVec 256) (r : Residency) (cols : List BCol) (s : State) (m : Member) : State :=
  let klog := kLog r.arr r.sparse
  let per := klog / r.blen
  let n := nEff r.bfmt r.arr r.pair
  let data := dataA s team fb m.src
  let rows := (runs klog (fbRows fb) data.codes).zip (runs klog (fbRows fb) data.poison)
  rows.zipIdx.foldl (fun s y =>
    let row := rowBlocks (fbA fb) r.blen data.codebook y.1.1 ((data.scales.drop (y.2 * per)).take per)
    jointRow s team m.cmap fb r cols (m.cairn + 4 * y.2 * n) row y.1.2) s

/-- The joint operation of a gang (R233). -/
def execJointOperation (id : Nat) (s : State) : Out' :=
  match s.mxAt id with
  | some m => match m.kind with
    | .joint fb ms =>
      let s := s.drop id
      match (s.core m.col m.core).resident with
      | some r => .next ((ms.foldl (jointMember m.team fb r (bColumns r)) s).changed)
      | none => .next s.changed
    | _ => notPending
  | none => notPending

/-- `mx.zero` clears 4 KiB and their marks (R236, R245). -/
def execMxZeroPerform (id : Nat) (s : State) : Out' :=
  match s.mxAt id with
  | some m => match m.kind with
    | .zero o =>
      let s := s.drop id
      let at_ := fun i => s.cairnAt m.team m.cmap (o + 64 * i)
      let pieces := (List.range 64).map fun i => (at_ i, List.replicate 64 (0 : Byte))
      let gone := fun (h : Nat) => pieces.any fun p => decide (p.1 ≤ h) && decide (h < p.1 + 64)
      let mem := s.mem.store pieces false
      .next ({ s with mem := { mem with cairnPoison := mem.cairnPoison.filter fun h => !gone h } }.changed)
    | _ => notPending
  | none => notPending

/-- The words of a lane (R237). -/
def laneHomes (s : State) (m : MxOp) (o l : Nat) : Nat × Nat := (s.cairnAt m.team m.cmap (o + 8 * l), s.cairnAt m.team m.cmap (o + 8 * l + 4))

/-- `mx.acv` reads its words; they are on their way to the register (R237). -/
def execMxAcvPerform (id : Nat) (s : State) : Out' :=
  match s.mxAt id with
  | some m => match m.kind with
    | .acv o d ls k =>
      let vals := ls.map fun l =>
        let h := laneHomes s m o l
        (⟨l, BitVec.ofNat 64 (s.mem.cairnWord h.1 + s.mem.cairnWord h.2 * 2 ^ 32),
          if s.mem.cairnBad h.1 || s.mem.cairnBad h.2 then some .line else none⟩ : LaneVal)
      .next ((s.setItem id (resultItem d vals k true)).changed)
    | _ => notPending
  | none => notPending

/-- The lowest poisoned word among cairn offsets. -/
def State.badWord (s : State) (m : MxOp) (os : List Nat) : Option Nat :=
  if s.mem.cairnPoison.isEmpty && s.mem.poisoned.isEmpty then none
  else (os.filter fun o => s.mem.cairnBad (s.cairnAt m.team m.cmap (o))).foldl (fun a o => match a with
    | none => some o
    | some x => some (min x o)) none

/-- The queue raises POISON_CONSUMED at the issuing group (R245). -/
def State.cairnPoisoned (s : State) (m : MxOp) (o : Nat) : State := s.asyncCause m.grp 0xB1 (2 ^ 63 + o)

/-- One addition of `mx.vac` (R238). -/
def vacAdd (t : Nat) (sat : Bool) (w x : Nat) : Nat := if t = 10 then fadd f32Mode 0 w x else fit t sat (ival t w + ival t x)

/-- `mx.vac` adds its lanes (R238). -/
def execMxVacPerform (id : Nat) (s : State) : Out' :=
  match s.mxAt id with
  | some m => match m.kind with
    | .vac o ls t sat =>
      let s := s.drop id
      match s.badWord m (ls.flatMap fun l => [o + 8 * l.1, o + 8 * l.1 + 4]) with
      | some b => .next ((s.cairnPoisoned m b).changed)
      | none =>
        let mem := ls.foldl (fun mem l => [0, 1].foldl (fun (mem : Memory) e =>
          let h := s.cairnAt m.team m.cmap (o + 8 * l.1 + 4 * e)
          mem.putCairn h (vacAdd t sat (mem.cairnWord h) (bitsOf l.2.toNat (32 * e) 32))) mem) s.mem
        .next ({ s with mem := mem }.changed)
    | _ => notPending
  | none => notPending

/-- The offsets of a tile, column by column. -/
def tileOffs (o : Nat) (x : Word) : List (List Nat) :=
  (List.range (tileCols x)).map fun j => (List.range (tileRows x)).map fun r => o + 4 * (r * tileStride x + j)

/-- The exact sum of f32 words rounded once to binary64; a NaN, or infinities of both signs, give the default NaN (R239). -/
def columnSum (xs : List Nat) : Nat :=
  match xs.map (unpack .f32 false) with
  | [] => 0
  | v :: vs =>
    if (v :: vs).any FVal.isNan then Fmt.f64.defNan
    else match vs.foldl (fun a w => a.bind fun x => addVal 0 x w) (some v) with
      | none => Fmt.f64.defNan
      | some x => putVal .f64 .rne x

/-- `mx.csum` folds its tile (R239). -/
def execMxCsumPerform (id : Nat) (s : State) : Out' :=
  match s.mxAt id with
  | some m => match m.kind with
    | .csum o x r =>
      let s := s.drop id
      let tile := tileOffs o x
      match s.badWord m tile.flatten with
      | some b => .next ((s.wakeMoves.cairnPoisoned m b).changed)
      | none =>
        let word := fun (c : Nat) => s.mem.cairnWord (s.cairnAt m.team m.cmap (c))
        let fold := fun (i : IReg) =>
          if tileInt x then { i with ipart := tile.flatten.foldl (fun a c => a + BitVec.ofInt 64 (asSigned 32 (word c))) i.ipart }
          else { i with fpart := tile.foldl (fun a c => BitVec.ofNat 64 (fadd ⟨.f64, 0, false, false, false, false⟩ 0 a.toNat (columnSum (c.map word)))) i.fpart }
        .next (((s.modImage m.grp fun im => { im with i := vmod im.i r fold }).wakeMoves).changed)
    | _ => notPending
  | none => notPending

namespace State

/-- An arrival of the group at a matrix latch has waited its `sr.swapwait`: its trap comes before a swap (R229). -/
def gangDue (s : State) (g : Group) (a : Arrival) : Bool :=
  a.grp = g.id && !g.out && g.swapwait ≠ 0 && decide (g.swapwait.toNat ≤ s.cycles - a.at_)

/-- The arrivals that are held at the latches of a group's core and of its team's lower core. -/
def arrivalsNear (s : State) (g : Group) : List Arrival := (s.core g.col g.core).latches ++ (s.core g.col (s.team g.team).core).latches

end State

/-- A held arrival has waited `sr.swapwait` cycles: it traps GANG_TIMEOUT and is withdrawn (R229). -/
def execGangTimeout (grp : Nat) (slot : Bool) (s : State) : Out' :=
  let g := s.grp grp
  match (s.arrivalsNear g).find? fun a => a.grp = grp && a.slot = slot with
  | none => notPending
  | some a =>
    if !s.gangDue g a then notPending
    else .next ((((s.leaveLatch g.col g.core [a]).leaveLatch g.col (s.team g.team).core [a]).latchTrap a 0x91).changed)

end Sys2Proof.Machine
end

