-- ==== Sys2Proof/Machine/Control.lean ====
section
/-! DEFINITION. Meanings of the control family 0x01–0x0B and `setmode` (R125–R133, R138). -/

namespace Sys2Proof.Machine

open Sys2Proof

namespace State

/-- A transfer of control to a CODE offset, with its checks (R125). -/
def goto (s : State) (t : Word) : Eff State :=
  if t.toNat % 4 ≠ 0 then trapCode 0x43 4 t
  else if segLimit (s.seg 4) ≤ t.toNat then trapCode 0x40 4 t
  else .ok (s.setPc t)

/-- The target of a displacement in words from the next instruction (R39); the program counter of `s` has gone on to it. -/
def target (s : State) (x : BitVec 18) : Word := s.pc + BitVec.ofInt 64 (4 * x.toInt)

/-- The link register of the engine (R126). -/
def linkReg (s : State) : Nat := if s.onCore then 63 else 31

/-- `split`, `jarm`, `join`, `exit` of a privileged group (R327). -/
def unprivileged (s : State) : Eff Unit := if s.me.privileged then trap 0x04 else .ok ()

end State

/-- A new context of moving lanes goes into the other slot if that is empty, else onto the stack (R128). -/
def Image.addPath (im : Image) (b : Bool) (p : Path) : Image :=
  if (im.slot (!b)).isNone then im.setSlot (!b) (some p) else { im with stack := p :: im.stack }

def splitBody (k : BitVec 4) (x : BitVec 18) (s : State) : Eff State := do
  s.unprivileged
  let old := s.myPath
  let m := s.kreg k.toNat &&& old.mask
  if m = 0 then .ok s
  else if m = old.mask then s.goto (s.target x)
  else
    let t := s.target x
    let moved ← s.goto t
    if (s.me.image.slot (!s.curSlot)).isSome && decide (32 ≤ s.me.image.stack.length) then trap 0x23
    else
      let new : Path := { Path.blank with pc := moved.pc, mask := m, flags := old.flags }
      .ok ((s.modMyPath fun p => { p with mask := p.mask &&& ~~~m }).modMe fun g => { g with image := g.image.addPath s.curSlot new })

/-- The context is parked at join register `d`. -/
def parkedAt (d : Nat) (p : Path) : Bool := p.parked = some d

/-- `jarm` (R130). -/
def jarmBody (d a : Reg) (s : State) : Eff State := do
  s.unprivileged
  let im := s.me.image
  let live := State.liveMask im
  let m := s.kreg a.toNat &&& live
  let some' := (State.pathsOf im).any (parkedAt d.toNat)
  .ok (s.modMe fun g => { g with image := { g.image with
    j := vmod g.image.j d.toNat fun r => if some' then { r with expected := r.expected ||| m } else ⟨m, 0⟩ } })

/-- `join` (R131). -/
def joinBody (d : Reg) (s : State) : Eff State := do
  s.unprivileged
  let im := s.me.image
  let r := vget ⟨0, 0⟩ im.j d.toNat
  let arrived := r.arrived ||| s.slotMask
  if r.expected &&& ~~~arrived = 0 then
    let out := fun (p : Path) => !parkedAt d.toNat p
    let s := s.modMe fun g => { g with image := { g.image with
      slotA := g.image.slotA.filter out, slotB := g.image.slotB.filter out, stack := g.image.stack.filter out,
      j := vmod g.image.j d.toNat fun _ => ⟨0, 0⟩ } }
    .ok (s.modMyPath fun p => { p with mask := arrived })
  else
    let s := s.modMe fun g => { g with image := { g.image with j := vmod g.image.j d.toNat fun r => { r with arrived := arrived } } }
    .ok (s.modMyPath fun p => { p with parked := some d.toNat, parkStamp := s.issues + 1 })

/-- The context into which those parked at join register `d` merge, where an exit has completed it (R131, R133). -/
def mergedAt (im : Image) (d : Nat) : Option Path :=
  let r := vget ⟨0, 0⟩ im.j d
  if r.expected &&& ~~~r.arrived = 0 then
    (State.lastParked ((State.pathsOf im).filter (parkedAt d))).map fun last =>
      { Path.blank with pc := last.pc, mask := r.arrived, flags := last.flags }
  else none

/-- The contexts parked at a completed join register leave, and its masks are zero (R131). -/
def clearJoin (im : Image) (d : Nat) : Image :=
  let out := fun (p : Path) => !parkedAt d p
  { im with slotA := im.slotA.filter out, slotB := im.slotB.filter out, stack := im.stack.filter out, j := vmod im.j d fun _ => ⟨0, 0⟩ }

/-- Places merged contexts: the first in the emptied slot, the next in the other slot if that is empty, each further one on the stack (R133). -/
def placeMerged (b : Bool) (im : Image) (p : Path) : Image := if (im.slot b).isNone then im.setSlot b (some p) else im.addPath b p

/-- The merges of an exit: every completed register merges before a merged context is placed (R133). -/
def mergeJoins (b : Bool) (im : Image) : Image :=
  let done := [0, 1, 2, 3].filter fun d => (mergedAt im d).isSome
  (done.filterMap (mergedAt im)).foldl (placeMerged b) (done.foldl clearJoin im)

/-- Every group of every team of the launch has exited, and every team has been placed (Table 18-4). -/
def State.allExited (s : State) (l : Nat) : Bool :=
  (s.launch l).placed = (s.launch l).grid && (s.launchGroups l).all fun g => g.st = .exited

/-- A team whose groups have all exited has ended (R133); its cores stay taken until its launch is DONE (R299). The launch drains once every team has. -/
def State.endTeam (s : State) (t : Nat) : State :=
  if (s.teamGroups t).all fun g => g.st = .exited then
    let l := (s.team t).launch
    let s := s.modTeam t fun x => { x with ended := true }
    if s.allExited l then s.modLaunch l fun x => if x.st = .running then { x with st := .draining } else x else s
  else s

/-- `exit` (R133). -/
def exitBody (s : State) : Eff State := do
  s.unprivileged
  let m := s.slotMask
  let b := s.curSlot
  let im := s.me.image.setSlot b none
  let im := { im with j := im.j.map fun r => ⟨r.expected &&& ~~~m, r.arrived &&& ~~~m⟩ }
  let im := mergeJoins b im
  let s := s.modMe fun g => { g with image := im }
  if State.liveMask im = 0 then .ok ((s.modMe State.exitGroup).endTeam s.me.team) else .ok s

/-! ### Meanings -/

/-- `nop`: no effect (R126). -/
def execNop (s : State) : Out' := s.issue .nop (.both [] .none) (fun t => .ok t)

/-- `br` (R126). -/
def execBr (x : BitVec 18) (s : State) : Out' := s.issue (.br x) (.both [] .none) (fun t => t.goto (t.target x))

/-- `bc`: branches if the condition holds in the flags (R49). -/
def execBc (c : BitVec 4) (x : BitVec 18) (s : State) : Out' :=
  s.issue (.bc c x) (.both [] .none) (fun t => if condHolds t.flags c.toNat then t.goto (t.target x) else .ok t)

/-- `bk`: branches if the test of k & S holds (R127). -/
def execBk (t : BitVec 2) (k : BitVec 4) (x : BitVec 18) (s : State) : Out' :=
  s.issue (.bk t k x) (.core false [] .none) (fun u =>
    let m := u.kreg k.toNat &&& u.slotMask
    let yes := if t.toNat = 0 then m = 0 else if t.toNat = 1 then m ≠ 0 else m = u.slotMask
    if yes then u.goto (u.target x) else .ok u)

/-- `call`: the link register takes the next instruction (R126). -/
def execCall (x : BitVec 18) (s : State) : Out' :=
  s.issue (.call x) (.both [⟨.s, 0, s.linkReg, none, true, .no⟩] (.s s.linkReg)) (fun t => (t.goto (t.target x)).map fun u => u.writeS u.linkReg t.pc)

/-- `ret` (R126). -/
def execRet (a : Reg) (s : State) : Out' := s.issue (.ret a) (.both [.sa a] .none) (fun t => t.goto (t.sval a.toNat))

/-- `jmp` (R126). -/
def execJmp (a : Reg) (s : State) : Out' := s.issue (.jmp a) (.both [.sa a] .none) (fun t => t.goto (t.sval a.toNat))

/-- `split` (R128). -/
def execSplit (k : BitVec 4) (x : BitVec 18) (s : State) : Out' := s.issue (.split k x) (.core false [] .none) (splitBody k x)

/-- `jarm` (R130). -/
def execJarm (d a : Reg) (s : State) : Out' := s.issue (.jarm d a) (.core false [.jd d, .kAt 1 a] .none) (jarmBody d a)

/-- `join` (R131). -/
def execJoin (d : Reg) (s : State) : Out' := s.issue (.join d) (.core false [.jd d] .none) (joinBody d)

/-- `exit` (R133). -/
def execExit (s : State) : Out' := s.issue .exit { Form.core false [] .none with leaves := true } exitBody

/-- `setmode` (R47, R138). -/
def execSetmode (i : BitVec 18) (s : State) : Out' :=
  s.issue (.setmode i) (.core false [] .none) (fun t => .ok (t.modMe fun g => { g with image := { g.image with mode := i } }))

end Sys2Proof.Machine
end

