-- ==== Sys2Proof/Machine/Streams.lean ====
section
/-! DEFINITION. Kicks and stream threads (11_streams.md): `stk`, the transition point, the start and the end of a kick, and the stream-class instructions. -/

namespace Sys2Proof.Machine

open Sys2Proof

namespace State

/-! ### Kicking (R190–R193) -/

/-- The entry of a stream program in the table at CODE offset 0, or KICK_BAD_PROGRAM (R191). -/
def programEntry (s : State) (n : Nat) : Eff Word := do
  let code := s.seg 4
  if segLimit code < 4 then trap 0xA1 n
  else
    let h ← s.translate (segBase code) 3 none 0
    if s.mem.nat h 4 ≤ n || decide (segLimit code < 8 + 4 * n) then trap 0xA1 n
    else
      let h ← s.translate (segBase code + 4 + 4 * n) 3 none 0
      let e := s.mem.nat h 4
      if e % 4 ≠ 0 || decide (segLimit code ≤ e) then trap 0xA1 n else .ok (BitVec.ofNat 64 e)

/-- The refusals of a control word (Table 11-2). -/
def kickBad (w : Nat) : Bool :=
  bitsOf w 62 2 != 0 || bitsOf w 60 1 != 0 || bitsOf w 0 16 &&& bitsOf w 16 16 != 0 || bitsOf w 32 16 &&& bitsOf w 16 16 != bitsOf w 32 16 ||
  (bitsOf w 48 12 != 0 && bitsOf w 61 1 = 0)

/-- Entries of a core's kick queue, with the kicks on their way to it (R193 step 4). -/
def kicksHeld (s : State) (col core : Nat) : Nat :=
  (s.core col core).kicks.length + (s.flight.filter fun f => match f.item with
    | .kick k c _ _ _ _ _ => c = col && k.core = core
    | _ => false).length

/-- The kick that `stk` sends to the scratchpad controller; `w` is its control word. -/
def newKick (s : State) (cls : Nat) (ptr entry : Word) (w release : Nat) : Kick :=
  let g := s.me
  { id := s.nextId, ctx := g.ctx, launch := g.launch, team := g.team, grp := g.id, gid := g.gid, tid := g.tid, core := g.core, cls := cls,
    entry := entry, argPtr := ptr, args := [], fill := bitsOf w 0 16, drain := bitsOf w 16 16, keep := bitsOf w 32 16,
    bar := if bitsOf w 61 1 = 1 then some ⟨g.team, s.barCore g.team, segBase (s.seg 0) + 16 * bitsOf w 48 12, 0⟩ else none,
    weight := Launch.weight (s.launch g.launch), seg := g.seg, release := release, stores := g.bufStores }

end State

/-- `stk` (R190, R193): the leader's checks, its release, and the kick on its way to the controller. -/
def execStk (c : BitVec 3) (a : Reg) (p : BitVec 12) (s : State) : Out' :=
  let ptr : Use := if s.lanes.isEmpty then { Use.sa a with slot := none } else .sa a
  s.issue (.stk c a p) (.core true [ptr] .none) fun t =>
    match t.lanes with
    | [] => .ok t
    | lead :: _ => do
      let q := t.sval a.toNat
      t.checkReqs 0 0 128 [⟨lead, 0, q, ptrOff q, 128⟩]
      let w ← t.scrBlock q 128 128
      let entry ← t.programEntry p.toNat
      if State.kickBad (w % 2 ^ 64) then trap 0xA1 p.toNat
      else if Config.kickQueue ≤ t.kicksHeld t.myCol t.myCore then hold (t.awaits .kicks)
      else match t.openRelease 1 with
      | none => hold (t.awaits .phases)
      | some u =>
        let id := u.nextId
        let k := u.newKick c.toNat q entry (w % 2 ^ 64) t.nextId
        .ok ((u.place (.kick k u.myCol u.curSlot u.herePc (insnWord (.stk c a p)) u.active t.me.einj)).mySusp (.arrival id))

namespace State

/-- Numbers below 16 whose bit of a mask is set. -/
def bitsIn (m : Nat) : List Nat := (List.range 16).filter fun b => bitsOf m b 1 = 1

/-- A named buffer whose transition Table 8-2 refuses: its detail word. -/
def kickRefused (s : State) (k : Kick) : Option Nat :=
  let bad (b : Nat) (need : BufState) : Option Nat :=
    let x := s.buf k.team k.core b
    if x.declared && x.st = need then none else some (b + (if x.declared then x.st.code * 256 else 0))
  ((bitsIn k.fill).findSome? fun b => bad b .empty).or ((bitsIn k.drain).findSome? fun b => bad b .full)

/-- What a kick's transition point does to a buffer it fills, and to one it drains (Table 8-2). -/
def fillFrom (k : Kick) (b : Buffer) : Buffer :=
  if b.bits.all id then b.toFull false else { b with st := .filling, kick := some k.id, owner := none, bound := false }

def drainFrom (k : Kick) (b : Buffer) : Buffer := { b with st := .draining, kick := some k.id, owner := none, bound := false }

/-- The barrier index that a kick names. -/
def kickBar (k : Kick) (b : BarBind) : Nat := (b.addr - segBase (vget 0 k.seg 0)) / 16

/-- The cause that step 5 of R193 raises. -/
def kickFault (s : State) (k : Kick) : Option (Nat × Nat) :=
  match (k.bar.bind fun b =>
    if segLimit (vget 0 k.seg 0) < 16 * kickBar k b + 16 then some (0x40, 0)
    else if (s.barRead b.team b.core b.addr).uninit then some (0x83, kickBar k b) else none) with
  | some x => some x
  | none => (s.kickRefused k).map fun d => (0x82, d)

/-- Step 6 of R193: the transitions, the binding, the copy of the argument block, the queue entry, and the seal (R350). -/
def acceptKick (s : State) (k : Kick) (col : Nat) : State :=
  let at_ := segBase (vget 0 k.seg 0) + ptrOff k.argPtr
  let k := { k with
    bar := k.bar.map fun b => s.barBind b.team b.core b.addr
    args := (List.range 16).map fun i => BitVec.ofNat 64 (s.scrNat k.team k.core (at_ + 8 * i) 8) }
  let s := (bitsIn k.fill).foldl (fun s b => s.modBuf k.team k.core b (fillFrom k)) s
  let s := (bitsIn k.drain).foldl (fun s b => s.modBuf k.team k.core b (drainFrom k)) s
  let s := s.modCore col k.core fun c => { c with kicks := c.kicks ++ [k] }
  s.modGroup k.grp fun g => { g with susp := .none, regions := g.regions.map fun r => { r with sealed := true } }

end State

/-- The controller accepts a kick, or it faults and nothing changes (R193 steps 5 and 6, R144, R148). -/
def execTransitionPoint (id : Nat) (s : State) : Out' :=
  match s.item id with
  | some (.kick k col b pc insn lanes einj) =>
    if s.earlier id (State.onItsWay k.grp) then notPending
    else
      let t := (s.drop id).settleAtoms fun q => (q.grp.map (·.1)) = some k.grp || (q.team = k.team && q.core = k.core)
      match t.kickFault k with
      | some (cause, detail) => .next (t.faultAt k.grp b pc einj ⟨k.grp, b, cause, detail, none, 0, lanes, insn, pc, false, false⟩)
      | none => .next ((t.acceptKick k col).changed)
  | _ => notPending

/-! ### The start of a kick (R194–R196) -/

namespace State

/-- Some kick of the stream queue is running, or saved with its thread. -/
def queueBusy (s : State) (col core cls : Nat) : Bool :=
  let runs := fun (h : Thread) => (h.kick.map fun k => k.core = core && k.cls = cls).getD false
  (s.col col).threads.toList.any runs || s.ctxs.any fun c => c.saved.any fun x => x.1 = col && runs x.2

/-- The kick can start (R193, R194, R276). -/
def eligible (s : State) (col core : Nat) (k : Kick) : Bool :=
  !s.queueBusy col core k.cls && ((s.core col core).kicks.find? fun x => x.cls = k.cls).map (·.id) = some k.id &&
  (s.item k.release).isNone && (s.ridgeLaunch k.launch || (s.ctxRuns k.ctx && !s.preempting k.ctx))

/-- A core's candidate: its oldest eligible entry (R196). -/
def candidate (s : State) (col core : Nat) : Option Kick := (s.core col core).kicks.find? (s.eligible col core)

/-- The cores that have a candidate. -/
def candidates (s : State) (col : Nat) : List (Nat × Kick) :=
  (List.range 4).filterMap fun k => (s.candidate col k).map fun x => (k, x)

/-- The largest of the credits after the weights are added; a tie goes to the lower core (R196). -/
def pickKick (s : State) (col : Nat) : List (Nat × Kick) → Option (Int × Nat × Kick)
  | [] => none
  | (c, k) :: r =>
    let mine : Int := (s.core col c).credit + k.weight
    match pickKick s col r with
    | some (n, x) => if mine < n then some (n, x) else some (mine, c, k)
    | none => some (mine, c, k)

/-- The credits after a pick (R196). -/
def settleCredits (s : State) (col picked : Nat) (cs : List (Nat × Kick)) : State :=
  let total : Int := (cs.map fun x => (x.2.weight : Int)).sum
  (List.range 4).foldl (fun s c => s.modCore col c fun k => { k with credit :=
    match (cs.find? fun x => x.1 = c) with
    | some x => k.credit + x.2.weight - (if c = picked then total else 0)
    | none => 0 }) s

/-- The lowest FREE thread. -/
def freeThread (s : State) (col : Nat) : Option Nat := (List.range 16).find? fun t => (s.thread col t).st = .free

/-- The s registers with which a thread starts (R195). -/
def startRegs (k : Kick) : Vector SReg 32 :=
  Vector.ofFn fun r : Fin 32 =>
    let n := r.val
    let x : Word :=
      if 1 ≤ n && n ≤ 15 then k.args.getD n 0
      else if n = 16 then BitVec.ofNat 64 (0xFFFF * 2 ^ 48 + ptrOff k.argPtr)
      else if n = 17 then BitVec.ofNat 64 (k.gid % 256 + k.core % 4 * 256 + k.tid % 65536 * 65536)
      else 0
    ⟨x, true, none⟩

/-- A thread takes a kick (R195). -/
def startThread (k : Kick) (h : Thread) : Thread :=
  { Thread.reset with
    st := .active, s := startRegs k, pc := k.entry, bar := k.bar, bars := k.bar.toList, kick := some k, phase := h.phase
    lastIssue := h.lastIssue, credit := h.credit }

/-- The buffers of a kick become the thread's. -/
def ownBuffers (s : State) (k : Kick) (col t : Nat) : State :=
  (List.range 16).foldl (fun s b => s.modBuf k.team k.core b fun x => if x.kick = some k.id then { x with owner := some (col, t) } else x) s

end State

/-- The streamer of a column picks a kick for a free thread (R196). -/
def execKickStart (col : Nat) (s : State) : Out' :=
  let cs := s.candidates col
  match s.freeThread col, s.pickKick col cs with
  | some t, some (_, c, k) =>
    if s.cols.length ≤ col then notPending
    else
      let s := s.settleCredits col c cs
      let s := s.modCore col c fun x => { x with kicks := x.kicks.filter fun y => y.id ≠ k.id }
      .next (((s.modThread col t (State.startThread k)).ownBuffers k col t).changed)
  | _, _ => notPending

/-! ### The end of a kick (R216) -/

namespace State

/-- A transfer of the thread has not completed. -/
def xfersLeft (s : State) (c t : Nat) : Bool := s.flight.any fun f => xferOf c t f.item

/-- The drain of a buffer completes (Table 8-2). -/
def endDrains (s : State) (k : Kick) : State :=
  (bitsIn k.drain).foldl (fun s b => s.modBuf k.team k.core b fun x =>
    if x.st = .draining && x.kick = some k.id then (if bitsOf k.keep b 1 = 1 then x.toFull false else x.toEmpty false) else x) s

/-- A buffer that the thread fills, or that is bound to it, and that is still FILLING. -/
def stillFilling (s : State) (c t : Nat) : Option Nat :=
  ((s.buffersOf c t).find? fun b => (s.buf b.1 b.2.1 b.2.2).st = .filling).map (·.2.2)

end State

/-- A thread at `texit` whose transfers have completed ends its kick (R216). -/
def execKickEnd (col thr : Nat) (s : State) : Out' :=
  let h := s.thread col thr
  match h.kick with
  | some k =>
    if h.st ≠ .exiting || s.xfersLeft col thr then notPending
    else
      let s := s.settle (State.lateOf col 0 (some thr))
      let s := (s.modThread col thr fun x => { x with regions := [] }).endDrains k
      match s.stillFilling col thr with
      | some b => .next ((s.streamFault col thr 0xA1 b none (h.pc - 4) (insnWord .texit) s.nextId).changed)
      | none => .next ((s.modThread col thr State.Thread.freed).changed)
  | none => notPending

/-- A rollback of a stream region, once the thread's transfers have completed; if one of them has sealed the region by then, REGION_SEALED in its place (R355, Table 21-2). -/
def execStreamRollback (col thr : Nat) (s : State) : Out' :=
  let h := s.thread col thr
  match h.st, h.regions with
  | .rolling cause f, r :: rs =>
    if s.xfersLeft col thr then notPending
    else if r.sealed then .next ((s.streamFault col thr 0xB4 cause f.addr f.pc f.insn s.nextId).changed)
    else
      .next ((s.modThread col thr fun x => { x with
        st := .active
        s := r.s
        flags := r.flags
        pc := r.pc
        recs := r.recs
        bar := r.bar
        regions := { r with retry := r.retry + 1 } :: rs
        rollbacks := min (x.rollbacks + 1) 65535
        lastCause := cause
        prog := .start
        susp := .none
        walkFault := none }).changed)
  | _, _ => notPending

/-! ### Record slots (R206, R207) -/

namespace State

def recSlot (s : State) (n : Nat) : RecSlot := vget RecSlot.invalid s.myThread.recs n

def setRec (s : State) (n : Nat) (x : RecSlot) : State := s.modMyThread fun h => { h with recs := vmod h.recs n fun _ => x }

/-- A record slot that must be valid (R207, R209). -/
def validSlot (s : State) (n : Nat) : Eff RecSlot := if (s.recSlot n).valid then .ok (s.recSlot n) else trap 0xA2 n

/-- The 64 bytes of a layout record, with the checks of R206 and R412, after the thread's own `sst` before it (R187, R254). -/
def readRecord (s : State) (space : Nat) (r : Req) : Eff (BitVec 512) := do
  s.checkReqs space 0 64 [r]
  if space = 0 then
    let x ← s.scrObject (withOff r.ptr r.off) 64 64
    .ok (BitVec.ofNat 512 x)
  else
    let h ← s.translateSpan (segBase (s.seg (segOf space)) + r.off) 64 0 (withOff r.ptr r.off) 0
    let x := s.readAt s.myCol (s.myThr.getD 0) s.nextId h
    if x.2 then trap 0xB1 (r.off + 2 ^ 62) else .ok (BitVec.ofNat 512 (leNat x.1))

end State

/-- `tlrec` (R206, R198). -/
def execTlrec (l : BitVec 3) (a : Reg) (p : BitVec 2) (o : BitVec 10) (s : State) : Out' :=
  s.issue (.tlrec l a p o) (.stream [.sa a]) fun t => do
    let q := t.sval a.toNat
    let b ← t.readRecord p.toNat ⟨0, 0, q, (ptrOff q + 64 * o.toNat) % 2 ^ 48, 64⟩
    if LRec.bad b then trap 0xA0 else .ok (t.setRec l.toNat (LRec.slotOf b))

/-- `taddr` (R207). -/
def execTaddr (d a : Reg) (m l : BitVec 3) (o : BitVec 2) (s : State) : Out' :=
  s.issue (.taddr d a m l o) { Form.stream [.sd d, .sa a] with reserved := decide (5 ≤ m.toNat) } fun t => do
    let w ← t.validSlot l.toNat
    let v := t.sval a.toNat
    if o = 2 && decide (2 ^ 32 ≤ v.toNat) then trap 0xA0
    else
      let w := match o.toNat with
        | 0 => { w with org := vmod w.org m.toNat fun _ => v }
        | 1 => { w with org := vmod w.org m.toNat fun x => x + v }
        | 2 => { w with shp := vmod w.shp m.toNat fun _ => BitVec.ofNat 32 v.toNat }
        | _ => w
      let r := w.lrec
      let c := r.spot (t.ncol t.myCtx) t.myColNum w.origin
      let p := if r.inBounds w.origin then BitVec.ofNat 64 (ptrDev r.base * 2 ^ 54 + c.1 % 64 * 2 ^ 48 + c.2) else 0
      .ok ((t.setRec l.toNat w).writeS d.toNat p)

/-! ### Transfers: issue (R201, R209, R210, R212) -/

namespace State

/-- The element counts match (R209, R210). -/
def countsMatch (kind : XKind) (d r i : RecSlot) : Bool :=
  match kind with
  | .gather n => countOf d.shape = countOf i.shape * countOf (r.shape.set n 1)
  | .scatter n => countOf r.shape = countOf i.shape * countOf (d.shape.set n 1)
  | _ => countOf d.shape = countOf r.shape

/-- The issue check 2 of R209, and that of R212. -/
def layoutBad (kind : XKind) (d r i : RecSlot) : Bool :=
  d.lrec.esize != r.lrec.esize || !countsMatch kind d r i || (match kind with
    | .reduce _ => d.lrec.efmt != r.lrec.efmt || decide (11 < d.lrec.efmt)
    | .gather _ => decide (i.lrec.efmt < 4) || decide (7 < i.lrec.efmt)
    | .scatter _ => decide (i.lrec.efmt < 4) || decide (7 < i.lrec.efmt)
    | .multicast _ => d.lrec.space != 0
    | .copy => false)

/-- The pointer and space checks that the base pointers allow at issue (R26, R201, R218). -/
def baseCheck (s : State) (ws : List RecSlot) (d : RecSlot) : Eff Unit :=
  match (ws.find? fun w => s.ptrBad w.lrec.base) with
  | some w => trapAt 0x46 0 w.lrec.base 0
  | none => if d.lrec.space = 3 then trapAt 0x41 0 d.lrec.base 0 else .ok ()

/-- The outstanding transfers of the issuing thread. -/
def xferCount (s : State) : Nat :=
  match s.cur with
  | .thread c t => (s.flight.filter fun f => xferOf c t f.item).length
  | .slot _ _ => 0

/-- A transfer issues: a ninth waits; the slots, the layout and the pointers are checked; it takes the barrier bound now (R201, R204, R209). The thread's `sst` before it are performed before it. -/
def startXfer (s : State) (i : Instr) (kind : XKind) (d a : Nat) (b : Option Nat) : Eff State := do
  if Config.transfers ≤ s.xferCount then hold s
  else
    let dst ← s.validSlot d
    let src ← s.validSlot a
    let idx ← match b with
      | some n => s.validSlot n
      | none => .ok RecSlot.invalid
    if layoutBad kind dst src idx then trap 0xA0
    else
      s.baseCheck (dst :: src :: (if b.isSome then [idx] else [])) dst
      match s.cur with
      | .thread c t =>
        let h := s.thread c t
        .ok ((s.settle (lateOf c 0 (some t))).place (.xfer
          { col := c, thr := t, kick := (h.kick.map (·.id)).getD 0, pc := s.herePc, insn := insnWord i, kind := kind, dst := dst, src := src,
            idx := idx, bar := h.bar, done := false, granted := [], counted := 0, recv := none, sent := false, got := [], walkOff := 0,
            walkFault := none, waitsOn := [], broken := [] }))
      | .slot _ _ => .ok s

end State

/-- `tcopy` (R209). -/
def execTcopy (d a : BitVec 3) (s : State) : Out' :=
  s.issue (.tcopy d a) (.stream []) fun t => t.startXfer (.tcopy d a) .copy d.toNat a.toNat none

/-- `tgath` (R210). -/
def execTgath (d a b m : BitVec 3) (s : State) : Out' :=
  s.issue (.tgath d a b m) { Form.stream [] with reserved := decide (5 ≤ m.toNat) } fun t =>
    t.startXfer (.tgath d a b m) (.gather m.toNat) d.toNat a.toNat (some b.toNat)

/-- `tscat` (R210). -/
def execTscat (d a b m : BitVec 3) (s : State) : Out' :=
  s.issue (.tscat d a b m) { Form.stream [] with reserved := decide (5 ≤ m.toNat) } fun t =>
    t.startXfer (.tscat d a b m) (.scatter m.toNat) d.toNat a.toNat (some b.toNat)

/-- `tred` (R211). -/
def execTred (d a : BitVec 3) (o : BitVec 2) (s : State) : Out' :=
  s.issue (.tred d a o) { Form.stream [] with reserved := decide (o = 3) } fun t => t.startXfer (.tred d a o) (.reduce o.toNat) d.toNat a.toNat none

/-- `tmcast` (R212). -/
def execTmcast (d a : BitVec 3) (b : Reg) (s : State) : Out' :=
  s.issue (.tmcast d a b) (.stream [.sb b]) fun t => t.startXfer (.tmcast d a b) (.multicast (t.sval b.toNat)) d.toNat a.toNat none

/-! ### Barriers, loops, the end (R214–R216) -/

/-- `tarr` with a barrier (R214). -/
def execTarr (i : BitVec 12) (s : State) : Out' :=
  s.issue (.tarr i) (.stream []) fun t => do
    let x ← t.barAddr i
    let c := t.barCore t.myTeam
    if (t.barRead t.myTeam c x).uninit then trap 0x83 i.toNat
    else
      let b := t.barBind t.myTeam c x
      .ok (t.modMyThread fun h => { h with bar := some b, bars := if h.bars.contains b then h.bars else h.bars ++ [b] })

/-- `tarr none` (R214). -/
def execTarrNone (s : State) : Out' := s.issue .tarrNone (.stream []) fun t => .ok (t.modMyThread fun h => { h with bar := none })

/-- `twait` on a barrier (R214, R172). -/
def execTwait (p : BitVec 1) (i : BitVec 12) (s : State) : Out' :=
  s.issue (.twait p i) (.stream []) fun t => do
    let x ← t.barAddr i
    match t.prog with
    | .released bound _ => t.acquireFrom bound false
    | _ =>
      let b := t.barRead t.myTeam (t.barCore t.myTeam) x
      if b.uninit then trap 0x83 i.toNat
      else if b.st = 3 then trap 0x84 (i.toNat + b.errf * 2 ^ 16)
      else if b.parity ≠ p.toNat then t.acquireFrom t.nextId false
      else hold t

/-- `twait drain` (R214). -/
def execTwaitDrain (s : State) : Out' := s.issue .twaitDrain (.stream []) fun t => if t.xferCount = 0 then .ok t else hold t

/-- `tloop` (R215). -/
def execTloop (c : Reg) (x : BitVec 18) (s : State) : Out' :=
  s.issue (.tloop c x) { Form.stream [⟨.s, 3, c.toNat, some 2, true, .no⟩] with reserved := decide (c = 0) } fun t => do
    let n := t.sval c.toNat - 1
    let u ← if n = 0 then .ok t else t.goto (t.target x)
    .ok (u.writeS c.toNat n)

/-- `texit`: the thread holds until its transfers have completed (R216). -/
def execTexit (s : State) : Out' := s.issue .texit (.stream []) fun t => .ok (t.modMyThread fun h => { h with st := .exiting })

end Sys2Proof.Machine
end

