-- ==== Sys2Proof/Machine/Waiting.lean ====
section
/-! DEFINITION. What a group waits for: whether an awaited event has occurred, and whether the wait is long enough for a swap (R122, R124, R229). -/

namespace Sys2Proof.Machine

open Sys2Proof

namespace State

/-- What the next instruction of a slot of a group waits for has come about (R124). -/
def occurred (s : State) (g : Group) (b : Bool) (p : Path) : Bool :=
  let t := s.team g.team
  let u : State := { s with cur := .slot g.id b }
  match p.await with
  | .none => true
  | .regs vs ss => vs.any (fun r => (vget VReg.zero g.image.v r).full) || ss.any fun r => (vget SReg.zero g.image.s r).full
  | .loads n => !u.loadsPending n
  | .phases => decide (u.phases.opened.length < 3)
  | .release id => (s.item id).isNone
  | .fence m n => !u.fencePending m n
  | .barrier core a par =>
    let x := s.barRead g.team core a
    x.uninit || x.st = 3 || x.parity ≠ par
  | .kicks => decide (s.kicksHeld g.col g.core < Config.kickQueue)
  | .slot y ch => (s.grantedSlot y ch (2 * g.id + bit b)).isSome
  | .message ch => let c := t.chans.getD ch noChannel
    c.slots[c.nextClaim]? = some .full
  | .latch => p.prog ≠ .latched
  | .unlatch => !u.atLatch g
  | .fold r n => !s.foldPending g.id r n
  | .lines a n => !(s.bufHolds g.team g.core a n || u.scrComing a n)
  | .keys => decide ((s.col g.col).keys.length < Config.keys)
  | .homes ps => !s.clash g.col g.core none s.nextId false ps

/-- An event that a group awaits has occurred, or a cause waits for its next boundary: nothing suspends its fetch, and a RUNNING context of its slots has what it waited for (R124, R334). -/
def groupGoesOn (s : State) (g : Group) : Bool :=
  g.st = .active && (g.susp = .none || (g.susp = .full && (freeSlot (s.col g.col).walks).isSome)) &&
  (!g.async.isEmpty || [false, true].any fun b => (g.image.slot b).any fun p => isRunning p && s.occurred g b p)

/-- A group of the team awaits something that has occurred. -/
def mayGoOn (s : State) (t : Team) : Bool := (s.teamGroups t.id).any s.groupGoesOn

/-- A group stands in WAITING or FAULT-WAIT: an exact-stop suspension but that of an `xperm` holds it, or every slot that could issue has been found to wait (R122). -/
def groupWaits (s : State) (g : Group) : Bool :=
  g.st = .active && !g.privileged && !g.halted && !g.out && g.susp ≠ .perm && (g.susp ≠ .none || s.allHeld g.id)

/-- A group has waited its `sr.swapwait` without a break (R124). -/
def waitedOut (s : State) (g : Group) : Bool :=
  g.st = .exited ||
  (s.groupWaits g && g.swapwait ≠ 0 && (g.waitFrom.any fun w => decide (w + g.swapwait.toNat ≤ s.cycles)) && !(s.arrivalsNear g).any (s.gangDue g))

end State

end Sys2Proof.Machine
end

