-- ==== Sys2Proof/Machine/Launches.lean ====
section
/-! DEFINITION. Launches (18_kernels.md): admission with its checks and tables, placement, completion, and the swap of teams (R124, R149). -/

namespace Sys2Proof.Machine

open Sys2Proof

/-! ### Fields of the launch record (Table 18-1) -/

namespace Launch

def bufTab (l : Launch) : Word := BitVec.ofNat 64 (bv l.record 128 64)
def chanTab (l : Launch) : Word := BitVec.ofNat 64 (bv l.record 192 64)
def xchTab (l : Launch) : Word := BitVec.ofNat 64 (bv l.record 256 64)
def gridPtr (l : Launch) : Word := BitVec.ofNat 64 (bv l.record 320 64)
def argSeg (l : Launch) : Word := BitVec.ofNat 64 (bv l.record 64 64)
def colMask (l : Launch) : Nat := bv l.record 704 32
def nTeams (l : Launch) : Nat := bitsOf l.shape 32 16
/-- A dependence entry (Table 18-3). -/
def dep (l : Launch) (i : Nat) : Nat := bv l.record (384 + 64 * i) 64
def deps (l : Launch) : List Nat := ((List.range 4).map l.dep).filter fun d => bitsOf d 63 1 = 1

/-- The record's reserved bits (Tables 18-1 to 18-3). -/
def reservedSet (l : Launch) : Bool :=
  bv l.record 832 192 != 0 || bv l.record 736 32 != 0 || bitsOf l.shape 55 3 != 0 || bitsOf l.shape 48 3 != 0 || bitsOf l.shape 31 1 != 0 ||
  bitsOf l.shape 23 1 != 0 || bitsOf l.shape 2 6 != 0 || (List.range 4).any fun i => bitsOf (l.dep i) 40 23 != 0

/-- Cairn bytes on each core of a team (R301). -/
def cairnEach (l : Launch) : Nat := if l.pairs then (l.cairnb + 1) / 2 else l.cairnb

end Launch

namespace State

/-! ### The end of a launch that did not run -/

/-- A launch ends with a status and its queue goes on (R286, R298). -/
def endLaunch (s : State) (l : Launch) (st : LState) (status detail : Nat) : State :=
  let s := (s.modLaunch l.id fun x => { x with st := st }).writeStatus l.queue l.ticket status detail
  let s := if status = 7 then s.errQueue l.queue l.ticket 7 else s
  s.settleQueue l.queue

def launchError (s : State) (l : Launch) (reason : Nat) : State := s.endLaunch l .error 7 reason

/-! ### Dependences (R287, R297) -/

/-- What a dependence has come to: not final, met, or ended FAILED, FLUSHED or LAUNCH_ERROR. -/
inductive DepState where
  | waits
  | met
  | failed
  deriving DecidableEq, Repr

def depState (s : State) (d : Nat) : DepState :=
  let q := bitsOf d 32 8
  let t := bitsOf d 0 32
  let w := s.mem.nat (s.statAddr q t) 8
  let later := (bitsOf w 32 32 + 2 ^ 32 - t) % 2 ^ 32
  let st := bitsOf w 0 8
  if later = 0 then (if st = 3 || st = 6 then .met else if st = 4 || st = 5 || st = 7 then .failed else .waits)
  else if later ≤ 2 ^ 31 then .met else .waits

/-! ### What the engine reads in the launch's context (R293, R295) -/

/-- A read of the queue engine through a column's page table. -/
inductive EngineRead where
  | bytes (l : List Byte)
  | fault
  /-- a page-table entry was struck (R354) -/
  | struck
  deriving DecidableEq, Repr

/-- One byte at an offset of a column's virtual space. -/
def engineByte (s : State) (ctx col off : Nat) : EngineRead :=
  match walkTable s ctx col off with
  | .struck => .struck
  | .absent _ _ _ _ => .fault
  | .leaf e l _ =>
    let h := leafHome col e (levelShift l) off
    if (leafRefuses e 0).isSome || s.mem.isPoisoned h then .fault else .bytes [s.mem.byte h]

/-- `n` bytes at an offset; the first that fails decides. -/
def engineBytes (s : State) (ctx col off : Nat) : Nat → EngineRead
  | 0 => .bytes []
  | n + 1 => match s.engineByte ctx col (off % 2 ^ 48) with
    | .bytes b => match s.engineBytes ctx col (off + 1) n with
      | .bytes bs => .bytes (b ++ bs)
      | x => x
    | x => x

/-- `n` bytes at a pointer of the launch record, as the distributor reads it in a column (R293). -/
def enginePtr (s : State) (ctx col : Nat) (p : Word) (n : Nat) : EngineRead :=
  if (ptrDev p ≠ 0x3FF && ptrDev p ≠ s.dev) || (ptrCol p ≠ 0x3F && decide (s.ncol ctx ≤ ptrCol p)) then .fault
  else s.engineBytes ctx (if ptrCol p = 0x3F then col else s.colOf ctx (ptrCol p)) (ptrOff p) n

/-- A segment default of the context (Table 16-1). -/
def segDefault (s : State) (ctx n : Nat) : Word := BitVec.ofNat 64 (s.mem.nat (bv (s.ctx ctx).record 384 64 + 8 * n) 8)

/-! ### The checks of the record (R294) -/

def recordBad (s : State) (l : Launch) : Bool :=
  l.reservedSet || bitsOf l.shape 0 2 = 3 || l.weight = 0 || l.ngroups = 0 || decide ((if l.pairs then 32 else 16) < l.ngroups) ||
  decide (64 < l.nv) || decide (64 < l.ns) || decide (Config.scrBytes < l.scrb) ||
  decide ((if l.pairs then 2 else 1) * Config.cairnBytes < l.cairnb) || l.entry.toNat % 4 != 0 ||
  decide (segLimit (s.segDefault l.ctx 4) ≤ l.entry.toNat) || (l.indirect && (l.nTeams != 0 || l.colMask != 0)) ||
  (l.indirect && l.gridPtr = 0) || (l.ridge && l.coop)

/-! ### The grid (R295, R296) -/

/-- The grid as the engine reads it: 32 counts, or why it cannot. -/
def readGrid (s : State) (l : Launch) : Except EngineRead (List Nat) :=
  if !l.indirect then .ok ((List.range 32).map fun c => if bitsOf l.colMask c 1 = 1 then l.nTeams else 0)
  else if l.gridPtr.toNat % 128 ≠ 0 then .error .fault
  else match s.enginePtr l.ctx (s.colOf l.ctx 0) (l.gridPtr ||| 0x003F000000000000) 128 with
    | .bytes b => .ok ((List.range 32).map fun c => leNat ((b.drop (4 * c)).take 4))
    | x => .error x

def gridBad (s : State) (l : Launch) (g : List Nat) : Bool :=
  (List.range 32).any fun c => decide (65536 < g.getD c 0) || (g.getD c 0 != 0 && decide (s.ncol l.ctx ≤ c))

/-! ### The declaration tables (R142, R175, R179) -/

/-- A buffer entry (Table 8-1). -/
def bufferOf (e : Nat) : Buffer :=
  let n := bitsOf e 16 16
  let full : Bool := bitsOf e 32 2 = 2
  { declared := n != 0, start := bitsOf e 0 16, lines := n, st := if full then .full else .empty, bits := List.replicate n full, owner := none,
    kick := none, bound := false }

/-- Two ranges of lines that both hold something overlap. -/
def overlap (a n b m : Nat) : Bool := n != 0 && m != 0 && decide (a < b + m) && decide (b < a + n)

/-- Some pair of ranges, each given by its first line and its length, overlaps. -/
def anyOverlap : List (Nat × Nat) → Bool
  | [] => false
  | x :: xs => xs.any (fun y => overlap x.1 x.2 y.1 y.2) || anyOverlap xs

def bufLinesOf (bs : List Buffer) : List (Nat × Nat) := (bs.filter (·.declared)).map fun b => (b.start, b.lines)

def bufTabBad (l : Launch) (es : List Nat) : Bool :=
  es.any (fun e => bitsOf e 34 30 != 0 || bitsOf e 32 2 = 1 || bitsOf e 32 2 = 3 ||
    (bitsOf e 16 16 != 0 && decide (l.scrb < 128 * (bitsOf e 0 16 + bitsOf e 16 16)))) ||
  anyOverlap (bufLinesOf (es.map bufferOf))

/-- A channel entry (Table 9-11). -/
def channelOf (e : Nat) : Channel :=
  { slots := List.replicate (bitsOf e 144 8) .free, start := bitsOf e 160 16, slotsz := bitsOf e 152 2, ccol := bitsOf e 128 5,
    ctid := bitsOf e 112 16, ptid := bitsOf e 96 16, cgids := bitsOf e 64 32, pgids := bitsOf e 32 32, pcols := bitsOf e 0 32,
    nextGrant := 0, nextClaim := 0 }

/-- Lines of a channel's slot area. -/
def chanLines (c : Channel) : Nat × Nat := (c.start, c.slots.length * 2 ^ c.slotsz)

def chanBad (s : State) (l : Launch) (g : List Nat) (e : Nat) : Bool :=
  let c := channelOf e
  let n := s.ncol l.ctx
  bitsOf e 176 80 != 0 || bitsOf e 154 6 != 0 || bitsOf e 133 11 != 0 ||
  (!c.slots.isEmpty && (c.slotsz != bitsOf l.shape 0 2 || decide (n ≤ c.ccol) || c.pcols / 2 ^ n != 0 || decide (g.getD c.ccol 0 ≤ c.ctid) ||
    (List.range 32).any (fun k => bitsOf c.pcols k 1 = 1 && decide (g.getD k 0 ≤ c.ptid)) ||
    decide (l.scrb < 128 * (c.start + (chanLines c).2))))

/-- The slot areas of the channels that one team consumes, and the buffers: they lie in one scratchpad (R175). -/
def sharedLines (bs : List Buffer) (cs : List Channel) (c : Channel) : List (Nat × Nat) :=
  bufLinesOf bs ++ (cs.filter fun x => x.ccol = c.ccol && x.ctid = c.ctid).map chanLines

def chanTabBad (s : State) (l : Launch) (g : List Nat) (bs : List Buffer) (es : List Nat) : Bool :=
  let cs := es.map channelOf
  es.any (s.chanBad l g) || cs.any fun c => !c.slots.isEmpty && anyOverlap (sharedLines bs cs c)

def xchTabBad (s : State) (l : Launch) (g : List Nat) (es : List Nat) : Bool :=
  es.any fun e =>
    let ms := (List.range 32).filter fun c => bitsOf e c 1 = 1
    bitsOf e 32 32 != 0 || bitsOf e 0 32 / 2 ^ s.ncol l.ctx != 0 || ms.any fun c => g.getD c 0 != g.getD (ms.headD 0) 0

/-- The entries of a table of `n` entries of `w` bytes; a zero pointer names no table. -/
def readTable (s : State) (l : Launch) (col : Nat) (p : Word) (n w : Nat) : Except EngineRead (List Nat) :=
  if p = 0 then .ok (List.replicate n 0)
  else match s.enginePtr l.ctx col p (n * w) with
    | .bytes b => .ok ((List.range n).map fun i => leNat ((b.drop (w * i)).take w))
    | x => .error x

/-- The tables as one column has them, checked. -/
def readTables (s : State) (l : Launch) (g : List Nat) (col : Nat) : Except EngineRead (List Buffer × List Channel × List Nat) := do
  let bs ← s.readTable l col l.bufTab 16 8
  let cs ← s.readTable l col l.chanTab 16 32
  let xs ← s.readTable l col l.xchTab 64 8
  if bufTabBad l bs || s.chanTabBad l g (bs.map bufferOf) cs || s.xchTabBad l g xs then throw .fault
  else return (bs.map bufferOf, cs.map channelOf, xs)

/-- The columns of the grid that take teams, as column numbers. -/
def gridCols (g : List Nat) : List Nat := (List.range 32).filter fun c => g.getD c 0 != 0

/-! ### Room (R301–R303) -/

/-- The cores of a column that a launch may use: ridge cores or the others (R303). -/
def coresFor (s : State) (l : Launch) (col : Nat) : List Nat :=
  (List.range 4).filter fun k => decide (4 - (s.col col).ridge ≤ k) == l.ridge

/-- The lowest core of each place a team may take: a core, or the lower core of a pair. -/
def placesFor (s : State) (l : Launch) (col : Nat) : List Nat :=
  let ks := s.coresFor l col
  if l.pairs then [0, 2].filter fun k => ks.contains k && ks.contains (k + 1) else ks

/-- The cores of a team at a place. -/
def coresAt (l : Launch) (core : Nat) : List Nat := if l.pairs then [core, core + 1] else [core]

def teamCores (t : Team) : List Nat := if t.pair then [t.core, t.core + 1] else [t.core]

/-- The teams that hold room on some of the cores. -/
def holders (s : State) (col : Nat) (ks : List Nat) : List Team :=
  s.teams.filter fun t => t.resident && t.col = col && (teamCores t).any ks.contains

/-- Groups resident on a core (R301). -/
def groupsOn (s : State) (col core : Nat) : Nat := (s.groups.filter fun g => g.col = col && g.core = core && (s.team g.team).resident).length

/-- Ranges of bytes do not meet; an empty one meets none. -/
def apart (a n b m : Nat) : Bool := n = 0 || m = 0 || decide (a + n ≤ b) || decide (b + m ≤ a)

/-- Bytes of cairn that a team holds on each of its cores, and where. -/
def cairnRange (t : Team) : Nat × Nat := if t.pair then (t.cairnBase / 2, (t.cairnBytes + 1) / 2) else (t.cairnBase, t.cairnBytes)

/-- A position that the distributor allocates: a multiple of 8 KiB (R30) at an end of a gap between the ranges in use, so that the room that is left stays whole; which of them is free. -/
def allocate (n cap size : Nat) (used : List (Nat × Nat)) : Option Nat :=
  let fits := fun a => decide (a + size ≤ cap) && used.all fun u => apart a size u.1 u.2
  let ends := ((List.range (cap / 8192 + 1)).map (· * 8192)).filter fun a => fits a && (a = 0 || !fits (a - 8192) || !fits (a + 8192))
  ends[Config.allocation n % ends.length]?

/-- The bases of SCR and cairn that a team of a launch gets at a place, if it has room there. -/
def roomAt (s : State) (l : Launch) (col core : Nat) : Option (Nat × Nat) :=
  let ks := coresAt l core
  let hs := s.holders col ks
  if ks.any fun k => decide (Config.groupsPerCore < s.groupsOn col k + l.ngroups) then none
  else do
    let a ← allocate (2 * s.nextId) Config.scrBytes l.scrb (hs.map fun t => (t.scrBase, t.scrBytes))
    let c ← allocate (2 * s.nextId + 1) Config.cairnBytes l.cairnEach (hs.map cairnRange)
    return (a, if l.pairs then 2 * c else c)

/-- No team of the launch could ever fit in the column (R301). -/
def neverFits (s : State) (l : Launch) (col : Nat) : Bool :=
  (s.placesFor l col).isEmpty || decide (Config.groupsPerCore < l.ngroups) || decide (Config.scrBytes < l.scrb) ||
  decide (Config.cairnBytes < l.cairnEach)

/-- Teams of a launch that an empty place holds. -/
def perPlace (l : Launch) : Nat :=
  let up := fun n => (n + 8191) / 8192 * 8192
  min (Config.groupsPerCore / l.ngroups) (min (if l.scrb = 0 then 32 else Config.scrBytes / up l.scrb)
    (if l.cairnEach = 0 then 32 else Config.cairnBytes / up l.cairnEach))

/-- A COOP or RIDGE launch larger than the cores it may use (R302, R303). -/
def tooLarge (s : State) (l : Launch) (g : List Nat) : Bool :=
  (l.coop || l.ridge) && (gridCols g).any fun c => decide ((s.placesFor l (s.colOf l.ctx c)).length * perPlace l < g.getD c 0)

end State

/-! ### Admission -/

namespace State

/-- The engine's read of `n` bytes at a pointer of the record touches their pages (R279). -/
def touchRead (s : State) (ctx col : Nat) (p : Word) (n : Nat) : State :=
  if p = 0 then s else
  let col := if ptrCol p = 0x3F then col else s.colOf ctx (ptrCol p)
  (s.touchAt ctx col (ptrOff p)).touchAt ctx col ((ptrOff p + n - 1) % 2 ^ 48)

/-- The pages of the grid and of the declaration tables of a launch are touched. -/
def touchTables (s : State) (l : Launch) (g : List Nat) : State :=
  let s := if l.indirect then s.touchRead l.ctx (s.colOf l.ctx 0) (l.gridPtr ||| 0x003F000000000000) 128 else s
  (gridCols g).foldl (fun s c =>
    let col := s.colOf l.ctx c
    ((s.touchRead l.ctx col l.bufTab 128).touchRead l.ctx col l.chanTab 512).touchRead l.ctx col l.xchTab 512) s

/-- The admission of a launch whose dependences are met (Table 18-4, R294, R295). -/
def admitLaunch (s : State) (l : Launch) : State :=
  if s.recordBad l then s.launchError l 1
  else match s.readGrid l with
  | .error .struck => s.killCtx l.ctx
  | .error _ => s.launchError l 1
  | .ok g =>
    if s.gridBad l g then s.launchError l 2
    else if (gridCols g).isEmpty then s.endLaunch l .empty 6 0
    else
      let n := s.ncol l.ctx
      match (List.range n).mapM fun c => if g.getD c 0 = 0 then .ok ([], [], []) else s.readTables l g (s.colOf l.ctx c) with
      | .error .struck => s.killCtx l.ctx
      | .error _ => s.launchError l 6
      | .ok ts =>
        let s := s.touchTables l g
        if (gridCols g).any fun c => s.colDead (s.colOf l.ctx c) then s.launchError l 5
        else if ((gridCols g).any fun c => s.neverFits l (s.colOf l.ctx c)) || s.tooLarge l g then s.launchError l 3
        else s.modLaunch l.id fun x => { x with
          st := .admitting
          grid := g.take n
          placed := List.replicate n 0
          admitted := true
          bufs := ts.map fun t => t.1
          chans := ts.map fun t => t.2.1
          xsets := ts.map fun t => t.2.2 }

end State

/-- A launch leaves WAITING-DEPS once every dependence has a final status (R287, R297, R298). -/
def execLaunchAdmission (l : Nat) (s : State) : Out' :=
  let x := s.launch l
  if x.st ≠ .waitingDeps then notPending
  else if x.deps.any fun d => (s.queue (bitsOf d 32 8)).ctx ≠ x.ctx then .next ((s.launchError x 4).changed)
  else if x.deps.any fun d => s.depState d = .waits then notPending
  else match x.deps.find? (fun d => s.depState d = .failed) with
    | some d => .next ((s.endLaunch x .flushed 5 (2 ^ 23 + d % 2 ^ 23)).changed)
    | none => .next ((s.admitLaunch x).changed)

/-! ### Placement (R300, R301) -/

namespace State

/-- A generator state at group start (R67). -/
def genStart (col tid gid lane : Nat) : BitVec 32 :=
  let g : BitVec 32 := 0x6A09E667 ^^^ (BitVec.ofNat 32 col <<< 24) ^^^ (BitVec.ofNat 32 tid <<< 16) ^^^ (BitVec.ofNat 32 gid <<< 8) ^^^
    BitVec.ofNat 32 lane
  if g = 0 then 1 else g

/-- Bytes of a team's region of the save area for frames and the like (R300), of its context images (R273), of its groups' undo areas (R349), and of all its saved state; what the buffer states, full bits and B take is not counted here. -/
def stackBytes (l : Launch) : Nat := (1024 + 576 * l.ngroups + 127) / 128 * 128

def imageBytes (l : Launch) : Nat := l.ngroups * (8 * l.width * l.nv + 8 * l.ns + 1024 + 4 * l.width)

def undoBytes (l : Launch) : Nat := l.ngroups * (Config.undoEntries * 128)

def savedBytes (l : Launch) (bs : List Buffer) : Nat :=
  imageBytes l + undoBytes l + stackBytes l + (if l.pairs then 2 else 1) * (bs.map fun b => 128 * b.lines).sum + l.cairnb

/-- The teams of the launch that the column holds exceed the column's save area (R274). -/
def exemptIn (s : State) (l : Launch) (c : Nat) : Bool :=
  let bs := l.bufs.getD c []
  let slots := ((l.chans.getD c []).filter fun x => x.ccol = c).map fun x => 128 * (chanLines x).2
  decide (bv (s.ctx l.ctx).record 352 32 * 65536 < l.grid.getD c 0 * savedBytes l bs + slots.sum + Config.saveExtra l.id c)

/-- The base of a team's region of the save area: one that no live team of its context in the column uses (R300). -/
def stackBase (s : State) (l : Launch) (col : Nat) : Nat :=
  let r := (s.ctx l.ctx).record
  let base := bv r 272 48
  let used := (s.groups.filter fun g => g.ctx = l.ctx && g.col = col && Launch.live (s.launch g.launch)).map fun g =>
    (segBase (vget 0 g.seg 6), segLimit (vget 0 g.seg 6))
  match allocate s.nextId (min (bv r 352 32 * 65536) (64 * 65536)) (stackBytes l) (used.map fun u => (u.1 - base, u.2)) with
  | some a => base + a
  | none => base + used.foldl (fun m u => max m ((u.1 + u.2 - base + 8191) / 8192 * 8192)) 0

/-- The segment registers of a team (R300, Table 2-6). -/
def placedSegs' (s : State) (l : Launch) (col scr cairn : Nat) : Vector Word 8 :=
  let seg := fun base bytes => BitVec.ofNat 64 (base / 8192 * 2 ^ 29 + bytes / 128)
  #v[seg scr l.scrb, s.segDefault l.ctx 1, s.segDefault l.ctx 2, seg cairn l.cairnb, s.segDefault l.ctx 4,
    if l.argSeg = 0 then s.segDefault l.ctx 5 else l.argSeg, seg (s.stackBase l col) (stackBytes l), 0]

/-- A group at its start (R121, R300, Table 3-6). -/
def startGroup (s : State) (l : Launch) (team col core tid gid id : Nat) (seg : Vector Word 8) : Group :=
  let r := (s.ctx l.ctx).record
  let num := s.colNum l.ctx col
  let gens := Vector.ofFn fun (i : Fin 64) => if i.val < l.width then genStart num tid gid i.val else 0
  { Group.blank with
    id := id, team := team, launch := l.id, ctx := l.ctx, col := col, tid := tid, gid := gid, core := core, width := l.width, vregs := l.nv,
    sregs := l.ns, seg := seg, trapbase := BitVec.ofNat 64 (bv r 160 32), swapwait := BitVec.ofNat 32 (bv r 224 32), frame := 1024 + 576 * gid,
    st := .active,
    image := { Image.blank with
      gens := gens
      slotA := some { Path.blank with pc := l.entry, mask := BitVec.ofNat 64 (2 ^ l.width - 1) } } }

/-- The pending injection for a group, if there is one (R397). -/
def injectionFor (s : State) (g : Group) : Option (Nat × Nat × Nat × Nat × Word) :=
  s.injections.find? fun i => i.1 = g.ctx && i.2.1 = s.colNum g.ctx g.col && i.2.2.1 = g.tid && i.2.2.2.1 = g.gid

/-- Adds a group, armed if an injection command waits for it. -/
def addGroup (s : State) (g : Group) : State :=
  match s.injectionFor g with
  | none => { s with groups := s.groups ++ [g] }
  | some i => { s with groups := s.groups ++ [{ g with einj := i.2.2.2.2 }], injections := s.injections.erase i }

/-- Cairn bytes of a team on each of its cores, written back by the streamer where an allocation overlaps them (R124). -/
def writeBackCairn (s : State) (t : Team) : State :=
  let r := cairnRange t
  let at_ := fun k => cairnHome t.col (k * 2 ^ 23 + r.1)
  let bad := s.mem.cairnPoison.filter fun a => (teamCores t).any fun k => decide (at_ k ≤ a) && decide (a < at_ k + r.2)
  s.modTeam t.id fun x => { x with savedCairn := (teamCores t).map fun k => s.mem.bytes (at_ k) r.2, savedCairnPoison := bad }

/-- The teams that are out and whose cairn the new allocation overlaps, if their cairn has not been written back. -/
def displaced (s : State) (col : Nat) (ks : List Nat) (base bytes : Nat) : List Team :=
  s.teams.filter fun t => !t.resident && !t.ended && t.savedCairn.isEmpty && t.col = col && (teamCores t).any ks.contains &&
    !apart base bytes (cairnRange t).1 (cairnRange t).2

/-- A core drops its L1 lines: the start of a launch is an acquire (R183), and no `vldi` sees a value older than it (R158). -/
def clearL1 (s : State) (col : Nat) (ks : List Nat) : State := ks.foldl (fun s k => s.modCore col k fun c => { c with l1 := [] }) s

/-- The data images of the launch's kernel for a space. -/
def imagesOf (s : State) (l : Launch) (space : Nat) : List DataImage :=
  s.images.filter fun i => i.ctx = l.ctx && i.entry = l.entry.toNat && i.space = space

/-- The virtual offset at which an image begins. -/
def imageBase (s : State) (l : Launch) (i : DataImage) : Nat :=
  segBase (if i.space = 3 && l.argSeg ≠ 0 then l.argSeg else s.segDefault l.ctx (segOf i.space)) + i.off

/-- The homes of an image's bytes in a column, if its pages let a store through. -/
def imageHomes (s : State) (l : Launch) (col : Nat) (i : DataImage) : Option (List (Nat × List Byte)) :=
  (List.range i.bytes.length).mapM fun k => match walkNow s l.ctx col ((s.imageBase l i + k) % 2 ^ 48) 1 with
    | .ok h => some (h, [i.bytes.getD k 0])
    | _ => none

/-- A page-table entry on the way to an image's bytes was struck: the context is killed (R354). -/
def imageStruck (s : State) (l : Launch) : Bool :=
  !l.imaged && (gridCols l.grid).any fun c => ([1, 2, 3].flatMap (s.imagesOf l)).any fun i => (List.range i.bytes.length).any fun k =>
    walkNow s l.ctx (s.colOf l.ctx c) ((imageBase s l i + k) % 2 ^ 48) 1 = .struck

/-- The writes of the TAL, GLB and ARG images of a launch in every column of its grid (R183, R249, R408), or none while some page does not let them through. -/
def imageWrites (s : State) (l : Launch) : Option (List (List (Nat × List Byte))) :=
  ((gridCols l.grid).flatMap fun c => ([1, 2, 3].flatMap (s.imagesOf l)).map fun i => (s.colOf l.ctx c, i)).mapM fun x => s.imageHomes l x.1 x.2

/-- The pages that the images' writes touch (R279). -/
def touchImages (s : State) (l : Launch) : State :=
  ((gridCols l.grid).flatMap fun c => ([1, 2, 3].flatMap (s.imagesOf l)).map fun i => (s.colOf l.ctx c, i)).foldl (fun s x =>
    (s.leavesOf l.ctx x.1 (s.imageBase l x.2 / 65536 * 65536) (x.2.bytes.length / 65536 + 2)).foldl (fun s a => s.touchPage l.ctx a) s) s

/-- Writes the images once, before the first team starts. -/
def writeImages (s : State) (l : Launch) : Option State :=
  if l.imaged then some s
  else (s.imageWrites l).map fun ws =>
    ws.foldl (fun (s : State) w => s.storeHome w false) ((s.touchImages l).modLaunch l.id fun x => { x with imaged := true })

/-- The pages of a team's STACK region are touched when it is placed (R279). -/
def touchStack (s : State) (ctx col : Nat) (seg : Word) : State :=
  (s.leavesOf ctx col (segBase seg / 65536 * 65536) 2).foldl (fun s a => s.touchPage ctx a) s

/-- Places the next team of a launch in a column at a place with these bases (R300). -/
def placeTeam (s : State) (l : Launch) (c core scr cairn : Nat) : State :=
  let col := s.colOf l.ctx c
  let ks := coresAt l core
  let tid := l.placed.getD c 0
  let id := s.nextId
  let seg := s.placedSegs' l col scr cairn
  let s := (s.displaced col ks (if l.pairs then cairn / 2 else cairn) l.cairnEach).foldl writeBackCairn s
  let t : Team :=
    { Team.blank with
      id := id, launch := l.id, ctx := l.ctx, col := col, tid := tid, core := core, pair := l.pairs, width := l.width, groups := l.ngroups,
      scrBase := scr, scrBytes := l.scrb, cairnBase := cairn, cairnBytes := l.cairnb, bufs := ks.map fun _ => l.bufs.getD c [],
      chans := l.chans.getD c [], xsets := l.xsets.getD c [], resident := true, exempt := s.exemptIn l c, ended := false }
  let s : State := { s with teams := s.teams ++ [t], nextId := s.nextId + 1 + l.ngroups }
  let s := (List.range l.ngroups).foldl (fun (s : State) g =>
    s.addGroup (s.startGroup l id col (if l.pairs && Config.upperCore id g then core + 1 else core) tid g (id + 1 + g) seg)) s
  let s := (s.imagesOf l 0).foldl (fun s i => ks.foldl (fun s k => s.scrStore id k [(scr + i.off, i.bytes)] false) s) s
  let s := (s.clearL1 col ks).touchStack l.ctx col (vget 0 seg 6)
  let s := s.modLaunch l.id fun x => { x with placed := x.placed.modify c (· + 1), st := if x.st = .admitting then .running else x.st }
  s.settleQueue l.queue

/-- The effective priority of a launch (Table 18-2). -/
def effPrio (s : State) (l : Launch) : Nat := min l.prio (s.queue l.queue).prio

/-- Teams of a launch for which a place has room as it stands, counted in groups and bytes (R301). -/
def teamsNow (s : State) (l : Launch) (col core : Nat) : Nat :=
  let ks := coresAt l core
  let hs := s.holders col ks
  let left := fun (cap : Nat) (f : Team → Nat) => cap - (hs.map f).sum
  let grps := Config.groupsPerCore - (ks.map (s.groupsOn col)).foldl max 0
  min (grps / max l.ngroups 1) (min (if l.scrb = 0 then 32 else left Config.scrBytes (·.scrBytes) / l.scrb)
    (if l.cairnEach = 0 then 32 else left Config.cairnBytes (fun t => (cairnRange t).2) / l.cairnEach))

/-- The first places, in order, that hold `n` teams between them, where a place holds as many as it is listed with. -/
def firstPlaces : Nat → List (Nat × Nat) → List Nat
  | _, [] => []
  | 0, _ => []
  | n + 1, p :: ps => p.1 :: firstPlaces (n + 1 - p.2) ps

/-- The cores that a COOP or RIDGE launch which waits for admission would take in a column: the places that have room now, then those that would have it, until its teams are housed (R302). -/
def wouldTake (s : State) (l : Launch) (col n : Nat) : List Nat :=
  let ps := s.placesFor l col
  let now := (ps.map fun k => (k, s.teamsNow l col k)).filter fun p => p.2 ≠ 0
  let later := (ps.filter fun k => s.teamsNow l col k = 0).map fun k => (k, perPlace l)
  (firstPlaces n (now ++ later)).flatMap (coresAt l)

/-- A COOP launch that waits for admission keeps the cores it would take from launches of equal or lower effective priority (R302); RIDGE launches are admitted alike (R303). -/
def keptBack (s : State) (l : Launch) (col : Nat) (ks : List Nat) : Bool :=
  s.launches.any fun x =>
    let c := s.colNum x.ctx col
    x.id ≠ l.id && x.st = .admitting && (x.coop || x.ridge) && x.ridge = l.ridge && s.colOf x.ctx c = col && x.grid.getD c 0 != 0 &&
    (decide (s.effPrio l < s.effPrio x) || (decide (s.effPrio l = s.effPrio x) && !((l.coop || l.ridge) && decide (l.id < x.id)))) &&
    ks.any (s.wouldTake x col (x.grid.getD c 0)).contains

/-- The place and the bases of the next team of a launch: the lowest place with room among those that no waiting launch keeps (R301, R302). -/
def freeRoom (s : State) (l : Launch) (col : Nat) : Option (Nat × Nat × Nat) :=
  ((s.placesFor l col).filter fun k => !s.keptBack l col (coresAt l k)).findSome? fun k => (s.roomAt l col k).map fun r => (k, r.1, r.2)

/-- The launch may place teams: its partition is in service (R37), its context runs and is not being pre-empted, or holds ridge cores alone (R276). -/
def mayPlace (s : State) (l : Launch) : Bool :=
  l.admitted && (l.st = .admitting || l.st = .running) && !s.stopped.contains (bv (s.ctx l.ctx).record 320 2) && (l.ridge || (s.ctxRuns l.ctx && !s.preempting l.ctx))

/-- Places all teams of a launch, column by column, if all find room (R302). -/
def placeAll (s : State) (l : Nat) : Option State :=
  let x := s.launch l
  ((gridCols x.grid).flatMap fun c => List.replicate (x.grid.getD c 0) c).foldlM (fun (s : State) c =>
    (s.freeRoom (s.launch l) (s.colOf x.ctx c)).map fun r => s.placeTeam (s.launch l) c r.1 r.2.1 r.2.2) s

end State

/-- The distributor places the next team of a launch in a column, or all teams of a COOP or RIDGE launch (R301–R303). -/
def execTeamPlacement (l col : Nat) (s : State) : Out' :=
  let x := s.launch l
  let c := s.colNum x.ctx col
  if s.power ≠ .on || !s.mayPlace x || s.colOf x.ctx c ≠ col || decide (x.grid.getD c 0 ≤ x.placed.getD c 0) then notPending
  else if s.colDead col then .next (((s.stopLaunch l).launchError x 5).changed)
  else if s.imageStruck x then .next ((s.killCtx x.ctx).changed)
  else match s.writeImages x with
    | none => notPending
    | some t =>
      if x.coop || x.ridge then
        match t.placeAll l with
        | some u => .next u.changed
        | none => notPending
      else match t.freeRoom (t.launch l) col with
        | some r => .next ((t.placeTeam (t.launch l) c r.1 r.2.1 r.2.2).changed)
        | none => notPending

/-! ### Completion (R299) -/

namespace State

/-- The item is outstanding work of a launch: a transfer, a kick, matrix work, a row, a remote operation or the count-down that follows it. -/
def workLeft (s : State) (l : Nat) (i : Item) : Bool :=
  let team := fun t => decide ((s.team t).launch = l)
  let grp := fun g => decide ((s.grp g).launch = l)
  match i with
  | .kick k _ _ _ _ _ _ => k.launch = l
  | .xfer x => ((s.thread x.col x.thr).kick.map fun k => decide (k.launch = l)).getD false
  | .mcline _ t _ _ _ _ _ => team t
  | .mx m => team m.team
  | .row r => team r.team
  | .countdown b _ _ _ => team b.team
  | .scr r => (r.grp.map fun g => grp g.1).getD false
  | .remote r => match r.why with
    | .lane g _ _ => grp g
    | .row _ g _ _ => grp g
    | .element _ _ => false
    | .frame g _ => (g.map grp).getD false
  | _ => false

/-- A kick of the launch waits in a queue, runs, or is saved. -/
def kicksLeft (s : State) (l : Nat) : Bool :=
  let runs := fun (h : Thread) => (h.kick.map fun k => decide (k.launch = l)).getD false
  s.cols.any (fun c => c.cores.any (fun k => k.kicks.any fun x => x.launch = l) || c.threads.any runs) ||
  s.ctxs.any fun c => c.saved.any fun x => runs x.2

/-- A collective key that the launch armed has not completed. -/
def keysLeft (s : State) (l : Nat) : Bool := s.cols.any fun c => c.keys.any fun k => k.armed && (s.team k.team).launch = l

/-- No work of the launch is left (R299). -/
def ranOut (s : State) (l : Nat) : Bool := !(s.flight.any fun f => s.workLeft l f.item) && !s.kicksLeft l && !s.keysLeft l

end State

/-- A draining launch completes: DONE, its cores are freed and its status is written; the B that a team of it owned stays in the macros (R250, R286, R299). One whose work was stopped ends FAILED once its release has completed. -/
def execLaunchComplete (l : Nat) (s : State) : Out' :=
  let x := s.launch l
  if x.st = .failing then (if s.released l then .next ((s.finishFailed l).changed) else notPending)
  else if x.st ≠ .draining || !s.ranOut l || !s.released l then notPending
  else
    let free := fun (k : Core) => { k with perms := k.perms.filter fun p => p.launch ≠ l }
    let s : State := { s with
      teams := s.teams.map fun t => if t.launch = l then { t with resident := false, swapped := false, ended := true } else t
      cols := s.cols.map fun c => { c with cores := c.cores.map free } }
    .next ((s.endLaunch x .done 3 0).changed)

/-! ### Swapping teams (R124, R149, R246) -/

namespace State

/-- An entry of the divergence stack (Table 7-3). -/
def stackEntry (p : Path) : Nat :=
  p.mask.toNat + p.pc.toNat % 2 ^ 32 * 2 ^ 64 + ccOf p.flags * 2 ^ 96 + bit p.parked.isSome * 2 ^ 101 + p.parked.getD 0 % 4 * 2 ^ 102

/-- The lines of a group's divergence stack leave the register cache: its entries, the lowest first, after the frame (R129, R276). -/
def writeStack (s : State) (g : Group) : State :=
  match s.frameTrans g 1 with
  | .ok h => (g.image.stack.reverse.zipIdx.foldl (fun (s : State) x =>
      { s with mem := s.mem.store [(h + 64 + 16 * x.2, leBytes 16 (stackEntry x.1))] false }) s).touchAt g.ctx g.col (frameOff g)
  | _ => s

/-- Takes a team out of its cores: its scratchpad, poison marks and B go to the save area, its register-cache lines to their homes. -/
def saveTeam (s : State) (id : Nat) : State :=
  let t := s.team id
  let s := s.settle fun l => (s.grp l.grp).team = id
  let s := (s.teamGroups id).foldl writeStack s
  let at_ := fun k => scrHome t.col k t.scrBase
  let bad := s.mem.poisoned.filter fun a => (teamCores t).any fun k => decide (at_ k ≤ a) && decide (a < at_ k + t.scrBytes)
  let b := (s.core t.col t.core).resident.filter fun r => r.team = id
  let s := s.modTeam id fun x => { x with
    resident := false
    saved := (teamCores t).map fun k => s.mem.bytes (at_ k) t.scrBytes
    savedPoison := bad
    savedB := b }
  s.modCore t.col t.core fun k => { k with resident := k.resident.filter fun r => r.team ≠ id }

/-- The cores and the bytes that a team held are free for it again, and the cores are of its launch's kind (R303). -/
def roomBack (s : State) (t : Team) : Bool :=
  let hs := s.holders t.col (teamCores t)
  (teamCores t).all (s.coresFor (s.launch t.launch) t.col).contains &&
  (teamCores t).all (fun k => decide (s.groupsOn t.col k + ((s.teamGroups t.id).filter fun g => g.core = k).length ≤ Config.groupsPerCore)) &&
  hs.all (fun h => apart t.scrBase t.scrBytes h.scrBase h.scrBytes &&
    apart (cairnRange t).1 (cairnRange t).2 (cairnRange h).1 (cairnRange h).2)

/-- Puts bytes back at a home, as a store does: their lines' version tags advance (R341), and the marks are those that were saved. -/
def putBack (a : Nat) (bs : List Byte) (m : Memory) : Memory :=
  let m := m.store [(a, bs)] false
  { m with poisoned := m.poisoned.filter fun p => !(decide (a ≤ p) && decide (p < a + bs.length)) }

/-- Puts a team back: scratchpad with its poison marks, cairn if it was written back, B (R149, R246, R278). -/
def restoreTeam (s : State) (id : Nat) : State :=
  let t := s.team id
  let s := (s.displaced t.col (teamCores t) (cairnRange t).1 (cairnRange t).2).foldl (fun s x => if x.id = id then s else s.writeBackCairn x) s
  let m := (teamCores t).foldl (fun (m : Memory) k => putBack (scrHome t.col k t.scrBase) (t.saved.getD (t.part k) []) m) s.mem
  let m := { m with poisoned := t.savedPoison.foldl setPut m.poisoned }
  let m := if t.savedCairn.isEmpty then m else
    let m := (teamCores t).foldl (fun (m : Memory) k =>
      let a := cairnHome t.col (k * 2 ^ 23 + (cairnRange t).1)
      let m := putBack a (t.savedCairn.getD (t.part k) []) m
      { m with cairnPoison := m.cairnPoison.filter fun p => !(decide (a ≤ p) && decide (p < a + (cairnRange t).2)) }) m
    { m with cairnPoison := t.savedCairnPoison.foldl setPut m.cairnPoison }
  let s : State := { s with mem := m }
  let s := s.modTeam id fun x => { x with
    resident := true, swapped := false, ready := false, saved := [], savedPoison := [], savedCairn := [], savedCairnPoison := [], savedB := none }
  match t.savedB with
  | none => s
  | some b => s.modCore t.col t.core fun k => { k with resident := some b }

/-- A team waits for residency on one of these cores (R301, R124). -/
def residencyWanted (s : State) (col : Nat) (ks : List Nat) : Bool :=
  s.launches.any (fun l => l.admitted && (l.st = .admitting || l.st = .running) &&
    decide (l.placed.getD (s.colNum l.ctx col) 0 < l.grid.getD (s.colNum l.ctx col) 0) && s.colOf l.ctx (s.colNum l.ctx col) = col &&
    (s.placesFor l col).any fun k => (coresAt l k).any ks.contains) ||
  s.teams.any fun t => t.swapped && t.ready && !t.ended && t.col = col && (teamCores t).any ks.contains

/-- The swap condition of R124, with the waits of R149 and R246. -/
def canSwap (s : State) (t : Team) : Bool :=
  let l := s.launch t.launch
  t.resident && !t.ended && !l.coop && !l.ridge && !t.exempt && s.residencyWanted t.col (teamCores t) && (s.teamGroups t.id).all s.waitedOut &&
  !s.teamDraining t.id && !s.flight.any fun f => match f.item with
    | .mx m => m.team = t.id
    | _ => false

/-- A swapped team that waits for one of these cores was queued before this one (R124, R305). -/
def queuedBefore (s : State) (t : Team) : Bool :=
  s.teams.any fun x => x.swapped && x.ready && !x.ended && x.col = t.col && (teamCores x).any (teamCores t).contains && decide (x.readyAt < t.readyAt)

end State

/-- A team is swapped out (R124). -/
def execTeamSwap (team : Nat) (s : State) : Out' :=
  let t := s.team team
  if !s.canSwap t then notPending
  else
    let s := (s.saveTeam team).modTeam team fun x => { x with swapped := true, ready := false }
    let mark := fun (g : Group) => { g with waitFrom := none, image := { g.image with swapped := true } }
    .next (({ s with groups := s.groups.map fun (g : Group) => if g.team = team && g.st ≠ GState.exited then mark g else g }).changed)

/-- A swapped team is queued for residency once an event that one of its groups awaits has occurred, and gets its cores back, in the order of the queue, once they are free (R124, R305). -/
def execTeamReadmit (team : Nat) (s : State) : Out' :=
  let t := s.team team
  if !t.swapped || t.ended then notPending
  else if !t.ready then
    (if s.mayGoOn t then .next ((s.modTeam team fun x => { x with ready := true, readyAt := s.issues + 1 }).changed) else notPending)
  else if s.roomBack t && s.ctxRuns t.ctx && !s.preempting t.ctx && !s.queuedBefore t then .next ((s.restoreTeam team).changed)
  else notPending

/-! ### The ridge partition (R303) -/

/-- The ridge command sets the ridge partition of a column, refused while a team is resident on those cores. -/
def execRidge (port col cores : Nat) (s : State) : Out' :=
  let n := max cores (s.col col).ridge
  let ks := (List.range 4).filter fun k => decide (4 - n ≤ k)
  s.command port fun s =>
  if s.cols.length ≤ col || 2 < cores || !(s.holders col ks).isEmpty then s.configError port
  else (s.modCol col fun x => { x with ridge := cores }).accepted port

end Sys2Proof.Machine
end

