-- ==== Sys2Proof/Machine/Contexts.lean ====
section
/-! DEFINITION. Contexts (16_contexts.md): their commands, time-slicing, pre-emption, resume, quarantine, and the semaphores. -/

namespace Sys2Proof.Machine

open Sys2Proof

namespace State

/-- A context table entry is in use. -/
def ctxUsed (s : State) (c : Nat) : Bool := (s.ctx c).st ≠ .unused

/-- A context that holds its `PODCTX`: one that exists and has not been killed. -/
def ctxLive (c : Context) : Bool := c.st = .created || c.st = .active || c.st = .preempted || c.st = .faulted

/-- The reserved bits of a context record (Table 16-1). -/
def ctxReserved (r : BitVec 512) : Bool := bv r 322 30 != 0 || bv r 256 16 != 0 || bv r 148 12 != 0 || bv r 6 122 != 0

/-- The create command is refused (R271): the rule's cases, a context number that is not the entry's, or an entry in use. -/
def createBad (s : State) (n : Nat) (r : BitVec 512) : Bool :=
  decide (64 ≤ n) || s.ctxUsed n || ctxReserved r || bv r 272 48 % 65536 != 0 || bv r 352 32 = 0 || decide (s.split.length ≤ bv r 320 2) ||
  bv r 0 6 != n ||
  (bv r 128 20 != 0 && s.ctxs.any fun c => ctxLive c && bv c.record 128 20 = bv r 128 20)

end State

/-- System software fills the entry and creates the context (R271). -/
def execContextCreate (port n : Nat) (record : BitVec 512) (s : State) : Out' :=
  let c : Context := { Context.blank with num := n, st := .created, record := record }
  s.command port fun s =>
  let s : State := { s with ctxTable := s.ctxTable.set n record }
  if s.createBad n record then s.configError port
  else { s with ctxs := (s.ctxs.filter fun (x : Context) => x.num ≠ n) ++ [c] }.accepted port

/-- The destroy command: a CREATED context's entry is unused again (Table 16-2). -/
def execContextDestroy (port ctx : Nat) (s : State) : Out' :=
  s.command port fun s =>
  if (s.ctx ctx).st ≠ .created then s.configError port
  else { s with ctxs := s.ctxs.filter fun (x : Context) => x.num ≠ ctx }.accepted port

/-- The kill command (R279): either port may kill every context (R280). -/
def execKill (port ctx : Nat) (s : State) : Out' :=
  s.command port fun s =>
  if s.noContext ctx then s.configError port else (s.killCtx ctx).accepted port

/-- The acknowledge command: FAULTED becomes ACTIVE (R272). -/
def execAcknowledge (port ctx : Nat) (s : State) : Out' :=
  s.command port fun s =>
  if (s.ctx ctx).st ≠ .faulted then s.configError port
  else (s.modCtx ctx fun c => { c with st := .active, held := 0 }).accepted port

/-! ### Time-slicing (R275) -/

namespace State

/-- The cores that a context holds outside the ridge partition: column and cores of its resident teams. -/
def heldCores (s : State) (c : Nat) : List (Nat × List Nat) :=
  (s.teams.filter fun t => t.ctx = c && t.resident && !s.ridgeLaunch t.launch).map fun t => (t.col, teamCores t)

/-- A launch waits for residency on some core that a context holds: with a team that has not been placed, with one that a pre-emption took out, or with a swapped one that is queued (R124, R275). -/
def wantsCores (s : State) (l : Launch) (held : List (Nat × List Nat)) : Bool :=
  l.admitted && (l.st = .admitting || l.st = .running || l.st = .draining) && held.any fun h =>
    let c := s.colNum l.ctx h.1
    (s.colOf l.ctx c = h.1 && decide (l.placed.getD c 0 < l.grid.getD c 0) && (s.placesFor l h.1).any fun k => (coresAt l k).any h.2.contains) ||
    s.teams.any fun t => t.launch = l.id && !t.resident && !t.ended && (!t.swapped || t.ready) && t.col = h.1 && (teamCores t).any h.2.contains

/-- The highest queue priority of a context's launches that have teams resident. -/
def ctxPrio (s : State) (c : Nat) : Nat :=
  ((s.launches.filter fun l => l.ctx = c && Launch.live l).map fun l => (s.queue l.queue).prio).foldl max 0

/-- The condition of R275: the quantum is used up and a launch of equal or higher priority waits, or one of strictly higher priority waits. -/
def sliceOver (s : State) (c : Nat) : Bool :=
  let x := s.ctx c
  let quantum := bv x.record 192 32
  let used := decide (quantum * 1000 ≤ x.held)
  quantum != 0 && s.launches.any fun l => l.ctx ≠ c && s.wantsCores l (s.heldCores c) &&
    (decide (s.ctxPrio c < (s.queue l.queue).prio) || (used && decide (s.ctxPrio c ≤ (s.queue l.queue).prio)))

end State

/-- A time-slice expires (R275): the pre-emption begins, or stays pending (R276). -/
def execQuantumExpiry (ctx : Nat) (s : State) : Out' :=
  if (s.ctx ctx).st = .active && !(s.ctx ctx).expiry && s.sliceOver ctx then
    .next ((s.modCtx ctx fun c => { c with expiry := true, expiryAt := s.cycles }).changed)
  else notPending

/-! ### Pre-emption (R276) -/

namespace State

/-- The group can be taken out: not in a handler, unless it has been stopped for the pre-emption (R334, R335). -/
def takenOut (g : Group) : Bool := g.out || g.st = .exited || (g.st = .active && !g.privileged && !g.halted)

/-- The stream thread can be saved: its transfers, loads, count-downs and releases have ended, and it waits for no page (R276 step 3). -/
def canSaveThread (s : State) (c t : Nat) : Bool :=
  let h := s.thread c t
  h.susp = .none && h.phase.opened.isEmpty && h.st = .active &&
  !s.flight.any fun f => xferOf c t f.item || loadOfThread c t f.item || (match f.item with
    | .countdown _ _ (some x) _ => x.col = c && x.thr = t
    | _ => false)

/-- The threads that run kicks of a context outside its ridge launches. -/
def threadsOf (s : State) (c : Nat) : List (Nat × Nat) :=
  ((List.range s.cols.length).flatMap fun k => (List.range 16).map fun t => (k, t)).filter fun p =>
    ((s.thread p.1 p.2).kick.map fun k => k.ctx = c && !s.ridgeLaunch k.launch).getD false

/-- The context's teams that a pre-emption takes out. -/
def outTeams (s : State) (c : Nat) : List Team := s.teams.filter fun t => t.ctx = c && t.resident && !s.ridgeLaunch t.launch

/-- Every save step can finish (R276, R149, R246). -/
def canPreempt (s : State) (c : Nat) : Bool :=
  s.preempting c && (s.outTeams c).all (fun t => (s.teamGroups t.id).all takenOut && !s.teamDraining t.id) &&
  (s.threadsOf c).all (fun p => s.canSaveThread p.1 p.2) &&
  !s.flight.any fun f => match f.item with
    | .mx m => (s.team m.team).ctx = c && !s.ridgeLaunch (s.team m.team).launch
    | .row r => (s.team r.team).ctx = c && !s.ridgeLaunch (s.team r.team).launch
    | _ => false

/-- A thread number that stands for the saved thread of a kick. -/
def savedThread (k : Nat) : Nat := 16 + k

/-- Renames the thread that a buffer belongs to. -/
def reownBuf (col old new : Nat) (b : Buffer) : Buffer := if b.owner = some (col, old) then { b with owner := some (col, new) } else b

/-- Renames the thread that buffers belong to. -/
def reown (s : State) (col old new : Nat) : State :=
  { s with teams := s.teams.map fun t => { t with bufs := t.bufs.map fun bs => bs.map (reownBuf col old new) } }

/-- A stream thread is SAVED (R189). -/
def saveThread (c : Nat) (s : State) (p : Nat × Nat) : State :=
  let h := s.thread p.1 p.2
  let id := (h.kick.map (·.id)).getD 0
  let s := (s.reown p.1 p.2 (savedThread id)).modCtx c fun x => { x with saved := x.saved ++ [(p.1, h)] }
  s.modThread p.1 p.2 Thread.freed

/-- The wait counts of latch arrivals stop and go on (R229): while out, `at_` holds the cycles waited. -/
def flipLatches (s : State) (c : Nat) : State :=
  { s with cols := s.cols.map fun k => { k with cores := k.cores.map fun x => { x with
    latches := x.latches.map fun a =>
      if (s.grp a.grp).ctx = c && !s.ridgeLaunch (s.grp a.grp).launch then { a with at_ := s.cycles - a.at_ } else a } } }

/-- The groups of some teams are out of their cores, or back in them. -/
def setOut (s : State) (ts : List Nat) (o : Bool) : State :=
  { s with groups := s.groups.map fun g => if ts.contains g.team && g.st ≠ GState.exited then { g with out := o, waitFrom := none } else g }

end State

/-- Every save step has finished and the context is PREEMPTED (R276); a context that went FAULTED meanwhile stays so, with its teams out. -/
def execPreemptionComplete (ctx : Nat) (s : State) : Out' :=
  if !s.canPreempt ctx then notPending
  else
    let ts := (s.outTeams ctx).map (·.id)
    let s := (s.threadsOf ctx).foldl (State.saveThread ctx) s
    let s := ((ts.foldl State.saveTeam s).setOut ts true).flipLatches ctx
    .next ((s.modCtx ctx fun c => { c with st := if c.st = .active then .preempted else c.st, expiry := false }).changed)

/-! ### Resume (R278) -/

namespace State

/-- The teams of a context that a pre-emption took out. -/
def awayTeams (s : State) (c : Nat) : List Team :=
  s.teams.filter fun t => t.ctx = c && !t.resident && !t.swapped && Launch.live (s.launch t.launch)

/-- Puts the teams back one after the other, if each finds its cores free. -/
def restoreAll (s : State) (ts : List Team) : Option State :=
  ts.foldlM (fun (s : State) t => if s.roomBack t then some (s.restoreTeam t.id) else none) s

/-- A saved thread resumes on a free thread of its streamer. -/
def resumeThread (s : State) (x : Nat × Thread) : Option State :=
  (State.freeThread s x.1).map fun t =>
    let id := (x.2.kick.map (·.id)).getD 0
    (s.reown x.1 (savedThread id) t).modThread x.1 t fun h => { x.2 with credit := h.credit }

end State

/-- The scheduler gives the context residency again (R278). -/
def execContextResume (ctx : Nat) (s : State) : Out' :=
  let x := s.ctx ctx
  let away := s.awayTeams ctx
  if s.power ≠ .on || !(x.st = .preempted || (s.ctxRuns ctx && (!away.isEmpty || !x.saved.isEmpty) && !x.expiry)) then notPending
  else match s.restoreAll away with
    | none => notPending
    | some t =>
      match x.saved.foldlM State.resumeThread t with
      | none => notPending
      | some u =>
        let u := (u.setOut (away.map (·.id)) false).flipLatches ctx
        .next ((u.modCtx ctx fun c => { c with st := if c.st = .preempted then .active else c.st, held := 0, saved := [] }).changed)

/-! ### Quarantine (R279) -/

namespace State

/-- Something in progress still holds work of a context. -/
def workOfCtx (s : State) (c : Nat) (i : Item) : Bool :=
  let grp := fun g => decide ((s.grp g).ctx = c)
  let pod := bv (s.ctx c).record 128 20
  match i with
  | .result d _ _ _ _ => destOf grp d
  | .gather d _ _ _ => destOf grp d
  | .csmov d _ _ _ => destOf grp d
  | .late l => grp l.grp
  | .frame _ f => f.pod = pod && pod ≠ 0
  | .scr r => (s.team r.team).ctx = c
  | .kick k _ _ _ _ _ _ => k.ctx = c
  | .mx m => (s.team m.team).ctx = c
  | .row r => (s.team r.team).ctx = c
  | .remote r => r.ctx = c
  | .shootdown _ x _ _ _ _ => x = c
  | _ => false

end State

/-- Every agent of a killed context has stopped and it is QUARANTINED (R272, R279). -/
def execContextQuarantine (ctx : Nat) (s : State) : Out' :=
  if (s.ctx ctx).st ≠ .killed || s.flight.any (fun f => s.workOfCtx ctx f.item) then notPending
  else .next ((s.modCtx ctx fun c => { c with st := .quarantined }).changed)

/-! ### Semaphores (R281) -/

namespace State

/-- The agent that reads or writes may reach the block: a port that carries traffic, or the management core. -/
def semAgent (s : State) (agent : Nat) : Bool := agent = 3 || ((agent = 1 || agent = 2) && s.portCarries (agent - 1))

/-- A read claims a free semaphore (Table 16-3). -/
def semRead (s : State) (agent n : Nat) : State :=
  let o := s.sems.getD n 0
  if o = 0 then { s with sems := s.sems.set n agent }.out (.semaphore agent (BitVec.ofNat 64 (agent * 16 + 1)))
  else s.out (.semaphore agent (BitVec.ofNat 64 (o * 16)))

/-- A write by the holder frees a semaphore. -/
def semWrite (s : State) (agent n : Nat) : State := if s.sems.getD n 0 = agent then { s with sems := s.sems.set n 0 } else s

/-- One access of a port or of the management core. -/
def semDo (s : State) (agent n : Nat) (write : Bool) : State := if write then s.semWrite agent n else s.semRead agent n

/-- An access that may meet one of the other port in the same cycle: the block serves first the port it served second at the last meeting. -/
def semAccess (s : State) (agent n : Nat) (write : Bool) (meets : Option SemAccess) : Out' :=
  if 8 ≤ n || !s.semAgent agent then notPending
  else match meets with
    | none => .next ((s.semDo agent n write).changed)
    | some m =>
      let other := 3 - agent
      if 8 ≤ m.n || agent = 3 || !s.semAgent other then notPending
      else
        let t := if s.semLast = agent - 1 then (s.semDo agent n write).semDo other m.n m.write else (s.semDo other m.n m.write).semDo agent n write
        .next ({ t with semLast := 1 - s.semLast }.changed)

end State

/-- A read of a semaphore word. -/
def execSemaphoreRead (agent n : Nat) (meets : Option SemAccess) (s : State) : Out' := s.semAccess agent n false meets

/-- A write of a semaphore word. -/
def execSemaphoreWrite (agent n : Nat) (meets : Option SemAccess) (s : State) : Out' := s.semAccess agent n true meets

end Sys2Proof.Machine
end

