-- ==== Sys2Proof/Machine/Ports.lean ====
section
/-! DEFINITION. Ports and members (R359–R361, R372), the Larnar aperture (R362, R363) and the Ethernet engine (R380). -/

namespace Sys2Proof.Machine

open Sys2Proof

namespace State

/-! ### Members that are LOST (R360, R372) -/

/-- Ends one outstanding request as its target is LOST. -/
def loseRequest (p : Nat → Bool) (s : State) (id : Nat) : State :=
  match s.item id with
  | some (.remote r) => if r.answer.isNone && (r.dev.map p).getD false then s.endRemote id r .dead else s
  | _ => s

/-- An armed key of a pod context that some lost member had registered enters ERROR with `DEAD` at its barrier. -/
def loseKey (p : Nat → Bool) (col : Nat) (s : State) (k : Key) : State :=
  if k.armed && p k.key.pod then (s.keyError k 4).dropKey col k.key else s

/-- What the loss of members does: their outstanding requests, and the keys of pod contexts that they had registered (R372). -/
def loseMembers (s : State) (lost : Nat → Bool) (registered : Nat → Bool) : State :=
  let s := (s.flight.map (·.id)).foldl (loseRequest lost) s
  let s := (List.range s.cols.length).foldl (fun s c => (s.col c).keys.foldl (loseKey registered c) s) s
  s.sendAll

/-- A member becomes LOST. -/
def loseMember (s : State) (m : Nat) : State :=
  ({ s with lost := setPut s.lost m }).loseMembers (· = m) (Config.hadRegistered m)

/-- Every pod port is DOWN or ISOLATED. -/
def noPodPort (s : State) : Bool := (List.range 16).all fun i => s.ports.getD (2 + i) .down = .down || s.ports.getD (2 + i) .down = .isolated

/-- With all sixteen pod ports DOWN or ISOLATED, every member is LOST, this device among them (R360). -/
def checkPorts (s : State) : State :=
  if !s.noPodPort || decide (1024 ≤ s.lost.length) then s
  else ({ s with lost := List.range 1024 }).loseMembers (fun _ => true) fun pod => (List.range 1024).any fun m => m ≠ s.dev && Config.hadRegistered m pod

/-- What a port held when it left UP or DEGRADED: a request goes out again by another port to the same peer, else it ends as if its target were LOST (R359, R372). -/
def leavePort (p : Nat) (s : State) (id : Nat) : State :=
  match s.item id with
  | some (.remote r) =>
    if r.via ≠ some p || r.answer.isSome then s
    else if r.waiting then s.setItem id (.remote { r with via := none })
    else if (s.portFor r).isSome then s.emit id r
    else s.endRemote id r .dead
  | _ => s

/-- What waits in the device for a port that carries traffic goes out. -/
def joinPort (s : State) (id : Nat) : State :=
  match s.item id with
  | some (.remote r) => if r.sent && !r.waiting && leaves r && r.via.isNone && r.answer.isNone then s.emit id r else s
  | _ => s

/-- The semaphores that a Larnar port holds are freed when its link goes down (R281). -/
def freeSems (s : State) (p : Nat) : State := { s with sems := s.sems.map fun o => if o = p + 1 then 0 else o }

/-- A port takes a state (Table 23-1): one that comes to carry traffic takes what waits for it, and what one held that carries none goes elsewhere or ends (R359). -/
def setPort (s : State) (p : Nat) (x : PortState) : State :=
  let carried := s.portCarries p
  let s : State := { s with ports := s.ports.set p x }
  let s := if p < 2 && (x = .isolated || x = .down) then s.freeSems p else s
  let ids := s.flight.map (·.id)
  let s := if s.portCarries p then ids.foldl joinPort s else if carried then (ids.foldl (leavePort p) s).sendAll else s
  s.checkPorts

def portState (s : State) (p : Nat) : PortState := s.ports.getD p .down

end State

/-! ### Commands of ports and members -/

/-- The management core (agent 3) enables a port that is DOWN (Table 23-1); among the commands of a Larnar port there is none that does, so one of a port is refused (R396). -/
def execPortEnable (port link : Nat) (s : State) : Out' :=
  if port = 3 then (if 22 ≤ link || s.portState link ≠ .down then notPending else .next ((s.setPort link .training).changed))
  else s.command port fun s => s.configError port

/-- The isolate command. -/
def execIsolate (port link : Nat) (s : State) : Out' :=
  s.command port fun s =>
  if 22 ≤ link then s.configError port else (s.setPort link .isolated).accepted port

/-- The restore command. -/
def execRestore (port link : Nat) (s : State) : Out' :=
  s.command port fun s =>
  if 22 ≤ link || s.portState link ≠ .isolated then s.configError port else (s.setPort link .training).accepted port

/-- The re-admit command: a LOST member is LIVE again (R360). -/
def execReAdmit (port member : Nat) (s : State) : Out' :=
  s.command port fun s =>
  if 1024 ≤ member then s.configError port else { s with lost := s.lost.filter (· ≠ member) }.accepted port

/-- The member-number command (R361): what waited for the first number goes out. -/
def execMemberNumber (port value : Nat) (s : State) : Out' :=
  s.command port fun s =>
  if !s.ctxs.isEmpty || 0x3FE < value || s.hostdev.contains (some value) then s.configError port
  else ({ s with dev := value, devSet := true }).sendAll.accepted port

/-- The command that sets `HOSTDEV` and the host windows of a Larnar port (R363). -/
def execHostWindows (port larnar hostdev : Nat) (windows : List HostWindow) (s : State) : Out' :=
  s.command port fun s =>
  if 2 ≤ larnar || 0x3FE < hostdev || 16 < windows.length || (s.devSet && hostdev = s.dev) then s.configError port
  else { s with hostdev := s.hostdev.set larnar (some hostdev), windows := s.windows.set larnar windows }.accepted port

/-! ### Events of ports (Table 23-1) -/

/-- Training ends. -/
def execTraining (link : Nat) (result : TrainResult) (s : State) : Out' :=
  if 22 ≤ link || s.portState link ≠ .training then notPending
  else .next ((s.setPort link (match result with
    | .full => .up
    | .reduced => .degraded
    | .failed => .down)).changed)

/-- A lane fails and the port retrains at a reduced width. -/
def execLaneFail (link : Nat) (s : State) : Out' :=
  if 22 ≤ link || s.portState link ≠ .up then notPending else .next ((s.setPort link .degraded).changed)

/-- The data-link replay limit is passed. -/
def execReplayLimit (link : Nat) (s : State) : Out' :=
  if 22 ≤ link || !s.portCarries link then notPending else .next ((s.setPort link .isolated).changed)

/-- The peer has sent nothing for 1 ms. -/
def execPeerSilence (link : Nat) (s : State) : Out' :=
  if 22 ≤ link || !s.portCarries link then notPending else .next ((s.setPort link .isolated).changed)

/-- A Larnar link goes down: its semaphores are freed and the history of meetings stays (R281). -/
def execLarnarLinkDown (port : Nat) (s : State) : Out' :=
  if 2 ≤ port || !s.portCarries port then notPending else .next ((s.setPort port .isolated).changed)

/-- The fabric manager reports a member lost (R360, R372). -/
def execLossNotice (member : Nat) (s : State) : Out' := if 1024 ≤ member then notPending else .next ((s.loseMember member).changed)

/-! ### The Larnar aperture (R362) -/

namespace State

/-- First offset of the atomic window, of the doorbell words, of the semaphores and of the mailbox (Table 23-2). -/
def atomBase : Nat := 2 ^ 41
def doorBase : Nat := 2 ^ 40
def semBase : Nat := 2 ^ 40 + 0x1000
def mailBase : Nat := 2 ^ 40 + 0x2000

/-- An access of `n` bytes lies in a region. -/
def within (a n base size : Nat) : Bool := decide (base ≤ a) && decide (a + n ≤ base + size)

/-- Host memory accesses reach device memory of columns that can serve it (R21, R362). -/
def hostSpan (s : State) (a n : Nat) : Bool := decide (0 < n) && decide (n ≤ 128) && s.physSpan a n && !s.colDead (a / 2 ^ 35)

/-- An error response on the link; nothing changes. -/
def hostFails (s : State) (port : Nat) : Out' := .next ((s.out (.hostError port)).changed)

/-- A host atomic at its home, one indivisible step that returns the old value (R362). -/
def hostAtomic (s : State) (port addr : Nat) (f : Nat → Nat) : Out' :=
  let a := addr - atomBase
  s.hostAct port <|
  if addr < atomBase || a % 8 ≠ 0 || !s.hostSpan a 8 then s.hostFails port
  else
    let old := s.mem.nat a 8
    .next (((s.storeHome [(a, leBytes 8 (f old % 2 ^ 64))] false).out (.hostData port (leBytes 8 old))).changed)

end State

namespace State

/-- What the mailbox of a port reports beyond its command and the FIFO: the reset's failing step and reason, why a split was refused, the status of the last command, the nested-fault report, the vendor's certificate (R23, R329, R387, R390, R396). -/
def mailReports (s : State) (port : Nat) : List Nat :=
  let boot := match s.boot with
    | .ready => [0, 0]
    | .stays n why => [n, why]
  let status := match (s.mails.getD port ⟨[], none⟩).status with
    | none => 0
    | some ok => 1 + bit ok
  let report := match s.report with
    | none => []
    | some r => [r.ctx, r.col, r.core, r.gid, r.cause, r.pc.toNat]
  boot ++ [s.splitRefused, status] ++ report ++ Config.certificate.map (·.toNat)

/-- A byte of the mailbox of a port (R396): the command, the `sint` messages of the FIFO with the drop count in the last word, and the rest, whose layout is free. -/
def mailByte (s : State) (port i : Nat) : Byte :=
  if i < 256 then (s.mails.getD port ⟨[], none⟩).command.getD i 0
  else if 512 ≤ i && i < 764 then BitVec.ofNat 8 ((s.fifo.getD ((i - 512) / 4) 0).toNat / 2 ^ (8 * (i % 4)))
  else if 764 ≤ i && i < 768 then BitVec.ofNat 8 (s.drops / 2 ^ (8 * (i % 4)))
  else Config.mailbox (s.mailReports port) i

/-- A read of the mailbox; one of the first FIFO word takes the message out. -/
def mailRead (s : State) (port i n : Nat) : State :=
  let t : State := if i ≤ 512 && 512 < i + n then { s with fifo := s.fifo.tail } else s
  t.out (.hostData port ((List.range n).map fun k => s.mailByte port (i + k)))

/-- A write of the mailbox: the command bytes take it, and one that reaches word 0 submits the command (R396). -/
def mailWrite (s : State) (port i : Nat) (bytes : List Byte) : State :=
  let put := fun (c : List Byte) => (List.range bytes.length).foldl (fun (c : List Byte) k => c.set (i + k) (bytes.getD k 0)) c
  let s : State := { s with mails := s.mails.modify port fun m => { m with command := put m.command } }
  if i < 4 then { s with submitted := s.submitted ++ [port] } else s

end State

/-- A host read (R362). A device that stays in reset answers for its mailbox alone (R387). -/
def execHostRead (port addr n : Nat) (s : State) : Out' :=
  if 2 ≤ port || !s.portCarries port then notPending
  else if State.within addr n State.mailBase 0x1000 && decide (0 < n) then .next ((s.mailRead port (addr - State.mailBase) n).changed)
  else if s.boot ≠ .ready then s.hostFails port
  else if n = 8 && addr % 8 = 0 && State.within addr 8 State.semBase 64 then s.semAccess (port + 1) ((addr - State.semBase) / 8) false none
  else if s.hostSpan addr n then .next ((s.out (.hostData port (s.mem.bytes addr n))).changed)
  else s.hostFails port

/-- A host write, with a fresh check value from ingress (R339, R362). A write to word 0 of the mailbox submits a command, which comes about as that command's own event (R396). -/
def execHostWrite (port addr : Nat) (bytes : List Byte) (s : State) : Out' :=
  let n := bytes.length
  let first := (addr - State.doorBase) / 8
  s.hostAct port <|
  if s.hostSpan addr n then .next ((s.storeHome [(addr, bytes)] false).changed)
  else if State.within addr n State.doorBase 2048 && decide (0 < n) then
    .next ((s.doorbells ((List.range ((addr + n - 1 - State.doorBase) / 8 + 1 - first)).map (first + ·))).changed)
  else if n = 8 && addr % 8 = 0 && State.within addr 8 State.semBase 64 then s.semAccess (port + 1) ((addr - State.semBase) / 8) true none
  else if State.within addr n State.mailBase 0x1000 && decide (0 < n) then .next ((s.mailWrite port (addr - State.mailBase) bytes).changed)
  else s.hostFails port

/-- A Larnar fetch-add (R362). -/
def execHostFetchAdd (port addr : Nat) (x : Word) (s : State) : Out' := s.hostAtomic port addr fun old => old + x.toNat

/-- A Larnar swap (R362). -/
def execHostSwap (port addr : Nat) (x : Word) (s : State) : Out' := s.hostAtomic port addr fun _ => x.toNat

/-- A Larnar compare-swap (R362). -/
def execHostCompareSwap (port addr : Nat) (cmp new : Word) (s : State) : Out' :=
  s.hostAtomic port addr fun old => if old = cmp.toNat then new.toNat else old

/-! ### The Ethernet engine (R380) -/

/-- The command that creates a queue pair. -/
def execQueuePairCreate (port qp doorbell : Nat) (s : State) : Out' :=
  s.command port fun s =>
  if 4096 ≤ qp || doorbell % 8 ≠ 0 || !s.physSpan doorbell 8 || doorbell % 2 ^ 35 < 0x400000000 || s.qps.any (fun x => x.qp = qp) then s.configError port
  else { s with qps := s.qps ++ [QueuePair.mk qp doorbell (BitVec.ofNat 64 (s.mem.nat doorbell 8)) 0] }.accepted port

/-- The engine reads every doorbell word. -/
def execEthernetDoorbellPoll (s : State) : Out' := .next ({ s with qps := s.qps.map (State.pollPair s.mem) }.changed)

namespace State

/-- Some bytes that an Ethernet packet names: device memory of a column that serves it. -/
def rdmaSpan (s : State) (a n : Nat) : Bool := s.physSpan a n && !s.colDead (a / 2 ^ 35)

/-- Bytes that arrive on an Ethernet port are written with fresh check values. -/
def rdmaWrite (s : State) (a : Nat) (bytes : List Byte) : Out' :=
  .next ((if s.rdmaSpan a bytes.length then s.storeHome [(a, bytes)] false else s).changed)

end State

/-- A RoCEv2 packet of a queue pair arrives on an Ethernet port that carries traffic (R380); egress checks what a read sends (R339). -/
def execRdmaIngress (qp : Nat) (op : RdmaOp) (s : State) : Out' :=
  if !(s.qps.any fun x => x.qp = qp) || !([18, 19, 20, 21].any s.portCarries) then notPending
  else match op with
    | .write a b => s.rdmaWrite a b
    | .send a b => s.rdmaWrite a b
    | .response a b => s.rdmaWrite a b
    | .read a n => if s.rdmaSpan a n then .next ((s.out (.rdma qp (s.mem.bytes a n) (s.mem.anyPoisoned a n))).changed) else .next s.changed

end Sys2Proof.Machine
end

