-- ==== Sys2Proof/Machine/Device.lean ====
section
/-! DEFINITION. Device operation (25_device_operation.md) and the errors of columns, lines and meshes (R20, R21, R37, R312, R341): reset, power, the configuration record, attestation, limits on issue, scrubbing. -/

namespace Sys2Proof.Machine

open Sys2Proof

/-! ### The configuration record (R388) -/

/-- The check of a record's header, with its signature: the reset step that refuses it, if one does (Table 25-1 steps 2 and 3). A signature that begins before `RECLEN` (Table 25-2) refuses it too, as does a header that `RECLEN` does not hold. -/
def recordRefused (r : ConfigRecord) : Option Nat :=
  let n := recLength r
  if !r.signed then some 2
  else if recReserved r || recMagic r ≠ 0x4B5A0C0F || (List.range 34).any (fun p => recColState r p = 3) || decide (n < 64) ||
    decide (n < recTrimOff r + recTrimLen r) || decide (n < recTrainOff r + recTrainLen r) || decide (recSigOff r < n) then some 3
  else none

/-- The flash slots in the order in which the boot ROM tries them: the higher `SEQNO` first. -/
def bootOrder (fl : List ConfigRecord) : List ConfigRecord :=
  match fl with
  | [a, b] => if recSeqno a < recSeqno b then [b, a] else [a, b]
  | l => l

/-- The record that the device boots from, or the step at which the last one tried failed. -/
def bootRecord : List ConfigRecord → Nat → Except Nat ConfigRecord
  | [], last => .error last
  | r :: rs, _ => match recordRefused r with
    | none => .ok r
    | some n => bootRecord rs n

namespace State

/-! ### Reset (R387) -/

/-- The partitions of a stored split over the logical columns: first column and count of each (R23). -/
def formSplit (phys : List Nat) (ranges : List (Nat × Nat)) : List (Nat × Nat) :=
  ranges.map fun r =>
    let mine := phys.filter fun p => decide (r.1 ≤ p) && decide (p ≤ r.2)
    ((phys.filter fun p => decide (p < r.1)).length, mine.length)

/-- What survives a loss of power: flash, the map-out list and the stored split; and what lies outside the device. -/
def wiped (s : State) : State :=
  { State.reset with
    flash := s.flash
    mapOut := s.mapOut
    storedSplit := s.storedSplit
    schedule := s.schedule
    draws := s.draws
    nextId := s.nextId
    images := s.images
    outbox := s.outbox }

/-- The ports of a device that stays in reset: the Larnar ports stay alive, training where they carried nothing; no other does (R387). -/
def resetPorts (s : State) : List PortState :=
  (List.range 22).map fun p => if 2 ≤ p then .down else if s.portCarries p then s.ports.getD p .down else .training

/-- The device stays in reset: the failing step and its reason (R387). -/
def stays (s : State) (step why : Nat) : State :=
  { s.wiped with boot := .stays step why, cols := [], split := [], ports := s.resetPorts, identity := decide (4 < step) }

/-- Memory after step 8: zero, but for the `STATE` of the 256 descriptors at the record's queue table (R283). -/
def bootMemory (r : ConfigRecord) : Memory :=
  let m : Memory := ⟨[], [], [], []⟩
  if recQtabPa r = Config.qtabPa then m
  else
    let m := (List.range 256).foldl (fun (m : Memory) q => m.put (Config.qtabPa + 64 * q + 40) 0) m
    (List.range 256).foldl (fun (m : Memory) q => m.put (recQtabPa r + 64 * q + 40) 4) m

/-- Why the split that a reset formed is refused (R23): 0 it is not, 1 a partition holds no USE column, 2 its columns cannot reach one another. -/
def splitBad (env : BootEnv) (sp : List (Nat × Nat)) : Nat := if sp.any fun p => p.2 = 0 then 1 else if env.unreachable then 2 else 0

/-- The boot ROM's steps in order (Table 25-1). The reason of a failure is 1, but for step 7: 1 no USE column, 2 more than 32. -/
def bootSteps (s : State) (env : BootEnv) : State :=
  match bootRecord (bootOrder s.flash) 1 with
  | .error n => s.stays n 1
  | .ok r =>
    if !env.pufOk then s.stays 4 1
    else
      let mapOut := (env.trainFail.filter fun p => p < 34).foldl setPut s.mapOut
      let s := { s with mapOut := mapOut }
      let phys := usable r mapOut
      if 32 < (recUse r).length then s.stays 7 2
      else if phys.isEmpty then s.stays 7 1
      else
        let sp := formSplit phys s.storedSplit
        let bad := splitBad env sp
        ({ s.wiped with
          mem := bootMemory r
          cols := phys.map Column.reset
          record := r
          split := if bad = 0 then sp else [(0, phys.length)]
          splitRefused := bad
          ports := (List.range 22).map fun p => if r.ports.contains p then .training else .down }).checkPorts

end State

/-- A reset or OFF command from a Larnar port: the management core performs it in its turn; on a device that stays in reset, whose management core has not started, the port's command acts at once (R387, R396). -/
def State.powerAct (s : State) (port : Nat) (act : State → Out') : Out' :=
  if s.boot = .ready && s.power ≠ .off then s.command port act
  else if 2 ≤ port || s.power = .off || !s.portCarries port then notPending
  else act s

/-- A reset command from either Larnar port (R387). -/
def execReset (port : Nat) (env : BootEnv) (s : State) : Out' :=
  s.powerAct port fun s => .next ((s.bootSteps env).changed)

/-- Power is applied and the boot ROM runs (R387). -/
def execPowerOn (env : BootEnv) (s : State) : Out' := if s.power ≠ .off then notPending else .next ((s.bootSteps env).changed)

/-! ### Power states (Table 25-3) -/

/-- The STANDBY command: refused unless every context is PREEMPTED or there is none; the pod ports go DOWN. -/
def execStandby (port : Nat) (s : State) : Out' :=
  s.command port fun s =>
  if s.power ≠ .on || s.ctxs.any (fun c => c.st ≠ .preempted) then s.configError port
  else
    let t := (List.range 16).foldl (fun (s : State) p => s.setPort (2 + p) .down) { s with power := .standby }
    t.accepted port

/-- The power of the device is removed: memory is lost, and leaving OFF is a reset. -/
def State.powerDown (s : State) : State :=
  { s.wiped with power := .off, cols := [], split := [], ports := List.replicate 22 .down, identity := false }

/-- The OFF command. -/
def execOff (port : Nat) (s : State) : Out' :=
  s.powerAct port fun s => .next (s.powerDown.changed)

/-- The command that returns the device from STANDBY to IDLE. -/
def execIdle (port : Nat) (s : State) : Out' :=
  s.command port fun s =>
  if s.power ≠ .standby then s.configError port else { s with power := .on }.accepted port

/-! ### Record, partitions, quote -/

/-- The command that writes a new record over the slot with the lower `SEQNO` (R389). -/
def execRecordUpdate (port : Nat) (record : ConfigRecord) (s : State) : Out' :=
  let fl := match s.flash with
    | [a, b] => if recSeqno b < recSeqno a then [a, record] else [record, b]
    | l => l ++ [record]
  s.command port fun s => { s with flash := fl }.accepted port

/-- Some range of a split ends before it begins, leaves the device, or meets another (R23). -/
def rangesBad : List (Nat × Nat) → Bool
  | [] => false
  | r :: rs => decide (r.2 < r.1) || decide (34 ≤ r.2) || rs.any (fun x => !(decide (r.2 < x.1) || decide (x.2 < r.1))) || rangesBad rs

/-- The partition command stores a split for the next reset, only while no context exists (R19, R23). Ranges that are no 1, 2 or 4 partitions are a configuration error (DESIGN CHOICE, log 42). -/
def execPartition (port : Nat) (ranges : List (Nat × Nat)) (s : State) : Out' :=
  let n := ranges.length
  s.command port fun s =>
  if !s.ctxs.isEmpty || !(n = 1 || n = 2 || n = 4) || rangesBad ranges then s.configError port
  else { s with storedSplit := ranges }.accepted port

/-- The quote command: the quote is in progress, behind any other, and its response comes with it (R391). -/
def execQuote (port : Nat) (nonce : BitVec 256) (s : State) : Out' :=
  s.command port fun s => .next ((s.place (.quote port nonce)).changed)

/-! ### Temperature, power, droop (R393, R395) -/

namespace State

def modDie (s : State) (d : Nat) (f : Die → Die) : State := { s with dies := s.dies.modify d f }

def die (s : State) (d : Nat) : Die := s.dies.getD d ⟨false, false, false⟩

/-- Issue of a column is halved, for whatever reason (R393, R395): only its timing changes. -/
def halvedIssue (s : State) (c : Nat) : Bool := s.overPower || (s.die (s.dieOf c)).hot || (s.die (s.dieOf c)).halved

end State

/-- A die reaches 100 °C. -/
def execThermalHigh (die : Nat) (s : State) : Out' :=
  if 2 ≤ die then notPending else .next ((s.modDie die fun d => { d with hot := true }).changed)

/-- A die falls below 95 °C. -/
def execThermalNormal (die : Nat) (s : State) : Out' :=
  if 2 ≤ die || !(s.die die).hot then notPending else .next ((s.modDie die fun d => { d with hot := false }).changed)

/-- A die reaches 115 °C: the device trips to OFF. -/
def execThermalTrip (die : Nat) (s : State) : Out' := if 2 ≤ die || s.power = .off then notPending else .next (s.powerDown.changed)

/-- Average module power exceeds 1,800 W. -/
def execPowerOver (s : State) : Out' := .next ({ s with overPower := true }.changed)

/-- Average module power falls below 1,710 W. -/
def execPowerNormal (s : State) : Out' := if s.overPower then .next ({ s with overPower := false }.changed) else notPending

/-- The core supply of a die falls below nominal: an enabled detector raises an alarm at its threshold, and the stretched cycles begin, or begin again (R394, R395). -/
def execAlarm (droop : Droop) (s : State) : Out' :=
  if 2 ≤ droop.die || !s.droopEn || decide (droop.drop < s.droopThresh.toNat) then notPending
  else
    let n : BitVec 32 := if s.alarms = 0xFFFFFFFF then s.alarms else s.alarms + 1
    .next ((({ s with alarms := n }).modDie droop.die fun d => { d with stretch := true, halved := false }).changed)

/-- The six stretched cycles end. -/
def execStretchEnd (die : Nat) (s : State) : Out' :=
  if (s.die die).stretch then .next ((s.modDie die fun d => { d with stretch := false, halved := true }).changed) else notPending

/-- The 64 halved cycles end. -/
def execHalvedWindowEnd (die : Nat) (s : State) : Out' :=
  if (s.die die).halved then .next ((s.modDie die fun d => { d with halved := false }).changed) else notPending

/-! ### Errors of columns (R20, R21) -/

namespace State

/-- A column goes DEGRADED and joins the map-out list; a column that is DEGRADED stays so (Table 2-2, R21). -/
def degrade (s : State) (c : Nat) : State :=
  let s := { s with mapOut := setPut s.mapOut (s.col c).phys }
  s.modCol c fun x => { x with degraded := true }

/-- A context has a team or a mapped page in a column. -/
def usesColumn (s : State) (c : Nat) (x : Context) : Bool :=
  s.teams.any (fun t => t.ctx = x.num && t.col = c && Launch.live (s.launch t.launch)) || x.pages.any (fun p => p / 8 / 2 ^ 35 = c) ||
  (decide ((s.part x.num).1 ≤ c) && decide (c < (s.part x.num).1 + s.ncol x.num) &&
    pteState (s.mem.nat (bv x.record 448 64 + 8 * s.colNum x.num c) 8) = 1 && bv x.record 448 64 != 0)

/-- Requests of this device that have not been performed at a column that serves memory no longer complete with poison (R21). -/
def loseColumn (c : Nat) (f : Flight) : Flight :=
  match f.item with
  | .remote r => if r.dev.isNone && r.host.isNone && r.tcol = c && r.answer.isNone then ⟨f.id, .remote { r with answer := some (0, some .dead, false) }⟩ else f
  | _ => f

/-- A column can no longer execute or serve memory: every context that uses it is killed (R21). -/
def killColumn (s : State) (c : Nat) : State :=
  let who := (s.ctxs.filter (s.usesColumn c)).map (·.num)
  let s := who.foldl killCtx (s.modCol c fun x => { x with dead := true })
  { s with flight := s.flight.map (loseColumn c) }

/-! ### Errors in scratchpads (R352) -/

/-- The team and core whose SCR segment holds a home address. -/
def scrOwner (s : State) (a : Nat) : Option (Nat × Nat) :=
  s.teams.findSome? fun t =>
    if !t.resident then none
    else ((teamCores t).find? fun k => decide (scrHome t.col k t.scrBase ≤ a) && decide (a < scrHome t.col k (t.scrBase + t.scrBytes))).map fun k => (t.id, k)

/-- A group would reach row 5 of Table 21-2. -/
def wouldRoll (g : Group) : Bool :=
  !g.privileged && (match g.regions with
    | [] => false
    | r :: _ => !r.sealed && r.retry ≠ 2)

/-- SHARED_UNCORRECTABLE in a line of a team's SCR segment: every group rolls back, or the launch ends at queue level (R352). -/
def teamLevel (s : State) (t a : Nat) : State :=
  let live := (s.teamGroups t).filter fun g => g.st ≠ .exited
  if live.all wouldRoll then live.foldl (fun (s : State) g => s.rollback g.id 0xBA) s
  else match live.find? fun g => !wouldRoll g with
    | none => s
    | some g =>
      let b := g.image.slotA.isNone
      let p := (g.image.slot b).getD Path.blank
      s.queueLevel ⟨g.id, b, 0xBA, a / 128 % 32, none, 0, p.mask, 0, p.pc, true, false⟩

/-- An uncorrectable error in one line: it is poisoned where it is found; a cairn line word by word; one of a team's SCR segment also acts on the team (R245, R340, R341, R352). -/
def strikeLine (s : State) (a : Nat) : State :=
  let l := lineOf a
  if 2 ^ 42 ≤ l then
    { s with mem := { s.mem with cairnPoison := (List.range 32).foldl (fun p i => setPut p (l + 4 * i)) s.mem.cairnPoison } }
  else
    let s : State := { s with mem := s.mem.poisonLine l }
    match s.scrOwner l with
    | some (t, _) => s.teamLevel t (l % 2 ^ 20)
    | none => s

end State

/-- A part's corrected-error count passes the threshold (R20). -/
def execCorrectedErrorThreshold (col : Nat) (s : State) : Out' := if s.cols.length ≤ col then notPending else .next ((s.degrade col).changed)

namespace State

/-- The data of something in progress is marked poisoned where a mismatch is found (R339). -/
def strikeItem (s : State) (id : Nat) : State :=
  match s.item id with
  | some (.result d ls x p true) =>
    let mark := fun (o : Option Poison) => some (o.getD .line)
    s.setItem id (.result d (ls.map fun v => { v with poison := mark v.poison }) x (mark p) true)
  | some (.mcline x t k l ps _ n) => s.setItem id (.mcline x t k l ps true n)
  | some (.remote r) => match r.answer with
    | some (v, none, true) => s.setItem id (.remote { r with answer := some (v, some .line, true) })
    | some _ => s
    | none => s.setItem id (.remote { r with poison := true })
  | some (.brixel k q) => s.setItem id (.brixel k { q with poison := true })
  | some (.frame c f) => s.setItem id (.frame c { f with poison := true })
  | _ => s

/-- An error in a register-cache line: the next instruction that reads the register raises POISON_CONSUMED (R352). -/
def strikeRegister (s : State) (g r : Nat) (vec : Bool) (lane : Nat) : State :=
  s.modImage g fun im =>
    if vec then { im with v := vmod im.v r fun x => { x with poison := (x.poison.filter fun p => p.1 ≠ lane % 64) ++ [(lane % 64, .line)] } }
    else { im with s := if r = 0 then im.s else vmod im.s r fun x => { x with poison := some .line } }

/-- A copy of a line in an L1 cache is marked poisoned (R339). -/
def strikeCopy (s : State) (c k line : Nat) (inv : Bool) : State :=
  s.modCore c k fun x => { x with l1 := x.l1.map fun l => if l.line = lineOf line && l.invariant = inv then { l with poisoned := true } else l }

end State

/-- An uncorrectable error strikes a column's own hardware: containment acts, then the column goes DEGRADED (R20, R21). A mismatch in data on its way between tiers is marked there, and no column's hardware is at fault (R339). -/
def execUncorrectableError (col : Nat) (site : ErrSite) (s : State) : Out' :=
  if s.cols.length ≤ col then notPending
  else match site with
    | .carried id => .next ((s.strikeItem id).changed)
    | .line a => .next (((s.strikeLine a).degrade col).changed)
    | .page leaf => .next (((if pteLeaf (s.mem.nat leaf 8) && pteState (s.mem.nat leaf 8) = 1 then s.setPage leaf 2 else s).degrade col).changed)
    | .structureOf c => .next (((s.killCtx c).degrade col).changed)
    | .register g r v l => .next (((s.strikeRegister g r v l).degrade col).changed)
    | .cached k l inv => .next (((s.strikeCopy col k l inv).degrade col).changed)
    | .hardware lost => .next (((if lost then s.killColumn col else s).degrade col).changed)

/-! ### Errors of the meshes (R37) -/

/-- An uncorrectable payload error kills the context that the packet's header names. -/
def execMeshPayloadError (ctx : Nat) (s : State) : Out' := if s.noContext ctx then notPending else .next ((s.killCtx ctx).changed)

/-- An uncorrectable header error kills every context with a team or a page in the partition and stops its routers: no request of this device there completes but with poison. -/
def execMeshHeaderError (part : Nat) (s : State) : Out' :=
  if s.split.length ≤ part then notPending
  else
    let p := s.split.getD part (0, 0)
    let who := (s.ctxs.filter fun c => (List.range p.2).any fun k => s.usesColumn (p.1 + k) c).map (·.num)
    let s := who.foldl State.killCtx s
    let s := (List.range p.2).foldl (fun (s : State) k => { s with flight := s.flight.map (State.loseColumn (p.1 + k)) }) s
    .next ({ s with stopped := setPut s.stopped part }.changed)

/-- System software resets a partition that a header error stopped. -/
def execPartitionReset (port part : Nat) (s : State) : Out' :=
  s.command port fun s =>
  if !s.stopped.contains part then s.configError port else { s with stopped := s.stopped.filter (· ≠ part) }.accepted port

/-! ### The patrol scrubber (R312, R341) -/

namespace State

/-- The level of a page that some context touched, by the address of its leaf. -/
def pageLevel (s : State) (leaf : Nat) : Option Nat := (s.ctxs.flatMap (·.pages)).findSome? fun p => if p / 8 = leaf then some (p % 8) else none

/-- No page of a QUARANTINED context is QUARANTINED or SCRUBBING any longer: its entry is unused again (Table 16-2). -/
def releaseCtxs (s : State) : State :=
  { s with ctxs := s.ctxs.filter fun c => !(c.st = .quarantined && c.pages.all fun p => pteState (s.mem.nat (p / 8) 8) ≠ 3 && pteState (s.mem.nat (p / 8) 8) ≠ 4) }

/-- The teams, of contexts that touched a CAIRN page, whose cairn in the page's column it mapped. -/
def cairnUsers (s : State) (leaf : Nat) : List Team :=
  s.teams.filter fun t => t.col = leaf / 2 ^ 35 && (s.ctx t.ctx).pages.any fun p => p / 8 = leaf

/-- The address is a byte of a page: of a CAIRN page, a byte that some team reached by it, and the byte that R308 names where none did. -/
def inPage (s : State) (leaf e l a : Nat) : Bool :=
  let p := ptePa e
  let n := 2 ^ levelShift l
  let c := leaf / 2 ^ 35
  let span := fun (b m : Nat) => decide (b ≤ a) && decide (a < b + m)
  let us := s.cairnUsers leaf
  if pteTgt e = 2 && !us.isEmpty then
    us.any fun t =>
      if t.pair then span (cairnHome c (t.core * 2 ^ 23 + p % 2 ^ 24 / 2)) (n / 2) || span (cairnHome c ((t.core + 1) * 2 ^ 23 + p % 2 ^ 24 / 2)) (n / 2)
      else span (cairnHome c (t.core * 2 ^ 23 + p % 2 ^ 23)) n
  else span (physHome c (pteTgt e) p) n

/-- Memory with every line of a page written as zero: the lines that held anything have new tags (R312, R341). -/
def zeroPage (s : State) (leaf e l : Nat) : Memory :=
  let hit := s.inPage leaf e l
  let m := s.mem
  let lines := (((m.cells.map fun c => lineOf c.1) ++ m.poisoned ++ m.tags.map (·.1)).filter hit).foldl setPut []
  lines.foldl Memory.bump { m with
    cells := m.cells.filter fun c => !hit c.1
    poisoned := m.poisoned.filter fun a => !hit a
    cairnPoison := m.cairnPoison.filter fun a => !hit a }

end State

/-- The scrubber has read a line with its tag: its write-back, or the error it found, counts only if the tag is still the same (R341). An uncorrectable error makes the line's column DEGRADED once containment has acted (R20). -/
def execPatrolScrub (line tag : Nat) (bad : Bool) (s : State) : Out' :=
  if s.cols.length ≤ State.homeCol line then notPending
  else if s.mem.tag line = tag && bad then .next ((((s.strikeLine line).degrade (State.homeCol line)).releaseCtxs).changed)
  else .next (s.releaseCtxs.changed)

/-- The scrubber takes a QUARANTINED page, once no killed context still has work in progress on it (Table 19-3). -/
def execScrubbing (leaf : Nat) (s : State) : Out' :=
  let busy := s.ctxs.any fun c => c.st = .killed && c.pages.any fun p => p / 8 = leaf
  if pteLeaf (s.mem.nat leaf 8) && pteState (s.mem.nat leaf 8) = 3 && !busy then .next ((s.setPage leaf 4).changed) else notPending

/-- Every line of a SCRUBBING page has been rewritten as zero with fresh check values: FREE (Table 19-3). -/
def execScrubDone (leaf : Nat) (s : State) : Out' :=
  let e := s.mem.nat leaf 8
  match s.pageLevel leaf with
  | none => notPending
  | some l =>
    if !pteLeaf e || pteState e ≠ 4 then notPending
    else .next (((({ s with mem := s.zeroPage leaf e l }).setPage leaf 5).releaseCtxs).changed)

end Sys2Proof.Machine
end

