-- ==== Sys2Proof/Machine/Elementary.lean ====
section
/-! DEFINITION. The transcendental and reciprocal functions (R71, Table 4-10) and the activations of the epilogue (R243). The spec bounds their error and leaves the result within the bound to the device: the result is the free value `Config.pick` where that lies within the bound, and the nearest value otherwise. The exact value is approached by fixed-point arithmetic whose error is below 2^−60 of the result. -/

namespace Sys2Proof.Machine

open Sys2Proof

/-- floor of the square root. -/
def isqrt (n : Nat) : Nat :=
  (List.range (Nat.log2 n / 2 + 1)).foldr (fun i r => if (r + 2 ^ i) * (r + 2 ^ i) ≤ n then r + 2 ^ i else r) 0

/-- 2^(F / 2^64) in units of 2^−128, by the successive square roots of 2. -/
def exp2Loop : Nat → Nat → Nat → Nat → Nat
  | 0, _, _, acc => acc
  | i + 1, root, F, acc =>
    let root := isqrt (root * 2 ^ 128)
    exp2Loop i root F (if F / 2 ^ i % 2 = 1 then acc * root / 2 ^ 128 else acc)

def exp2Frac (F : Nat) : Nat := exp2Loop 64 (2 ^ 129) F (2 ^ 128)

/-- Bits of log2 of `y`, in units of 2^−128 and in [1, 2), by repeated squaring. -/
def log2Loop : Nat → Nat → Nat → Nat
  | 0, _, acc => acc
  | i + 1, y, acc =>
    let y := y * y / 2 ^ 128
    if 2 ^ 129 ≤ y then log2Loop i (y / 2) (2 * acc + 1) else log2Loop i y (2 * acc)

/-- log2 e in units of 2^−128. -/
def log2e : Nat := 490923683258796565746369346286093237522

/-- A magnitude n · 2^e and its sign. -/
structure Approx where
  neg : Bool
  n : Nat
  e : Int
  deriving DecidableEq, Repr

/-- 2^(t / 2^64) for an integer t. -/
def exp2Fixed (t : Int) : Approx :=
  let q := t / 2 ^ 64
  let F := (t % 2 ^ 64).toNat
  ⟨false, exp2Frac F, q - 128⟩

/-- The largest integer below ±n·2^e·2^64. -/
def fixed64 (neg : Bool) (n : Nat) (e : Int) : Int :=
  let q := shiftFrac n 1 (e + 64)
  if neg then -(((q.1 + q.2 - 1) / q.2 : Nat) : Int) else ((q.1 / q.2 : Nat) : Int)

/-- 1 / (n · 2^e) for n > 0. -/
def rcpApprox (neg : Bool) (n : Nat) (e : Int) : Approx :=
  let k := 128 + Nat.log2 n
  ⟨neg, 2 ^ k / n, -e - k⟩

/-- 1 / sqrt(n · 2^e) for n > 0. -/
def rsqApprox (n : Nat) (e : Int) : Approx :=
  let odd := e % 2 = 1
  let n := if odd then 2 * n else n
  let e := if odd then e - 1 else e
  let k := 128 + Nat.log2 n
  ⟨false, isqrt (2 ^ (2 * k) / n), -k - e / 2⟩

/-- log2(n · 2^e) for n > 0. -/
def log2Approx (n : Nat) (e : Int) : Approx :=
  let l := Nat.log2 n
  let t : Int := ((l : Int) + e) * 2 ^ 80 + (log2Loop 80 (n * 2 ^ 128 / 2 ^ l) 0 : Nat)
  ⟨decide (t < 0), t.natAbs, -80⟩

/-- p = 2^(−z · log2 e) for z = n · 2^e ≥ 0, as n' · 2^e'. -/
def expNeg (n : Nat) (e : Int) : Nat × Int :=
  let x := exp2Fixed (-(min (fixed64 false (n * log2e) (e - 128)) (2000 * 2 ^ 64)))
  (x.n, x.e)

/-- The fraction a / b of two magnitudes a.1 · 2^a.2 and b.1 · 2^b.2 with b.1 > 0. -/
def ratio (a b : Nat × Int) : Nat × Int :=
  let k := 160 + Nat.log2 b.1
  (a.1 * 2 ^ k / b.1, a.2 - b.2 - k)

/-- 1 + p for a magnitude p. -/
def onePlus (p : Nat × Int) : Nat × Int :=
  if 0 ≤ p.2 then (p.1 * 2 ^ p.2.toNat + 1, 0) else (p.1 + 2 ^ (-p.2).toNat, p.2)

/-- 1 − p for a magnitude p ≤ 1. -/
def oneMinus (p : Nat × Int) : Nat × Int := if 0 ≤ p.2 then (1 - p.1 * 2 ^ p.2.toNat, 0) else (2 ^ (-p.2).toNat - p.1, p.2)

/-- tanh(±n · 2^e). -/
def tanhApprox (neg : Bool) (n : Nat) (e : Int) : Approx :=
  let p := expNeg n (e + 1)
  let r := ratio (oneMinus p) (onePlus p)
  ⟨neg, r.1, r.2⟩

/-- 1 / (1 + e^(−z)) for z = ±n · 2^e. -/
def sigmoid (neg : Bool) (n : Nat) (e : Int) : Nat × Int :=
  let p := expNeg n e
  if neg then ratio p (onePlus p) else ratio (1, 0) (onePlus p)

/-! ### The choice within a bound -/

/-- A pattern of a format lies within `bound` · 2^`unit` of a value. -/
def within (f : Fmt) (a : Approx) (bound : Nat) (unit : Int) (p : Nat) : Bool :=
  match unpack f false p with
  | .fin s m e =>
    let g := min (min e a.e) unit
    decide ((scaledInt s m e g - scaledInt a.neg a.n a.e g).natAbs ≤ bound * 2 ^ (unit - g).toNat)
  | _ => false

/-- Exponent of a unit in the last place of a format at a magnitude n · 2^e > 0. -/
def ulpExp (f : Fmt) (n : Nat) (e : Int) : Int := max ((Nat.log2 n : Int) + e - f.mw) f.minExp

/-- The value is one of the format's (R71: an f32 operand that an f16 or bf16 operand widens to). -/
def fits (f : Fmt) (v : FVal) : Bool :=
  match v, putVal f Rm.rne v with
  | .fin s m e, y => match unpack f false y with
    | .fin s' m' e' => let g := min e e'
      scaledInt s m e g = scaledInt s' m' e' g
    | _ => false
  | _, _ => false

/-- An f32 result narrows to within 1 ulp of a narrow type, however it is rounded: it is then the exact value's own rounding or lies within the unit (R71). -/
def narrows (f : Fmt) (a : Approx) (p : Nat) : Bool :=
  (List.range 5).all fun k =>
    let r : Rm := ⟨k, false, false, 0⟩
    let y := putVal f r (unpack .f32 false p)
    y = roundTo f r a.neg a.n 1 a.e || within f a 1 (ulpExp f a.n a.e) y

/-- What the f32 result under RNE must satisfy beside its own bound: where the operand is one of f16 or bf16, it is the result that narrows to that type (R71). -/
def near (r : Rm) (v : FVal) (a : Approx) (p : Nat) : Bool :=
  r.round ≠ 0 || [Fmt.f16, Fmt.bf16].all fun f => !fits f v || narrows f a p

/-- The f32 result for an inexact value: the device's choice within the bound. Where the rounded value is 0, the largest finite value or beyond, the model takes that value, though the bound would leave a neighbour open (DESIGN CHOICE, log 19). -/
def choose (r : Rm) (op input : Nat) (a : Approx) (bound : Nat) (unit : Int) (ok : Nat → Bool) : Nat :=
  let base := roundTo .f32 r a.neg a.n 1 a.e
  if Fmt.f32.maxPat ≤ base % 2 ^ 31 || base % 2 ^ 31 = 0 then base
  else
    let p := Config.pick op input % 2 ^ 32
    let x := if within .f32 a bound unit p && ok p then p else base
    if r.flush && decide (x % 2 ^ 31 < 2 ^ 23) then Fmt.f32.signed (2 ^ 31 ≤ x) 0 else x

/-- The functions of R71. -/
inductive Fn where
  | rcp
  | rsq
  | exp2
  | log2
  | tanh
  deriving DecidableEq, Repr

def Fn.num : Fn → Nat
  | .rcp => 0
  | .rsq => 1
  | .exp2 => 2
  | .log2 => 3
  | .tanh => 4

/-- n is a power of two. -/
def isPow2 (n : Nat) : Bool := n = 2 ^ Nat.log2 n

/-- The f32 result of a function of an f32 value (Table 4-10). `input` is what the device's choice may depend on. -/
def fnF32 (fn : Fn) (r : Rm) (prop : Bool) (input : Nat) (v : FVal) : Nat :=
  let f := Fmt.f32
  match fn, v with
  | _, .nan p => if prop then quiet f f p else f.defNan
  | .rcp, .inf s => f.signed s 0
  | .rcp, .fin s m e =>
    if m = 0 then f.signed s f.infPat
    else if isPow2 m then roundTo f r s 1 m (-e)
    else
      let a := rcpApprox s m e
      choose r 0 input a 1 (ulpExp f a.n a.e) (near r v a)
  | .rsq, .inf s => if s then f.defNan else 0
  | .rsq, .fin s m e =>
    if m = 0 then f.signed s f.infPat
    else if s then f.defNan
    else if isPow2 m && ((Nat.log2 m : Int) + e) % 2 = 0 then roundTo f r false 1 1 (-(((Nat.log2 m : Int) + e) / 2))
    else
      let a := rsqApprox m e
      choose r 1 input a 2 (ulpExp f a.n a.e) (near r v a)
  | .exp2, .inf s => if s then 0 else f.infPat
  | .exp2, .fin s m e =>
    let q := shiftFrac m 1 (max (-200) (min 20 e))
    if m = 0 then roundTo f r false 1 1 0
    else if q.1 % q.2 = 0 then
      let n : Int := min 2000 (q.1 / q.2 : Nat)
      roundTo f r false 1 1 (if s then -n else n)
    else
      let a := exp2Fixed (max (-2000 * 2 ^ 64) (min (2000 * 2 ^ 64) (fixed64 s m e)))
      choose r 2 input a 2 (ulpExp f a.n a.e) (near r v a)
  | .log2, .inf s => if s then f.defNan else f.infPat
  | .log2, .fin s m e =>
    if m = 0 then f.signed true f.infPat
    else if s then f.defNan
    else if isPow2 m then
      let n : Int := (Nat.log2 m : Int) + e
      roundTo f r (decide (n < 0)) n.natAbs 1 0
    else
      let a := log2Approx m e
      let l := (Nat.log2 m : Int) + e
      if l = 0 || l = -1 then choose r 3 input a 1 (-22) (near r v a)
      else choose r 3 input a 2 (ulpExp f a.n a.e) (near r v a)
  | .tanh, .inf s => f.signed s 0x3F800000
  | .tanh, .fin s m e =>
    if m = 0 then f.signed s 0
    else if (Nat.log2 m : Int) + e < -12 then roundTo f r s m 1 e
    else
      let a := tanhApprox s m e
      choose r 4 input a 3 (ulpExp f a.n a.e) fun p => decide (p % 2 ^ 31 ≤ 0x3F800000) && near r v a p

/-- An element under a function of R71: f32 directly under the mode; f16 and bf16 through the f32 result under RNE, rounded once to the type and within 1 ulp of it. Output flushing acts at that narrowing alone, not on the f32 result between (DESIGN CHOICE, log 19). -/
def fnElem (fn : Fn) (t : Nat) (c : FMode) (g : BitVec 32) (x : Nat) : Nat :=
  let f := fmtOf t
  let v := unpack f c.fin x
  match v with
  | .nan p => if c.prop then quiet f f p else f.defNan
  | v =>
    if t = 10 then fnF32 fn (c.rm g) c.prop (x + 2 ^ 32 * c.round + (if c.round = 5 then 2 ^ 35 * g.toNat else 0)) v
    else
      let wide := putVal .f32 Rm.rne v
      let y := fnF32 fn ⟨0, c.sat, false, 0⟩ c.prop wide v
      match unpack .f32 false y with
      | .nan _ => f.defNan
      | w => putVal f (c.rm g) w

/-! ### Activations (R243) -/

def gelu (input : Nat) (s : Bool) (m : Nat) (e : Int) : Nat :=
  -- z = 2 · 0.79788456 · (f + 0.044715 f³), the decimals scaled by 10^8 and 10^6
  let cube := m * m * m * 44715
  let lin := m * 1000000
  let g := min e (3 * e)
  let num := (lin * 2 ^ (e - g).toNat + cube * 2 ^ (3 * e - g).toNat) * 159576912
  -- divided by 10^14
  let z := num * 2 ^ 128 / 100000000000000
  let sg := sigmoid s z (g - 128)
  choose Rm.rne 5 input ⟨s, m * sg.1, e + sg.2⟩ 4 (ulpExp .f32 (m * sg.1) (e + sg.2)) fun _ => true

def silu (input : Nat) (s : Bool) (m : Nat) (e : Int) : Nat :=
  let sg := sigmoid s m e
  choose Rm.rne 6 input ⟨s, m * sg.1, e + sg.2⟩ 3 (ulpExp .f32 (m * sg.1) (e + sg.2)) fun _ => true

/-- An activation of an f32 pattern (R243): 0 none, 1 ReLU, 2 GELU-tanh, 3 SiLU. -/
def activate (act x : Nat) : Nat :=
  if act = 0 then x
  else if act = 1 then
    match unpack .f32 false x with
    | .nan _ => 0
    | .inf s => if s then 0 else x
    | .fin s m _ => if s || m = 0 then 0 else x
  else match unpack .f32 false x with
    | .nan _ => Fmt.f32.defNan
    | .inf s => if s then 2 ^ 31 else x
    | .fin s m e => if m = 0 then x else if act = 2 then gelu x s m e else silu x s m e

end Sys2Proof.Machine
end

