-- ==== Sys2Proof/Machine/Regions.lean ====
section
/-! DEFINITION. Meanings of the checksum instructions (R342–R345) and of the recovery regions (R346–R349, R355). -/

namespace Sys2Proof.Machine

open Sys2Proof

/-! ### Folds (R343, R345) -/

/-- binary64 under RNE, subnormals kept, NaNs the default (R343). -/
def sumMode : FMode := ⟨.f64, 0, false, false, false, false⟩

/-- Adds an element of a floating type to a binary64 sum (R343). -/
def foldFloat (t : Nat) (acc : Word) (x : Nat) : Word := BitVec.ofNat 64 (fadd sumMode 0 acc.toNat (convertElem t 11 sumMode 0 x))

/-- Folds an element into an invariant register (R343). -/
def foldElem (t : Nat) (i : IReg) (x : Nat) : IReg :=
  if isInt t then { i with ipart := i.ipart + BitVec.ofInt 64 (ival t x) } else { i with fpart := foldFloat t i.fpart x }

/-- The binary64 parts agree within the tolerance (R345). -/
def within64 (a b t : Word) : Bool :=
  let x := unpack .f64 false a.toNat
  let y := unpack .f64 false b.toNat
  match x, y with
  | .nan _, _ => false
  | _, .nan _ => false
  | .inf s, .inf u => s = u
  | .inf _, _ => false
  | _, .inf _ => false
  | x, y => match addVal 0 x y.neg with
    | some (.fin _ m e) => cmpVal (.fin false m e) (unpack .f64 false t.toNat) != some .gt
    | _ => false

/-- A tolerance that `cschk` refuses: a NaN, or a negative number other than −0 (R345). -/
def badTolerance (t : Word) : Bool :=
  (unpack .f64 false t.toNat).isNan || (t.msb && t != 0x8000000000000000)

namespace State

def ireg (s : State) (r : Nat) : IReg := vget ⟨0, 0⟩ s.me.image.i r

def setI (s : State) (r : Nat) (x : IReg) : State := s.modMe fun g => { g with image := { g.image with i := vmod g.image.i r fun _ => x } }

/-- The slot holds while an earlier fold into the register is pending (R342). -/
def noFold (s : State) (r : Nat) : Eff Unit := if s.foldPending s.curGrp r s.nextId then hold (s.awaits (.fold r s.nextId)) else .ok ()

/-! ### Regions -/

/-- The empty v and s registers of the issuing group. -/
def emptyVs (s : State) : List Nat := (List.range 64).filter fun r => !(s.vreg r).full

def emptySs (s : State) : List Nat := (List.range 64).filter fun r => !(s.sreg r).full

/-- A v or s register of the issuing group is empty (R347). -/
def anyEmpty (s : State) : Bool := !s.emptyVs.isEmpty || !s.emptySs.isEmpty

def depth (s : State) : Nat := match s.cur with
  | .slot g _ => (s.grp g).regions.length
  | .thread c t => (s.thread c t).regions.length

/-- Opens a region (R347, R355). -/
def openRegion (s : State) (idem : Bool) : State := match s.cur with
  | .slot g _ => s.modGroup g fun x =>
      { x with regions := { image := x.image, undo := [], sealed := false, idem := idem, retry := 0, openedAt := s.nextId } :: x.regions }
  | .thread c t => s.modThread c t fun h =>
      { h with regions := { s := h.s, flags := h.flags, pc := h.pc, recs := h.recs, bar := h.bar, sealed := false, idem := idem, retry := 0, openedAt := s.nextId } :: h.regions }

end State

/-- The enclosing region takes over a committed one: its undo entries but for lines it preserves itself, and its seal (R348). -/
def Region.absorb (outer inner : Region) : Region :=
  { outer with
    undo := outer.undo ++ inner.undo.filter fun u => outer.undo.all fun w => w.line ≠ u.line
    sealed := outer.sealed || inner.sealed }

/-- Commits the innermost region (R348). -/
def commitRegions : List Region → List Region
  | inner :: outer :: rs => outer.absorb inner :: rs
  | _ => []

def commitSRegions : List SRegion → List SRegion
  | inner :: outer :: rs => { outer with sealed := outer.sealed || inner.sealed } :: rs
  | _ => []

namespace State

def commit (s : State) : State := match s.cur with
  | .slot g _ => s.modGroup g fun x => { x with regions := commitRegions x.regions }
  | .thread c t => s.modThread c t fun h => { h with regions := commitSRegions h.regions }

/-- The homes of `n` lines from a pointer of space 0 `.tal`, 1 `.glb`, 2 `.scr`, with the checks of `rgn.pres` (R349). -/
def presLines (s : State) (p : Word) (sp n : Nat) : Eff (List Nat) := do
  let space := if sp = 2 then 0 else sp + 1
  let r : Req := ⟨0, 0, p, ptrOff p, 128 * n⟩
  s.checkReqs space 0 128 [r]
  if space = 0 then
    let a := s.scrAddr r
    match s.bufCheck s.myTeam s.myCore a (128 * n) .load with
    | some (c, d) => trapAt c d p 0
    | none =>
      if s.bufHolds s.myTeam s.myCore a (128 * n) || s.scrComing a (128 * n) then hold (s.replays.awaits (.lines a (128 * n)))
      else .ok ((List.range n).map fun i => scrHome s.myCol s.myCore (a + 128 * i))
  else
    let hs ← s.homes space 0 ((List.range n).map fun i => ⟨0, 0, p, ptrOff p + 128 * i, 128⟩)
    .ok (hs.map fun h => (h.head?.map (·.1)).getD 0)

/-- A line as it stands at its home, with its poison mark (R349). -/
def undoOf (s : State) (line : Nat) : Undo := ⟨line, s.mem.bytes line 128, s.mem.isPoisoned line⟩

end State

/-! ### Meanings: checksums -/

/-- `csacc` (R343). -/
def execCsacc (d a : Reg) (s : State) : Out' :=
  s.issue (.csacc d a) { Form.core true [.iAt 0 d, .va a .active] .none with latePoison := true } fun t => do
    t.needs isElem false
    t.clean (.va a .active) t.lanes
    t.noFold d.toNat
    let xs := t.lanes.flatMap fun l => elems (ewidth t.etype) (t.vlane a.toNat l)
    .ok (t.setI d.toNat (xs.foldl (foldElem t.etype) (t.ireg d.toNat)))

/-- `csclr` (R344). -/
def execCsclr (d : Reg) (s : State) : Out' :=
  s.issue (.csclr d) (.core false [.iAt 0 d] .none) fun t => do
    t.noFold d.toNat
    .ok (t.setI d.toNat ⟨0, 0⟩)

/-- `cschk` (R345). -/
def execCschk (a b c : Reg) (s : State) : Out' :=
  s.issue (.cschk a b c) { Form.core false [.iAt 1 a, .iAt 2 b, .sc c] .none with latePoison := true } fun t => do
    let tol := t.sval c.toNat
    if badTolerance tol then trap 0x21
    else
      match t.usePoison (.sc c) with
      | some p => .error (.trap p)
      | none =>
        t.noFold a.toNat
        t.noFold b.toNat
        let x := t.ireg a.toNat
        let y := t.ireg b.toNat
        if x.ipart = y.ipart && within64 x.fpart y.fpart tol then .ok t else trap 0xB0 (a.toNat + 16 * b.toNat)

/-- `csmov`: at once, or when the earlier folds into the register have completed (R344). -/
def execCsmov (d a : Reg) (p : BitVec 1) (s : State) : Out' :=
  let waits := s.foldPending s.curGrp a.toNat s.nextId
  s.issue (.csmov d a p) (.core false [.sd d, .iAt 1 a] (if waits then .pending else .s d.toNat)) fun t =>
    if waits then .ok ((t.emptyS d.toNat).place (.csmov (.sreg t.curGrp d.toNat) a.toNat p.toNat (t.strikeOf (.csmov d a p))))
    else .ok (t.writeS d.toNat (t.ipartOf t.curGrp a.toNat p.toNat))

/-! ### Meanings: regions -/

/-- `rgn.beg` (R347, R355). -/
def execRgnBeg (i : BitVec 1) (s : State) : Out' :=
  s.issue (.rgnBeg i) (.both [] .none) fun t =>
    let most := if t.onCore then 8 else 2
    if t.onCore && t.anyEmpty then hold (t.awaits (.regs t.emptyVs t.emptySs))
    else if most ≤ t.depth then trap 0xB2 (most + 1)
    else .ok (t.openRegion (i = 1))

/-- `rgn.pres` (R349). -/
def execRgnPres (a : Reg) (p : BitVec 2) (n : BitVec 10) (s : State) : Out' :=
  s.issue (.rgnPres a p n) { Form.core false [.sa a] .none with latePoison := true } fun t =>
    match t.me.regions with
    | [] => trap 0xB2
    | r :: rs => do
      let lines ← t.presLines (t.sval a.toNat) p.toNat n.toNat
      let ps := lines.map fun l => (l, 128)
      let t := t.settleAt t.myCol t.myCore ps
      if t.clash t.myCol t.myCore none t.nextId false ps then hold (t.awaits (.homes ps)) else
      let fresh := (lines.foldl setPut []).filter fun l => r.undo.all fun u => u.line ≠ l
      let used := (t.me.regions.map fun x => x.undo.length).sum
      if Config.undoEntries - used < fresh.length then trap 0xB3 (128 * n.toNat)
      else match t.usePoison (.sa a) with
      | some p => .error (.trap p)
      | none => .ok (t.modMe fun g => { g with regions := { r with undo := r.undo ++ fresh.map t.undoOf } :: rs })

/-- `rgn.end` (R348). -/
def execRgnEnd (s : State) : Out' :=
  s.issue .rgnEnd (.both [] .none) fun t => if t.depth = 0 then trap 0xB2 else .ok t.commit

/-- `rgn.abt`: a rollback with cause 0xFF (R348, R351, R352). -/
def execRgnAbt (s : State) : Out' :=
  s.issue .rgnAbt (.both [] .none) fun t =>
    if t.onCore && t.me.privileged then trap 0x04
    else if t.depth = 0 then trap 0xB2
    else trap 0xFF

end Sys2Proof.Machine
end

