-- ==== Sys2Proof/Machine/VecFloat.lean ====
section
/-! DEFINITION. Meanings of the vector float and conversion family 0x70–0x82 (R91–R104). -/

namespace Sys2Proof.Machine

open Sys2Proof

/-! ### Shapes -/

/-- A floating-point operation of one register that rounds (R91). -/
def vfloat1 (i : Instr) (d a : Reg) (ok : Nat → Bool) (f : Nat → FMode → BitVec 32 → Nat → Nat) (s : State) : Out' :=
  s.issue i (.core true [.vd d, .va a .active] (.v d.toNat false)) fun t => do
    t.needs ok true
    let w := ewidth t.etype
    .ok (t.mapGen d.toNat w fun l g e => f t.etype t.fmode g (elemOf (t.vlane a.toNat l) w e))

/-- One of two registers. -/
def vfloat2 (i : Instr) (d a b : Reg) (f : FMode → BitVec 32 → Nat → Nat → Nat) (s : State) : Out' :=
  s.issue i (.core true [.vd d, .va a .active, .vb b .active] (.v d.toNat false)) fun t => do
    t.needs isArith true
    let w := ewidth t.etype
    .ok (t.mapGen d.toNat w fun l g e => f t.fmode g (elemOf (t.vlane a.toNat l) w e) (elemOf (t.vlane b.toNat l) w e))

/-- A minimum or maximum: nothing rounds (R93). -/
def vfpick (i : Instr) (d a b : Reg) (less : Bool) (s : State) : Out' :=
  s.issue i (.core true [.vd d, .va a .active, .vb b .active] (.v d.toNat false)) fun t => do
    t.needs isFloat false
    .ok (t.mapLanes d.toNat fun l => lane2 (ewidth t.etype) (fminmax t.fmode less) (t.vlane a.toNat l) (t.vlane b.toNat l))

/-- An operation on the sign bit alone (R94). -/
def vfsign (i : Instr) (d a : Reg) (f : Nat → Nat → Nat) (s : State) : Out' :=
  s.issue i (.core true [.vd d, .va a .active] (.v d.toNat false)) fun t => do
    t.needs isFloat false
    .ok (t.mapLanes d.toNat fun l => lane1 (ewidth t.etype) (f (2 ^ (ewidth t.etype - 1))) (t.vlane a.toNat l))

/-! ### Meanings -/

/-- `vfadd`: a + b (R92). -/
def execVfadd (d a b : Reg) (s : State) : Out' := vfloat2 (.vfadd d a b) d a b fadd s

/-- `vfsub`: a − b (R92). -/
def execVfsub (d a b : Reg) (s : State) : Out' := vfloat2 (.vfsub d a b) d a b fsub s

/-- `vfmul`: a × b (R92). -/
def execVfmul (d a b : Reg) (s : State) : Out' := vfloat2 (.vfmul d a b) d a b fmul s

/-- `vfma`: a × b + c, rounded once (R92). -/
def execVfma (d a b c : Reg) (s : State) : Out' :=
  s.issue (.vfma d a b c) (.core true [.vd d, .va a .active, .vb b .active, .vc c .active] (.v d.toNat false)) fun t => do
    t.needs isArith true
    let w := ewidth t.etype
    .ok (t.mapGen d.toNat w fun l g e =>
      fma t.fmode g (elemOf (t.vlane a.toNat l) w e) (elemOf (t.vlane b.toNat l) w e) (elemOf (t.vlane c.toNat l) w e))

/-- `vfmin` (R93). -/
def execVfmin (d a b : Reg) (s : State) : Out' := vfpick (.vfmin d a b) d a b true s

/-- `vfmax` (R93). -/
def execVfmax (d a b : Reg) (s : State) : Out' := vfpick (.vfmax d a b) d a b false s

/-- `vfabs` (R94). -/
def execVfabs (d a : Reg) (s : State) : Out' := vfsign (.vfabs d a) d a (fun sign x => x % sign) s

/-- `vfneg` (R94). -/
def execVfneg (d a : Reg) (s : State) : Out' := vfsign (.vfneg d a) d a (fun sign x => x ^^^ sign) s

/-- `vfcmpk` (R95). -/
def execVfcmpk (d a b : Reg) (c : BitVec 4) (s : State) : Out' :=
  s.issue (.vfcmpk d a b c) (.core true [.kAt 0 d, .va a .active, .vb b .active] .none) fun t => do
    t.needs isFloat false
    let w := ewidth t.etype
    .ok (t.writeBallot d.toNat fun l => (List.range (perLane w)).all fun e =>
      fcond c.toNat (cmpVal (t.fmode.read (elemOf (t.vlane a.toNat l) w e)) (t.fmode.read (elemOf (t.vlane b.toNat l) w e))))

/-- `vrcp` (R71, R96). -/
def execVrcp (d a : Reg) (s : State) : Out' := vfloat1 (.vrcp d a) d a isShort (fnElem .rcp) s

/-- `vrsq` (R71, R96). -/
def execVrsq (d a : Reg) (s : State) : Out' := vfloat1 (.vrsq d a) d a isShort (fnElem .rsq) s

/-- `vexp2` (R71, R96). -/
def execVexp2 (d a : Reg) (s : State) : Out' := vfloat1 (.vexp2 d a) d a isShort (fnElem .exp2) s

/-- `vlog2` (R71, R96). -/
def execVlog2 (d a : Reg) (s : State) : Out' := vfloat1 (.vlog2 d a) d a isShort (fnElem .log2) s

/-- `vtanh` (R71, R96). -/
def execVtanh (d a : Reg) (s : State) : Out' := vfloat1 (.vtanh d a) d a isShort (fnElem .tanh) s

/-- `vscl`: times 2^n for a signed scalar n (R97). -/
def execVscl (d a b : Reg) (s : State) : Out' :=
  s.issue (.vscl d a b) (.core true [.vd d, .va a .active, .sb b] (.v d.toNat false)) fun t => do
    t.needs isArith true
    let w := ewidth t.etype
    .ok (t.mapGen d.toNat w fun l g e => fscl t.fmode g (elemOf (t.vlane a.toNat l) w e) (t.sval b.toNat).toInt)

/-- `vfrnd`: to an integral value (R98). -/
def execVfrnd (d a : Reg) (s : State) : Out' := vfloat1 (.vfrnd d a) d a isArith (fun _ c g x => frnd c g x) s

/-! ### Conversion (R99, R100) -/

/-- Written position and read position of a conversion, ascending (R100). -/
def cvtPairs (s : State) (ws wt part : Nat) : List (Nat × Nat) :=
  (if wt ≤ ws then
    let n := s.positions ws
    (List.range n).map fun p => (part * n + p, p)
  else
    let n := s.positions wt
    (List.range n).map fun q => (q, part * n + q)).filter fun x => s.active.getLsbD (x.1 / perLane wt)

/-- Steps the generator of a lane where the mode rounds stochastically. -/
def stepLane (steps : Bool) (gs : Gens) (lane : Nat) : Gens := if steps then vmod gs lane genStep else gs

/-- Converts the pairs in order, stepping the target lanes' generators. -/
def cvtAll (steps : Bool) (per : Nat) (f : BitVec 32 → Nat → Nat) : List (Nat × Nat) → Gens → Gens × List (Nat × Nat)
  | [], gs => (gs, [])
  | x :: xs, gs =>
    let gs := stepLane steps gs (x.1 / per)
    let r := cvtAll steps per f xs gs
    (r.1, (x.1, f (vget 0 gs (x.1 / per)) x.2) :: r.2)

/-- The lanes of the target that a conversion writes if they are active: of a narrowing one, those of its part (R100). -/
def cvtLanes (s : State) (ws wt p : Nat) : Word :=
  if wt < ws then BitVec.ofNat 64 ((2 ^ (s.me.width * wt / ws) - 1) * 2 ^ (p * (s.me.width * wt / ws))) else BitVec.allOnes 64

/-- `vcvt` (R99, R100). -/
def execVcvt (d a : Reg) (p : BitVec 3) (t : BitVec 4) (s : State) : Out' :=
  s.issue (.vcvt d a p t) (.core true [.vd d, .va a .no] (.part d.toNat (cvtLanes s (ewidth s.etype) (ewidth t.toNat) p.toNat))) fun u => do
    u.needs isElem true
    let ws := ewidth u.etype
    let wt := ewidth t.toNat
    if max ws wt / min ws wt ≤ p.toNat then trap 0x21
    else
      let ps := cvtPairs u ws wt p.toNat
      u.clean (.va a .no) (ps.map fun x => x.2 / perLane ws)
      let r := cvtAll (u.round = 5) (perLane wt) (fun g q => convertElem u.etype t.toNat u.fmode g (u.velem a.toNat ws q)) ps u.me.image.gens
      .ok ((u.setGens r.1).writeElems d.toNat wt r.2)

/-! ### Block quantisation (R101–R104) -/

/-- The fields of a quantisation descriptor (Table 5-8). -/
structure QDesc where
  efmt : Nat
  blen : Nat
  nearest : Bool
  deriving DecidableEq, Repr

/-- Reads a descriptor; none where a field is reserved. -/
def qDesc (x : Nat) : Option QDesc :=
  let e := bitsOf x 0 4
  let b := bitsOf x 4 2
  if e < 3 || 11 < e || b = 3 || bitsOf x 7 57 != 0 then none else some ⟨e, 16 * 2 ^ b, bitsOf x 6 1 = 1⟩

/-- Width of a code (R101). -/
def qWidth (e : Nat) : Nat := if e = 3 || e = 4 || e = 8 || e = 9 then 8 else if e = 5 || e = 6 then 6 else 4

/-- The largest code value Q, as twice its value (R101). -/
def qMax2 (e : Nat) : Nat :=
  match e with
  | 3 => 114688
  | 4 => 896
  | 5 => 56
  | 6 => 15
  | 7 => 12
  | 8 => 254
  | 9 => 510
  | 10 => 14
  | _ => 30

/-- The floating format of a code (Table 4-4), none for the integer codes. -/
def qFmt (e : Nat) : Option Fmt :=
  match e with
  | 3 => some .e5m2
  | 4 => some .e4m3
  | 5 => some .e3m2
  | 6 => some .e2m3
  | 7 => some .e2m1
  | _ => none

/-- UINT8 and UINT4. -/
def qUnsigned (e : Nat) : Bool := e = 9 || e = 11

/-- The scale byte of a block whose largest magnitude is n · 2^e, not zero (R102). -/
def qScale (q : QDesc) (n : Nat) (e : Int) : Nat :=
  let r : Rm := ⟨if q.nearest then 0 else 2, true, false, 0⟩
  min (max (roundTo .e4m3 r false (2 * n) (qMax2 q.efmt) e) 1) 0x7E

/-- The code of ±Q (R102). -/
def qEnd (e : Nat) (neg : Bool) : Nat :=
  match qFmt e with
  | some f => f.signed neg f.maxPat
  | none => if neg then (if qUnsigned e then 0 else wrapTo (qWidth e) (-(qMax2 e / 2 : Nat))) else qMax2 e / 2

/-- The code of an element under a scale byte (R102). -/
def qCode (e scale : Nat) (r : Rm) (v : FVal) : Nat :=
  match v, unpack .e4m3 false scale with
  | .inf s, _ => qEnd e s
  | .fin s m x, .fin _ sm sx =>
    match qFmt e with
    | some f => roundTo f { r with sat := true, flush := false } s m sm (x - sx)
    | none =>
      let q := shiftFrac m sm (x - sx)
      let k := min (roundInt r s q.1 q.2) (qMax2 e / 2)
      if s then (if qUnsigned e then 0 else wrapTo (qWidth e) (-(k : Int))) else k
  | _, _ => 0

/-- The magnitude that an element counts with in amax: an infinity as the largest finite (R102). -/
def qMag (f : Fmt) (v : FVal) : Nat × Int :=
  match v with
  | .fin _ m e => (m, e)
  | _ => match unpack f false f.maxPat with
    | .fin _ m e => (m, e)
    | _ => (0, 0)

/-- The larger of two magnitudes. -/
def magMax (x y : Nat × Int) : Nat × Int :=
  let g := min x.2 y.2
  if x.1 * 2 ^ (x.2 - g).toNat < y.1 * 2 ^ (y.2 - g).toNat then y else x

/-- One block: positions, whether active, and values. -/
structure QBlock where
  scale : Nat
  codes : List Nat
  deriving DecidableEq, Repr

/-- The codes of a block in ascending order, stepping the generators of active positions (R102). -/
def qCodes (steps : Bool) (per : Nat) (f : BitVec 32 → FVal → Nat) : List (Nat × Bool × FVal) → Gens → Gens × List Nat
  | [], gs => (gs, [])
  | x :: xs, gs =>
    let gs := stepLane (steps && x.2.1) gs (x.1 / per)
    let r := qCodes steps per f xs gs
    (r.1, f (vget 0 gs (x.1 / per)) x.2.2 :: r.2)

/-- Quantises one block (R102). -/
def qBlock (q : QDesc) (c : FMode) (per : Nat) (xs : List (Nat × Bool × FVal)) (gs : Gens) : Gens × QBlock :=
  let steps : Bool := c.round = 5
  let zero := qCodes steps per (fun _ _ => 0) xs gs
  let amax := xs.foldl (fun m x => magMax m (qMag c.f x.2.2)) (0, 0)
  if xs.any fun x => x.2.2.isNan then (zero.1, ⟨0x7F, zero.2⟩)
  else if amax.1 = 0 then (zero.1, ⟨0, zero.2⟩)
  else
    let sc := qScale q amax.1 amax.2
    let r := qCodes steps per (fun g v => qCode q.efmt sc (c.rm g) v) xs gs
    (r.1, ⟨sc, r.2⟩)

/-- Quantises `n` blocks in ascending order. -/
def qBlocks (q : QDesc) (c : FMode) (per : Nat) : Nat → List (Nat × Bool × FVal) → Gens → Gens × List QBlock
  | 0, _, gs => (gs, [])
  | n + 1, xs, gs =>
    let b := qBlock q c per (xs.take q.blen) gs
    let r := qBlocks q c per n (xs.drop q.blen) b.1
    (r.1, b.2 :: r.2)

namespace State

/-- Writes a bit stream into every lane of a register, zeros above it (R103). -/
def writeStream (s : State) (r x : Nat) : State := s.writeV r ((List.range s.me.width).map fun l => (l, BitVec.ofNat 64 (bitsOf x (64 * l) 64)))

/-- A register as one bit stream. -/
def stream (s : State) (r : Nat) : Nat := packNat 64 ((List.range s.me.width).map fun l => (s.vlane r l).toNat)

/-- The descriptor of `vqnt` and `vdqnt`, or MODE_COMBINATION (R101). -/
def quantDesc (s : State) (c : Reg) : Eff QDesc := do
  s.needs isShort true
  match qDesc (s.sval c.toNat).toNat with
  | none => trap 0x21
  | some q => if s.positions (ewidth s.etype) < q.blen then trap 0x21 else .ok q

end State

/-- `vqnt` (R102, R103). -/
def execVqnt (d a b c : Reg) (s : State) : Out' :=
  s.issue (.vqnt d a b c) (.core true [.vd d, .va a .active, ⟨.v, 2, b.toNat, none, true, .no⟩, .sc c] (.v d.toNat true)) fun t => do
    let q ← t.quantDesc c
    let w := ewidth t.etype
    let n := t.positions w
    let xs := (List.range n).map fun p =>
      let on := t.active.getLsbD (p / perLane w)
      (p, on, if on then t.fmode.read (t.velem a.toNat w p) else FVal.fin false 0 0)
    let r := qBlocks q t.fmode (perLane w) (n / q.blen) xs t.me.image.gens
    let t := (t.setGens r.1).writeStream d.toNat (packNat (qWidth q.efmt) (r.2.flatMap (·.codes)))
    .ok (t.writeStream b.toNat (packNat 8 (r.2.map (·.scale))))

/-- The value of a code (R104). -/
def codeVal (e x : Nat) : FVal :=
  match qFmt e with
  | some f => unpack f false x
  | none =>
    let v := if qUnsigned e then ((x : Nat) : Int) else asSigned (qWidth e) x
    .fin (decide (v < 0)) v.natAbs 0

/-- The element that a code and a scale byte give (R104). -/
def dequant (e code scale : Nat) (f : Fmt) (r : Rm) : Nat :=
  if scale = 0x7F then f.defNan
  else if scale = 0 then 0
  else match codeVal e code, unpack .e4m3 false scale with
    | .nan _, _ => f.defNan
    | .inf s, _ => infPatOf f r.sat s
    | .fin s m x, .fin _ sm sx => roundTo f r s (m * sm) 1 (x + sx)
    | _, _ => f.defNan

/-- `vdqnt` (R104). -/
def execVdqnt (d a b c : Reg) (s : State) : Out' :=
  s.issue (.vdqnt d a b c) (.core true [.vd d, .va a .no, .vb b .no, .sc c] (.v d.toNat false)) fun t => do
    let q ← t.quantDesc c
    let w := ewidth t.etype
    let wc := qWidth q.efmt
    let ps := t.lanes.flatMap fun l => (List.range (perLane w)).map fun e => l * perLane w + e
    t.clean (.va a .no) (ps.flatMap fun p => [wc * p / 64, (wc * p + wc - 1) / 64])
    t.clean (.vb b .no) (ps.map fun p => p / q.blen / 8)
    let codes := t.stream a.toNat
    let scales := t.stream b.toNat
    match (ps.map fun p => bitsOf scales (8 * (p / q.blen)) 8).find? fun x => decide (0x80 ≤ x) with
    | some x => trap 0x93 x
    | none =>
      .ok (t.mapGen d.toNat w fun l g e =>
        let p := l * perLane w + e
        dequant q.efmt (bitsOf codes (wc * p) wc) (bitsOf scales (8 * (p / q.blen)) 8) t.fmode.f (t.fmode.rm g))

end Sys2Proof.Machine
end

