-- ==== Sys2Proof/Machine/Epilogue.lean ====
section
/-! DEFINITION. The epilogue of the matrix gang: `mx.epi`, its performance in the matrix queue and the arrival of its rows (R240–R244). -/

namespace Sys2Proof.Machine

open Sys2Proof

/-! ### The epilogue block (Table 12-8) -/

structure Epi where
  rows : Nat
  cols : Nat
  cint : Bool
  table : Bool
  sclv : Bool
  biasv : Bool
  act : Nat
  ofmt : Nat
  eround : Nat
  esat : Bool
  qnt : Bool
  qfmt : Nat
  qblen : Nat
  scrnd : Bool
  csum : Bool
  csreg : Nat
  cstride : Nat
  rstride : Nat
  scale : Word
  bias : Word
  qsptr : Word
  bar : Nat
  barv : Bool
  deriving DecidableEq, Repr

def Epi.of (b : BitVec 512) : Epi :=
  { rows := bv b 0 16, cols := bv b 16 16, cint := bvBit b 34, table := bvBit b 35, sclv := bvBit b 36, biasv := bvBit b 37, act := bv b 38 2,
    ofmt := bv b 40 4, eround := bv b 44 3, esat := bvBit b 47, qnt := bvBit b 48, qfmt := bv b 49 4, qblen := bv b 53 2, scrnd := bvBit b 55,
    csum := bvBit b 56, csreg := bv b 57 3, cstride := bv b 64 32, rstride := bv b 96 32, scale := BitVec.ofNat 64 (bv b 128 64),
    bias := BitVec.ofNat 64 (bv b 192 64), qsptr := BitVec.ofNat 64 (bv b 256 64), bar := bv b 320 12, barv := bvBit b 332 }

/-- Length of a quantisation block. -/
def Epi.qlen (e : Epi) : Nat := 16 * 2 ^ e.qblen

/-- The lowest offending field of a block (R241). -/
def epiBad (b : BitVec 512) : Option Nat :=
  let e := Epi.of b
  let tests : List (Nat × Bool) := [
    (0, e.rows = 0 || decide (256 < e.rows)), (16, e.cols = 0 || decide (4096 < e.cols) || (e.qnt && e.qblen ≠ 3 && e.cols % e.qlen ≠ 0)),
    (32, bv b 32 2 != 0), (40, decide (14 ≤ e.ofmt)), (44, decide (6 ≤ e.eround)),
    (49, if e.qnt then e.qfmt < 3 || decide (11 < e.qfmt) else e.qfmt != 0), (53, if e.qnt then e.qblen = 3 else e.qblen != 0),
    (55, !e.qnt && e.scrnd), (60, bv b 60 4 != 0), (64, decide (e.cstride < e.cols)), (320, !e.barv && e.bar != 0), (333, bv b 333 179 != 0)]
  (tests.find? fun t => t.2).map (·.1)

/-- Width of an output element in bits (R241). -/
def Epi.width (e : Epi) : Nat := if e.qnt then qWidth e.qfmt else ewidth e.ofmt

/-- RB: bytes of an output row. -/
def Epi.rowBytes (e : Epi) : Nat := e.cols * e.width / 8

/-- Scale bytes of a row. -/
def Epi.scaleBytes (e : Epi) : Nat := if e.qnt then e.cols / e.qlen else 0

/-- The exact integer path (R242). -/
def Epi.exact (e : Epi) : Bool := e.cint && !e.sclv && !e.biasv && e.act = 0 && !e.qnt && decide (e.ofmt < 8)

/-! ### Elements (R242, R243) -/

/-- f of an element: column `n`. -/
def epiValue (e : Epi) (scale bias : Array Nat) (x n : Nat) : Nat :=
  let f := if e.cint then convertElem 4 10 f32Mode 0 x else x
  let f := if e.sclv then fmul f32Mode 0 f (scale.getD n 0) else f
  let f := if e.biasv then fadd f32Mode 0 f (bias.getD n 0) else f
  activate e.act f

/-- The conversion of an element to the output type; a NaN takes the default (R242). -/
def epiConvert (e : Epi) (g : BitVec 32) (f : Nat) : Nat :=
  if isFloat e.ofmt && (unpack .f32 false f).isNan then (fmtOf e.ofmt).defNan
  else convertElem 10 e.ofmt ⟨fmtOf e.ofmt, e.eround, e.esat, false, false, false⟩ g f

/-- What a row's computation carries from element to element: the invariant register and the generator copies. -/
structure EpiState where
  reg : IReg
  gens : Vector (BitVec 32) 64
  deriving DecidableEq, Repr

/-- The elements of a row in column order: their output codes, the f32 values for quantisation (R242). -/
def epiElems (e : Epi) (width : Nat) (scale bias : Array Nat) : List (Nat × Nat) → EpiState → EpiState × List Nat
  | [], st => (st, [])
  | (x, n) :: xs, st =>
    let f := epiValue e scale bias x n
    let reg := if !e.csum then st.reg
      else if e.exact then { st.reg with ipart := st.reg.ipart + BitVec.ofInt 64 (asSigned 32 x) }
      else { st.reg with fpart := foldFloat 10 st.reg.fpart f }
    let gens := if e.eround = 5 && !e.qnt then vmod st.gens (n % width) genStep else st.gens
    let y := if e.exact then convertElem 4 e.ofmt ⟨fmtOf 10, 0, e.esat, false, false, false⟩ 0 x
      else if e.qnt then f
      else epiConvert e (vget 0 gens (n % width)) f
    let r := epiElems e width scale bias xs ⟨reg, gens⟩
    (r.1, y :: r.2)

/-- A row: its output bytes and its scale bytes (R242, R102). -/
def epiRow (e : Epi) (width : Nat) (scale bias : Array Nat) (xs : List Nat) (st : EpiState) : EpiState × List Byte × List Byte :=
  let r := epiElems e width scale bias xs.zipIdx st
  if e.qnt then
    let els := r.2.zipIdx.map fun y => (y.2 % width, true, unpack .f32 false y.1)
    let q := qBlocks ⟨e.qfmt, e.qlen, e.scrnd⟩ ⟨.f32, e.eround, false, false, false, false⟩ 1 (e.cols / e.qlen) els r.1.gens
    ({ r.1 with gens := q.1 }, leBytes e.rowBytes (packNat e.width (q.2.flatMap (·.codes))), q.2.map fun b => BitVec.ofNat 8 b.scale)
  else (r.1, r.2.flatMap fun y => leBytes (e.width / 8) y, [])

namespace State

/-! ### Issue -/

/-- Checks spans of one SCR pointer as stores (R31, Table 8-3) and answers their addresses. -/
def scrStores (s : State) (p : Word) (spans : List (Nat × Nat)) : Eff (List Nat) := do
  let rs := spans.map fun x => (⟨0, 0, p, x.1 % 2 ^ 48, x.2⟩ : Req)
  s.checkReqs 0 1 1 rs
  match rs.findSome? fun r => s.bufCheck s.myTeam s.myCore (s.scrAddr r) r.size .store with
  | some (c, d) => trapAt c d p 0
  | none => .ok (rs.map s.scrAddr)

/-- An array of f32 words that the block names, a control object (R242, R412). -/
def epiArray (s : State) (on : Bool) (p : Word) (n : Nat) : Eff (List Nat) :=
  if on then (s.scrObject p (4 * n) 1).map fun x => (List.range n).map fun i => bitsOf x (32 * i) 32 else .ok []

/-- The destinations of a dense epilogue (R242). -/
def denseDests (s : State) (e : Epi) (p : Word) : Eff (List EpiDst) := do
  let as ← s.scrStores p ((List.range e.rows).map fun r => (ptrOff p + r * e.rstride, e.rowBytes))
  if e.qnt then
    let n := e.scaleBytes
    let ss ← s.scrStores e.qsptr ((List.range e.rows).map fun r => (ptrOff e.qsptr + r * n, n))
    .ok ((as.zip ss).map fun x => .scr x.1 x.2)
  else .ok (as.map fun a => .scr a 0)

/-- The checks of one table pointer (R244). -/
def tablePtr (s : State) (e : Epi) (p : Word) : Eff EpiDst :=
  let align := max 1 (e.width / 8)
  if p = 0 then .ok .skip
  else if s.ptrBad p then trapAt 0x46 0 p 0
  else if ptrOff p % align ≠ 0 then trapAt 0x43 align p 0
  else .ok (.ptr p)

/-- The destinations of the row table, a control object (R244, R412). -/
def tableDests (s : State) (e : Epi) (p : Word) : Eff (List EpiDst) := do
  let x ← s.scrObject p (8 * e.rows) 8
  ((List.range e.rows).map fun r => BitVec.ofNat 64 (bitsOf x (64 * r) 64)).mapM fun q => s.tablePtr e q

/-- A row goes to another device. -/
def leavesDevice (s : State) (d : EpiDst) : Bool :=
  match d with
  | .ptr p => !(ptrDev p = 0x3FF || ptrDev p = s.dev)
  | _ => false

/-- The barrier of the block, bound at its generation (R242). -/
def epiBar (s : State) (e : Epi) : Eff (Option BarBind) :=
  if e.barv then do
    let x ← s.barAddr (BitVec.ofNat 12 e.bar)
    let c := s.barCore s.myTeam
    if (s.barRead s.myTeam c x).uninit then trap 0x83 e.bar else .ok (some (s.barBind s.myTeam c x))
  else .ok none

/-- Some buffer line of the bytes refuses a store (R242): the buffer's number and its state. -/
def lineRefused (s : State) (t core a n : Nat) : Option Nat := (s.bufCheck t core a n .store).map (·.2)

end State

/-- `mx.epi` (R240–R244). -/
def execMxEpi (d a b : Reg) (s : State) : Out' :=
  s.issue (.mxEpi d a b) (.core false [.sdc d, .sa a, .sb b] .none) fun t => do
    let x ← t.scrObject (t.sval a.toNat) 64 64
    let blk := BitVec.ofNat 512 x
    match epiBad blk with
    | some n => trap 0x92 n
    | none =>
      let e := Epi.of blk
      if e.csum && t.foldPending t.curGrp e.csreg t.nextId then hold (t.awaits (.fold e.csreg t.nextId))
      else
        let o := t.sval d.toNat
        t.cairnOk o (4 * ((e.rows - 1) * e.cstride + e.cols)) 64
        let cm ← t.cairnPages 0 ((List.range e.rows).map fun r => (o.toNat + 4 * r * e.cstride, 4 * e.cols))
        let scale ← t.epiArray e.sclv e.scale e.cols
        let bias ← t.epiArray e.biasv e.bias e.cols
        let dests ← if e.table then t.tableDests e (t.sval b.toNat) else t.denseDests e (t.sval b.toNat)
        let bar ← t.epiBar e
        let t := if e.barv || dests.any t.leavesDevice then t.sealAll else t
        .ok (t.mxAccept cm (.epi o.toNat blk dests scale bias bar t.me.image.gens))

/-! ### Performing -/

namespace State

/-- One row that has been computed sets out for its destination, or counts as arrived (R242, R244). -/
def sendRow (s : State) (epi : Nat) (m : MxOp) (e : Epi) (bar : Option BarBind) (d : EpiDst) (out : List Byte × List Byte) : State :=
  let bytes := e.rowBytes + e.scaleBytes
  match d with
  | .skip => s
  | .scr a q =>
    let pieces := (a, out.1) :: (if out.2.isEmpty then [] else [(q, out.2)])
    s.place (.row ⟨epi, m.grp, m.team, m.col, (s.grp m.grp).core, pieces, bar, bytes⟩)
  | .ptr p =>
    let g := s.grp m.grp
    let r : Remote :=
      { kind := .write, why := .row epi m.grp bar bytes, ctx := g.ctx, launch := g.launch, col := m.col, core := g.core, dev := none, host := none, tcol := 0,
        off := ptrOff p, size := out.1.length + out.2.length, data := 0, cmp := 0, op := 0, signed := false, poison := false,
        bytes := out.1 ++ out.2, sentAt := s.time, backoff := 0, sent := false, waiting := false, release := none, via := none, answer := none }
    s.placeRemote r (s.resolve p (s.colNum g.ctx m.col)) p

/-- The rows of an epilogue, ascending: computed, folded and sent. -/
def epiRows (epi : Nat) (m : MxOp) (e : Epi) (scale bias : Array Nat) (o : Nat) (bar : Option BarBind) : List (EpiDst × Nat) → State → EpiState → State × EpiState
  | [], s, st => (s, st)
  | (d, r) :: ds, s, st =>
    if d = .skip then epiRows epi m e scale bias o bar ds s st
    else
      let xs := (List.range e.cols).map fun n => s.mem.cairnWord (s.cairnAt m.team m.cmap (o + 4 * (r * e.cstride + n)))
      let y := epiRow e (s.grp m.grp).width scale bias xs st
      epiRows epi m e scale bias o bar ds (s.sendRow epi m e bar d y.2) y.1

/-- The bytes that the null rows of a table count at once (R244). -/
def skipCount (e : Epi) (dests : List EpiDst) : Nat := (dests.filter fun d => d = .skip).length * (e.rowBytes + e.scaleBytes)

end State

/-- The matrix queue performs an epilogue (R242, R245). -/
def execMxEpiPerform (id : Nat) (s : State) : Out' :=
  match s.mxAt id with
  | some m => match m.kind with
    | .epi o blk dests scale bias bar gens =>
      let e := Epi.of blk
      let s := s.drop id
      let words := (List.range e.rows).flatMap fun r => (List.range e.cols).map fun n => o + 4 * (r * e.cstride + n)
      match s.badWord m words with
      | some b =>
        let s := match bar with
          | some x => s.place (.barError x 0)
          | none => s
        .next ((s.wakeMoves.cairnPoisoned m b).changed)
      | none =>
        let reg := vget ⟨0, 0⟩ (s.grp m.grp).image.i e.csreg
        let r := State.epiRows id m e scale.toArray bias.toArray o bar dests.zipIdx s ⟨reg, gens⟩
        let s := if e.csum then r.1.modImage m.grp fun im => { im with i := vmod im.i e.csreg fun _ => r.2.reg } else r.1
        let skipped := State.skipCount e dests
        let s := match bar with
          | none => s
          | some x =>
            if (s.barRead x.team x.core x.addr).kind = 1 then (if skipped = 0 then s else s.place (.countdown x skipped none none))
            else if dests.all fun d => d = EpiDst.skip then s.rowDone id bar 0 else s
        .next ((s.wakeMoves.sendAll).changed)
    | _ => notPending
  | none => notPending

/-- Drops the rows of an epilogue that have not arrived. -/
def State.dropRows (s : State) (epi : Nat) : State :=
  { s with flight := s.flight.filter fun f => match f.item with
    | .row r => r.epi ≠ epi
    | _ => true }

/-- Splits bytes at an address into the parts that lie on one line each. -/
def lineParts : Nat → Nat → List Byte → List (Nat × List Byte)
  | 0, _, _ => []
  | n + 1, a, bs =>
    if bs.isEmpty then [] else
    let k := 128 - a % 128
    (a, bs.take k) :: lineParts n (a + k) (bs.drop k)

/-- A row arrives at its core's scratchpad: each line is checked again; rows arrive in ascending order (R242). -/
def execEpilogueRowArrival (id : Nat) (s : State) : Out' :=
  match s.item id with
  | some (.row r) =>
    let same : Item → Bool := fun i => match i with
      | .row q => q.epi = r.epi
      | _ => false
    if s.earlier id same then notPending
    else
      let parts := r.pieces.flatMap fun p => lineParts (p.2.length + 1) p.1 p.2
      let bad := fun (p : Nat × List Byte) => s.lineRefused r.team r.core p.1 p.2.length
      let good := parts.filter fun p => (bad p).isNone
      let t := ((s.drop id).scrWrite r.team r.core good false)
      match parts.findSome? bad with
      | none => .next ((t.rowDone r.epi r.bar r.bytes).changed)
      | some detail =>
        let t := t.dropRows r.epi
        let t := match r.bar with
          | some b => t.place (.barError b 0)
          | none => t
        .next ((t.asyncCause r.grp 0x81 detail).changed)
  | _ => notPending

end Sys2Proof.Machine
end

