-- ==== Sys2Proof/Machine/Scalar.lean ====
section
/-! DEFINITION. Meanings of the scalar family 0x20–0x39 (R75–R82). -/

namespace Sys2Proof.Machine

open Sys2Proof

/-! ### The operations of Table 5-2 -/

/-- The high 64 bits of the signed 128-bit product. -/
def mulHigh (a b : Word) : Word := BitVec.ofInt 64 (a.toInt * b.toInt / 2 ^ 64)

/-- Shifts by `b`[5:0]. -/
def shl6 (a b : Word) : Word := a <<< (b.toNat % 64)
def shr6 (a b : Word) : Word := a >>> (b.toNat % 64)
def sra6 (a b : Word) : Word := a.sshiftRight (b.toNat % 64)

def sminOf (a b : Word) : Word := if b.slt a then b else a
def smaxOf (a b : Word) : Word := if a.slt b then b else a

/-- An immediate of `n` bits extended with its sign or with zeros (Table 5-4, R82). -/
def immS {n : Nat} (i : BitVec n) : Word := i.signExtend 64
def immZ {n : Nat} (i : BitVec n) : Word := i.zeroExtend 64

/-! ### Shapes -/

/-- A register-register scalar instruction (R77). -/
def scalar3 (i : Instr) (d a b : Reg) (f : Word → Word → Word) (s : State) : Out' :=
  s.issue i (.both [.sd d, .sa a, .sb b] (.s d.toNat)) (fun t => .ok (t.writeS d.toNat (f (t.sval a.toNat) (t.sval b.toNat))))

/-- A division: a zero divisor traps INT_DIVIDE_ZERO (R78). -/
def scalarDiv (i : Instr) (d a b : Reg) (f : Word → Word → Word) (s : State) : Out' :=
  s.issue i (.both [.sd d, .sa a, .sb b] (.s d.toNat)) (fun t =>
    if t.sval b.toNat = 0 then trap 0x25 else .ok (t.writeS d.toNat (f (t.sval a.toNat) (t.sval b.toNat))))

/-- A scalar instruction with an immediate (R81). -/
def scalarI (i : Instr) (d a : Reg) (x : Word) (f : Word → Word → Word) (s : State) : Out' :=
  s.issue i (.both [.sd d, .sa a] (.s d.toNat)) (fun t => .ok (t.writeS d.toNat (f (t.sval a.toNat) x)))

/-! ### Meanings -/

/-- `sadd`: a + b (R77). -/
def execSadd (d a b : Reg) (s : State) : Out' := scalar3 (.sadd d a b) d a b (fun x y => x + y) s

/-- `ssub`: a − b (R77). -/
def execSsub (d a b : Reg) (s : State) : Out' := scalar3 (.ssub d a b) d a b (fun x y => x - y) s

/-- `smul`: low 64 bits of a × b (R77). -/
def execSmul (d a b : Reg) (s : State) : Out' := scalar3 (.smul d a b) d a b (fun x y => x * y) s

/-- `smulh`: high 64 bits of the signed product (R77). -/
def execSmulh (d a b : Reg) (s : State) : Out' := scalar3 (.smulh d a b) d a b mulHigh s

/-- `sdiv`: signed quotient toward zero (R78). -/
def execSdiv (d a b : Reg) (s : State) : Out' := scalarDiv (.sdiv d a b) d a b BitVec.sdiv s

/-- `srem`: remainder with the sign of a (R78). -/
def execSrem (d a b : Reg) (s : State) : Out' := scalarDiv (.srem d a b) d a b BitVec.srem s

/-- `sand`: a & b (R77). -/
def execSand (d a b : Reg) (s : State) : Out' := scalar3 (.sand d a b) d a b (fun x y => x &&& y) s

/-- `sor`: a | b (R77). -/
def execSor (d a b : Reg) (s : State) : Out' := scalar3 (.sor d a b) d a b (fun x y => x ||| y) s

/-- `sxor`: a ^ b (R77). -/
def execSxor (d a b : Reg) (s : State) : Out' := scalar3 (.sxor d a b) d a b (fun x y => x ^^^ y) s

/-- `sshl`: a << b[5:0] (R77). -/
def execSshl (d a b : Reg) (s : State) : Out' := scalar3 (.sshl d a b) d a b shl6 s

/-- `sshr`: a >> b[5:0], zero fill (R77). -/
def execSshr (d a b : Reg) (s : State) : Out' := scalar3 (.sshr d a b) d a b shr6 s

/-- `ssra`: a >> b[5:0], sign fill (R77). -/
def execSsra (d a b : Reg) (s : State) : Out' := scalar3 (.ssra d a b) d a b sra6 s

/-- `smin`: the smaller, signed (R77). -/
def execSmin (d a b : Reg) (s : State) : Out' := scalar3 (.smin d a b) d a b sminOf s

/-- `smax`: the larger, signed (R77). -/
def execSmax (d a b : Reg) (s : State) : Out' := scalar3 (.smax d a b) d a b smaxOf s

/-- `scmp`: the flags of a − b (R79). -/
def execScmp (a b : Reg) (s : State) : Out' :=
  s.issue (.scmp a b) (.both [.sa a, .sb b] .none) (fun t => .ok (t.setFlags (cmpFlags t.flags (t.sval a.toNat) (t.sval b.toNat))))

/-- `scmpi`: the flags of a − immediate (R79). -/
def execScmpi (a : Reg) (i : BitVec 12) (s : State) : Out' :=
  s.issue (.scmpi a i) (.both [.sa a] .none) (fun t => .ok (t.setFlags (cmpFlags t.flags (t.sval a.toNat) (immS i))))

/-- `ssel`: a if the condition holds, else b (R80). -/
def execSsel (d a b : Reg) (c : BitVec 4) (s : State) : Out' :=
  s.issue (.ssel d a b c) (.both [.sd d, .sa a, .sb b] (.s d.toNat)) (fun t =>
    .ok (t.writeS d.toNat (if condHolds t.flags c.toNat then t.sval a.toNat else t.sval b.toNat)))

/-- `saddi` (R81). -/
def execSaddi (d a : Reg) (i : BitVec 12) (s : State) : Out' := scalarI (.saddi d a i) d a (immS i) (fun x y => x + y) s

/-- `sandi` (R81). -/
def execSandi (d a : Reg) (i : BitVec 12) (s : State) : Out' := scalarI (.sandi d a i) d a (immZ i) (fun x y => x &&& y) s

/-- `sori` (R81). -/
def execSori (d a : Reg) (i : BitVec 12) (s : State) : Out' := scalarI (.sori d a i) d a (immZ i) (fun x y => x ||| y) s

/-- `sxori` (R81). -/
def execSxori (d a : Reg) (i : BitVec 12) (s : State) : Out' := scalarI (.sxori d a i) d a (immZ i) (fun x y => x ^^^ y) s

/-- `sshli` (R81). -/
def execSshli (d a : Reg) (i : BitVec 6) (s : State) : Out' := scalarI (.sshli d a i) d a (immZ i) shl6 s

/-- `sshri` (R81). -/
def execSshri (d a : Reg) (i : BitVec 6) (s : State) : Out' := scalarI (.sshri d a i) d a (immZ i) shr6 s

/-- `ssrai` (R81). -/
def execSsrai (d a : Reg) (i : BitVec 6) (s : State) : Out' := scalarI (.ssrai d a i) d a (immZ i) sra6 s

/-- `sli`: the immediate extended from bit 17 (R82). -/
def execSli (d : Reg) (i : BitVec 18) (s : State) : Out' :=
  s.issue (.sli d i) (.both [.sd d] (.s d.toNat)) (fun t => .ok (t.writeS d.toNat (immS i)))

/-- `slhi`: d << 18 with the immediate below; d is read through slot c, so an empty one waits or traps by that slot's policy (R82). -/
def execSlhi (d : Reg) (i : BitVec 18) (s : State) : Out' :=
  s.issue (.slhi d i) (.both [.sdc d] (.s d.toNat)) (fun t => .ok (t.writeS d.toNat ((t.sval d.toNat <<< 18) ||| immZ i)))

end Sys2Proof.Machine
end

