-- ==== Sys2Proof/Machine/System.lean ====
section
/-! DEFINITION. Special registers (R50, R139), the return from a trap (R328), and the meanings of the system family 0x11–0x18. -/

namespace Sys2Proof.Machine

open Sys2Proof

/-- How a special register may be accessed (Table 3-9). -/
inductive SrAccess where
  | rw
  | ro
  /-- read by all, written by a privileged group -/
  | privWrite
  /-- privileged for both -/
  | priv
  deriving DecidableEq, Repr

/-- The special registers of a core: the access of an index, none where Table 3-9 lacks it. -/
def coreSr (n : Nat) : Option SrAccess :=
  if n = 0x000 || n = 0x001 || n = 0x003 || n = 0x004 then some .rw
  else if n = 0x018 || n = 0x01A then some .privWrite
  else if n = 0x030 then some .priv
  else if n = 0x002 || n = 0x005 || (decide (0x008 ≤ n) && decide (n ≤ 0x00E)) || n = 0x010 || n = 0x011 || n = 0x019 || n = 0x01B ||
    (decide (0x020 ≤ n) && decide (n ≤ 0x027)) || n = 0x040 then some .ro
  else none

/-- The special registers of a streamer. -/
def streamSr (n : Nat) : Option SrAccess :=
  if n = 0x001 then some .rw
  else if (decide (0x00C ≤ n) && decide (n ≤ 0x00E)) || n = 0x010 || n = 0x011 || n = 0x019 || n = 0x01B || n = 0x041 then some .ro
  else none

/-- Bits d of a list of flags, the innermost region last. -/
def depthBits : List Bool → Nat
  | [] => 0
  | b :: bs => bit b + 2 * depthBits bs

/-- `sr.rgn` (Table 21-1); the lists run from the outermost region. -/
def rgnWord (last rollbacks : Nat) (seals idems : List Bool) (retry : Nat) : Nat :=
  last * 2 ^ 40 + rollbacks * 2 ^ 24 + depthBits seals * 2 ^ 16 + depthBits idems * 2 ^ 8 + retry * 2 ^ 4 + seals.length

namespace State

def srAccess (s : State) (n : Nat) : Option SrAccess := if s.onCore then coreSr n else streamSr n

/-- `sr.rgn` of the issuing agent (R346). -/
def rgnSr (s : State) : Nat := match s.cur with
  | .slot g _ =>
    let x := s.grp g
    let rs := x.regions.reverse
    rgnWord x.lastCause x.rollbacks (rs.map (·.sealed)) (rs.map (·.idem)) ((x.regions.head?.map (·.retry)).getD 0)
  | .thread c t =>
    let x := s.thread c t
    let rs := x.regions.reverse
    rgnWord x.lastCause x.rollbacks (rs.map (·.sealed)) (rs.map (·.idem)) ((x.regions.head?.map (·.retry)).getD 0)

/-- Offset of the agent's save slot in its STACK segment (R300, R324). -/
def frameSr (s : State) : Nat := match s.cur with
  | .slot g _ => (s.grp g).frame
  | .thread _ t => 64 * t

/-- The value of a special register (Table 3-9). -/
def srRead (s : State) (n : Nat) : Word :=
  let g := s.me
  if n = 0x000 then BitVec.ofNat 64 s.mode
  else if n = 0x001 then BitVec.ofNat 64 (ccOf s.flags)
  else if n = 0x002 then BitVec.ofNat 64 (bit s.curSlot + 2 * bit (g.image.slot (!s.curSlot)).isSome + 4 * g.image.stack.length)
  else if n = 0x003 then BitVec.ofNat 64 (bit g.image.joinLost + 2 * bit g.image.swapped)
  else if n = 0x004 then BitVec.ofNat 64 (bit g.image.joinTrap)
  else if n = 0x005 then g.image.gang
  else if n = 0x008 then BitVec.ofNat 64 g.width
  else if n = 0x009 then BitVec.ofNat 64 g.gid
  else if n = 0x00A then BitVec.ofNat 64 g.tid
  else if n = 0x00B then BitVec.ofNat 64 g.core
  else if n = 0x00C then BitVec.ofNat 64 s.myColNum
  else if n = 0x00D then BitVec.ofNat 64 s.dev
  else if n = 0x00E then BitVec.ofNat 64 (s.ncol s.myCtx)
  else if n = 0x010 then BitVec.ofNat 64 s.time
  else if n = 0x011 then BitVec.ofNat 64 s.cycles
  else if n = 0x018 then g.trapbase
  else if n = 0x019 then BitVec.ofNat 64 s.frameSr
  else if n = 0x01A then g.swapwait.zeroExtend 64
  else if n = 0x01B then BitVec.ofNat 64 s.rgnSr
  else if n = 0x030 then g.einj
  else if n = 0x040 then BitVec.ofNat 64 (s.core g.col g.core).kicks.length
  else if n = 0x041 then BitVec.ofNat 64 (match s.cur with
    | .thread _ t => t
    | .slot _ _ => 0)
  else vget 0 g.seg (n - 0x020)

/-- The bits of `sr.einj` that are not reserved (Table 25-6). -/
def einjMask : Word := 0x30FFFFFFFFF00000

/-- A permitted write of a special register (R139). -/
def srWrite (s : State) (n : Nat) (x : Word) : State :=
  if n = 0x000 then s.modMe fun g => { g with image := { g.image with mode := BitVec.ofNat 18 x.toNat } }
  else if n = 0x001 then s.setFlags (ofCc x.toNat)
  else if n = 0x003 then s.modMe fun g => { g with image := { g.image with
    joinLost := g.image.joinLost && x.getLsbD 0, swapped := g.image.swapped && x.getLsbD 1 } }
  else if n = 0x004 then s.modMe fun g => { g with image := { g.image with joinTrap := x.getLsbD 0 } }
  else if n = 0x018 then s.modMe fun g => { g with trapbase := x }
  else if n = 0x01A then s.modMe fun g => { g with swapwait := BitVec.ofNat 32 x.toNat }
  else if n = 0x030 then s.modMe fun g => { g with einj := x &&& einjMask }
  else s

/-- The access check of R50: true where the access traps PRIVILEGED. -/
def srDenied (s : State) (n : Nat) (write : Bool) : Bool :=
  match s.srAccess n with
  | some .ro => write
  | some .privWrite => write && !s.me.privileged
  | some .priv => !s.me.privileged
  | _ => false

/-! ### The return from a trap (R328) -/

/-- The frame as `eret` reads it, after its core's earlier stores to it: from its home, whose page must let a load through; a page that is not present is a nested fault like any other cause of a privileged group (R309, R329, R412). -/
def readFrame (s : State) : Eff (Nat × State) :=
  match s.frameTrans s.me 0 with
  | .ok h =>
    let t := s.settleAt s.me.col s.me.core [(h, 64)]
    if t.mem.anyPoisoned h 64 then trap 0xB1 else .ok (t.mem.nat h 64, t)
  | .refused c e => trap c e
  | .miss => trap 0x60
  | .struck => .error (.gone (s.killCtx s.myCtx))

/-- The effect of a frame on the returning group: slot, PC, flags, mode, s62, privilege. -/
def restoreFrame (f : Nat) (g : Group) : Group :=
  let b : Bool := bitsOf f 16 1 = 1
  let im := g.image.modSlot b fun p => { p with pc := BitVec.ofNat 64 (bitsOf f 32 32), flags := ofCc (bitsOf f 114 5), prog := .start }
  { g with
    privileged := false
    image := { im with mode := BitVec.ofNat 18 (bitsOf f 96 18), s := vmod im.s 62 fun _ => ⟨BitVec.ofNat 64 (bitsOf f 320 64), true, none⟩ } }

/-- The return from a trap. The mode field of the frame has no reserved bit (R46), so the check of R328 on it never fails. -/
def eret (s : State) : Eff State := do
  let (f, s) ← s.readFrame
  let pc := BitVec.ofNat 64 (bitsOf f 32 32)
  if pc.toNat % 4 ≠ 0 then trapCode 0x43 4 pc
  else if segLimit (s.seg 4) ≤ pc.toNat then trapCode 0x40 4 pc
  else .ok (s.modMe (restoreFrame f))

/-! ### Wake registers (R290, R291) -/

/-- A message to the management core (R290). -/
def sendMessage (s : State) (m : BitVec 32) : State :=
  let s : State := { s with qps := s.qps.map fun x => if m.toNat = 2 ^ 31 + x.qp then pollPair s.mem x else x }
  if s.fifo.length < Config.fifoSize then { s with fifo := s.fifo ++ [m] } else { s with drops := s.drops + 1 }

/-- A write of a queue's wake register by a context (R290, R291). -/
def ringBell (s : State) (ctx q : Nat) : State :=
  if (s.queue q).ctx = ctx && (s.queue q).st ≠ .disabled then s.modQueue q fun x => { x with wake := true } else s

/-- The checks of `segld` on a segment value (R332). -/
def segOk (s : State) (n : Nat) (x : Word) : Bool :=
  let stop := segBase x + segLimit x
  if n = 0 then decide (stop ≤ Config.scrBytes)
  else if n = 3 then decide (stop ≤ (if (s.team s.me.team).pair then 2 * Config.cairnBytes else Config.cairnBytes))
  else true

end State

/-! ### Meanings -/

/-- `rdsr` (R139). -/
def execRdsr (d : Reg) (n : BitVec 12) (s : State) : Out' :=
  s.issue (.rdsr d n) { Form.both [.sd d] (.s d.toNat) with reserved := (s.srAccess n.toNat).isNone } fun t =>
    if t.srDenied n.toNat false then trap 0x04 else .ok (t.writeS d.toNat (t.srRead n.toNat))

/-- `wrsr` (R139). -/
def execWrsr (a : Reg) (n : BitVec 12) (s : State) : Out' :=
  s.issue (.wrsr a n) { Form.both [.sa a] .none with reserved := (s.srAccess n.toNat).isNone } fun t =>
    if t.srDenied n.toNat true then trap 0x04 else .ok (t.srWrite n.toNat (t.sval a.toNat))

/-- `rdtime` (R140). -/
def execRdtime (d : Reg) (s : State) : Out' :=
  s.issue (.rdtime d) (.both [.sd d] (.s d.toNat)) fun t => .ok (t.writeS d.toNat (BitVec.ofNat 64 t.time))

/-- `trap`: SOFT_TRAP with its code (R330). -/
def execTrap (c : BitVec 12) (s : State) : Out' :=
  s.issue (.trap c) (.both [] .none) fun _ => .error (.trap ⟨0xB6, c.toNat, none, 0, true, false⟩)

/-- `sint`: a wake register (R291). -/
def execSint (a : Reg) (s : State) : Out' :=
  s.issue (.sint a) (.core false [.sa a] .none) fun t =>
    let x := (t.sval a.toNat).toNat
    .ok (if bitsOf x 8 1 = 1 then t.sendMessage (BitVec.ofNat 32 (bitsOf x 32 32)) else t.ringBell t.myCtx (bitsOf x 0 8))

/-- `eret` (R328). -/
def execEret (s : State) : Out' :=
  s.issue .eret { Form.core false [] .none with priv := true } fun t => t.eret

/-- `segld` (R332). -/
def execSegld (a : Reg) (n : BitVec 12) (s : State) : Out' :=
  s.issue (.segld a n) { Form.core false [.sa a] .none with priv := true } fun t =>
    let x := t.sval a.toNat
    if t.segOk n.toNat x then .ok (t.modMe fun g => { g with seg := vmod g.seg n.toNat fun _ => x }) else trap 0x40 n.toNat

/-- `dbgbrk`: halts the group where debugging is enabled for its context, else DEBUG_BREAK (R331). -/
def execDbgbrk (t : BitVec 12) (s : State) : Out' :=
  s.issue (.dbgbrk t) (.core false [] .none) fun u =>
    if (u.ctx u.myCtx).debug then .ok (u.modMe fun g => { g with halted := true }) else .error (.trap ⟨0xB7, t.toNat, none, 0, true, false⟩)

end Sys2Proof.Machine
end

