-- ==== Sys2Proof/Machine/Transfers.lean ====
section
/-! DEFINITION. How transfers of stream threads are performed (R201–R205, R210–R213) and the events TRANSFER_COMPLETE and MULTICAST_LINE. -/

namespace Sys2Proof.Machine

open Sys2Proof

/-- Where an element lies, or what stands in the way. -/
inductive Spot where
  /-- byte address in the kicking group's scratchpad, and the pointer -/
  | scr (a : Nat) (p : Word)
  | home (h : Nat)
  | far (t : State.Target) (p : Word)
  /-- the page must be walked for: column, virtual offset, kind of access -/
  | walk (col off kind : Nat)
  | fault (cause detail : Nat) (p : Word)
  deriving DecidableEq, Repr

/-- What becomes of one element. -/
inductive XStep where
  /-- it is written: the data, its poison, its place -/
  | put (data : Nat) (bad : Bool) (at_ : Spot)
  /-- nothing is written; the scratchpad line that becomes full (R202) -/
  | skip (mark : Option Nat)
  /-- it must be read from another member or the host -/
  | ask (key : Nat) (t : State.Target) (p : Word)
  /-- it waits for buffer lines (R203) -/
  | wait (lines : List (Nat × Nat))
  | walk (col off kind : Nat)
  /-- cause, detail word and `ADDR` -/
  | fault (cause detail : Nat) (p : Option Word)
  deriving DecidableEq, Repr

/-- One element of a transfer: its coordinates in source and destination, whether an index clips it there, whether its index value is poisoned, and what its index meets. -/
structure Elem where
  k : Nat
  src : List Int
  srcOut : Bool
  dst : List Int
  dstOut : Bool
  bad : Bool
  stop : Option XStep
  deriving DecidableEq, Repr

namespace State

/-! ### Reaching an element (R201) -/

def xferOwn (s : State) (x : Xfer) (k : Kick) : Nat := s.colNum k.ctx x.col

/-- Reaches an element in bounds; kinds: 0 read, 1 write, 2 read and write. -/
def reach (s : State) (x : Xfer) (k : Kick) (r : LRec) (kind : Nat) (co : List Int) : Spot :=
  let own := s.xferOwn x k
  let c := r.spot (s.ncol k.ctx) own co
  let p := pointerTo (ptrDev r.base) c.1 c.2
  let t := s.resolve p own
  if s.ptrBadIn k.ctx p then .fault 0x46 0 p
  else if s.targetDead k.ctx t then .fault 0x44 0 p
  else match t with
  | .here n =>
    let seg := vget 0 k.seg (segOf r.space)
    if segLimit seg < c.2 + r.esize then .fault 0x40 (segOf r.space) p
    else if r.space = 0 then .scr (segBase seg + c.2) p
    else
      let col := s.colOf k.ctx n
      let off := segBase seg + c.2
      match lookTlb (s.col col).tlb k.ctx col off kind with
      | .ok h => .home h
      | .refused cause e => .fault cause e p
      | _ => match x.walkFault with
        | some w => if w.off = off then .fault w.cause w.detail p else .walk col off kind
        | none => .walk col off kind
  | t => .far t p

/-- Reads an element that lies in the kicking core's scratchpad (R143, R145, R203): an element of a line lost to a broken buffer reads as poisoned, one of a buffer that is not yet full waits. -/
def readScr (s : State) (x : Xfer) (k : Kick) (n a : Nat) (p : Word) : Except XStep (Nat × Bool) :=
  let ls := s.bufLines k.team k.core a n
  let lost := fun (l : Nat × Nat) => x.broken.contains l && (s.buf k.team k.core l.1).st = .empty && !(s.buf k.team k.core l.1).isFull l.2
  if ls.any lost then .ok (s.scrNat k.team k.core a n, true)
  else match s.bufCheck k.team k.core a n .load with
  | some e => .error (.fault e.1 e.2 (some p))
  | none =>
    if s.bufHolds k.team k.core a n then .error (.wait ls)
    else .ok (s.scrNat k.team k.core a n, s.scrPoisoned k.team k.core a n)

/-- Reads what has come from elsewhere, or asks for it; `key` names it there. -/
def readFar (x : Xfer) (key : Nat) (t : Target) (p : Word) : Except XStep (Nat × Bool) :=
  match x.got.find? (fun g => g.1 = key) with
  | some g => .ok (g.2.1.toNat, g.2.2)
  | none => .error (.ask key t p)

/-- Reads a source or index element. -/
def readElem (s : State) (x : Xfer) (k : Kick) (r : LRec) (key : Nat) (co : List Int) : Except XStep (Nat × Bool) :=
  match s.reach x k r 0 co with
  | .fault c d p => .error (.fault c d (some p))
  | .walk c o n => .error (.walk c o n)
  | .home h => .ok (s.mem.nat h r.esize, s.mem.isPoisoned h)
  | .far t p => readFar x key t p
  | .scr a p => s.readScr x k r.esize a p

/-! ### Index values and elements (R210) -/

/-- The values of the index window: none where the index element is clipped. -/
def indexValues (s : State) (x : Xfer) (k : Kick) : List (Except XStep (Option (Int × Bool))) :=
  let r := x.idx.lrec
  (List.range (countOf x.idx.shape)).map fun j =>
    let co := coordsOf x.idx.origin x.idx.shape j
    if !r.inBounds co then (if r.oob = 2 then .error (.fault 0xA0 j none) else .ok none)
    else (s.readElem x k r (2 ^ 40 + j) co).map fun v => some (ival r.efmt v.1, v.2)

/-- An element of a `tgath` or `tscat`: the coordinates that the index gives it in the slab's record. -/
def slabElem (x : Xfer) (gath : Bool) (dim : Nat) (vals : Array (Except XStep (Option (Int × Bool)))) (k : Nat) : Elem :=
  let w := if gath then x.src else x.dst
  let shp := w.shape.set dim 1
  let n := max (countOf shp) 1
  let at_ := coordsOf w.origin shp (k % n)
  let other := if gath then coordsOf x.dst.origin x.dst.shape k else coordsOf x.src.origin x.src.shape k
  let make := fun (slab : List Int) (out bad : Bool) (stop : Option XStep) =>
    if gath then (⟨k, slab, out, other, false, bad, stop⟩ : Elem) else ⟨k, other, false, slab, out, bad, stop⟩
  match vals.getD (k / n) (.ok none) with
  | .ok (some v) => make (at_.set dim v.1) false v.2 none
  | .ok none => make (at_.set dim 0) true false none
  | .error e => make (at_.set dim 0) true false (some e)

/-- The elements of a transfer, ascending. -/
def elements (s : State) (x : Xfer) (k : Kick) : List Elem :=
  match x.kind with
  | .gather dim =>
    let vals := (s.indexValues x k).toArray
    (List.range (countOf x.dst.shape)).map (slabElem x true dim vals)
  | .scatter dim =>
    let vals := (s.indexValues x k).toArray
    (List.range (countOf x.src.shape)).map (slabElem x false dim vals)
  | _ => (List.range (countOf x.dst.shape)).map fun n =>
    ⟨n, coordsOf x.src.origin x.src.shape n, false, coordsOf x.dst.origin x.dst.shape n, false, false, none⟩

/-! ### Clipped elements (R202) -/

/-- The destination lies in the scratchpad of this device. -/
def dstScr (s : State) (x : Xfer) : Bool :=
  let r := x.dst.lrec
  r.space = 0 && (ptrDev r.base = 0x3FF || ptrDev r.base = s.dev)

/-- The line of a destination element in bounds: column number and line of the offset. -/
def lineKey (s : State) (x : Xfer) (k : Kick) (co : List Int) : Nat × Nat :=
  let c := x.dst.lrec.spot (s.ncol k.ctx) (s.xferOwn x k) co
  (c.1, c.2 / 128)

/-- The buffers of the kicking core that the destination window addresses. -/
def addressed (s : State) (x : Xfer) (k : Kick) (es : List Elem) : List Nat :=
  if !s.dstScr x then [] else
  (es.filterMap fun e =>
    if !e.dstOut && x.dst.lrec.inBounds e.dst then
      (s.bufAt k.team k.core (segBase (vget 0 k.seg 0) + 128 * (s.lineKey x k e.dst).2)).map (·.1)
    else none).foldl setPut []

/-- A line number brought into a buffer. -/
def clampLine (s : State) (k : Kick) (l : Int) (b : Nat) : Int :=
  let x := s.buf k.team k.core b
  let first : Int := ((s.team k.team).scrBase / 128 + x.start : Nat)
  max first (min l (first + (x.lines : Int) - 1))

/-- The scratchpad line that a destination-clipped element counts for: the line its coordinates give, brought to the nearest line of a buffer that the window addresses. -/
def clippedMark (s : State) (x : Xfer) (k : Kick) (bufs : List Nat) (co : List Int) : Option Nat :=
  if !s.dstScr x then none else
  let o := (x.dst.lrec.spotAt (s.ncol k.ctx) (s.xferOwn x k) co).2
  let l : Int := ((segBase (vget 0 k.seg 0) : Nat) + o) / 128
  let near := bufs.foldl (fun (best : Option Int) b =>
    let q := s.clampLine k l b
    match best with
    | none => some q
    | some y => if (q - l).natAbs < (y - l).natAbs then some q else some y) none
  match near with
  | some q => some (128 * q.toNat)
  | none => if l < 0 then none else some (128 * l.toNat)

/-- The scratchpad line of a destination element in bounds that is not written. -/
def skippedMark (s : State) (x : Xfer) (k : Kick) (co : List Int) : Option Nat :=
  if s.dstScr x then some (segBase (vget 0 k.seg 0) + 128 * (s.lineKey x k co).2) else none

/-- The destination line for which an element counts (R202, R204): a line of the kicking core's scratchpad, a line of a column's space, or none of them where it is clipped elsewhere. -/
def destLine (s : State) (x : Xfer) (k : Kick) (bufs : List Nat) (e : Elem) : Nat × Nat :=
  if !e.dstOut && x.dst.lrec.inBounds e.dst then
    let l := s.lineKey x k e.dst
    if s.dstScr x then (0, segBase (vget 0 k.seg 0) / 128 + l.2) else (l.1 + 1, l.2)
  else match s.clippedMark x k bufs e.dst with
    | some a => (0, a / 128)
    | none => (2 ^ 20, 0)

/-! ### What becomes of an element -/

/-- The write of a destination element is refused (Table 8-3, R203): a fill write of the thread's own kick never is, and a multicast is checked where it arrives. -/
def writeRefused (s : State) (x : Xfer) (k : Kick) (a n : Nat) : Option (Nat × Nat) :=
  let kind : AccKind := match x.kind with
    | .reduce _ => .atom
    | _ => .store
  match x.kind with
  | .multicast _ => none
  | _ => (s.bufLines k.team k.core a n).findSome? fun p =>
    let b := s.buf k.team k.core p.1
    if b.st = .filling && b.kick = some k.id then none else (bufRefuses kind b p.2).map fun c => (c, p.1 + b.st.code * 256)

/-- The step of one element. -/
def stepOf (s : State) (x : Xfer) (k : Kick) (bufs : List Nat) (e : Elem) : XStep :=
  let S := x.src.lrec
  let D := x.dst.lrec
  match e.stop with
  | some w => w
  | none =>
    let sin := !e.srcOut && S.inBounds e.src
    let din := !e.dstOut && D.inBounds e.dst
    if (!sin && S.oob = 2) || (!din && D.oob = 2) then .fault 0xA0 e.k none
    else if !din then .skip (s.clippedMark x k bufs e.dst)
    else
      let data : Except XStep (Option (Nat × Bool)) :=
        if sin then (s.readElem x k S e.k e.src).map some
        else if S.oob = 0 then .ok (some (S.fillPattern, false))
        else .ok none
      match data with
      | .error w => w
      | .ok none => .skip (s.skippedMark x k e.dst)
      | .ok (some v) =>
        let kind := match x.kind with
          | .reduce _ => 2
          | _ => 1
        match s.reach x k D kind e.dst with
        | .fault c d p => .fault c d (some p)
        | .walk c o n => .walk c o n
        | .scr a p => match s.writeRefused x k a D.esize with
          | some (c, d) => .fault c d (some p)
          | none => .put v.1 (v.2 || e.bad) (.scr a p)
        | at_ => .put v.1 (v.2 || e.bad) at_

/-! ### Performing -/

/-- A remote request for an element. -/
def elemRemote (s : State) (id key : Nat) (x : Xfer) (k : Kick) (kind : RemKind) (p : Word) (size data : Nat) (bad : Bool) : Remote :=
  { kind := kind, why := .element id key, ctx := k.ctx, launch := k.launch, col := x.col, core := k.core, dev := none, host := none, tcol := 0, off := ptrOff p,
    size := size, data := BitVec.ofNat 64 data, cmp := 0, op := 0, signed := false, poison := bad, bytes := [], sentAt := s.time,
    backoff := 0, sent := false, waiting := false, release := none, via := none, answer := none }

/-- The request that writes or combines an element at another member or the host (R211). -/
def writeRemote (s : State) (id : Nat) (x : Xfer) (k : Kick) (n : Nat) (p : Word) (data : Nat) (bad : Bool) : Remote :=
  let D := x.dst.lrec
  match x.kind with
  | .reduce op =>
    if isFloat D.efmt then { s.elemRemote id n x k .reduce p D.esize data bad with op := 16 + D.efmt * 4 + op }
    else { s.elemRemote id n x k .atomic p D.esize data bad with op := op, signed := esigned D.efmt }
  | _ => s.elemRemote id n x k .write p D.esize data bad

/-- Writes the elements of one destination line, ascending. -/
def writeLine (s : State) (id : Nat) (x : Xfer) (k : Kick) (ws : List (Nat × Nat × Bool × Spot)) : State :=
  let D := x.dst.lrec
  let n := D.esize
  let bad := ws.any fun w => w.2.2.1
  match x.kind with
  | .reduce op => ws.foldl (fun s w => match w.2.2.2 with
    | .scr a _ => s.scrWrite k.team k.core [(a, leBytes n (combine D.efmt op (s.scrNat k.team k.core a n) w.2.1))] w.2.2.1
    | .home h => s.storeHome [(h, leBytes n (combine D.efmt op (s.mem.nat h n) w.2.1))] w.2.2.1
    | .far t p => s.placeRemote (s.writeRemote id x k w.1 p w.2.1 w.2.2.1) t p
    | _ => s) s
  | _ =>
    let here := ws.filterMap fun w => match w.2.2.2 with
      | .scr a _ => some (a, leBytes n w.2.1)
      | _ => none
    let homes := ws.filterMap fun w => match w.2.2.2 with
      | .home h => some (h, leBytes n w.2.1)
      | _ => none
    let s := if here.isEmpty then s else s.scrWrite k.team k.core here bad
    let s := if homes.isEmpty then s else s.storeHome homes bad
    ws.foldl (fun s w => match w.2.2.2 with
      | .far t p => s.placeRemote (s.writeRemote id x k w.1 p w.2.1 w.2.2.1) t p
      | _ => s) s

/-- A line of the kicking core's scratchpad counts as arrived (R202). -/
def fillMark (s : State) (k : Kick) (a : Nat) : State := (s.bufFill k.team k.core a 1).wakeLoads k.team k.core

/-- The elements that are written, with their numbers: number, data, poison, place. -/
def putsOf (steps : List (XStep × Nat)) : List (Nat × Nat × Bool × Spot) :=
  steps.filterMap fun p => match p.1 with
    | .put d b a => some (p.2, d, b, a)
    | _ => none

def marksOf (steps : List (XStep × Nat)) : List Nat :=
  (steps.filterMap fun p => match p.1 with
    | .skip m => m
    | _ => none).foldl setPut []

/-- Distinct entries, in the order in which they first stand. -/
def firsts {α : Type} [DecidableEq α] (l : List α) : List α := l.foldl (fun a x => if a.contains x then a else a ++ [x]) []

/-- Performs the elements of one destination line (R201, R203, R205). -/
def performLine (s : State) (id : Nat) (x : Xfer) (k : Kick) (steps : List (XStep × Nat)) : State :=
  let puts := putsOf steps
  let s := if puts.isEmpty then s else s.writeLine id x k puts
  (marksOf steps).foldl (fun s a => s.fillMark k a) s

/-! ### Multicasts (R212) -/

/-- The teams of the kicking launch in the streamer's column that a mask names, core by core (R212). -/
def receivers (s : State) (x : Xfer) (k : Kick) (mask : Word) : List (Nat × Nat) :=
  (s.teams.filter fun t => t.launch = k.launch && t.col = x.col && !t.ended && decide (t.tid < 64) && mask.getLsbD t.tid).flatMap fun t =>
    if t.pair then [(t.id, t.core), (t.id, t.core + 1)] else [(t.id, t.core)]

/-- Sends one destination line of a multicast to a receiving core, with the bytes that it counts there. -/
def sendLine (id : Nat) (x : Xfer) (k : Kick) (steps : List (XStep × Nat)) (s : State) (recv : Nat × Nat) : State :=
  let base := segBase (vget 0 k.seg 0)
  let top := (s.team recv.1).scrBase
  let n := x.dst.lrec.esize
  let puts := (putsOf steps).filterMap fun p => match p.2.2.2 with
    | .scr a _ => some (a - base, p.2.1, p.2.2.1)
    | _ => none
  let lines := (puts.map fun p => p.1 / 128) ++ (marksOf steps).map fun a => (a - base) / 128
  match lines.head? with
  | none => s
  | some l =>
    s.place (.mcline id recv.1 recv.2 (top + 128 * l) (puts.map fun p => (top + p.1, leBytes n p.2.1)) (puts.any fun p => p.2.2) (n * steps.length))

/-! ### Sealing (R355) -/

/-- A transfer writes a line: to another column or device it seals the open regions that held when it issued; to TAL or GLB, those of them that are not IDEM (R355). -/
def sealXfer (s : State) (id : Nat) (x : Xfer) (spots : List Spot) : State :=
  let away := spots.any fun a => match a with
    | .far _ _ => true
    | .home h => homeCol h != x.col
    | _ => false
  let home := spots.any fun a => match a with
    | .home _ => true
    | _ => false
  let f := fun (r : SRegion) => if decide (r.openedAt ≤ id) && (away || (home && !r.idem)) then { r with sealed := true } else r
  s.modThread x.col x.thr fun h => { h with regions := h.regions.map f }

/-! ### The datapath (R196) -/

/-- The weight of a thread's kick. -/
def threadWeight (s : State) (c t : Nat) : Int := ((s.thread c t).kick.map fun k => (k.weight : Int)).getD 0

/-- The oldest transfer of a thread, if it has lines to write. -/
def oldestXfer (s : State) (c t : Nat) : Option Nat :=
  ((s.flight.find? fun f => xferOf c t f.item).filter fun f => match f.item with
    | .xfer x => !x.done
    | _ => false).map (·.id)

/-- The threads with a line ready, when thread `t` has one. -/
def lineReady (s : State) (c t : Nat) : List Nat :=
  (List.range 16).filter fun u => u = t || ((s.oldestXfer c u).map (Config.lineArrived s.draws)).getD false

/-- The grant goes to the thread: no other candidate has a larger credit, nor a lower one the same (R196). -/
def granted (s : State) (c t : Nat) : Bool :=
  let mine := (s.thread c t).credit + s.threadWeight c t
  (s.lineReady c t).all fun u =>
    let other := (s.thread c u).credit + s.threadWeight c u
    u = t || decide (other < mine) || (decide (other = mine) && decide (t < u))

/-- The credits after a grant (R196). -/
def settleLines (s : State) (c t : Nat) : State :=
  let ready := s.lineReady c t
  let total : Int := (ready.map (s.threadWeight c)).sum
  let f := fun (s : State) (u : Nat) (x : Int) => if ready.contains u then x + s.threadWeight c u - (if u = t then total else 0) else 0
  (List.range 16).foldl (fun s u => s.modThread c u fun h => { h with credit := f s u h.credit }) s

/-! ### Completing -/

/-- A count-down of a transfer (R204). -/
def countXfer (s : State) (id : Nat) (x : Xfer) (n : Nat) : State :=
  match x.bar with
  | none => s
  | some b => if n = 0 then s else s.place (.countdown b n (some ⟨x.col, x.thr, id, x.pc, x.insn⟩) none)

/-- The barrier bound to a transfer counts bytes. -/
def byBytes (s : State) (x : Xfer) : Bool := (x.bar.map fun b => decide ((s.barRead b.team b.core b.addr).kind = 1)).getD false

/-- Elements of a transfer. -/
def xferCountOf (x : Xfer) : Nat :=
  match x.kind with
  | .scatter _ => countOf x.src.shape
  | _ => countOf x.dst.shape

/-- A transfer completes: on an ARRIVALS barrier it counts 1, on a BYTES barrier what its lines have not counted (R204); each copy of a multicast has counted for itself (R212). The thread whose fault has acted ends with its last one (R208 step 5). The count-downs of its lines are not merged (DESIGN CHOICE, log 43). -/
def completeXfer (s : State) (id : Nat) (x : Xfer) : State :=
  let s := s.drop id
  let bytes := s.byBytes x
  let n := match x.kind with
    | .multicast _ => if bytes || x.sent then 0 else (x.recv.map List.length).getD 0
    | _ => if bytes then x.dst.lrec.esize * xferCountOf x - x.counted else 1
  let s := s.countXfer id x n
  if (s.thread x.col x.thr).st = .ending then s.endThread x.col x.thr else s

/-- An element's request, or a line of a multicast, of this transfer is on its way. -/
def partOf (id : Nat) (i : Item) : Bool :=
  match i with
  | .remote r => (match r.why with
    | .element x _ => x = id
    | _ => false)
  | .mcline x _ _ _ _ _ _ => x = id
  | _ => false

/-- A read of this transfer is on its way. -/
def readOf (id : Nat) (i : Item) : Bool :=
  match i with
  | .remote r => r.kind = .read && (match r.why with
    | .element x _ => x = id
    | _ => false)
  | _ => false

/-- A transfer all of whose lines have been granted completes as soon as no part of it is on its way (R201). -/
def finishXfer (s : State) (id : Nat) (x : Xfer) : State :=
  if x.done && !s.flight.any (fun f => partOf id f.item) then s.completeXfer id x else s.setItem id (.xfer x)

/-- The elements whose steps come next: those of one destination line; those of the whole transfer where an index that names the line has not come (R210). -/
def nextElems (s : State) (x : Xfer) (k : Kick) (bufs : List Nat) (left : List Elem) : List Elem :=
  let open_ := left.filter fun e => e.stop.isSome
  match x.kind, open_, left with
  | .scatter _, _ :: _, _ => open_
  | _, _, e :: _ => left.filter fun f => s.destLine x k bufs f = s.destLine x k bufs e
  | _, _, [] => []

/-- The line is granted and performed, with its seal and its count-down (R196, R201–R205). -/
def grantLine (s : State) (id : Nat) (x : Xfer) (k : Kick) (steps : List (XStep × Nat)) (all : Nat) : State :=
  let s := (s.settleLines x.col x.thr).sealXfer id x ((putsOf steps).map fun p => p.2.2.2)
  let granted := x.granted ++ steps.map (·.2)
  let x := { x with granted := granted, done := decide (all ≤ granted.length), waitsOn := [] }
  match x.kind with
  | .multicast mask =>
    let rs := x.recv.getD (s.receivers x k mask)
    let t := rs.foldl (sendLine id x k steps) s
    let line := steps.any fun p => match p.1 with
      | .put _ _ (.scr _ _) => true
      | .skip (some _) => true
      | _ => false
    t.finishXfer id { x with recv := some rs, sent := x.sent || (line && !rs.isEmpty) }
  | _ =>
    let t := (s.performLine id x k steps).sendAll
    let far := steps.any fun p => match p.1 with
      | .put _ _ (.far _ _) => true
      | _ => false
    let n := if far || !s.byBytes x then 0 else x.dst.lrec.esize * steps.length
    (t.countXfer id x n).finishXfer id { x with counted := x.counted + n }

/-- What a transfer does next: it asks for the elements of its next line that lie elsewhere, has a page walked for, waits for buffer lines, meets its first fault, or has the line granted. -/
def advanceXfer (s : State) (id : Nat) (x : Xfer) (k : Kick) : Out' :=
  let es := s.elements x k
  let bufs := s.addressed x k es
  let left := es.filter fun e => !x.granted.contains e.k
  let mine := s.nextElems x k bufs left
  let steps := mine.map fun e => (s.stepOf x k bufs e, e.k)
  let asks := steps.filterMap fun p => match p.1 with
    | .ask key t q => some (key, t, q)
    | _ => none
  let waits := steps.flatMap fun p => match p.1 with
    | .wait ls => ls
    | _ => []
  let faults := fun (ps : List (XStep × Nat)) => ps.findSome? fun p => match p.1 with
    | .fault c d q => some (c, d, q)
    | _ => none
  match faults steps with
  | some f =>
    let first := (faults (left.map fun e => (s.stepOf x k bufs e, e.k))).getD f
    .next ((s.xferFault id first.1 first.2.1 first.2.2).changed)
  | none =>
  if !asks.isEmpty then
    if s.flight.any (fun f => readOf id f.item) then notPending
    else
      let size := fun (key : Nat) => if 2 ^ 40 ≤ key then x.idx.lrec.esize else x.src.lrec.esize
      .next (((firsts asks).foldl (fun (s : State) a => s.placeRemote (s.elemRemote id a.1 x k .read a.2.2 (size a.1) 0 false) a.2.1 a.2.2) s).sendAll.changed)
  else match steps.findSome? fun p => match p.1 with
    | .walk c o n => some (c, o, n)
    | _ => none with
  | some (c, o, n) =>
    match startWalk s c k.ctx o n none (.item id) with
    | some t => .next ((t.setItem id (.xfer { x with walkOff := o })).changed)
    | none => notPending
  | none =>
    if !waits.isEmpty then
      if waits.all x.waitsOn.contains then notPending
      else .next ((s.setItem id (.xfer { x with waitsOn := firsts waits })).changed)
    else if mine.isEmpty then .next ((s.finishXfer id { x with done := true }).changed)
    else if s.granted x.col x.thr then .next ((s.grantLine id x k steps es.length).changed)
    else notPending

end State

/-- The oldest transfer of a thread goes on by one destination line, or completes (R196, R201–R205). -/
def execTransferComplete (id : Nat) (s : State) : Out' :=
  match s.item id with
  | some (.xfer x) =>
    if s.earlier id (State.xferOf x.col x.thr) || (s.thread x.col x.thr).frameWait.isSome ||
      s.cols.any (fun c => c.walks.any fun w => w.waiters.contains (.item id)) then notPending
    else if x.done then
      if s.flight.any (fun f => State.partOf id f.item) then notPending else .next ((s.completeXfer id x).changed)
    else match (s.thread x.col x.thr).kick with
    | some k => s.advanceXfer id x k
    | none => notPending
  | _ => notPending

namespace State

/-- A copy of a multicast counts for itself: the bytes of each line as it arrives, or 1 with its last line (R204, R212). -/
def countCopy (s : State) (xid : Nat) (x : Xfer) (t core count : Nat) : State :=
  let more := s.flight.any fun f => match f.item with
    | .mcline y t' core' _ _ _ _ => y = xid && t' = t && core' = core
    | _ => false
  s.countXfer xid x (if s.byBytes x then count else if x.done && !more then 1 else 0)

end State

/-- A line of a multicast arrives at a core of a receiving team (R212, R213, R150). -/
def execMulticastLine (id : Nat) (s : State) : Out' :=
  match s.item id with
  | some (.mcline xid t core line pieces carries count) =>
    match s.item xid with
    | some (.xfer x) =>
      let u := s.drop id
      let write := fun (u : State) =>
        if pieces.isEmpty then (u.bufFill t core line 1).wakeLoads t core else u.scrWrite t core pieces carries
      match u.bufAt t core line with
      | none => .next (((if pieces.isEmpty then u else u.scrStore t core pieces carries).countCopy xid x t core count).changed)
      | some (b, _) =>
        match (u.buf t core b).st with
        | .empty =>
          .next (((write (u.modBuf t core b fun y => { y with st := .filling, owner := some (x.col, x.thr), kick := none, bound := true })).countCopy
            xid x t core count).changed)
        | .filling => .next (((write u).countCopy xid x t core count).changed)
        | st => .next ((u.xferFault xid 0x81 (b + st.code * 256) (some (withOff x.dst.lrec.base (line - (u.team t).scrBase)))).changed)
    | _ => notPending
  | _ => notPending

end Sys2Proof.Machine
end

