-- ==== Sys2Proof/Machine/Traps.lean ====
section
/-! DEFINITION. The events of traps and of debugging (20_traps.md): fetches that give no instruction, the watchdog, the pre-emption of a handler, the debugger's commands, injection. -/

namespace Sys2Proof.Machine

open Sys2Proof

/-! ### Fetches that give no instruction (R54, R125) -/

/-- The opcodes that a streamer runs (R54): the common ones and the stream class. -/
def streamRuns (op : Nat) : Bool :=
  (decide (0x01 ≤ op) && decide (op ≤ 0x03)) || (decide (0x05 ≤ op) && decide (op ≤ 0x07)) || (decide (0x11 ≤ op) && decide (op ≤ 0x14)) ||
  (decide (0x20 ≤ op) && decide (op ≤ 0x39)) || op = 0x94 || op = 0x95 || op = 0xA0 || op = 0xA1 || op = 0xD4 || op = 0xD6 || op = 0xD7 ||
  (decide (0xE0 ≤ op) && decide (op ≤ 0xEA))

/-- The opcodes of the lane instructions, which act under the guard (R8). -/
def laneOpcode (op : Nat) : Bool :=
  (decide (0x49 ≤ op) && decide (op ≤ 0x4E)) || (decide (0x50 ≤ op) && decide (op ≤ 0x64)) || (decide (0x70 ≤ op) && decide (op ≤ 0x82)) ||
  (decide (0x90 ≤ op) && decide (op ≤ 0x93)) || (decide (0x96 ≤ op) && decide (op ≤ 0x9C)) || op = 0xB7 || op = 0xC5 || op = 0xC6 || op = 0xD0

/-- The form of a word that is no instruction: `LANES` of its frame is under the guard where the opcode is a lane instruction's (R324). -/
def wordForm (w : Word32) (r : Reject) : Form := { State.fetchForm with guarded := r = .reservedField && laneOpcode (w.toNat / 2 ^ 24) }

/-- The cause of a word that is no instruction, by the order of Table 3-26. -/
def State.wordCause (s : State) (w : Word32) (r : Reject) : Nat :=
  let op := w.toNat / 2 ^ 24
  match r with
  | .zeroWord => 0x00
  | .illegalOpcode => 0x01
  | .reservedField =>
    if (s.onCore && decide (0xE0 ≤ op)) || (!s.onCore && !streamRuns op) then 0x03
    else if (op = 0x16 || op = 0x17) && !s.me.privileged then 0x04
    else 0x02

/-- Nothing comes before the next fetch of the issuing agent: it can issue, and neither a halt nor a held cause waits. -/
def State.fetches (s : State) : Bool := s.canIssue && !s.haltsHere && s.boundaryCause.isNone

/-- The word that the issuing agent fetches is no instruction: it traps (R54). -/
def execWordNotAnInstruction (w : Word32) (s : State) : Out' :=
  match decode w with
  | .ok _ => notPending
  | .reject r =>
    if s.fetches && s.fetch = .word w then .next (s.fail (.wordNotAnInstruction w) (wordForm w r) (Trap.of (s.wordCause w r) 0)) else notPending

/-- The fetch lies at or beyond the CODE limit, or its page refuses it or must be walked for (R125, R309, R311). -/
def execFetchPastCodeLimit (s : State) : Out' :=
  if !s.fetches then notPending
  else match s.fetch with
    | .word _ => notPending
    | .past => .next (s.fail .fetchPastCodeLimit State.fetchForm ⟨0x40, 4, s.pc, 0, false, true⟩)
    | .stop st => .next (s.stopped' .fetchPastCodeLimit State.fetchForm st)

/-! ### Causes of timers (R334) -/

namespace State

/-- Cycles that one wait has kept a resident group in WAITING. -/
def waitedFor (s : State) (g : Group) : Nat :=
  let from_ := fun (w : Nat) => if g.susp = .perm then w else max w (g.waitFrom.getD s.cycles)
  let one := fun (b : Bool) => ((g.image.slot b).bind (·.waitFrom)).map fun w => s.cycles - from_ w
  max ((one false).getD 0) ((one true).getD 0)

/-- The group stands in WAITING: it is in its core, runs no handler, is not halted and waits for no page (Table 7-1). -/
def stateWaiting (s : State) (g : Group) : Bool :=
  let page := match g.susp with
    | .walk _ => true
    | _ => false
  g.st = .active && !g.privileged && !g.halted && !g.out && (s.team g.team).resident && (g.susp ≠ .none || s.allHeld g.id) && !page

end State

/-- The watchdog: one wait has kept the group in WAITING for 2^34 cycles (R334). -/
def execWatchdog (grp : Nat) (s : State) : Out' :=
  let g := s.grp grp
  if s.hasGroup grp && s.stateWaiting g && decide (Config.watchdogCycles ≤ s.waitedFor g) then
    .next (((s.asyncCause grp 0xB9 0).modGroup grp fun x => { x with waitFrom := some s.cycles }).changed)
  else notPending

/-- A pre-emption has waited 65,536 cycles for the handler's `eret`: a nested fault, and the group is taken out as it stands (R334). -/
def execPreempt (grp : Nat) (s : State) : Out' :=
  let g := s.grp grp
  let since := max g.trapAt (s.ctx g.ctx).expiryAt
  if s.hasGroup grp && g.st = .active && g.privileged && !g.halted && (s.team g.team).resident && s.preempting g.ctx && !s.ridgeLaunch g.launch &&
    decide (since + Config.preemptCycles ≤ s.cycles) then
    let p := (g.image.slot g.trapSlot).getD Path.blank
    let s := (s.noteCause g.launch 0xB8).nestedFault ⟨grp, g.trapSlot, 0xB8, 0, none, 0, p.mask, 0, p.pc, true, false⟩
    .next ((s.modGroup grp fun x => { x with out := true }).changed)
  else notPending

/-! ### The debugger (R331) -/

/-- The halt command: in FAULT-WAIT, or where it stands stopped in TRAPPED, the group halts at once; else at its next boundary. -/
def execHalt (port grp : Nat) (s : State) : Out' :=
  let g := s.grp grp
  let here : Bool := match g.susp with
    | .walk _ => true
    | _ => g.st = .trapped
  s.command port fun s =>
  if !s.hasGroup grp || g.st = .exited || g.halted then s.configError port
  else if here then (s.modGroup grp fun x => { x with halted := true }).accepted port
  else (s.modGroup grp fun x => { x with haltPending := true }).accepted port

/-- The resume command acts on HALTED groups alone (R331, R396). -/
def execResume (port grp : Nat) (s : State) : Out' :=
  s.command port fun s =>
  if !(s.grp grp).halted then s.configError port else (s.modGroup grp fun x => { x with halted := false }).accepted port

/-- The debugging-enable command. -/
def execDebuggingEnable (port ctx : Nat) (on : Bool) (s : State) : Out' :=
  s.command port fun s =>
  if s.noContext ctx then s.configError port else (s.modCtx ctx fun c => { c with debug := on }).accepted port

/-! ### Injection (R397) -/

/-- The injection command arms `sr.einj` of the group it names, at once or when that group is placed. -/
def execInjection (port ctx col tid gid : Nat) (value : Word) (s : State) : Out' :=
  let v := value &&& State.einjMask
  s.command port fun s =>
  if s.noContext ctx || decide (s.ncol ctx ≤ col) then s.configError port
  else match s.groups.find? fun g => g.ctx = ctx && g.col = s.colOf ctx col && g.tid = tid && g.gid = gid && g.st ≠ .exited with
    | some g => (s.modGroup g.id fun x => { x with einj := v }).accepted port
    | none => { s with injections := s.injections ++ [(ctx, col, tid, gid, v)] }.accepted port

end Sys2Proof.Machine
end

