-- ==== Sys2Proof/Machine/VecInt.lean ====
section
/-! DEFINITION. Meanings of the vector integer family 0x50–0x64 (R85–R90). -/

namespace Sys2Proof.Machine

open Sys2Proof

/-- A shift of an element by an unsigned amount; the fill is the opcode's (R86). -/
def elemShl (w x n : Nat) : Nat := if w ≤ n then 0 else x * 2 ^ n % 2 ^ w
def elemShr (w x n : Nat) : Nat := if w ≤ n then 0 else x / 2 ^ n
def elemSra (w x n : Nat) : Nat := wrapTo w (asSigned w x / 2 ^ (min n w))

/-- Leading zeros of a `w`-bit pattern (Table 5-6). -/
def elemClz (w x : Nat) : Nat := if x = 0 then w else w - 1 - Nat.log2 x

def elemPopc (w x : Nat) : Nat := ((List.range w).filter fun i => x / 2 ^ i % 2 = 1).length

/-! ### Shapes: an exact integer of the operands, fitted to the element type (R85) -/

def vint1 (i : Instr) (d a : Reg) (f : Nat → Bool → Nat → Nat) (s : State) : Out' :=
  s.issue i (.core true [.vd d, .va a .active] (.v d.toNat false)) fun t => do
    t.needs isInt false
    .ok (t.mapLanes d.toNat fun l => lane1 (ewidth t.etype) (f t.etype t.sat) (t.vlane a.toNat l))

def vint2 (i : Instr) (d a b : Reg) (f : Nat → Bool → Nat → Nat → Nat) (s : State) : Out' :=
  s.issue i (.core true [.vd d, .va a .active, .vb b .active] (.v d.toNat false)) fun t => do
    t.needs isInt false
    .ok (t.mapLanes d.toNat fun l => lane2 (ewidth t.etype) (f t.etype t.sat) (t.vlane a.toNat l) (t.vlane b.toNat l))

/-- An operation on whole lanes, which reads no mode field but the guard (R87). -/
def vbits (i : Instr) (d a b : Reg) (f : Word → Word → Word) (s : State) : Out' :=
  s.issue i (.core true [.vd d, .va a .active, .vb b .active] (.v d.toNat false)) fun t =>
    .ok (t.mapLanes d.toNat fun l => f (t.vlane a.toNat l) (t.vlane b.toNat l))

/-! ### Meanings -/

/-- `vadd`: x + y, fitted (R85). -/
def execVadd (d a b : Reg) (s : State) : Out' := vint2 (.vadd d a b) d a b (fun t sat x y => fit t sat (ival t x + ival t y)) s

/-- `vsub`: x − y, fitted (R85). -/
def execVsub (d a b : Reg) (s : State) : Out' := vint2 (.vsub d a b) d a b (fun t sat x y => fit t sat (ival t x - ival t y)) s

/-- `vmul`: x × y, fitted (R85). -/
def execVmul (d a b : Reg) (s : State) : Out' := vint2 (.vmul d a b) d a b (fun t sat x y => fit t sat (ival t x * ival t y)) s

/-- `vmulh`: the high half of the product (R85). -/
def execVmulh (d a b : Reg) (s : State) : Out' := vint2 (.vmulh d a b) d a b (fun t _ x y => wrapTo (ewidth t) (ival t x * ival t y / 2 ^ ewidth t)) s

/-- `vmin`: the smaller (R85). -/
def execVmin (d a b : Reg) (s : State) : Out' := vint2 (.vmin d a b) d a b (fun t _ x y => if ival t y < ival t x then y else x) s

/-- `vmax`: the larger (R85). -/
def execVmax (d a b : Reg) (s : State) : Out' := vint2 (.vmax d a b) d a b (fun t _ x y => if ival t x < ival t y then y else x) s

/-- `vmad`: x × y + z, fitted once (R85). -/
def execVmad (d a b c : Reg) (s : State) : Out' :=
  s.issue (.vmad d a b c) (.core true [.vd d, .va a .active, .vb b .active, .vc c .active] (.v d.toNat false)) fun t => do
    t.needs isInt false
    .ok (t.mapLanes d.toNat fun l =>
      lane3 (ewidth t.etype) (fun x y z => fit t.etype t.sat (ival t.etype x * ival t.etype y + ival t.etype z))
        (t.vlane a.toNat l) (t.vlane b.toNat l) (t.vlane c.toNat l))

/-- `vabs`: the absolute value, fitted (R85). -/
def execVabs (d a : Reg) (s : State) : Out' := vint1 (.vabs d a) d a (fun t sat x => fit t sat (ival t x).natAbs) s

/-- `vneg`: −x, fitted (R85). -/
def execVneg (d a : Reg) (s : State) : Out' := vint1 (.vneg d a) d a (fun t sat x => fit t sat (-(ival t x))) s

/-- `vpopc`: one bits (R85). -/
def execVpopc (d a : Reg) (s : State) : Out' := vint1 (.vpopc d a) d a (fun t _ x => elemPopc (ewidth t) x) s

/-- `vclz`: leading zeros (R85). -/
def execVclz (d a : Reg) (s : State) : Out' := vint1 (.vclz d a) d a (fun t _ x => elemClz (ewidth t) x) s

/-- `vand`: a & b (R87). -/
def execVand (d a b : Reg) (s : State) : Out' := vbits (.vand d a b) d a b (fun x y => x &&& y) s

/-- `vor`: a | b (R87). -/
def execVor (d a b : Reg) (s : State) : Out' := vbits (.vor d a b) d a b (fun x y => x ||| y) s

/-- `vxor`: a ^ b (R87). -/
def execVxor (d a b : Reg) (s : State) : Out' := vbits (.vxor d a b) d a b (fun x y => x ^^^ y) s

/-- `vshl`: shift left (R86). -/
def execVshl (d a b : Reg) (s : State) : Out' := vint2 (.vshl d a b) d a b (fun t _ x n => elemShl (ewidth t) x n) s

/-- `vshr`: shift right, zero fill (R86). -/
def execVshr (d a b : Reg) (s : State) : Out' := vint2 (.vshr d a b) d a b (fun t _ x n => elemShr (ewidth t) x n) s

/-- `vsra`: shift right, filled with the top bit (R86). -/
def execVsra (d a b : Reg) (s : State) : Out' := vint2 (.vsra d a b) d a b (fun t _ x n => elemSra (ewidth t) x n) s

/-- `vsel`: lane by lane, a where the mask bit is set, b elsewhere (R87). -/
def execVsel (d a b c : Reg) (s : State) : Out' :=
  s.issue (.vsel d a b c) (.core true [.vd d, .va a .active, .vb b .active, .kAt 3 c] (.v d.toNat false)) fun t =>
    .ok (t.mapLanes d.toNat fun l => if (t.kreg c.toNat).getLsbD l then t.vlane a.toNat l else t.vlane b.toNat l)

/-- `vaddi`: adds the immediate, −2,048 to 2,047, and fits (R88). -/
def execVaddi (d a : Reg) (i : BitVec 12) (s : State) : Out' :=
  vint1 (.vaddi d a i) d a (fun t sat x => fit t sat (ival t x + i.toInt)) s

/-- `vbcs`: the low bits of a scalar in every sub-element (R89). -/
def execVbcs (d a : Reg) (s : State) : Out' :=
  s.issue (.vbcs d a) (.core true [.vd d, .sa a] (.v d.toNat false)) fun t => do
    t.needs isElem false
    let w := ewidth t.etype
    .ok (t.mapLanes d.toNat fun _ => packLane w (List.replicate (perLane w) (t.sval a.toNat).toNat))

/-- `vlid`: the position index of each sub-element (R90). -/
def execVlid (d : Reg) (s : State) : Out' :=
  s.issue (.vlid d) (.core true [.vd d] (.v d.toNat false)) fun t => do
    t.needs isInt false
    let w := ewidth t.etype
    .ok (t.mapLanes d.toNat fun l => packLane w ((List.range (perLane w)).map fun e => l * perLane w + e))

end Sys2Proof.Machine
end

