-- ==== Sys2Proof/Machine/Dispatch.lean ====
section
/-! DEFINITION. The dispatch: one arm for each operation and event. -/

namespace Sys2Proof.Machine

open Sys2Proof

def exec (i : Instr) (s : State) : Host.Outcome State Fault Refusal :=
  match i with
  | .nop => Sys2Proof.Machine.execNop s
  | .br x => Sys2Proof.Machine.execBr x s
  | .bc c x => Sys2Proof.Machine.execBc c x s
  | .bk t k x => Sys2Proof.Machine.execBk t k x s
  | .call x => Sys2Proof.Machine.execCall x s
  | .ret a => Sys2Proof.Machine.execRet a s
  | .jmp a => Sys2Proof.Machine.execJmp a s
  | .split k x => Sys2Proof.Machine.execSplit k x s
  | .jarm d a => Sys2Proof.Machine.execJarm d a s
  | .join d => Sys2Proof.Machine.execJoin d s
  | .exit => Sys2Proof.Machine.execExit s
  | .setmode imm => Sys2Proof.Machine.execSetmode imm s
  | .rdsr d n => Sys2Proof.Machine.execRdsr d n s
  | .wrsr a n => Sys2Proof.Machine.execWrsr a n s
  | .rdtime d => Sys2Proof.Machine.execRdtime d s
  | .trap c => Sys2Proof.Machine.execTrap c s
  | .sint a => Sys2Proof.Machine.execSint a s
  | .eret => Sys2Proof.Machine.execEret s
  | .segld a n => Sys2Proof.Machine.execSegld a n s
  | .dbgbrk t => Sys2Proof.Machine.execDbgbrk t s
  | .sadd d a b => Sys2Proof.Machine.execSadd d a b s
  | .ssub d a b => Sys2Proof.Machine.execSsub d a b s
  | .smul d a b => Sys2Proof.Machine.execSmul d a b s
  | .smulh d a b => Sys2Proof.Machine.execSmulh d a b s
  | .sdiv d a b => Sys2Proof.Machine.execSdiv d a b s
  | .srem d a b => Sys2Proof.Machine.execSrem d a b s
  | .sand d a b => Sys2Proof.Machine.execSand d a b s
  | .sor d a b => Sys2Proof.Machine.execSor d a b s
  | .sxor d a b => Sys2Proof.Machine.execSxor d a b s
  | .sshl d a b => Sys2Proof.Machine.execSshl d a b s
  | .sshr d a b => Sys2Proof.Machine.execSshr d a b s
  | .ssra d a b => Sys2Proof.Machine.execSsra d a b s
  | .smin d a b => Sys2Proof.Machine.execSmin d a b s
  | .smax d a b => Sys2Proof.Machine.execSmax d a b s
  | .scmp a b => Sys2Proof.Machine.execScmp a b s
  | .ssel d a b c => Sys2Proof.Machine.execSsel d a b c s
  | .saddi d a imm => Sys2Proof.Machine.execSaddi d a imm s
  | .sandi d a imm => Sys2Proof.Machine.execSandi d a imm s
  | .sori d a imm => Sys2Proof.Machine.execSori d a imm s
  | .sxori d a imm => Sys2Proof.Machine.execSxori d a imm s
  | .sshli d a imm => Sys2Proof.Machine.execSshli d a imm s
  | .sshri d a imm => Sys2Proof.Machine.execSshri d a imm s
  | .ssrai d a imm => Sys2Proof.Machine.execSsrai d a imm s
  | .scmpi a imm => Sys2Proof.Machine.execScmpi a imm s
  | .sli d imm => Sys2Proof.Machine.execSli d imm s
  | .slhi d imm => Sys2Proof.Machine.execSlhi d imm s
  | .kand d a b => Sys2Proof.Machine.execKand d a b s
  | .kor d a b => Sys2Proof.Machine.execKor d a b s
  | .kxor d a b => Sys2Proof.Machine.execKxor d a b s
  | .kandn d a b => Sys2Proof.Machine.execKandn d a b s
  | .ksmov d a => Sys2Proof.Machine.execKsmov d a s
  | .skmov d a => Sys2Proof.Machine.execSkmov d a s
  | .kpop d a => Sys2Proof.Machine.execKpop d a s
  | .kfirst d a => Sys2Proof.Machine.execKfirst d a s
  | .ktest a b => Sys2Proof.Machine.execKtest a b s
  | .vcmpk d a b c => Sys2Proof.Machine.execVcmpk d a b c s
  | .vshuf d a b => Sys2Proof.Machine.execVshuf d a b s
  | .vbcast d a b => Sys2Proof.Machine.execVbcast d a b s
  | .vtbl d a b c => Sys2Proof.Machine.execVtbl d a b c s
  | .vred d a o => Sys2Proof.Machine.execVred d a o s
  | .vscan d a o => Sys2Proof.Machine.execVscan d a o s
  | .slane d a b => Sys2Proof.Machine.execSlane d a b s
  | .vadd d a b => Sys2Proof.Machine.execVadd d a b s
  | .vsub d a b => Sys2Proof.Machine.execVsub d a b s
  | .vmul d a b => Sys2Proof.Machine.execVmul d a b s
  | .vmulh d a b => Sys2Proof.Machine.execVmulh d a b s
  | .vmad d a b c => Sys2Proof.Machine.execVmad d a b c s
  | .vmin d a b => Sys2Proof.Machine.execVmin d a b s
  | .vmax d a b => Sys2Proof.Machine.execVmax d a b s
  | .vabs d a => Sys2Proof.Machine.execVabs d a s
  | .vneg d a => Sys2Proof.Machine.execVneg d a s
  | .vand d a b => Sys2Proof.Machine.execVand d a b s
  | .vor d a b => Sys2Proof.Machine.execVor d a b s
  | .vxor d a b => Sys2Proof.Machine.execVxor d a b s
  | .vshl d a b => Sys2Proof.Machine.execVshl d a b s
  | .vshr d a b => Sys2Proof.Machine.execVshr d a b s
  | .vsra d a b => Sys2Proof.Machine.execVsra d a b s
  | .vpopc d a => Sys2Proof.Machine.execVpopc d a s
  | .vclz d a => Sys2Proof.Machine.execVclz d a s
  | .vsel d a b c => Sys2Proof.Machine.execVsel d a b c s
  | .vaddi d a imm => Sys2Proof.Machine.execVaddi d a imm s
  | .vbcs d a => Sys2Proof.Machine.execVbcs d a s
  | .vlid d => Sys2Proof.Machine.execVlid d s
  | .vfadd d a b => Sys2Proof.Machine.execVfadd d a b s
  | .vfsub d a b => Sys2Proof.Machine.execVfsub d a b s
  | .vfmul d a b => Sys2Proof.Machine.execVfmul d a b s
  | .vfma d a b c => Sys2Proof.Machine.execVfma d a b c s
  | .vfmin d a b => Sys2Proof.Machine.execVfmin d a b s
  | .vfmax d a b => Sys2Proof.Machine.execVfmax d a b s
  | .vfabs d a => Sys2Proof.Machine.execVfabs d a s
  | .vfneg d a => Sys2Proof.Machine.execVfneg d a s
  | .vfcmpk d a b c => Sys2Proof.Machine.execVfcmpk d a b c s
  | .vrcp d a => Sys2Proof.Machine.execVrcp d a s
  | .vrsq d a => Sys2Proof.Machine.execVrsq d a s
  | .vexp2 d a => Sys2Proof.Machine.execVexp2 d a s
  | .vlog2 d a => Sys2Proof.Machine.execVlog2 d a s
  | .vtanh d a => Sys2Proof.Machine.execVtanh d a s
  | .vcvt d a p t => Sys2Proof.Machine.execVcvt d a p t s
  | .vscl d a b => Sys2Proof.Machine.execVscl d a b s
  | .vfrnd d a => Sys2Proof.Machine.execVfrnd d a s
  | .vqnt d a b c => Sys2Proof.Machine.execVqnt d a b c s
  | .vdqnt d a b c => Sys2Proof.Machine.execVdqnt d a b c s
  | .vld d a p o => Sys2Proof.Machine.execVld d a p o s
  | .vst d a p o => Sys2Proof.Machine.execVst d a p o s
  | .vldx d a b p sc => Sys2Proof.Machine.execVldx d a b p sc s
  | .vstx d a b p sc => Sys2Proof.Machine.execVstx d a b p sc s
  | .sld d a p o => Sys2Proof.Machine.execSld d a p o s
  | .sst d a p o => Sys2Proof.Machine.execSst d a p o s
  | .vldi d a p o => Sys2Proof.Machine.execVldi d a p o s
  | .atom d a b p o => Sys2Proof.Machine.execAtom d a b p o s
  | .rld d a sc => Sys2Proof.Machine.execRld d a sc s
  | .rst d a sc => Sys2Proof.Machine.execRst d a sc s
  | .rred d a o => Sys2Proof.Machine.execRred d a o s
  | .rredColl d a o => Sys2Proof.Machine.execRredColl d a o s
  | .ratom d a b r o => Sys2Proof.Machine.execRatom d a b r o s
  | .rcas d a b r => Sys2Proof.Machine.execRcas d a b r s
  | .xsend a c => Sys2Proof.Machine.execXsend a c s
  | .xrecv d c => Sys2Proof.Machine.execXrecv d c s
  | .xperm d a sc c => Sys2Proof.Machine.execXperm d a sc c s
  | .phase k sc => Sys2Proof.Machine.execPhase k sc s
  | .fenceq m => Sys2Proof.Machine.execFenceq m s
  | .barInit a imm => Sys2Proof.Machine.execBarInit a imm s
  | .barArr a imm => Sys2Proof.Machine.execBarArr a imm s
  | .barWait p imm => Sys2Proof.Machine.execBarWait p imm s
  | .barTest d imm => Sys2Proof.Machine.execBarTest d imm s
  | .barExp a imm => Sys2Proof.Machine.execBarExp a imm s
  | .bufSet k t b => Sys2Proof.Machine.execBufSet k t b s
  | .bufGet d b => Sys2Proof.Machine.execBufGet d b s
  | .stk c a p => Sys2Proof.Machine.execStk c a p s
  | .mxGang a => Sys2Proof.Machine.execMxGang a s
  | .mxLdb a b r => Sys2Proof.Machine.execMxLdb a b r s
  | .mxMm d a b => Sys2Proof.Machine.execMxMm d a b s
  | .mxZero d => Sys2Proof.Machine.execMxZero d s
  | .mxEpi d a b => Sys2Proof.Machine.execMxEpi d a b s
  | .mxAcv d a => Sys2Proof.Machine.execMxAcv d a s
  | .mxVac d a => Sys2Proof.Machine.execMxVac d a s
  | .mxCsum d a b => Sys2Proof.Machine.execMxCsum d a b s
  | .csacc d a => Sys2Proof.Machine.execCsacc d a s
  | .csclr d => Sys2Proof.Machine.execCsclr d s
  | .cschk a b c => Sys2Proof.Machine.execCschk a b c s
  | .csmov d a p => Sys2Proof.Machine.execCsmov d a p s
  | .rgnBeg imm => Sys2Proof.Machine.execRgnBeg imm s
  | .rgnPres a p n => Sys2Proof.Machine.execRgnPres a p n s
  | .rgnEnd => Sys2Proof.Machine.execRgnEnd s
  | .rgnAbt => Sys2Proof.Machine.execRgnAbt s
  | .tlrec l a p o => Sys2Proof.Machine.execTlrec l a p o s
  | .taddr d a m l o => Sys2Proof.Machine.execTaddr d a m l o s
  | .tcopy d a => Sys2Proof.Machine.execTcopy d a s
  | .tgath d a b m => Sys2Proof.Machine.execTgath d a b m s
  | .tscat d a b m => Sys2Proof.Machine.execTscat d a b m s
  | .tmcast d a b => Sys2Proof.Machine.execTmcast d a b s
  | .tred d a o => Sys2Proof.Machine.execTred d a o s
  | .tarr imm => Sys2Proof.Machine.execTarr imm s
  | .tarrNone => Sys2Proof.Machine.execTarrNone s
  | .twait p imm => Sys2Proof.Machine.execTwait p imm s
  | .twaitDrain => Sys2Proof.Machine.execTwaitDrain s
  | .tloop c x => Sys2Proof.Machine.execTloop c x s
  | .texit => Sys2Proof.Machine.execTexit s
  | .resultArrival id => Sys2Proof.Machine.execResultArrival id s
  | .scratchpadArrival id => Sys2Proof.Machine.execScratchpadArrival id s
  | .transitionPoint id => Sys2Proof.Machine.execTransitionPoint id s
  | .countdown id => Sys2Proof.Machine.execCountdown id s
  | .barrierErrorEvent id => Sys2Proof.Machine.execBarrierErrorEvent id s
  | .releaseComplete id => Sys2Proof.Machine.execReleaseComplete id s
  | .kickStart col => Sys2Proof.Machine.execKickStart col s
  | .transferComplete id => Sys2Proof.Machine.execTransferComplete id s
  | .multicastLine id => Sys2Proof.Machine.execMulticastLine id s
  | .kickEnd col thr => Sys2Proof.Machine.execKickEnd col thr s
  | .streamRollback col thr => Sys2Proof.Machine.execStreamRollback col thr s
  | .xpermArrival id => Sys2Proof.Machine.execXpermArrival id s
  | .channelGrant team ch => Sys2Proof.Machine.execChannelGrant team ch s
  | .channelMessageArrival id => Sys2Proof.Machine.execChannelMessageArrival id s
  | .jointOperation id => Sys2Proof.Machine.execJointOperation id s
  | .mxLdbPerform id => Sys2Proof.Machine.execMxLdbPerform id s
  | .mxEpiPerform id => Sys2Proof.Machine.execMxEpiPerform id s
  | .epilogueRowArrival id => Sys2Proof.Machine.execEpilogueRowArrival id s
  | .mxZeroPerform id => Sys2Proof.Machine.execMxZeroPerform id s
  | .mxAcvPerform id => Sys2Proof.Machine.execMxAcvPerform id s
  | .mxVacPerform id => Sys2Proof.Machine.execMxVacPerform id s
  | .mxCsumPerform id => Sys2Proof.Machine.execMxCsumPerform id s
  | .walkComplete col fid => Sys2Proof.Machine.execWalkComplete col fid s
  | .faultRecordPost col fid => Sys2Proof.Machine.execFaultRecordPost col fid s
  | .shootdownColumnDone id => Sys2Proof.Machine.execShootdownColumnDone id s
  | .queueExamine q => Sys2Proof.Machine.execQueueExamine q s
  | .queuePoll q => Sys2Proof.Machine.execQueuePoll q s
  | .launchAdmission l => Sys2Proof.Machine.execLaunchAdmission l s
  | .teamPlacement l col => Sys2Proof.Machine.execTeamPlacement l col s
  | .launchComplete l => Sys2Proof.Machine.execLaunchComplete l s
  | .quantumExpiry ctx => Sys2Proof.Machine.execQuantumExpiry ctx s
  | .preemptionComplete ctx => Sys2Proof.Machine.execPreemptionComplete ctx s
  | .contextResume ctx => Sys2Proof.Machine.execContextResume ctx s
  | .contextQuarantine ctx => Sys2Proof.Machine.execContextQuarantine ctx s
  | .teamSwap team => Sys2Proof.Machine.execTeamSwap team s
  | .teamReadmit team => Sys2Proof.Machine.execTeamReadmit team s
  | .watchdog grp => Sys2Proof.Machine.execWatchdog grp s
  | .preempt grp => Sys2Proof.Machine.execPreempt grp s
  | .gangTimeout grp slot => Sys2Proof.Machine.execGangTimeout grp slot s
  | .keyTimeout col key => Sys2Proof.Machine.execKeyTimeout col key s
  | .unarmedKeyExpiry col key => Sys2Proof.Machine.execUnarmedKeyExpiry col key s
  | .retryBackoff id => Sys2Proof.Machine.execRetryBackoff id s
  | .requestTimeout id => Sys2Proof.Machine.execRequestTimeout id s
  | .brixelRead q => Sys2Proof.Machine.execBrixelRead q s
  | .brixelWrite q => Sys2Proof.Machine.execBrixelWrite q s
  | .brixelReduce q => Sys2Proof.Machine.execBrixelReduce q s
  | .brixelAtomic q => Sys2Proof.Machine.execBrixelAtomic q s
  | .brixelCompareAndSwap q => Sys2Proof.Machine.execBrixelCompareAndSwap q s
  | .hop f => Sys2Proof.Machine.execHop f s
  | .acc f => Sys2Proof.Machine.execAcc f s
  | .dlv f => Sys2Proof.Machine.execDlv f s
  | .dataResponse id data => Sys2Proof.Machine.execDataResponse id data s
  | .acknowledgement id => Sys2Proof.Machine.execAcknowledgement id s
  | .retryLater id => Sys2Proof.Machine.execRetryLater id s
  | .refusal id cause => Sys2Proof.Machine.execRefusal id cause s
  | .poison id => Sys2Proof.Machine.execPoison id s
  | .hostRead port addr n => Sys2Proof.Machine.execHostRead port addr n s
  | .hostWrite port addr bytes => Sys2Proof.Machine.execHostWrite port addr bytes s
  | .hostFetchAdd port addr x => Sys2Proof.Machine.execHostFetchAdd port addr x s
  | .hostSwap port addr x => Sys2Proof.Machine.execHostSwap port addr x s
  | .hostCompareSwap port addr cmp new => Sys2Proof.Machine.execHostCompareSwap port addr cmp new s
  | .doorbellWrite port q => Sys2Proof.Machine.execDoorbellWrite port q s
  | .semaphoreRead agent n meets => Sys2Proof.Machine.execSemaphoreRead agent n meets s
  | .semaphoreWrite agent n meets => Sys2Proof.Machine.execSemaphoreWrite agent n meets s
  | .larnarLinkDown port => Sys2Proof.Machine.execLarnarLinkDown port s
  | .contextCreate port n record => Sys2Proof.Machine.execContextCreate port n record s
  | .contextDestroy port ctx => Sys2Proof.Machine.execContextDestroy port ctx s
  | .kill port ctx => Sys2Proof.Machine.execKill port ctx s
  | .acknowledge port ctx => Sys2Proof.Machine.execAcknowledge port ctx s
  | .queueEnable port q => Sys2Proof.Machine.execQueueEnable port q s
  | .queueDisable port q => Sys2Proof.Machine.execQueueDisable port q s
  | .resetQueue port q => Sys2Proof.Machine.execResetQueue port q s
  | .retry port col fid => Sys2Proof.Machine.execRetry port col fid s
  | .fault port col fid => Sys2Proof.Machine.execFault port col fid s
  | .shootdown port block => Sys2Proof.Machine.execShootdown port block s
  | .leafWrite port addr entry => Sys2Proof.Machine.execLeafWrite port addr entry s
  | .partition port ranges => Sys2Proof.Machine.execPartition port ranges s
  | .ridge port col cores => Sys2Proof.Machine.execRidge port col cores s
  | .portEnable port link => Sys2Proof.Machine.execPortEnable port link s
  | .isolate port link => Sys2Proof.Machine.execIsolate port link s
  | .restore port link => Sys2Proof.Machine.execRestore port link s
  | .reAdmit port member => Sys2Proof.Machine.execReAdmit port member s
  | .memberNumber port value => Sys2Proof.Machine.execMemberNumber port value s
  | .hostWindows port larnar hostdev windows => Sys2Proof.Machine.execHostWindows port larnar hostdev windows s
  | .halt port grp => Sys2Proof.Machine.execHalt port grp s
  | .resume port grp => Sys2Proof.Machine.execResume port grp s
  | .debuggingEnable port ctx on => Sys2Proof.Machine.execDebuggingEnable port ctx on s
  | .reset port env => Sys2Proof.Machine.execReset port env s
  | .powerOn env => Sys2Proof.Machine.execPowerOn env s
  | .standby port => Sys2Proof.Machine.execStandby port s
  | .off port => Sys2Proof.Machine.execOff port s
  | .idle port => Sys2Proof.Machine.execIdle port s
  | .recordUpdate port record => Sys2Proof.Machine.execRecordUpdate port record s
  | .quote port nonce => Sys2Proof.Machine.execQuote port nonce s
  | .injection port ctx col tid gid value => Sys2Proof.Machine.execInjection port ctx col tid gid value s
  | .queuePairCreate port qp doorbell => Sys2Proof.Machine.execQueuePairCreate port qp doorbell s
  | .ethernetDoorbellPoll => Sys2Proof.Machine.execEthernetDoorbellPoll s
  | .training link result => Sys2Proof.Machine.execTraining link result s
  | .laneFail link => Sys2Proof.Machine.execLaneFail link s
  | .replayLimit link => Sys2Proof.Machine.execReplayLimit link s
  | .peerSilence link => Sys2Proof.Machine.execPeerSilence link s
  | .lossNotice member => Sys2Proof.Machine.execLossNotice member s
  | .correctedErrorThreshold col => Sys2Proof.Machine.execCorrectedErrorThreshold col s
  | .uncorrectableError col site => Sys2Proof.Machine.execUncorrectableError col site s
  | .meshPayloadError ctx => Sys2Proof.Machine.execMeshPayloadError ctx s
  | .meshHeaderError part => Sys2Proof.Machine.execMeshHeaderError part s
  | .patrolScrub line tag bad => Sys2Proof.Machine.execPatrolScrub line tag bad s
  | .scrubbing leaf => Sys2Proof.Machine.execScrubbing leaf s
  | .scrubDone leaf => Sys2Proof.Machine.execScrubDone leaf s
  | .thermalHigh die => Sys2Proof.Machine.execThermalHigh die s
  | .thermalNormal die => Sys2Proof.Machine.execThermalNormal die s
  | .thermalTrip die => Sys2Proof.Machine.execThermalTrip die s
  | .powerOver => Sys2Proof.Machine.execPowerOver s
  | .powerNormal => Sys2Proof.Machine.execPowerNormal s
  | .alarm droop => Sys2Proof.Machine.execAlarm droop s
  | .stretchEnd die => Sys2Proof.Machine.execStretchEnd die s
  | .halvedWindowEnd die => Sys2Proof.Machine.execHalvedWindowEnd die s
  | .wordNotAnInstruction w => Sys2Proof.Machine.execWordNotAnInstruction w s
  | .fetchPastCodeLimit => Sys2Proof.Machine.execFetchPastCodeLimit s
  | .partitionReset port part => Sys2Proof.Machine.execPartitionReset port part s
  | .rdmaIngress qp op => Sys2Proof.Machine.execRdmaIngress qp op s

end Sys2Proof.Machine
end

