-- ==== Sys2Proof/Machine/Place.lean ====
section
/-! DEFINITION. How one instruction is placed where the machine's next step fetches: a context with its page table, a team with one group, or a stream thread with its kick, and the word in its CODE segment. It stands for what a host does to load and launch a program. -/

namespace Sys2Proof.Machine

open Sys2Proof

namespace State

/-- A segment register with this base (in 8 KiB units) and limit (in 128-byte units). -/
def segOfUnits (base limit : Nat) : Word := BitVec.ofNat 64 (base * 2 ^ 29 + limit)

/-- The segments of the placed context: SCR 64 KiB, TAL 16 MiB from 0, GLB 16 MiB, cairn 64 KiB at 0x1000000, CODE 64 KiB at 0xFE0000, no ARG, STACK 64 KiB at 0xFF0000; all but GLB, SCR and cairn lie in TAL. -/
def placedSegs : Vector Word 8 :=
  #v[segOfUnits 0 512, segOfUnits 0 131072, segOfUnits 0x8000 131072, segOfUnits 0x800 512, segOfUnits 0x7F0 512, 0, segOfUnits 0x7F8 512, 0]

/-- The context record of the placed context: its roots at TAL 0xE000000 of column 0, default time-slice and swap wait. -/
def placedContext : Context :=
  { num := 0, st := .active, record := BitVec.ofNat 512 (0x40E000000 * 2 ^ 448 + 1 * 2 ^ 352 + 16384 * 2 ^ 224 + 2000 * 2 ^ 192),
    debug := false, held := 0, expiry := false, expiryAt := 0, saved := [], pages := [] }

/-- A leaf of 2 MiB in TAL with `R`, `W`, `X` and `RMT`. -/
def talLeaf (pa : Nat) : Nat := 1 * 2 ^ 53 + 2 ^ 52 + pa + 15

/-- A leaf of the first 2 MiB of the cairn beneath core 0, with `R` and `W`. -/
def cairnLeaf : Nat := 1 * 2 ^ 53 + 2 ^ 52 + 2 * 2 ^ 50 + 3

/-- The TLB entries with which the placed agents start: the first 16 MiB of TAL, eight pages of 2 MiB, and the page of the cairn. -/
def placedTlb : List TlbEntry :=
  ((List.range 8).map fun i => ⟨0, i * 2 ^ 21, 2 ^ 21, BitVec.ofNat 64 (talLeaf (i * 2 ^ 21))⟩) ++ [⟨0, 2 ^ 24, 2 ^ 21, BitVec.ofNat 64 cairnLeaf⟩]

/-- The page table of the placed context: root, level 1, level 2, eight leaves of 2 MiB of TAL and one of cairn. -/
def placedTables (m : Memory) : Memory :=
  let m := m.putBytes 0x40E000000 (leBytes 8 (2 ^ 53 + 0xE001000))
  let m := m.putBytes 0x40E001000 (leBytes 8 (2 ^ 53 + 0xE002000))
  let m := m.putBytes 0x40E002000 (leBytes 8 (2 ^ 53 + 0xE003000))
  let m := (List.range 8).foldl (fun m i => m.putBytes (0x40E003000 + 8 * i) (leBytes 8 (talLeaf (i * 2 ^ 21)))) m
  m.putBytes 0x40E003040 (leBytes 8 cairnLeaf)

def placedPath : Path := { Path.blank with mask := 0xFFFF }

/-- The placed group: 16 lanes, every register declared, slot A at CODE offset 0 (R121, R300). -/
def placedGroup : Group :=
  { Group.blank with
    id := 0, width := 16, vregs := 64, sregs := 64, seg := placedSegs, swapwait := 16384, frame := 1024, st := .active,
    image := { Image.blank with slotA := some placedPath } }

/-- The placed team, resident on core 0 of column 0. -/
def placedTeam : Team :=
  { Team.blank with
    groups := 1, scrBytes := 65536, cairnBytes := 65536, bufs := [List.replicate 16 Buffer.blank], chans := [],
    xsets := List.replicate 64 0, resident := true, ended := false }

/-- The launch of the placed team. -/
def placedLaunch : Launch :=
  { Launch.blank with
    record := BitVec.ofNat 1024 ((16 * 0 + 1 * 2 ^ 8 + 64 * 2 ^ 16 + 64 * 2 ^ 24 + 1 * 2 ^ 60) * 2 ^ 640 + 65536 * 2 ^ 768 + 65536 * 2 ^ 800),
    st := .running, admitted := true, grid := [1], placed := [1] }

/-- The kick of the placed stream thread (R195). -/
def placedKick : Kick :=
  { id := 0, ctx := 0, launch := 0, team := 0, grp := 0, gid := 0, tid := 0, core := 0, cls := 0, entry := 0, argPtr := 0, args := [],
    fill := 0, drain := 0, keep := 0, bar := none, weight := 1, seg := placedSegs, release := 0, stores := Vector.replicate 16 0 }

/-- The opcodes of the stream class (Table 3-24). -/
def streamWord (w : Nat) : Bool := decide (0xE0 ≤ w / 2 ^ 24) && decide (w / 2 ^ 24 ≤ 0xEA)

/-- `eret` and `segld` need a privileged group (R54 check 4). -/
def privWord (w : Nat) : Bool := w / 2 ^ 24 = 0x16 || w / 2 ^ 24 = 0x17

/-- The state with the word placed: a core-class or common word is the next instruction of the placed group, a stream-class word that of the placed stream thread. -/
def placeWord (s : State) (_nbits w : Nat) : State :=
  let m := placedTables s.mem
  let m := m.putBytes (talHome 0 0xFE0000) (leBytes 4 w)
  let s : State := { s with
    mem := m, ctxs := [placedContext], teams := [placedTeam], launches := [placedLaunch], power := .on,
    groups := [{ placedGroup with privileged := privWord w }] }
  let s := s.modCore 0 0 fun k => { k with tlb := placedTlb }
  if streamWord w then
    let s := s.modCol 0 fun c => { c with tlb := placedTlb }
    let s := s.modThread 0 0 fun h => { h with st := .active, kick := some placedKick }
    { s with schedule := [.issue (.thread 0 0)] }
  else { s with schedule := [.issue (.slot 0 false)] }

end State

end Sys2Proof.Machine
end

