-- ==== Sys2Proof/Machine/Step.lean ====
section
/-! DEFINITION. One step of the device: an agent fetches, decodes and executes its next instruction, or an event comes about. -/

namespace Sys2Proof.Machine

open Sys2Proof

/-- The instruction that a fetched word is, a word that is none standing for its own trap (R54). -/
def meant (w : Word32) : Instr :=
  match decode w with
  | .ok i => i
  | .reject _ => .wordNotAnInstruction w

/-- The issuing agent comes to its next instruction: a held cause or a debugger's halt comes first, then the fetch, then what was fetched. -/
def issueStep (s : State) : Host.Outcome State Fault Refusal :=
  if s.canIssue then
    if s.haltsHere then .next (s.haltNow s.curGrp)
    else match s.boundaryCause with
    | some a => .next (s.deliverAsync s.curGrp a)
    | none =>
      match s.fetch with
      | .word w => exec (meant w) s
      | _ => exec .fetchPastCodeLimit s
  else .fault .cannotIssue

/-- An event of the schedule comes about. -/
def eventStep (i : Instr) (s : State) : Host.Outcome State Fault Refusal :=
  if (encode i).isSome then .fault .notAnEvent
  else if s.running || actsInReset s i then exec i s else .fault .inReset

/-- The first of these events that comes about, if one does. -/
def firstEvent (s : State) : List Instr → Option State
  | [] => none
  | i :: is => match exec i s with
    | .next t => some t
    | _ => firstEvent s is

/-- The step where the schedule is empty: an access that has issued is performed, else a due event comes about, else an agent that can issue does, else time passes. -/
def freeStep (s : State) : Host.Outcome State Fault Refusal :=
  if s.running then
    match s.flight.find? s.performsNow with
    | some f => .next (s.performItem f.id).changed
    | none =>
      match firstEvent s s.dueEvents with
      | some t => .next t
      | none =>
        match s.agentChoice with
        | some a => issueStep { s with cur := a }
        | none => .next { s with held := [] }
  else .next s

/-- An agent that the schedule names issues: the one that its pipe or streamer takes next (R123, R187). -/
def turnStep (late : Bool) (a : Agent) (s : State) : Host.Outcome State Fault Refusal :=
  if s.running then
    if s.isTurn a then issueStep { s with cur := a, late := late } else .fault .cannotIssue
  else .fault .inReset

/-- What a core or a home does of itself: an access that has issued is performed (R254), a line comes into an L1 cache or leaves it (R156). -/
def homeStep (ok : Bool) (t s : State) : Host.Outcome State Fault Refusal :=
  if s.running then (if ok then .next t.changed else .fault .notPending) else .fault .inReset

/-- One step of the device. -/
def step (s : State) : Host.Outcome State Fault Refusal :=
  let s := s.tick
  match s.schedule with
  | .issue a :: r => turnStep false a { s with schedule := r }
  | .issueLate a :: r => turnStep true a { s with schedule := r }
  | .event i :: r => eventStep i { s with schedule := r }
  | .perform id :: r => homeStep (s.flight.any fun f => f.id = id && s.performsNow f) ({ s with schedule := r }.performItem id) s
  | .fetch c k l inv :: r => homeStep (s.lineThere c k l) ({ s with schedule := r }.fetchLine c k l inv) s
  | .evict c k l inv :: r => homeStep (s.lineThere c k l) ({ s with schedule := r }.evictLine c k l inv) s
  | [] => freeStep s

/-- The state with an instruction placed where its next step fetches (see Place.lean). -/
def State.withFetchWord (s : State) (nbits w : Nat) : State := s.placeWord nbits w

end Sys2Proof.Machine
end

