-- ==== Sys2Proof/Safety.lean ====
section
/-! DEFINITION. The terms in which claims speak of an instruction: that its agent comes to it, that its registers can be read and written, that its checks pass, and what it leaves alone. -/

namespace Sys2Proof.Machine

open Sys2Proof

namespace State

/-! ### Coming to an instruction -/

/-- The issuing agent comes to its next instruction: it can issue (R122, R187), it is not in the middle of one, and no injection is armed for its group (R398). -/
structure Ready (s : State) : Prop where
  issues : s.canIssue = true
  fresh : s.prog = .start
  calm : s.onCore = true → einjKind s.me = 0

/-- The agent is a slot of a group on a core, which executes the core class (Table 3-24). -/
structure ReadyCore (s : State) : Prop extends Ready s where
  core : s.onCore = true

/-- The agent is a stream thread, which executes the stream class. -/
structure ReadyStream (s : State) : Prop extends Ready s where
  stream : s.onCore = false

/-! ### Registers that let an instruction go on (R42–R44, R146) -/

/-- The agent has the s register: a group those it declared, s62 and s63 besides; a stream thread thirty-two (R42, R186). -/
def SHas (s : State) (r : Nat) : Prop := if s.onCore = true then r < s.me.sregs ∨ r = 62 ∨ r = 63 else r < 32

/-- An s register that can be written: it is there and full (R43). -/
def SDst (s : State) (r : Nat) : Prop := s.SHas r ∧ (s.sreg r).full = true

/-- An s register that can be read: it is there, full and clean (R43, R146). -/
def SSrc (s : State) (r : Nat) : Prop := s.SHas r ∧ (s.sreg r).full = true ∧ (s.sreg r).poison = none

/-- A v register that can be written: it is declared and full. -/
def VDst (s : State) (r : Nat) : Prop := r < s.me.vregs ∧ (s.vreg r).full = true

/-- A v register that can be read in the active lanes: declared, full, and clean in those lanes. -/
def VSrc (s : State) (r : Nat) : Prop := s.VDst r ∧ ∀ l ∈ s.lanes, (s.vreg r).poisonOf l = none

/-- A v register that can be read in every lane of the group. -/
def VAll (s : State) (r : Nat) : Prop := s.VDst r ∧ ∀ l < s.me.width, (s.vreg r).poisonOf l = none

/-! ### What an instruction leaves alone -/

end State

/-- A group without its v, s and k registers, its lane generators, its contexts and the bookkeeping of issue. -/
def Group.husk (g : Group) : Group :=
  { g with
    lastIssue := 0
    waitFrom := none
    walkFault := none
    replay := none
    susp := if g.susp = .full then .none else g.susp
    image := { g.image with
      v := Image.blank.v
      s := Image.blank.s
      k := Image.blank.k
      gens := Image.blank.gens
      slotA := none
      slotB := none
      stack := [] } }

/-- An image without its contexts. -/
def Image.registers (im : Image) : Image := { im with slotA := none, slotB := none, stack := [] }

/-- A stream thread without its s registers, flags, program counter and the bookkeeping of issue. -/
def Thread.husk (h : Thread) : Thread :=
  { h with
    s := Thread.reset.s
    flags := Flags.clear
    pc := 0
    word := 0
    prog := .start
    lastIssue := 0
    walkFault := none
    susp := if h.susp = .full then .none else h.susp }

namespace State

/-- The state without the registers and contexts of the issuing agent and without the bookkeeping of issue: memory, every other agent, everything in progress, and all of the issuing agent that a computation does not touch. -/
def world (s : State) : State := match s.cur with
  | .slot g _ => { s.modGroup g Group.husk with held := [], issues := 0 }
  | .thread c t => { s.modThread c t Thread.husk with held := [], issues := 0 }

/-- The contexts of the issuing group but the one that issues. -/
def others (s : State) : List Path := match s.cur with
  | .slot g b => ((s.grp g).image.slot (!b)).toList ++ (s.grp g).image.stack
  | .thread _ _ => []

end State

/-- What an instruction may change beyond program counters: s, v and k registers, the flags of its slot or thread, the lane generators. -/
structure May where
  s : List Nat := []
  v : List Nat := []
  k : List Nat := []
  flags : Bool := false
  gens : Bool := false

/-- `t` is `s` but for program counters, the bookkeeping of issue and what `m` names. A context that enters a slot (R129) is a context of the group as before. -/
structure Kept (m : May) (s t : State) : Prop where
  agent : t.cur = s.cur
  world : t.world = s.world
  memory : ∀ a, t.mem.byte a = s.mem.byte a
  sregs : ∀ r, r ∉ m.s → t.sreg r = s.sreg r
  vregs : ∀ r, r ∉ m.v → t.vreg r = s.vreg r
  kregs : ∀ r, r ∉ m.k → t.kreg r = s.kreg r
  flags : m.flags = false → t.flags = s.flags
  gens : m.gens = false → t.me.image.gens = s.me.image.gens
  lanes : t.slotMask = s.slotMask
  contexts : (t.others.map State.entering).Perm (s.others.map State.entering)

/-- A column without what its cores' L1 caches hold. -/
def Column.noL1 (x : Column) : Column := { x with cores := x.cores.map fun k => { k with l1 := [] } }

/-- The conditions of Table 3-8, by their values 0 to 9. -/
def conditions38 (f : Flags) : List Bool :=
  [f.z, !f.z, f.n != f.v, f.n == f.v, f.c, !f.c, !f.z && (f.n == f.v), f.z || (f.n != f.v), f.e, !f.e]

namespace State

/-- A target of a transfer of control that passes the checks of R125: a multiple of 4 below the CODE limit. -/
def CodeTarget (s : State) (x : Word) : Prop := x.toNat % 4 = 0 ∧ x.toNat < segLimit (s.seg 4)

/-- No access that has issued and is not performed yet satisfies `p`. -/
def noLate (s : State) (p : Late → Bool) : Bool := s.flight.all fun f => match f.item with
  | .late l => !p l
  | _ => true

/-! ### Taking a trap (R324–R326) -/

/-- The issuing group can enter its handler: it is not privileged, it has a handler, its frame lies at home `h`, on a page that lets it be written, and no earlier access of its core to those bytes is still to be performed (R326, R329). -/
structure Handles (s : State) (g : Nat) (b : Bool) (h : Nat) : Prop where
  agent : s.cur = .slot g b
  there : s.hasGroup g = true
  plain : (s.grp g).privileged = false
  base : (s.grp g).trapbase ≠ 0
  home : s.frameHome (s.grp g) = some h
  quiet : s.noLate (fun l => lateOf (s.grp g).col (s.grp g).core none l && meetPieces (latePieces l) [(h, 64)]) = true
  depth : (s.grp g).regions.length ≤ 8
  memory : s.mem.wf = true

/-- What an instruction reports of its cause. -/
structure Cause where
  cause : Nat
  detail : Nat := 0
  /-- the faulting pointer -/
  addr : Word := 0
  /-- it names another column or device -/
  remote : Bool := false
  /-- the lowest failing lane -/
  lane : Nat := 0
  /-- the lanes on which the instruction acted -/
  lanes : Word
  /-- the word of the instruction -/
  insn : Nat
  /-- where `eret` resumes -/
  pc : Word

/-- The trapping group after entry (R326): s62, mode, privilege and PC of the slot. -/
def entered (s : State) (b : Bool) (x : Group) : Group :=
  { x with
    privileged := true
    trapSlot := b
    trapAt := s.cycles
    susp := .none
    replay := none
    waitFrom := none
    walkFault := none
    image := ({ x.image with
      mode := 0
      s := vmod x.image.s 62 fun _ => ⟨BitVec.ofNat 64 (0xFFFF * 2 ^ 48 + frameOff x), true, none⟩ }).modSlot b fun p =>
        { p with pc := x.trapbase, prog := .start } }

/-- The issuing slot `b` of group `g` enters its handler with a cause, its frame at home `h`: the fields of the frame (Table 20-1), the group, and nothing else but the launch's first cause, the L1 copies of the frame's lines and the context's list of touched pages, on which the frame's page now stands (R279). -/
structure Enters (s t : State) (g : Nat) (b : Bool) (h : Nat) (r : Cause) : Prop where
  cause : bitsOf (t.mem.nat h 64) 0 8 = r.cause
  remote : bitsOf (t.mem.nat h 64) 8 1 = bit r.remote
  sync : bitsOf (t.mem.nat h 64) 9 3 = 0
  slice : bitsOf (t.mem.nat h 64) 13 1 = bit (s.ctx (s.grp g).ctx).expiry
  other : bitsOf (t.mem.nat h 64) 14 1 = bit ((s.grp g).image.slot (!b)).isSome
  slot : bitsOf (t.mem.nat h 64) 16 1 = bit b
  depth : bitsOf (t.mem.nat h 64) 17 4 = (s.grp g).regions.length
  lane : bitsOf (t.mem.nat h 64) 24 6 = r.lane
  pc : bitsOf (t.mem.nat h 64) 32 32 = r.pc.toNat % 2 ^ 32
  insn : bitsOf (t.mem.nat h 64) 64 32 = r.insn
  mode : bitsOf (t.mem.nat h 64) 96 18 = (s.grp g).image.mode.toNat
  flags : ofCc (bitsOf (t.mem.nat h 64) 114 5) = s.flags
  addr : bitsOf (t.mem.nat h 64) 128 64 = r.addr.toNat
  lanes : bitsOf (t.mem.nat h 64) 192 64 = r.lanes.toNat
  detail : bitsOf (t.mem.nat h 64) 256 64 = r.detail
  saved62 : bitsOf (t.mem.nat h 64) 320 64 = (s.sval 62).toNat
  time : bitsOf (t.mem.nat h 64) 384 64 = s.time % 2 ^ 64
  bytes : ∀ a, a < h ∨ h + 64 ≤ a → t.mem.byte a = s.mem.byte a
  groups : t.groups = s.groups.map fun x => if x.id = g then s.entered b x else x
  launches : t.launches = s.launches.map fun x => if x.id = (s.grp g).launch then { x with cause := some (x.cause.getD r.cause) } else x
  cols : t.cols.map Column.noL1 = s.cols.map Column.noL1
  pages : t.ctxs = (s.touchAt (s.grp g).ctx (s.grp g).col (frameOff (s.grp g))).ctxs
  rest : { t with mem := s.mem, ctxs := s.ctxs, groups := s.groups, launches := s.launches, cols := s.cols, held := s.held, issues := s.issues } = s

/-! ### Results -/

/-- An s register holds a result: the value, full and clean; s0 stays zero (R40, R43). -/
def SGets (t : State) (d : Nat) (x : Word) : Prop := t.sreg d = if d = 0 then SReg.zero else ⟨x, true, none⟩

/-- A v register holds a result in these lanes, clean there; its other lanes are as they were (R83, R146). -/
def VWrites (s t : State) (d : Nat) (ls : List Nat) (f : Nat → Word) : Prop :=
  (t.vreg d).full = (s.vreg d).full ∧
  ∀ l < 64, if l ∈ ls then t.vlane d l = f l ∧ (t.vreg d).poisonOf l = none
    else t.vlane d l = s.vlane d l ∧ (t.vreg d).poisonOf l = (s.vreg d).poisonOf l

/-- A v register holds a result in the active lanes of `s`. -/
def VGets (s t : State) (d : Nat) (f : Nat → Word) : Prop := VWrites s t d s.lanes f

/-- A k register holds a result: k0 stays all ones, bits at or above the width are zero (R41). -/
def KGets (s t : State) (d : Nat) (x : Word) : Prop :=
  t.kreg d = if d = 0 then s.kreg 0 else BitVec.ofNat 64 (x.toNat % 2 ^ s.me.width)

end State

/-- An element `r` of type `t` is the fit of an exact integer (R69, R85): the nearest value of the type under `SAT`, else the one congruent modulo 2^w. -/
def Fitted (t : Nat) (sat : Bool) (x : Int) (r : Nat) : Prop :=
  r < 2 ^ ewidth t ∧ iminOf t ≤ ival t r ∧ ival t r ≤ imaxOf t ∧
    if sat = true then ival t r = max (iminOf t) (min (imaxOf t) x) else (ival t r - x) % 2 ^ ewidth t = 0

/-- Two children of a node of the tree of R72, where an absent one lets the other pass. -/
def combineNodes (op : Nat → Nat → Nat) : Option Nat → Option Nat → Option Nat
  | some x, some y => some (op x y)
  | some x, none => some x
  | none, y => y

/-- Node `i` of level `n` of the balanced binary tree of R72, over what stands at each position. -/
def treeNode (op : Nat → Nat → Nat) (x : Nat → Option Nat) : Nat → Nat → Option Nat
  | 0, i => x i
  | n + 1, i => combineNodes op (treeNode op x n (2 * i)) (treeNode op x n (2 * i + 1))

/-- A lane generator after `n` elements, stepped where the mode rounds stochastically (R67). -/
def stepped (sr : Bool) (n : Nat) (g : BitVec 32) : BitVec 32 := if sr = true then Nat.repeat genStep n g else g

/-- The generators after an instruction that rounds `n` elements in each of these lanes (R67). -/
def State.Steps (s t : State) (ls : List Nat) (sr : Bool) (n : Nat) : Prop := ∀ l < 64, t.gen l = if l ∈ ls then stepped sr n (s.gen l) else s.gen l

/-- An event comes about, and what it leaves is `u` but for the bookkeeping of issue. -/
def State.Brings (s : State) (i : Instr) (u : State) : Prop := ∃ t, exec i s = .next t ∧ { t with held := u.held, issues := u.issues } = u

/-- An instruction completes: the agent goes on to the next word, and what it leaves is `u` but for program counters and the bookkeeping of issue. -/
def State.Does (s : State) (i : Instr) (u : State) : Prop := ∃ t, exec i s = .next t ∧ t.pc = s.pc + 4 ∧ Kept {} u t

/-- An instruction does not complete yet: it holds its slot (R122). -/
def State.Waits (s : State) (i : Instr) : Prop := ∃ t, exec i s = .next t ∧ t.pc = s.pc ∧ t.held.contains s.cur = true

/-! ### Accesses to memory (R26–R31, R154, R309) -/

/-- Home of byte `i` of an access whose bytes lie in these pieces: home and size of each. -/
def homeByte : List (Nat × Nat) → Nat → Nat
  | [], i => i
  | p :: ps, i => if i < p.2 then p.1 + i else homeByte ps (i - p.2)

namespace State

/-- An access of an instruction to a space (kinds: 0 load, 1 store, 2 atomic) that passes the checks of R31 on its pointer, the segment's limit and the alignment; ARG is not written. -/
structure Allowed (s : State) (space kind align : Nat) (r : Req) : Prop where
  here : s.ptrHere r.ptr = true
  written : space = 3 → kind = 0
  limit : s.wholeSpace space = true ∨ r.off + r.size ≤ segLimit (s.seg (segOf space))
  aligned : r.off % align = 0

/-- An allowed access to TAL, GLB or ARG whose pages the agent's TLB lets it use, with the pieces of home memory in which its bytes lie (R309). -/
structure Reaches (s : State) (space kind align : Nat) (r : Req) (ps : List (Nat × Nat)) : Prop extends Allowed s space kind align r where
  homes : s.translateSpan ((if s.wholeSpace space then 0 else segBase (s.seg (segOf space))) + r.off) r.size kind (withOff r.ptr r.off) r.lane = .ok ps

/-- The accesses of an instruction of the issuing group that are performed later (R254, R264). -/
def lateItem (s : State) (g : Nat) (op : LateOp) (accs : List LateAcc) (d : Option Dest) : Item :=
  .late { col := s.myCol, core := s.myCore, thr := none, grp := g, op := op, accs := accs, dst := d, strike := none }

/-- What a load of a core that comes at `bound` can read at a home address: what the last of the core's own earlier stores leaves there, where that store is still to be performed; else what the core's L1 holds, or what the home holds (R156, R158, R263). -/
def SeesAt (s : State) (col core bound : Nat) (inv : Bool) (a x : Nat) : Prop :=
  match s.lateByte col core none bound a with
  | some y => x = y.toNat
  | none => x = (s.mem.byte a).toNat ∨ x = (s.l1Byte col core a inv).toNat

/-- What a load of the issuing group can read at a home address. -/
def Sees (s : State) (inv : Bool) (a x : Nat) : Prop := s.SeesAt s.myCol s.myCore s.nextId inv a x

/-- The poison that a load of bytes at these home addresses brings: none where home and L1 are clean, a mark where both are marked (R146, R156). -/
def Marked (s : State) (inv : Bool) (as : List Nat) (p : Option Poison) : Prop :=
  (p = none ∨ p = some .line) ∧ ((∀ a ∈ as, s.mem.isPoisoned a = false ∧ s.l1Poisoned s.myCol s.myCore a inv = false) → p = none) ∧
  ((∃ a ∈ as, s.mem.isPoisoned a = true ∧ s.l1Poisoned s.myCol s.myCore a inv = true) → p = some .line)

end State

end Sys2Proof.Machine
end

