-- ==== Sys2Proof/Certificates/Slice0/Obligations.lean ====
section
/-! DEFINITION. The statements about the machine, each with the rules of the spec that it formalises. -/

open Sys2Proof Sys2Proof.Machine Sys2Proof.Machine.State

/-! ### Scalar instructions -/

/-- R77, R78, Table 5-2: the register-register operations write their result at once and change nothing else; the quotient rounds toward zero, and the remainder has the sign of the dividend. -/
def Obligations.ScalarResults : Prop :=
  ∀ (s : State) (d a b : Reg), s.Ready → s.SDst d.toNat → s.SSrc a.toNat → s.SSrc b.toNat →
  let x := s.sval a.toNat
  let y := s.sval b.toNat
  let n := y.toNat % 64
  let gives := fun (i : Instr) (v : Word) => ∃ t, exec i s = .next t ∧ t.SGets d.toNat v ∧ t.pc = s.pc + 4 ∧ Kept { s := [d.toNat] } s t
  (∀ p ∈ [(Instr.sadd d a b, BitVec.ofNat 64 (x.toNat + y.toNat)), (.ssub d a b, BitVec.ofInt 64 (x.toInt - y.toInt)),
      (.smul d a b, BitVec.ofNat 64 (x.toNat * y.toNat)), (.smulh d a b, BitVec.ofInt 64 (x.toInt * y.toInt / 2 ^ 64)),
      (.sand d a b, x &&& y), (.sor d a b, x ||| y), (.sxor d a b, x ^^^ y),
      (.sshl d a b, BitVec.ofNat 64 (x.toNat * 2 ^ n)), (.sshr d a b, BitVec.ofNat 64 (x.toNat / 2 ^ n)),
      (.ssra d a b, BitVec.ofInt 64 (x.toInt / 2 ^ n)),
      (.smin d a b, if x.toInt ≤ y.toInt then x else y), (.smax d a b, if x.toInt ≤ y.toInt then y else x)],
    gives p.1 p.2) ∧
  (y ≠ 0 → gives (.sdiv d a b) (BitVec.ofInt 64 (x.toInt.tdiv y.toInt)) ∧ gives (.srem d a b) (BitVec.ofInt 64 (x.toInt.tmod y.toInt)))

/-- R81, R82, Table 5-4: the immediate forms and the two immediate loads. -/
def Obligations.ScalarImmediates : Prop :=
  ∀ (s : State) (d a : Reg) (i : BitVec 12) (n : BitVec 6) (j : BitVec 18), s.Ready → s.SDst d.toNat → s.SSrc a.toNat →
  let x := s.sval a.toNat
  (∀ p ∈ [(Instr.saddi d a i, BitVec.ofInt 64 (x.toInt + i.toInt)), (.sandi d a i, BitVec.ofNat 64 (x.toNat &&& i.toNat)),
      (.sori d a i, BitVec.ofNat 64 (x.toNat ||| i.toNat)), (.sxori d a i, BitVec.ofNat 64 (x.toNat ^^^ i.toNat)),
      (.sshli d a n, BitVec.ofNat 64 (x.toNat * 2 ^ n.toNat)), (.sshri d a n, BitVec.ofNat 64 (x.toNat / 2 ^ n.toNat)),
      (.ssrai d a n, BitVec.ofInt 64 (x.toInt / 2 ^ n.toNat)), (.sli d j, BitVec.ofInt 64 j.toInt)],
    ∃ t, exec p.1 s = .next t ∧ t.SGets d.toNat p.2 ∧ t.pc = s.pc + 4 ∧ Kept { s := [d.toNat] } s t) ∧
  (s.SSrc d.toNat → ∃ t, exec (.slhi d j) s = .next t ∧ t.SGets d.toNat (BitVec.ofNat 64 ((s.sval d.toNat).toNat * 2 ^ 18 + j.toNat)) ∧
    t.pc = s.pc + 4 ∧ Kept { s := [d.toNat] } s t)

/-- R48, R79, R80, Table 3-8: a compare sets Z, N, C and V from a − b and writes no register, and E stays; `ssel` selects by a condition on the slot's flags, which it leaves alone. -/
def Obligations.ScalarCompares : Prop :=
  ∀ (s : State) (d a b : Reg) (i : BitVec 12) (c : BitVec 4) (yes : Bool), s.Ready → s.SSrc a.toNat →
  let x := s.sval a.toNat
  (∀ p ∈ [(Instr.scmp a b, s.sval b.toNat), (.scmpi a i, i.signExtend 64)], (p.1 = .scmp a b → s.SSrc b.toNat) →
    ∃ t, exec p.1 s = .next t ∧
      (t.flags.z ↔ x = p.2) ∧ (t.flags.n ↔ (x - p.2).toInt < 0) ∧ (t.flags.c ↔ x.toNat < p.2.toNat) ∧
      (t.flags.v ↔ x.toInt - p.2.toInt < -2 ^ 63 ∨ 2 ^ 63 ≤ x.toInt - p.2.toInt) ∧ t.flags.e = s.flags.e ∧
      t.pc = s.pc + 4 ∧ Kept { flags := true } s t) ∧
  (s.SDst d.toNat → s.SSrc b.toNat → (conditions38 s.flags)[c.toNat]? = some yes →
    ∃ t, exec (.ssel d a b c) s = .next t ∧ t.SGets d.toNat (if yes then x else s.sval b.toNat) ∧
      t.pc = s.pc + 4 ∧ Kept { s := [d.toNat] } s t)

/-! ### Control -/

/-- R49, R126, R127, Tables 3-8 and 7-2: where each transfer of control goes, with a target that passes R125; `nop` does nothing. -/
def Obligations.Branches : Prop :=
  ∀ (s : State) (a : Reg) (x : BitVec 18) (c : BitVec 4) (k : BitVec 4) (n : BitVec 2) (yes : Bool), s.Ready →
  let next := s.pc + 4
  let target := next + BitVec.ofInt 64 (4 * x.toInt)
  let m := s.kreg k.toNat &&& s.slotMask
  let link := if s.onCore then 63 else 31
  (∃ t, exec .nop s = .next t ∧ t.pc = next ∧ Kept {} s t) ∧
  (s.CodeTarget target → ∃ t, exec (.br x) s = .next t ∧ t.pc = target ∧ Kept {} s t) ∧
  ((conditions38 s.flags)[c.toNat]? = some yes → (yes = true → s.CodeTarget target) →
    ∃ t, exec (.bc c x) s = .next t ∧ t.pc = (if yes then target else next) ∧ Kept {} s t) ∧
  (s.onCore = true → [decide (m = 0), decide (m ≠ 0), decide (m = s.slotMask)][n.toNat]? = some yes → (yes = true → s.CodeTarget target) →
    ∃ t, exec (.bk n k x) s = .next t ∧ t.pc = (if yes then target else next) ∧ Kept {} s t) ∧
  (s.SDst link → s.CodeTarget target →
    ∃ t, exec (.call x) s = .next t ∧ t.pc = target ∧ t.SGets link next ∧ Kept { s := [link] } s t) ∧
  (s.SSrc a.toNat → s.CodeTarget (s.sval a.toNat) →
    ∀ i ∈ [Instr.ret a, .jmp a], ∃ t, exec i s = .next t ∧ t.pc = s.sval a.toNat ∧ Kept {} s t)

/-- R47, R138, R139, R140, Table 3-9: the special registers that a group may write, and what a write of each changes. -/
def Obligations.SpecialRegisterWrites : Prop :=
  ∀ (s : State) (a : Reg) (i : BitVec 18), s.ReadyCore → s.SSrc a.toNat →
  let x := s.sval a.toNat
  let priv := s.me.privileged = true
  let set := fun (f : Group → Group) => s.advance.modGroup s.curGrp f
  ∀ p ∈ [(Instr.setmode i, True, set fun g => { g with image := { g.image with mode := i } }),
      (.wrsr a 0x000, True, set fun g => { g with image := { g.image with mode := x.setWidth 18 } }),
      (.wrsr a 0x001, True, s.advance.setFlags ⟨x.getLsbD 0, x.getLsbD 1, x.getLsbD 2, x.getLsbD 3, x.getLsbD 4⟩),
      (.wrsr a 0x003, True, set fun g => { g with image := { g.image with
        joinLost := g.image.joinLost && x.getLsbD 0, swapped := g.image.swapped && x.getLsbD 1 } }),
      (.wrsr a 0x004, True, set fun g => { g with image := { g.image with joinTrap := x.getLsbD 0 } }),
      (.wrsr a 0x018, priv, set fun g => { g with trapbase := x }),
      (.wrsr a 0x01A, priv, set fun g => { g with swapwait := x.setWidth 32 }),
      (.wrsr a 0x030, priv, set fun g => { g with einj := x &&& 0x30FFFFFFFFF00000 })],
    p.2.1 → ∃ t, exec p.1 s = .next t ∧ t.pc = s.pc + 4 ∧ Kept {} p.2.2 t

/-- R50, R139, R140, R300, Table 3-9: what each special register of a group reads as. -/
def Obligations.SpecialRegisterReads : Prop :=
  ∀ (s : State) (d : Reg), s.ReadyCore → s.SDst d.toNat →
  let g := s.me
  let n := fun (x : Nat) => BitVec.ofNat 64 x
  ∀ p ∈ [(0x000, True, g.image.mode.setWidth 64),
      (0x001, True, n (bit s.flags.z + 2 * bit s.flags.n + 4 * bit s.flags.c + 8 * bit s.flags.v + 16 * bit s.flags.e)),
      (0x002, True, n (bit s.curSlot + 2 * bit (g.image.slot (!s.curSlot)).isSome + 4 * g.image.stack.length)),
      (0x003, True, n (bit g.image.joinLost + 2 * bit g.image.swapped)), (0x004, True, n (bit g.image.joinTrap)), (0x005, True, g.image.gang),
      (0x008, True, n g.width), (0x009, True, n g.gid), (0x00A, True, n g.tid), (0x00B, True, n g.core),
      (0x00C, True, n (s.colNum g.ctx g.col)), (0x00D, True, n s.dev), (0x00E, True, n (s.ncol g.ctx)),
      (0x010, True, n s.time), (0x011, True, n s.cycles), (0x018, True, g.trapbase), (0x019, True, n g.frame),
      (0x01A, True, g.swapwait.setWidth 64), (0x01B, True, n (rgnWord g.lastCause g.rollbacks (g.regions.reverse.map (·.sealed)) (g.regions.reverse.map (·.idem)) ((g.regions.head?.map (·.retry)).getD 0))),
      (0x030, g.privileged = true, g.einj), (0x040, True, n (s.core g.col g.core).kicks.length)] ++
      (List.range 8).map fun k => (0x020 + k, True, vget 0 g.seg k),
    p.2.1 → ∃ t, exec (.rdsr d (BitVec.ofNat 12 p.1)) s = .next t ∧ t.SGets d.toNat p.2.2 ∧ t.pc = s.pc + 4 ∧ Kept { s := [d.toNat] } s t

/-- R140, R186, Table 3-9: what a stream thread reads and writes of the special registers; `rdtime` on both engines. -/
def Obligations.StreamSpecialRegisters : Prop :=
  ∀ (s : State) (c t : Nat) (k : Kick) (d : Reg), s.Ready →
  let n := fun (x : Nat) => BitVec.ofNat 64 x
  (s.SDst d.toNat → ∃ u, exec (.rdtime d) s = .next u ∧ u.SGets d.toNat (n s.time) ∧ u.pc = s.pc + 4 ∧ Kept { s := [d.toNat] } s u) ∧
  (s.cur = .thread c t → (s.thread c t).kick = some k → s.SDst d.toNat →
    ∀ p ∈ [(0x001, n (bit s.flags.z + 2 * bit s.flags.n + 4 * bit s.flags.c + 8 * bit s.flags.v + 16 * bit s.flags.e)),
        (0x00C, n (s.colNum k.ctx c)), (0x00D, n s.dev), (0x00E, n (s.ncol k.ctx)), (0x010, n s.time), (0x011, n s.cycles),
        (0x019, n (64 * t)), (0x01B, n (rgnWord (s.thread c t).lastCause (s.thread c t).rollbacks ((s.thread c t).regions.reverse.map (·.sealed))
          ((s.thread c t).regions.reverse.map (·.idem)) (((s.thread c t).regions.head?.map (·.retry)).getD 0))), (0x041, n t)],
      ∃ u, exec (.rdsr d (BitVec.ofNat 12 p.1)) s = .next u ∧ u.SGets d.toNat p.2 ∧ u.pc = s.pc + 4 ∧ Kept { s := [d.toNat] } s u) ∧
  (s.cur = .thread c t → s.SSrc d.toNat →
    let x := s.sval d.toNat
    ∃ u, exec (.wrsr d 0x001) s = .next u ∧ u.flags = ⟨x.getLsbD 0, x.getLsbD 1, x.getLsbD 2, x.getLsbD 3, x.getLsbD 4⟩ ∧
      u.pc = s.pc + 4 ∧ Kept { flags := true } s u)

/-! ### Traps and the return from one -/

/-- R324–R326, R330, R331, Tables 20-1 and 20-2: `trap` raises SOFT_TRAP, and `dbgbrk` of a context without debugging DEBUG_BREAK. Their frame names the next instruction; the group enters its handler. -/
def Obligations.SoftwareTraps : Prop :=
  ∀ (s : State) (g : Nat) (b : Bool) (h : Nat) (c : BitVec 12), s.ReadyCore → s.Handles g b h → (s.ctx (s.grp g).ctx).debug = false →
  ∀ p ∈ [(Instr.trap c, 0xB6, 0x14000000), (.dbgbrk c, 0xB7, 0x18000000)],
    ∃ t, exec p.1 s = .next t ∧ s.Enters t g b h
      { cause := p.2.1, detail := c.toNat, lanes := s.slotMask, insn := p.2.2 + c.toNat, pc := s.pc + 4 }

/-- R78, R125, R54, R50, R80: causes that scalar, control and system instructions raise on their operands: the frame names the instruction itself, and nothing of it has been performed. -/
def Obligations.ScalarFaults : Prop :=
  ∀ (s : State) (g : Nat) (b : Bool) (h : Nat) (d a e : Reg) (x : BitVec 18), s.ReadyCore → s.Handles g b h → s.SDst d.toNat → s.SSrc a.toNat →
  let target := s.pc + 4 + BitVec.ofInt 64 (4 * x.toInt)
  let word := fun (i : Instr) => insnWord i % 2 ^ 32
  (∀ i ∈ [Instr.sdiv d a e, .srem d a e], s.SSrc e.toNat → s.sval e.toNat = 0 →
    ∃ t, exec i s = .next t ∧ s.Enters t g b h { cause := 0x25, lanes := s.slotMask, insn := word i, pc := s.pc }) ∧
  (∀ i ∈ [Instr.ret a, .jmp a], (s.sval a.toNat).toNat % 4 ≠ 0 →
    ∃ t, exec i s = .next t ∧ s.Enters t g b h
      { cause := 0x43, detail := 4, addr := s.sval a.toNat, lanes := s.slotMask, insn := word i, pc := s.pc }) ∧
  (∀ i ∈ [Instr.ret a, .jmp a], (s.sval a.toNat).toNat % 4 = 0 → segLimit (s.seg 4) ≤ (s.sval a.toNat).toNat →
    ∃ t, exec i s = .next t ∧ s.Enters t g b h
      { cause := 0x40, detail := 4, addr := s.sval a.toNat, lanes := s.slotMask, insn := word i, pc := s.pc }) ∧
  (target.toNat % 4 = 0 → segLimit (s.seg 4) ≤ target.toNat →
    ∃ t, exec (.br x) s = .next t ∧ s.Enters t g b h
      { cause := 0x40, detail := 4, addr := target, lanes := s.slotMask, insn := word (.br x), pc := s.pc }) ∧
  (∀ i ∈ [Instr.eret, .segld a 1, .wrsr a 0x018, .wrsr a 0x01A, .wrsr a 0x030, .rdsr d 0x030, .wrsr a 0x010],
    ∃ t, exec i s = .next t ∧ s.Enters t g b h { cause := 0x04, lanes := s.slotMask, insn := word i, pc := s.pc }) ∧
  (∀ i ∈ [Instr.rdsr d 0x041, .rdsr d 0x006, .wrsr a 0x041],
    ∃ t, exec i s = .next t ∧ s.Enters t g b h { cause := 0x02, lanes := s.slotMask, insn := word i, pc := s.pc }) ∧
  ((s.grp g).sregs ≤ e.toNat → e.toNat < 62 →
    ∃ t, exec (.sadd d e a) s = .next t ∧ s.Enters t g b h
      { cause := 0x05, detail := e.toNat + 256, lanes := s.slotMask, insn := word (.sadd d e a), pc := s.pc })

/-- R43, R44, R146, Table 20-4: an empty source traps REG_EMPTY where its policy bit says so and holds the slot where it does not; a poisoned source traps POISON_CONSUMED. -/
def Obligations.EmptyAndPoisonedSources : Prop :=
  ∀ (s : State) (g : Nat) (b : Bool) (h : Nat) (d a e : Reg), s.ReadyCore → s.Handles g b h → s.SDst d.toNat → s.SSrc a.toNat → s.SHas e.toNat →
  let word := insnWord (.sadd d a e) % 2 ^ 32
  ((s.sreg e.toNat).full = false → s.srcpol 1 = true →
    ∃ t, exec (.sadd d a e) s = .next t ∧ s.Enters t g b h
      { cause := 0x20, detail := e.toNat + 256 + 1024, lanes := s.slotMask, insn := word, pc := s.pc }) ∧
  ((s.sreg e.toNat).full = false → s.srcpol 1 = false →
    ∃ t, exec (.sadd d a e) s = .next t ∧ t.pc = s.pc ∧ t.held.contains (.slot g b) = true ∧ Kept {} s t) ∧
  ((s.sreg e.toNat).full = true → (s.sreg e.toNat).poison = some .line → (s.grp g).regions = [] →
    ∃ t, exec (.sadd d a e) s = .next t ∧ s.Enters t g b h
      { cause := 0xB1, detail := e.toNat + 256 + 1024, lanes := s.slotMask, insn := word, pc := s.pc })

/-- R134, R328, Table 20-1: `eret` restores from the frame the slot's PC and flags, the mode and s62, and ends the privilege. Where the slot holds a context that was PARKED before its handler ran (R134), the moves of R129 and R132 follow, of which nothing is said here. -/
def Obligations.TrapReturn : Prop :=
  ∀ (s : State) (g : Nat) (b : Bool) (h : Nat), s.ReadyCore → s.cur = .slot g b → (s.grp g).privileged = true →
  s.frameTrans (s.grp g) 0 = .ok h → s.mem.anyPoisoned h 64 = false →
  s.noLate (fun l => lateOf (s.grp g).col (s.grp g).core none l && meetPieces (latePieces l) [(h, 64)]) = true →
  let f := s.mem.nat h 64
  let pc := BitVec.ofNat 64 (bitsOf f 32 32)
  s.CodeTarget pc → (isRunning s.myPath = false → s.others.any isRunning = true ∨ (s.grp g).image.joinTrap = false) →
    ∃ t, exec .eret s = .next t ∧ t.me.privileged = false ∧ (isRunning s.myPath = true →
      (bitsOf f 16 1 = bit b → t.pc = pc ∧ t.flags = ofCc (bitsOf f 114 5)) ∧
      t.sreg 62 = ⟨BitVec.ofNat 64 (bitsOf f 320 64), true, none⟩ ∧ t.mode = bitsOf f 96 18 ∧
      Kept {} (s.advance.modGroup g fun x => { x with
        privileged := false
        image := { x.image.modSlot (decide (bitsOf f 16 1 = 1)) fun p => { p with pc := pc, flags := ofCc (bitsOf f 114 5), prog := .start } with
          mode := BitVec.ofNat 18 (bitsOf f 96 18)
          s := vmod x.image.s 62 fun _ => ⟨BitVec.ofNat 64 (bitsOf f 320 64), true, none⟩ } }) t)

/-- R332: `segld` writes a segment register of its group, within the scratchpad and the cairn; R331: `dbgbrk` halts the group where its context is debugged; R291: `sint` rings a queue of its context or sends a message to the management core; R380: the message of a queue pair makes the Ethernet engine read its doorbell word. -/
def Obligations.SystemEffects : Prop :=
  ∀ (s : State) (g : Nat) (b : Bool) (a : Reg) (n : BitVec 12) (tag : BitVec 12), s.ReadyCore → s.cur = .slot g b →
  let x := s.sval a.toNat
  let stop := segBase x + segLimit x
  let pair := (s.team (s.grp g).team).pair
  (s.SSrc a.toNat → (s.grp g).privileged = true → n.toNat < 7 → (n.toNat = 0 → stop ≤ 768 * 1024) →
    (n.toNat = 3 → stop ≤ if pair then 16 * 1024 * 1024 else 8 * 1024 * 1024) →
    ∃ t, exec (.segld a n) s = .next t ∧ t.pc = s.pc + 4 ∧
      Kept {} (s.advance.modGroup g fun x' => { x' with seg := vmod x'.seg n.toNat fun _ => x }) t) ∧
  ((s.ctx (s.grp g).ctx).debug = true →
    ∃ t, exec (.dbgbrk tag) s = .next t ∧ t.pc = s.pc + 4 ∧ Kept {} (s.advance.modGroup g fun x' => { x' with halted := true }) t) ∧
  (s.SSrc a.toNat → x.getLsbD 8 = true →
    let message := x.toNat / 2 ^ 32
    let seen := fun (y : QueuePair) => BitVec.ofNat 64 (s.mem.nat y.doorbell 8)
    let u : State := { s.advance with qps := s.qps.map fun y => if message = 2 ^ 31 + y.qp ∧ seen y ≠ y.seen then { y with seen := seen y, posted := y.posted + 1 } else y }
    ∃ t, exec (.sint a) s = .next t ∧ t.pc = s.pc + 4 ∧
      Kept {} (if s.fifo.length < 64 then { u with fifo := s.fifo ++ [BitVec.ofNat 32 message] } else { u with drops := s.drops + 1 }) t) ∧
  (s.SSrc a.toNat → x.getLsbD 8 = false →
    let q := x.toNat % 256
    ∃ t, exec (.sint a) s = .next t ∧ t.pc = s.pc + 4 ∧
      Kept {} (if (s.queue q).ctx = (s.grp g).ctx ∧ (s.queue q).st ≠ .disabled then s.advance.modQueue q fun y => { y with wake := true } else s.advance) t)

/-- R329: any fault of a privileged group is nested: no frame is written, the group stops in TRAPPED, its context goes FAULTED, and the management core has a report that names the instruction itself. Shown of `trap`, and of the control instructions that R327 forbids a handler. -/
def Obligations.NestedFaults : Prop :=
  ∀ (s : State) (g : Nat) (b : Bool) (c : BitVec 12) (d : Reg) (k : BitVec 4) (x : BitVec 18), s.ReadyCore → s.cur = .slot g b →
  (s.grp g).privileged = true → d.toNat < 4 →
  ∀ p ∈ [(Instr.trap c, 0xB6), (.split k x, 0x04), (.jarm d d, 0x04), (.join d, 0x04), (.exit, 0x04), (.rgnAbt, 0x04)],
    ∃ t, exec p.1 s = .next t ∧ t.mem = s.mem ∧
      t.report = some ⟨(s.grp g).ctx, (s.grp g).col, (s.grp g).core, (s.grp g).gid, p.2, s.pc⟩ ∧
      t.groups = s.groups.map (fun y => if y.id = g then { y with st := .trapped, susp := .none, replay := none, waitFrom := none, walkFault := none } else y) ∧
      t.ctxs = s.ctxs.map (fun y => if y.num = (s.grp g).ctx ∧ y.st = .active then { y with st := .faulted } else y) ∧
      { t with report := s.report, groups := s.groups, ctxs := s.ctxs, launches := s.launches, held := s.held, issues := s.issues } = s

/-! ### Divergence -/

/-- R128: `split` moves the masked lanes of its slot to a new context at the target, in the other slot if that is empty, else on the stack; no lane, or every lane, makes it fall through or jump. -/
def Obligations.Splits : Prop :=
  ∀ (s : State) (g : Nat) (b : Bool) (k : BitVec 4) (x : BitVec 18), s.ReadyCore → s.cur = .slot g b → (s.grp g).privileged = false →
  let target := s.pc + 4 + BitVec.ofInt 64 (4 * x.toInt)
  let m := s.kreg k.toNat &&& s.slotMask
  (m = 0 → ∃ t, exec (.split k x) s = .next t ∧ t.pc = s.pc + 4 ∧ Kept {} s t) ∧
  (m ≠ 0 → m = s.slotMask → s.CodeTarget target → ∃ t, exec (.split k x) s = .next t ∧ t.pc = target ∧ Kept {} s t) ∧
  (m ≠ 0 → m ≠ s.slotMask → s.CodeTarget target → (((s.grp g).image.slot (!b)).isNone = true ∨ (s.grp g).image.stack.length < 32) →
    let new : Path := { Path.blank with pc := target, mask := m, flags := s.flags }
    ∃ t, exec (.split k x) s = .next t ∧ t.pc = s.pc + 4 ∧ t.slotMask = s.slotMask &&& ~~~m ∧
      (t.others.map entering).Perm (new :: s.others.map entering) ∧
      Kept {} ((s.advance.modMyPath fun p => { p with mask := p.mask &&& ~~~m }).modImage g fun im =>
        if (im.slot (!b)).isNone = true then im.setSlot (!b) (some new) else { im with stack := new :: im.stack }) t)

/-- R130: `jarm` arms a join register with the live lanes of a mask, or adds them where a context is parked at it. -/
def Obligations.JoinArms : Prop :=
  ∀ (s : State) (g : Nat) (b : Bool) (d a : Reg), s.ReadyCore → s.cur = .slot g b → (s.grp g).privileged = false → d.toNat < 4 → a.toNat < 16 →
  let im := (s.grp g).image
  let live := (pathsOf im).foldl (fun m p => m ||| p.mask) 0
  let m := s.kreg a.toNat &&& live
  let parked : Bool := (pathsOf im).any fun p => decide (p.parked = some d.toNat)
  ∃ t, exec (.jarm d a) s = .next t ∧ t.pc = s.pc + 4 ∧
    Kept {} (s.advance.modGroup g fun y => { y with image := { y.image with
      j := vmod y.image.j d.toNat fun r => if parked then ⟨r.expected ||| m, r.arrived⟩ else ⟨m, 0⟩ } }) t

/-- R129, R131, R132: `join` completes and merges, or parks its context; where nothing then runs, every parked context is released with JOINLOST. -/
def Obligations.Joins : Prop :=
  ∀ (s : State) (g : Nat) (b : Bool) (d : Reg), s.ReadyCore → s.cur = .slot g b → (s.grp g).privileged = false → d.toNat < 4 →
  let im := (s.grp g).image
  let r := vget ⟨0, 0⟩ im.j d.toNat
  let arrived := r.arrived ||| s.slotMask
  let stays := fun (p : Path) => !decide (p.parked = some d.toNat)
  let own : Path := { s.myPath with pc := s.pc + 4, parked := some d.toNat, parkStamp := s.issues + 1, await := .none }
  (r.expected &&& ~~~arrived = 0 →
    ∃ t, exec (.join d) s = .next t ∧ t.pc = s.pc + 4 ∧ t.slotMask = arrived ∧ t.flags = s.flags ∧
      (t.others.map entering).Perm ((s.others.filter stays).map entering) ∧
      Kept {} ((s.advance.modImage g fun y => { y with
        slotA := y.slotA.filter stays, slotB := y.slotB.filter stays, stack := y.stack.filter stays
        j := vmod y.j d.toNat fun _ => ⟨0, 0⟩ }).modMyPath fun p => { p with mask := arrived }) t) ∧
  (r.expected &&& ~~~arrived ≠ 0 → s.others.any isRunning = true →
    let F := fun (y : Image) => { y with j := vmod y.j d.toNat fun q => ⟨q.expected, arrived⟩ }
    ∃ t, exec (.join d) s = .next t ∧ ((pathsOf (t.grp g).image).map entering).Perm ((own :: s.others).map entering) ∧
      ((im.slot (!b)).map isRunning = some true → im.stack.any isRunning = true → ((t.grp g).image.slot b).map isRunning = some true) ∧
      (t.grp g).image.registers = (F im).registers ∧ t.world = (s.modImage g F).world) ∧
  (r.expected &&& ~~~arrived ≠ 0 → s.others.any isRunning = false → im.joinTrap = false →
    ∃ t, exec (.join d) s = .next t ∧ ((pathsOf (t.grp g).image).map entering).Perm (((own :: s.others).map fun p => { p with parked := none }).map entering) ∧
      (∀ i < 4, vget ⟨0, 0⟩ (t.grp g).image.j i = if i = d.toNat ∨ (s.others.any fun p => decide (p.parked = some i)) = true then ⟨0, 0⟩ else vget ⟨0, 0⟩ im.j i) ∧
      (t.grp g).image.registers = { im with j := (t.grp g).image.j, joinLost := true }.registers ∧
      t.grp g = { s.grp g with image := (t.grp g).image, lastIssue := s.issues + 1, susp := .none, replay := none, waitFrom := none, walkFault := none } ∧
      (∀ k, k ≠ g → t.grp k = s.grp k) ∧ { t with groups := s.groups, held := s.held, issues := s.issues } = s)

/-- R129, R131, R133: `exit` ends the lanes of its slot: the last lanes of a group end the group, and the last group its team; other contexts go on, one of the stack in the emptied slot; the contexts of a join register that the exit completes merge. -/
def Obligations.Exits : Prop :=
  ∀ (s : State) (g : Nat) (b : Bool), s.ReadyCore → s.cur = .slot g b → (s.grp g).privileged = false →
  let m := s.slotMask
  let F := fun (y : Image) => { y with j := y.j.map fun r => ⟨r.expected &&& ~~~m, r.arrived &&& ~~~m⟩ }
  let tm := (s.grp g).team
  let l := (s.team tm).launch
  let out := fun (x : Group) => decide (x.id = g) || decide (x.st = .exited)
  let allOut := (s.teamGroups tm).all out
  (s.others = [] →
    ∃ t, exec .exit s = .next t ∧
      t.groups = s.groups.map (fun x => if x.id = g then { x with
        st := .exited, privileged := false, halted := false, susp := .none, replay := none, regions := [], async := [], walkFault := none
        lastIssue := s.issues + 1, waitFrom := none
        image := { F (s.grp g).image with slotA := none, slotB := none, stack := [] } } else x) ∧
      t.teams = s.teams.map (fun x => if x.id = tm ∧ allOut = true then { x with ended := true } else x) ∧
      t.launches = s.launches.map (fun x => if x.id = l ∧ x.st = .running ∧ allOut = true ∧ (s.launch l).placed = (s.launch l).grid ∧
        (s.launchGroups l).all out = true then { x with st := .draining } else x) ∧
      { t with groups := s.groups, teams := s.teams, launches := s.launches, held := s.held, issues := s.issues } = s) ∧
  (s.others.any (fun p => decide (p.mask ≠ 0)) = true → s.others.all isRunning = true →
    ∃ t, exec .exit s = .next t ∧ ((pathsOf (t.grp g).image).map entering).Perm (s.others.map entering) ∧
      (((s.grp g).image.slot (!b)).isSome = true → (s.grp g).image.stack ≠ [] → ((t.grp g).image.slot b).isSome = true) ∧
      (t.grp g).image.registers = (F (s.grp g).image).registers ∧ t.world = (s.modImage g fun _ => F (s.grp g).image).world) ∧
  (∀ (d : Nat) (last : Path), d < 4 →
    let im := F (s.grp g).image
    let joins := fun (e : Nat) => (s.others.any fun p => decide (p.parked = some e)) = true ∧ (vget ⟨0, 0⟩ im.j e).expected &&& ~~~(vget ⟨0, 0⟩ im.j e).arrived = 0
    let mask := (vget ⟨0, 0⟩ im.j d).arrived
    let merged := { im with j := vmod im.j d fun _ => ⟨0, 0⟩ }
    (∀ e < 4, joins e ↔ e = d) → mask ≠ 0 → last ∈ s.others → last.parked = some d → (∀ p ∈ s.others, p.parked = some d → p = last ∨ p.parkStamp < last.parkStamp) →
    ∃ t, exec .exit s = .next t ∧
      ((pathsOf (t.grp g).image).map entering).Perm (({ Path.blank with pc := last.pc, mask := mask, flags := last.flags } ::
        s.others.filter fun p => decide (p.parked ≠ some d)).map entering) ∧
      (t.grp g).image.registers = merged.registers ∧ t.world = (s.modImage g fun _ => merged).world)

/-! ### Masks and lanes -/

/-- R41, R107, R108, Table 6-1: the mask instructions; none is guarded. -/
def Obligations.MaskOperations : Prop :=
  ∀ (s : State) (d a b r : Reg) (first : Nat), s.ReadyCore → d.toNat < 16 → a.toNat < 16 → b.toNat < 16 →
  let x := s.kreg a.toNat
  let y := s.kreg b.toNat
  let m := x &&& y &&& s.slotMask
  (∀ p ∈ [(Instr.kand d a b, x &&& y), (.kor d a b, x ||| y), (.kxor d a b, x ^^^ y), (.kandn d a b, x &&& ~~~y)],
    ∃ t, exec p.1 s = .next t ∧ s.KGets t d.toNat p.2 ∧ t.pc = s.pc + 4 ∧ Kept { k := [d.toNat] } s t) ∧
  (s.SSrc r.toNat → ∃ t, exec (.ksmov d r) s = .next t ∧ s.KGets t d.toNat (s.sval r.toNat) ∧ t.pc = s.pc + 4 ∧ Kept { k := [d.toNat] } s t) ∧
  (s.SDst r.toNat → first ≤ 64 → (∀ i < first, x.getLsbD i = false) → (first < 64 → x.getLsbD first = true) →
    ∀ p ∈ [(Instr.skmov r a, x), (.kpop r a, BitVec.ofNat 64 ((List.range 64).countP fun i => x.getLsbD i)), (.kfirst r a, BitVec.ofNat 64 first)],
      ∃ t, exec p.1 s = .next t ∧ t.SGets r.toNat p.2 ∧ t.pc = s.pc + 4 ∧ Kept { s := [r.toNat] } s t) ∧
  (∃ t, exec (.ktest a b) s = .next t ∧ (t.flags.z ↔ m = 0) ∧ t.flags.n = false ∧ (t.flags.c ↔ m ≠ s.slotMask) ∧ t.flags.v = false ∧
    t.flags.e = s.flags.e ∧ t.pc = s.pc + 4 ∧ Kept { flags := true } s t)

/-- R95, R109: a compare sets the bit of an active lane where its condition holds for every element of the lane, and clears it otherwise; the other bits stay. -/
def Obligations.LaneCompares : Prop :=
  ∀ (s : State) (d a b : Reg) (c : BitVec 4), s.ReadyCore → d.toNat < 16 → s.VSrc a.toNat → s.VSrc b.toNat → c.toNat < 8 →
  let w := ewidth s.etype
  let every := fun (p : Nat → Nat → Prop) (l : Nat) => ∀ e < 64 / w, p (elemOf (s.vlane a.toNat l) w e) (elemOf (s.vlane b.toNat l) w e)
  let ordered := fun (x y : Nat) => cmpVal (s.fmode.read x) (s.fmode.read y)
  ∀ p ∈ [(Instr.vcmpk d a b c, isInt s.etype, fun (x y : Nat) =>
        let u := ival s.etype x
        let v := ival s.etype y
        [u = v, u ≠ v, u < v, v ≤ u, x < y, y ≤ x, v < u, u ≤ v][c.toNat]?.getD False),
      (.vfcmpk d a b c, isFloat s.etype, fun (x y : Nat) =>
        let o := ordered x y
        [o = some .eq, o ≠ some .eq, o = some .lt, o = some .eq ∨ o = some .gt, o = some .lt ∨ o = none, o ≠ some .lt, o = some .gt,
          o = some .eq ∨ o = some .lt][c.toNat]?.getD False)],
    p.2.1 = true → ∃ t, exec p.1 s = .next t ∧
      (∀ l < 64, (t.kreg d.toNat).getLsbD l = true ↔ if d.toNat ≠ 0 ∧ l ∈ s.lanes then every p.2.2 l else l < s.me.width ∧ (s.kreg d.toNat).getLsbD l = true) ∧
      t.pc = s.pc + 4 ∧ Kept { k := [d.toNat] } s t

/-- R85, R86, R88, R89, R90, Table 5-6: the vector integer operations compute an exact integer of each element and fit it; counts of bits, shifts with the fill of their opcode, a scalar in every element, position numbers. -/
def Obligations.VectorIntegers : Prop :=
  (∀ (s : State) (d a b c : Reg) (imm : BitVec 12), s.ReadyCore → s.VDst d.toNat → s.VSrc a.toNat → s.VSrc b.toNat → s.VSrc c.toNat → isInt s.etype = true →
    let w := ewidth s.etype
    ∀ p ∈ [(Instr.vadd d a b, fun (x y _ : Int) => x + y), (.vsub d a b, fun x y _ => x - y), (.vmul d a b, fun x y _ => x * y),
        (.vmulh d a b, fun x y _ => x * y / 2 ^ w), (.vmad d a b c, fun x y z => x * y + z), (.vmin d a b, fun x y _ => min x y),
        (.vmax d a b, fun x y _ => max x y), (.vabs d a, fun x _ _ => (x.natAbs : Int)), (.vneg d a, fun x _ _ => -x), (.vaddi d a imm, fun x _ _ => x + imm.toInt)],
      ∃ t r, exec p.1 s = .next t ∧ s.VGets t d.toNat r ∧
        (∀ l ∈ s.lanes, ∀ e < 64 / w, Fitted s.etype s.sat (p.2 (ival s.etype (elemOf (s.vlane a.toNat l) w e)) (ival s.etype (elemOf (s.vlane b.toNat l) w e))
          (ival s.etype (elemOf (s.vlane c.toNat l) w e))) (elemOf (r l) w e)) ∧
        t.pc = s.pc + 4 ∧ Kept { v := [d.toNat] } s t) ∧
  (∀ (s : State) (d a b r : Reg), s.ReadyCore → s.VDst d.toNat → s.VSrc a.toNat → s.VSrc b.toNat → s.SSrc r.toNat →
    let w := ewidth s.etype
    let top := fun (x : Nat) => decide (2 ^ (w - 1) ≤ x)
    ∀ p ∈ [(Instr.vpopc d a, isInt s.etype, fun (_ _ x _ : Nat) => (List.range w).countP fun i => x.testBit i),
        (.vclz d a, isInt s.etype, fun _ _ x _ => ((List.range w).takeWhile fun i => !x.testBit (w - 1 - i)).length),
        (.vshl d a b, isInt s.etype, fun _ _ x n => if n < w then x * 2 ^ n % 2 ^ w else 0),
        (.vshr d a b, isInt s.etype, fun _ _ x n => if n < w then x / 2 ^ n else 0),
        (.vsra d a b, isInt s.etype, fun _ _ x n => let k := min n w
          x / 2 ^ k + if top x = true then 2 ^ w - 2 ^ (w - k) else 0),
        (.vbcs d r, isElem s.etype, fun _ _ _ _ => (s.sval r.toNat).toNat % 2 ^ w),
        (.vlid d, isInt s.etype, fun l e _ _ => (l * (64 / w) + e) % 2 ^ w)],
      p.2.1 = true → ∃ t x, exec p.1 s = .next t ∧ s.VGets t d.toNat x ∧
        (∀ l ∈ s.lanes, ∀ e < 64 / w, elemOf (x l) w e = p.2.2 l e (elemOf (s.vlane a.toNat l) w e) (elemOf (s.vlane b.toNat l) w e)) ∧
        t.pc = s.pc + 4 ∧ Kept { v := [d.toNat] } s t)

/-- R87: bitwise operations on whole lanes and the selection by a mask; none reads the element type. -/
def Obligations.VectorBitwise : Prop :=
  ∀ (s : State) (d a b k : Reg), s.ReadyCore → s.VDst d.toNat → s.VSrc a.toNat → s.VSrc b.toNat → k.toNat < 16 →
  ∀ p ∈ [(Instr.vand d a b, fun (_ : Nat) (x y : Word) => x &&& y), (.vor d a b, fun _ x y => x ||| y), (.vxor d a b, fun _ x y => x ^^^ y),
      (.vsel d a b k, fun l x y => if (s.kreg k.toNat).getLsbD l = true then x else y)],
    ∃ t, exec p.1 s = .next t ∧ s.VGets t d.toNat (fun l => p.2 l (s.vlane a.toNat l) (s.vlane b.toNat l)) ∧ t.pc = s.pc + 4 ∧ Kept { v := [d.toNat] } s t

/-- R110–R113: gathers across the lanes of a group, a broadcast, a read of one element, a table lookup; every source is read before the destination is written. -/
def Obligations.CrossLane : Prop :=
  ∀ (s : State) (d a b r c : Reg), s.ReadyCore → isElem s.etype = true →
  let w := ewidth s.etype
  let inside := fun (i : Nat) => i / 8 < s.me.width ∧ i % 8 < 64 / w
  let at' := fun (i : Nat) => elemOf (s.vlane a.toNat (i / 8)) w (i % 8)
  let i := (s.sval b.toNat).toNat
  let x := (s.sval c.toNat).toNat
  let n := x % 16
  let np := s.me.width * (64 / w)
  let idx := fun (l e : Nat) => elemOf (s.vlane b.toNat l) w e
  (s.VDst d.toNat → s.VAll a.toNat → s.VSrc b.toNat → ∃ t y, exec (.vshuf d a b) s = .next t ∧ s.VGets t d.toNat y ∧
    (∀ l ∈ s.lanes, ∀ e < 64 / w, (inside (idx l e) → elemOf (y l) w e = at' (idx l e)) ∧ (¬ inside (idx l e) → elemOf (y l) w e = 0)) ∧
    t.pc = s.pc + 4 ∧ Kept { v := [d.toNat] } s t) ∧
  (s.VDst d.toNat → s.VAll a.toNat → s.SSrc b.toNat → inside i → i < 512 → ∃ t y, exec (.vbcast d a b) s = .next t ∧ s.VGets t d.toNat y ∧
    (∀ l ∈ s.lanes, ∀ e < 64 / w, elemOf (y l) w e = at' i) ∧ t.pc = s.pc + 4 ∧ Kept { v := [d.toNat] } s t) ∧
  (s.SDst r.toNat → s.VAll a.toNat → s.SSrc b.toNat → inside i → i < 512 → ∃ t, exec (.slane r a b) s = .next t ∧
    t.SGets r.toNat (if s.etype ∈ [0, 2, 4, 6] then BitVec.ofInt 64 (asSigned w (at' i)) else BitVec.ofNat 64 (at' i)) ∧
    t.pc = s.pc + 4 ∧ Kept { s := [r.toNat] } s t) ∧
  (s.VDst d.toNat → s.VSrc b.toNat → s.SSrc c.toNat → 1 ≤ n → n ≤ 8 → x / 16 % 16 = 0 → x / 2 ^ 16 = 0 → (∀ k < n, s.VAll (a.toNat + k)) →
    ∃ t y, exec (.vtbl d a b c) s = .next t ∧ s.VGets t d.toNat y ∧
      (∀ l ∈ s.lanes, ∀ e < 64 / w, elemOf (y l) w e =
        if idx l e < n * np then elemOf (s.vlane (a.toNat + idx l e / np) (idx l e % np / (64 / w))) w (idx l e % np % (64 / w))
        else (List.range (w / 8)).foldl (fun z j => z + x / 256 % 256 * 256 ^ j) 0) ∧
      t.pc = s.pc + 4 ∧ Kept { v := [d.toNat] } s t)

/-- R72–R74, R114, R115: `vred` gives the root of the fixed tree over the active positions, `vscan` at each of them the root of the tree without the positions above it. Where the mode does not round stochastically the generators stay and the values are these; under SR both complete as well. -/
def Obligations.ReductionsAndScans : Prop :=
  ∀ (s : State) (d a r : Reg) (o : BitVec 4) (n : Nat), s.ReadyCore → s.VSrc a.toNat → o.toNat < 6 → s.etype < (if o.toNat = 0 then 12 else 14) →
  let w := ewidth s.etype
  let per := 64 / w
  let rounds : Bool := decide (o.toNat = 0 ∧ 8 ≤ s.etype)
  let sr : Bool := rounds && decide (s.round = 5)
  let op := fun (p q : Nat) =>
    if o.toNat = 0 then (if isInt s.etype = true then fit s.etype s.sat (ival s.etype p + ival s.etype q) else fadd s.fmode 0 p q)
    else if o.toNat = 1 then (if isInt s.etype = true then (if ival s.etype q < ival s.etype p then q else p) else fminmax s.fmode true p q)
    else if o.toNat = 2 then (if isInt s.etype = true then (if ival s.etype p < ival s.etype q then q else p) else fminmax s.fmode false p q)
    else if o.toNat = 3 then p &&& q else if o.toNat = 4 then p ||| q else p ^^^ q
  let x := fun (p : Nat) => if p / per ∈ s.lanes then some (elemOf (s.vlane a.toNat (p / per)) w (p % per)) else none
  s.me.width * per = 2 ^ n → (rounds = true → s.round < 6) →
  (s.SDst r.toNat → ∃ t z, exec (.vred r a o) s = .next t ∧ t.SGets r.toNat z ∧
    (sr = false → z = match treeNode op x n 0 with
      | some y => extendElem s.etype y
      | none => 0) ∧ t.pc = s.pc + 4 ∧ Kept { s := [r.toNat], gens := sr } s t) ∧
  (s.VDst d.toNat → ∃ t y, exec (.vscan d a o) s = .next t ∧ s.VGets t d.toNat y ∧
    (sr = false → ∀ l ∈ s.lanes, ∀ e < per,
      elemOf (y l) w e = (treeNode op (fun q => if q ≤ l * per + e then x q else none) n 0).getD 0 % 2 ^ w) ∧
    t.pc = s.pc + 4 ∧ Kept { v := [d.toNat], gens := sr } s t)

/-! ### Vector floating point -/

/-- R67, R91, R92, R96–R98: the rounding operations of each element, with the generator of its lane stepped once for each element where the mode rounds stochastically. -/
def Obligations.FloatOperations : Prop :=
  ∀ (s : State) (d a b c r : Reg), s.ReadyCore → s.VDst d.toNat → s.VSrc a.toNat → s.VSrc b.toNat → s.VSrc c.toNat → s.SSrc r.toNat → s.round < 6 →
  let w := ewidth s.etype
  let m := s.fmode
  let sr := decide (s.round = 5)
  let short := isShort s.etype
  ∀ p ∈ [(Instr.vfadd d a b, isArith s.etype, fun (g : BitVec 32) (x y _ : Nat) => m.result g [m.read x, m.read y] (addVal m.round (m.read x) (m.read y))),
      (.vfsub d a b, isArith s.etype, fun g x y _ => m.result g [m.read x, m.read y] (addVal m.round (m.read x) (m.read y).neg)),
      (.vfmul d a b, isArith s.etype, fun g x y _ => m.result g [m.read x, m.read y] (mulVal (m.read x) (m.read y))),
      (.vfma d a b c, isArith s.etype, fun g x y z => m.result g [m.read x, m.read y, m.read z]
        ((mulVal (m.read x) (m.read y)).bind fun q => addVal m.round q (m.read z))),
      (.vscl d a r, isArith s.etype, fun g x _ _ => fscl m g x (s.sval r.toNat).toInt), (.vfrnd d a, isArith s.etype, fun g x _ _ => frnd m g x),
      (.vrcp d a, short, fun g x _ _ => fnElem .rcp s.etype m g x), (.vrsq d a, short, fun g x _ _ => fnElem .rsq s.etype m g x),
      (.vexp2 d a, short, fun g x _ _ => fnElem .exp2 s.etype m g x), (.vlog2 d a, short, fun g x _ _ => fnElem .log2 s.etype m g x),
      (.vtanh d a, short, fun g x _ _ => fnElem .tanh s.etype m g x)],
    p.2.1 = true → ∃ t v, exec p.1 s = .next t ∧ s.VGets t d.toNat v ∧
      (∀ l ∈ s.lanes, ∀ e < 64 / w, elemOf (v l) w e = p.2.2 (stepped sr (e + 1) (s.gen l)) (elemOf (s.vlane a.toNat l) w e)
        (elemOf (s.vlane b.toNat l) w e) (elemOf (s.vlane c.toNat l) w e) % 2 ^ w) ∧
      s.Steps t s.lanes sr (64 / w) ∧ t.pc = s.pc + 4 ∧ Kept { v := [d.toNat], gens := sr } s t

/-- R93, R94: minimum and maximum pass on an operand, never a NaN where the other is a number, flushed as the mode says and never rounded; absolute value and negation touch the sign bit alone. -/
def Obligations.FloatSelection : Prop :=
  ∀ (s : State) (d a b : Reg), s.ReadyCore → s.VDst d.toNat → s.VSrc a.toNat → s.VSrc b.toNat → isFloat s.etype = true →
  let w := ewidth s.etype
  let m := s.fmode
  let top := 2 ^ (w - 1)
  let order := fun (x y : Nat) => cmpVal (m.read x) (m.read y)
  let nan := fun (x : Nat) => (m.read x).isNan
  let pick := fun (y : Bool) (x z : Nat) => passVal m (if y = true then z else x)
  ∀ p ∈ [(Instr.vfmin d a b, fun (x y : Nat) => if (nan x && nan y) = true then nanOf m.f m.prop [m.read x, m.read y] else pick (nan x || order x y == some .gt) x y),
      (.vfmax d a b, fun x y => if (nan x && nan y) = true then nanOf m.f m.prop [m.read x, m.read y] else pick (nan x || order x y == some .lt) x y),
      (.vfabs d a, fun x _ => if x < top then x else x - top), (.vfneg d a, fun x _ => if x < top then x + top else x - top)],
    ∃ t v, exec p.1 s = .next t ∧ s.VGets t d.toNat v ∧
      (∀ l ∈ s.lanes, ∀ e < 64 / w, elemOf (v l) w e = p.2 (elemOf (s.vlane a.toNat l) w e) (elemOf (s.vlane b.toNat l) w e) % 2 ^ w) ∧
      t.pc = s.pc + 4 ∧ Kept { v := [d.toNat] } s t

/-- R67, R99, R100: `vcvt` writes each target position whose lane is active, and steps that lane's generator once for it, in ascending order. -/
def Obligations.Conversions : Prop :=
  ∀ (s : State) (d a : Reg) (part : BitVec 3) (tt : BitVec 4), s.ReadyCore → s.VDst d.toNat → s.VAll a.toNat → s.me.width ∈ [16, 32, 64] →
  isElem s.etype = true → tt.toNat < 14 → s.round < 6 →
  let ws := ewidth s.etype
  let wt := ewidth tt.toNat
  let ns := s.me.width * (64 / ws)
  let nt := s.me.width * (64 / wt)
  let per := 64 / wt
  let sr := decide (s.round = 5)
  part.toNat < max ws wt / min ws wt →
  let ls := s.lanes.filter fun l => decide (ws < wt ∨ part.toNat * ns ≤ l * per ∧ l * per < part.toNat * ns + ns)
  let src := fun (q : Nat) => if wt ≤ ws then q - part.toNat * ns else part.toNat * nt + q
  ∃ t y, exec (.vcvt d a part tt) s = .next t ∧ s.VWrites t d.toNat ls y ∧
    (∀ l ∈ ls, ∀ e < per, let p := src (l * per + e)
      elemOf (y l) wt e = convertElem s.etype tt.toNat s.fmode (stepped sr (e + 1) (s.gen l)) (elemOf (s.vlane a.toNat (p / (64 / ws))) ws (p % (64 / ws))) % 2 ^ wt) ∧
    s.Steps t ls sr per ∧ t.pc = s.pc + 4 ∧ Kept { v := [d.toNat], gens := sr } s t

/-- R101–R104: `vqnt` writes whole registers with the codes of all positions as one bit stream and the scale byte of each block; `vdqnt` writes the active lanes with code times scale. -/
def Obligations.Quantisation : Prop :=
  ∀ (s : State) (d a b r : Reg) (q : QDesc), s.ReadyCore → isShort s.etype = true → s.round < 6 → s.SSrc r.toNat → s.me.width ∈ [16, 32, 64] →
  let x := (s.sval r.toNat).toNat
  let w := ewidth s.etype
  let per := 64 / w
  let n := s.me.width * per
  let m := s.fmode
  let sr := decide (s.round = 5)
  let wc := [8, 8, 6, 6, 4, 8, 8, 4, 4].getD (q.efmt - 3) 0
  3 ≤ q.efmt → q.efmt ≤ 11 → q.blen ∈ [16, 32, 64] → q.blen ≤ n → x = q.efmt + 16 * (if q.blen = 16 then 0 else if q.blen = 32 then 1 else 2) + 64 * bit q.nearest →
  (s.VDst d.toNat → s.VAll a.toNat → s.VAll b.toNat → (∀ l ∈ s.lanes, ∀ e < per, bitsOf (s.stream b.toNat) (8 * ((l * per + e) / q.blen)) 8 < 128) →
    ∃ t v, exec (.vdqnt d a b r) s = .next t ∧ s.VGets t d.toNat v ∧
      (∀ l ∈ s.lanes, ∀ e < per, let p := l * per + e
        elemOf (v l) w e = dequant q.efmt (bitsOf (s.stream a.toNat) (wc * p) wc) (bitsOf (s.stream b.toNat) (8 * (p / q.blen)) 8) m.f
          (m.rm (stepped sr (e + 1) (s.gen l))) % 2 ^ w) ∧
      s.Steps t s.lanes sr per ∧ t.pc = s.pc + 4 ∧ Kept { v := [d.toNat], gens := sr } s t) ∧
  (s.VDst d.toNat → s.VDst b.toNat → d ≠ b → s.VSrc a.toNat →
    let val := fun (p : Nat) => if p / per ∈ s.lanes then m.read (elemOf (s.vlane a.toNat (p / per)) w (p % per)) else FVal.fin false 0 0
    let block := fun (j : Nat) => (List.range q.blen).map fun i => val (j * q.blen + i)
    let nan := fun (j : Nat) => (block j).any FVal.isNan
    let amax := fun (j : Nat) => (block j).foldl (fun z v => magMax z (qMag m.f v)) (0, 0)
    let scale := fun (j : Nat) => if nan j = true then 0x7F else if (amax j).1 = 0 then 0 else qScale q (amax j).1 (amax j).2
    ∃ t, exec (.vqnt d a b r) s = .next t ∧ (t.vreg d.toNat).full = true ∧ (t.vreg b.toNat).full = true ∧
      (∀ l < s.me.width, (t.vreg d.toNat).poisonOf l = none ∧ (t.vreg b.toNat).poisonOf l = none) ∧
      t.stream d.toNat < 2 ^ (wc * n) ∧ t.stream b.toNat < 2 ^ (8 * (n / q.blen)) ∧
      (∀ j < n / q.blen, bitsOf (t.stream b.toNat) (8 * j) 8 = scale j % 256 ∧ (sr = false → ∀ i < q.blen, let p := j * q.blen + i
        bitsOf (t.stream d.toNat) (wc * p) wc = (if nan j = true ∨ (amax j).1 = 0 then 0 else qCode q.efmt (scale j) (m.rm 0) (val p)) % 2 ^ wc)) ∧
      t.pc = s.pc + 4 ∧ Kept { v := [d.toNat, b.toNat], gens := sr } s t)

/-! ### Memory of the column -/

/-- R155–R159, R45, R254: a vector load of TAL, GLB or ARG is read through the core's L1 and is then on its way to its register, which stays empty until it arrives; with no lane active it does nothing. Where the schedule has it performed later, or an earlier access of its core to its bytes is not performed yet, its accesses stand in progress. -/
def Obligations.VectorLoads : Prop :=
  ∀ (s : State) (g : Nat) (b : Bool) (d a c : Reg) (p : BitVec 2) (o : BitVec 10) (sc : BitVec 4) (H : Nat → Nat → List (Nat × Nat)),
  s.ReadyCore → s.cur = .slot g b → p.toNat ≠ 0 → isElem s.etype = true → s.VDst d.toNat → s.SSrc a.toNat →
  let w := ewidth s.etype
  let q := s.sval a.toNat
  let line := fun (l _ : Nat) => (ptrOff q + o.toNat * (w / 8) + 8 * l) % 2 ^ 48
  let index := fun (l e : Nat) => (ptrOff q + elemOf (s.vlane c.toNat l) w e * 2 ^ sc.toNat) % 2 ^ 48
  ∀ x ∈ [(Instr.vld d a p o, false, 1, 8, line), (.vldi d a p o, true, 1, 8, line), (.vldx d a c p sc, false, 64 / w, w / 8, index)],
    let n := x.2.2.1
    let size := x.2.2.2.1
    (x.1 = .vldx d a c p sc → s.VSrc c.toNat) →
    (∀ l ∈ s.lanes, ∀ e < n, s.Reaches p.toNat 0 (w / 8) ⟨l, e, q, x.2.2.2.2 l e, size⟩ (H l e)) →
    (s.lanes = [] → ∃ t, exec x.1 s = .next t ∧ t.pc = s.pc + 4 ∧ Kept {} s t) ∧
    let pieces := s.lanes.flatMap fun l => (List.range n).flatMap fun e => H l e
    (s.lanes ≠ [] → s.defers true pieces = true → ∃ t, exec x.1 s = .next t ∧ t.pc = s.pc + 4 ∧
      t.flight = s.flight ++ [⟨s.nextId, s.lateItem g (.load x.2.1) (s.lanes.flatMap fun l => (List.range n).map fun e => ⟨l, e, size, H l e, 0, 0⟩) (some (.vreg g d.toNat))⟩] ∧
      (t.vreg d.toNat).full = false ∧ Kept { v := [d.toNat] } { s with flight := t.flight, nextId := s.nextId + 1 } t) ∧
    (s.lanes ≠ [] → s.defers true pieces = false → ∃ t ls, exec x.1 s = .next t ∧ t.pc = s.pc + 4 ∧
      t.flight = s.flight ++ [⟨s.nextId, .result (.vreg g d.toNat) ls 0 none true⟩] ∧ (t.vreg d.toNat).full = false ∧ ls.map (·.lane) = s.lanes ∧
      (∀ y ∈ ls, (∀ e < n, ∀ i < size, s.Sees x.2.1 (homeByte (H y.lane e) i) (bitsOf y.val.toNat (8 * (size * e + i)) 8)) ∧
        s.Marked x.2.1 ((List.range n).flatMap fun e => (List.range size).map fun i => homeByte (H y.lane e) i) y.poison) ∧
      t.cols.map Column.noL1 = s.cols.map Column.noL1 ∧ Kept { v := [d.toNat] } { s with flight := t.flight, nextId := s.nextId + 1, cols := t.cols } t)

/-- R160, R45, R254: `sld` of a group from TAL, GLB or ARG, through its core's L1, at once or later. -/
def Obligations.ScalarLoads : Prop :=
  ∀ (s : State) (g : Nat) (b : Bool) (d a : Reg) (p : BitVec 2) (o : BitVec 10) (H : List (Nat × Nat)),
  s.ReadyCore → s.cur = .slot g b → p.toNat ≠ 0 → s.SDst d.toNat → s.SSrc a.toNat →
  let q := s.sval a.toNat
  s.Reaches p.toNat 0 8 ⟨0, 0, q, (ptrOff q + 8 * o.toNat) % 2 ^ 48, 8⟩ H →
    (s.defers true H = true → ∃ t, exec (.sld d a p o) s = .next t ∧ t.pc = s.pc + 4 ∧
      t.flight = s.flight ++ [⟨s.nextId, s.lateItem g (.load false) [⟨0, 0, 8, H, 0, 0⟩] (some (.sreg g d.toNat))⟩] ∧ (d.toNat ≠ 0 → (t.sreg d.toNat).full = false) ∧
      Kept { s := [d.toNat] } { s with flight := t.flight, nextId := s.nextId + 1 } t) ∧
    (s.defers true H = false → ∃ t x y, exec (.sld d a p o) s = .next t ∧ t.pc = s.pc + 4 ∧
      t.flight = s.flight ++ [⟨s.nextId, .result (.sreg g d.toNat) [] x y true⟩] ∧ (d.toNat ≠ 0 → (t.sreg d.toNat).full = false) ∧
      (∀ i < 8, s.Sees false (homeByte H i) (bitsOf x.toNat (8 * i) 8)) ∧ s.Marked false ((List.range 8).map (homeByte H)) y ∧
      t.cols.map Column.noL1 = s.cols.map Column.noL1 ∧ Kept { s := [d.toNat] } { s with flight := t.flight, nextId := s.nextId + 1, cols := t.cols } t)

/-- R157, R159, R160, R254, R283, R350: a store of a group to TAL or GLB writes, in ascending order of lane, element and byte, the bytes of its accesses and no others; the read-only bits of queue descriptors stay. Where the schedule has it performed later, or an earlier access of its core to its bytes is not performed yet, its accesses stand in progress instead. It seals the regions that do not preserve its lines. -/
def Obligations.Stores : Prop :=
  ∀ (s : State) (g : Nat) (b : Bool) (d a c : Reg) (p : BitVec 2) (o : BitVec 10) (sc : BitVec 4) (H : Nat → Nat → List (Nat × Nat)),
  s.ReadyCore → s.cur = .slot g b → p.toNat ≠ 0 → s.SSrc a.toNat → s.mem.wf = true →
  let w := ewidth s.etype
  let q := s.sval a.toNat
  let line := fun (l _ : Nat) => (ptrOff q + o.toNat * (w / 8) + 8 * l) % 2 ^ 48
  let index := fun (l e : Nat) => (ptrOff q + elemOf (s.vlane c.toNat l) w e * 2 ^ sc.toNat) % 2 ^ 48
  let word := fun (_ _ : Nat) => (ptrOff q + 8 * o.toNat) % 2 ^ 48
  ∀ x ∈ [(Instr.vst d a p o, isElem s.etype = true ∧ s.VSrc d.toNat, s.lanes, 1, 8, w / 8, line, fun (l _ : Nat) => (s.vlane d.toNat l).toNat),
      (.vstx d a c p sc, isElem s.etype = true ∧ s.VSrc d.toNat ∧ s.VSrc c.toNat, s.lanes, 64 / w, w / 8, w / 8, index, fun l e => elemOf (s.vlane d.toNat l) w e),
      (.sst d a p o, s.SSrc d.toNat, [0], 1, 8, 8, word, fun _ _ => (s.sval d.toNat).toNat)],
    let ls := x.2.2.1
    let n := x.2.2.2.1
    let size := x.2.2.2.2.1
    let stored := fun (l e i y : Nat) => l ∈ ls ∧ e < n ∧ i < size ∧ y = homeByte (H l e) i
    let later := fun (l e i l' e' i' : Nat) => l < l' ∨ (l = l' ∧ (e < e' ∨ (e = e' ∧ i < i')))
    x.2.1 → (∀ l ∈ ls, ∀ e < n, s.Reaches p.toNat 1 x.2.2.2.2.2.1 ⟨l, e, q, x.2.2.2.2.2.2.1 l e, size⟩ (H l e)) →
    (ls = [] → ∃ t, exec x.1 s = .next t ∧ t.pc = s.pc + 4 ∧ Kept {} s t) ∧
    (ls ≠ [] → ∃ lines : List Nat, (∀ z, z ∈ lines ↔ ∃ l e i y, stored l e i y ∧ z = lineOf y) ∧
      let sealed := s.advance.modGroup g fun y => match y.regions with
        | [] => y
        | r :: _ => if (lines.all fun z => r.undo.any fun v => decide (v.line = z)) = true then y
          else { y with regions := y.regions.map fun r => if r.idem then r else { r with sealed := true } }
      let pieces := ls.flatMap fun l => (List.range n).flatMap fun e => H l e
      (s.defers false pieces = false → ∃ t, exec x.1 s = .next t ∧ t.pc = s.pc + 4 ∧
        (∀ l e i y, stored l e i y → s.roByte y = false → (∀ l' e' i', stored l' e' i' y → ¬ later l e i l' e' i') →
          let z := bitsOf (x.2.2.2.2.2.2.2 l e) (8 * i) 8
          (t.mem.byte y).toNat = if s.roHalf y = true then z % 16 + (s.mem.byte y).toNat / 16 * 16 else z) ∧
        (∀ y, (∀ l e i, ¬ stored l e i y) ∨ s.roByte y = true → t.mem.byte y = s.mem.byte y) ∧
        t.cols.map Column.noL1 = s.cols.map Column.noL1 ∧ Kept {} { sealed with mem := t.mem, cols := t.cols } t) ∧
      (s.defers false pieces = true → ∃ t, exec x.1 s = .next t ∧ t.pc = s.pc + 4 ∧
        Kept {} { sealed with
          nextId := s.nextId + 1
          flight := s.flight ++ [⟨s.nextId, s.lateItem g .store (ls.flatMap fun l => (List.range n).map fun e =>
            ⟨l, e, size, H l e, x.2.2.2.2.2.2.2 l e, 0⟩) none⟩] } t))

/-- R162, R163, R254, R52, Table 3-25: `atom` on TAL or GLB performs its active lanes in ascending order, each one step at its home that sees what the lane before it left, and sends the old values to its register; at once, or, as for a store, later. -/
def Obligations.Atomics : Prop :=
  ∀ (s : State) (g : Nat) (b : Bool) (d a c : Reg) (p : BitVec 2) (o : BitVec 4) (H : Nat → Nat),
  s.ReadyCore → s.cur = .slot g b → p.toNat ≠ 0 → s.VSrc d.toNat → s.VSrc a.toNat → s.VSrc c.toNat → s.mem.wf = true →
  4 ≤ s.etype → s.etype < 8 → o.toNat < 10 → o.toNat ≠ 8 →
  let w := ewidth s.etype
  let v := ival s.etype
  let new := fun (old x z : Nat) => [(old + x) % 2 ^ w, if v old ≤ v x then old else x, if v old ≤ v x then x else old, old &&& x, old ||| x, old ^^^ x, x,
    if old = z then x else old, 0, if x ≤ old then 0 else old + 1].getD o.toNat 0
  (∀ l ∈ s.lanes, s.Reaches p.toNat 2 (w / 8) ⟨l, 0, s.vlane c.toNat l, ptrOff (s.vlane c.toNat l), w / 8⟩ [(H l, w / 8)]) →
  (s.lanes = [] → ∃ t, exec (.atom d a c p o) s = .next t ∧ t.pc = s.pc + 4 ∧ Kept {} s t) ∧
  let pieces := s.lanes.map fun l => (H l, w / 8)
  let sealed := fun (lines : List Nat) => s.advance.modGroup g fun y => match y.regions with
    | [] => y
    | r :: _ => if (lines.all fun z => r.undo.any fun v => decide (v.line = z)) = true then y
      else { y with regions := y.regions.map fun r => if r.idem then r else { r with sealed := true } }
  (s.lanes ≠ [] → s.defers false pieces = true → ∃ (t : State) (lines : List Nat), exec (.atom d a c p o) s = .next t ∧ t.pc = s.pc + 4 ∧
    (∀ z, z ∈ lines ↔ ∃ l ∈ s.lanes, ∃ i < w / 8, z = lineOf (H l + i)) ∧ (t.vreg d.toNat).full = false ∧
    t.flight = s.flight ++ [⟨s.nextId, s.lateItem g (.atom o.toNat w (decide (s.etype % 2 = 0))) (s.lanes.map fun l =>
      ⟨l, 0, w / 8, [(H l, w / 8)], (s.vlane a.toNat l).toNat % 2 ^ w, (s.vlane d.toNat l).toNat % 2 ^ w⟩) (some (.vreg g d.toNat))⟩] ∧
    Kept { v := [d.toNat] } { sealed lines with flight := t.flight, nextId := s.nextId + 1 } t) ∧
  (s.lanes ≠ [] → s.defers false pieces = false →
    ∃ (t : State) (M : Nat → Memory) (ls : List LaneVal) (lines : List Nat), exec (.atom d a c p o) s = .next t ∧ t.pc = s.pc + 4 ∧ M 0 = s.mem ∧
    ls.length = s.lanes.length ∧
    (∀ k l y, s.lanes[k]? = some l → ls[k]? = some y →
      let old := (M k).nat (H l) (w / 8)
      (∀ z, (z < H l ∨ H l + w / 8 ≤ z ∨ s.roByte z = true) → (M (k + 1)).byte z = (M k).byte z) ∧
      (∀ i < w / 8, s.roByte (H l + i) = false →
        let z := bitsOf (new old ((s.vlane a.toNat l).toNat % 2 ^ w) ((s.vlane d.toNat l).toNat % 2 ^ w)) (8 * i) 8
        ((M (k + 1)).byte (H l + i)).toNat = if s.roHalf (H l + i) = true then z % 16 + ((M k).byte (H l + i)).toNat / 16 * 16 else z) ∧
      y.lane = l ∧ y.val.toNat = old ∧ y.poison = if (M k).isPoisoned (H l) = true then some .line else none) ∧
    t.mem = M s.lanes.length ∧ t.flight = s.flight ++ [⟨s.nextId, .result (.vreg g d.toNat) ls 0 none true⟩] ∧ (t.vreg d.toNat).full = false ∧
    (∀ z, z ∈ lines ↔ ∃ l ∈ s.lanes, ∃ i < w / 8, z = lineOf (H l + i)) ∧ t.cols.map Column.noL1 = s.cols.map Column.noL1 ∧
    Kept { v := [d.toNat] } { sealed lines with mem := t.mem, cols := t.cols, flight := t.flight, nextId := s.nextId + 1 } t)

/-- R31, R154, R309, R314: of the checks of an access, the first that fails for some lane traps, at the lowest lane that fails it: a pointer that is not here, a write of ARG, the limit, the alignment, the page, whose walk may have brought a fault that stands before the TLB. Nothing of the instruction is performed. -/
def Obligations.AccessFaults : Prop :=
  ∀ (s : State) (g : Nat) (b : Bool) (h : Nat) (d a c : Reg) (p : BitVec 2) (o : BitVec 10) (op sc : BitVec 4),
  s.ReadyCore → s.Handles g b h →
  let w := ewidth s.etype
  let q := s.sval a.toNat
  let line := s.lanes.map fun l => (⟨l, 0, q, (ptrOff q + o.toNat * (w / 8) + 8 * l) % 2 ^ 48, 8⟩ : Req)
  let index := s.lanes.flatMap fun l => (List.range (64 / w)).map fun e =>
    (⟨l, e, q, (ptrOff q + elemOf (s.vlane c.toNat l) w e * 2 ^ sc.toNat) % 2 ^ 48, w / 8⟩ : Req)
  let word := [(⟨0, 0, q, (ptrOff q + 8 * o.toNat) % 2 ^ 48, 8⟩ : Req)]
  let each := s.lanes.map fun l => (⟨l, 0, s.vlane c.toNat l, ptrOff (s.vlane c.toNat l), w / 8⟩ : Req)
  let elem := isElem s.etype = true
  let vector := s.active
  ∀ x ∈ [(Instr.vld d a p o, elem ∧ s.VDst d.toNat ∧ s.SSrc a.toNat, vector, 0, w / 8, line), (.vldi d a p o, elem ∧ s.VDst d.toNat ∧ s.SSrc a.toNat, vector, 0, w / 8, line),
      (.vst d a p o, elem ∧ s.VSrc d.toNat ∧ s.SSrc a.toNat, vector, 1, w / 8, line),
      (.vldx d a c p sc, elem ∧ s.VDst d.toNat ∧ s.SSrc a.toNat ∧ s.VSrc c.toNat, vector, 0, w / 8, index),
      (.vstx d a c p sc, elem ∧ s.VSrc d.toNat ∧ s.SSrc a.toNat ∧ s.VSrc c.toNat, vector, 1, w / 8, index),
      (.sld d a p o, s.SDst d.toNat ∧ s.SSrc a.toNat, s.slotMask, 0, 8, word), (.sst d a p o, s.SSrc d.toNat ∧ s.SSrc a.toNat, s.slotMask, 1, 8, word),
      (.atom d a c p op, 4 ≤ s.etype ∧ s.etype < 8 ∧ op.toNat ≠ 8 ∧ s.VSrc d.toNat ∧ s.VSrc a.toNat ∧ s.VSrc c.toNat, vector, 2, w / 8, each)],
    let kind := x.2.2.2.1
    let align := x.2.2.2.2.1
    let rs := x.2.2.2.2.2
    let lim := segLimit (s.seg (segOf p.toNat))
    let base := segBase (s.seg (segOf p.toNat))
    x.2.1 → ∀ (A B : List Req) (r : Req), rs = A ++ r :: B →
      let traps := fun (cause detail : Nat) (addr : Word) => ∃ t, exec x.1 s = .next t ∧ s.Enters t g b h
        { cause := cause, detail := detail, addr := addr, remote := s.namesAway (some addr) (s.colNum (s.grp g).ctx (s.grp g).col), lane := r.lane, lanes := x.2.2.1,
          insn := insnWord x.1 % 2 ^ 32, pc := s.pc }
      ((∀ y ∈ A, s.ptrHere y.ptr = true) → s.ptrHere r.ptr = false → traps 0x42 0 r.ptr) ∧
      ((∀ y ∈ rs, s.ptrHere y.ptr = true) →
        (p.toNat = 3 → kind ≠ 0 → A = [] → traps 0x41 0 r.ptr) ∧
        ((p.toNat = 3 → kind = 0) →
          ((∀ y ∈ A, y.off + y.size ≤ lim) → lim < r.off + r.size → traps 0x40 (segOf p.toNat) (withOff r.ptr r.off)) ∧
          ((∀ y ∈ rs, y.off + y.size ≤ lim) →
            ((∀ y ∈ A, y.off % align = 0) → r.off % align ≠ 0 → traps 0x43 align (withOff r.ptr r.off)) ∧
            (p.toNat ≠ 0 → (∀ y ∈ rs, y.off % align = 0) → (∀ y ∈ A, ∃ ps, s.Reaches p.toNat kind align y ps) →
              (∀ w, s.myWalkFault = some w → w.off = base + r.off → traps w.cause w.detail (withOff r.ptr r.off)) ∧
              ((∀ w, s.myWalkFault = some w → w.off ≠ base + r.off) →
                ∀ cause e, lookTlb s.myTlb s.myCtx s.myCol (base + r.off) kind = .refused cause e → traps cause e (withOff r.ptr r.off))))))

/-- R145, R151–R153, R157–R163: an access to SCR, and an operation on a buffer, leave for the scratchpad controller of the group's core as one request: its accesses, data, destination and what a fault will report. The destination is empty, and the group's fetch is suspended until the request arrives; `buf.get` does not suspend it. -/
def Obligations.ScratchAccesses : Prop :=
  ∀ (s : State) (g : Nat) (b : Bool) (d a c : Reg) (o : BitVec 10) (op sc n : BitVec 4) (keep : BitVec 1) (target : BitVec 2),
  s.ReadyCore → s.cur = .slot g b →
  let w := ewidth s.etype
  let wa := if op.toNat = 8 then 64 else w
  let q := s.sval a.toNat
  let line := s.lanes.map fun l => (⟨l, 0, q, (ptrOff q + o.toNat * (w / 8) + 8 * l) % 2 ^ 48, 8⟩ : Req)
  let index := s.lanes.flatMap fun l => (List.range (64 / w)).map fun e =>
    (⟨l, e, q, (ptrOff q + elemOf (s.vlane c.toNat l) w e * 2 ^ sc.toNat) % 2 ^ 48, w / 8⟩ : Req)
  let word := [(⟨0, 0, q, (ptrOff q + 8 * o.toNat) % 2 ^ 48, 8⟩ : Req)]
  let each := s.lanes.map fun l => (⟨l, 0, s.vlane c.toNat l, ptrOff (s.vlane c.toNat l), wa / 8⟩ : Req)
  let elem := isElem s.etype = true
  let some' := fun (l : List Req) => l ≠ []
  let zero := fun (_ _ : Nat) => 0
  let lane := fun (r l _ : Nat) => (s.vlane r l).toNat
  let toV := (some (Dest.vreg g d.toNat), fun (t : State) => (t.vreg d.toNat).full = false, ({ v := [d.toNat] } : May))
  let toS := (some (Dest.sreg g d.toNat), fun (t : State) => d.toNat = 0 ∨ (t.sreg d.toNat).full = false, ({ s := [d.toNat] } : May))
  let no := ((none : Option Dest), fun (_ : State) => True, ({} : May))
  ∀ x ∈ [(Instr.vld d a 0 o, elem ∧ some' line ∧ s.VDst d.toNat ∧ s.SSrc a.toNat, s.active, 0, w / 8, line, ScrOp.load, zero, zero, toV, true),
      (.vldi d a 0 o, elem ∧ some' line ∧ s.VDst d.toNat ∧ s.SSrc a.toNat, s.active, 0, w / 8, line, .load, zero, zero, toV, true),
      (.vst d a 0 o, elem ∧ some' line ∧ s.VSrc d.toNat ∧ s.SSrc a.toNat, s.active, 1, w / 8, line, .store, lane d.toNat, zero, no, true),
      (.vldx d a c 0 sc, elem ∧ some' index ∧ s.VDst d.toNat ∧ s.SSrc a.toNat ∧ s.VSrc c.toNat, s.active, 0, w / 8, index, .load, zero, zero, toV, true),
      (.vstx d a c 0 sc, elem ∧ some' index ∧ s.VSrc d.toNat ∧ s.SSrc a.toNat ∧ s.VSrc c.toNat, s.active, 1, w / 8, index, .store,
        fun l e => elemOf (s.vlane d.toNat l) w e, zero, no, true),
      (.sld d a 0 o, s.SDst d.toNat ∧ s.SSrc a.toNat, s.slotMask, 0, 8, word, .load, zero, zero, toS, true),
      (.sst d a 0 o, s.SSrc d.toNat ∧ s.SSrc a.toNat, s.slotMask, 1, 8, word, .store, fun _ _ => (s.sval d.toNat).toNat, zero, no, true),
      (.atom d a c 0 op, (op.toNat = 8 ∨ (4 ≤ s.etype ∧ s.etype < 8)) ∧ some' each ∧ s.VSrc d.toNat ∧ s.VSrc a.toNat ∧ s.VSrc c.toNat, s.active, 2, wa / 8, each,
        .atom op.toNat (decide (op.toNat ≠ 8 ∧ s.etype % 2 = 0)), fun l _ => (s.vlane a.toNat l).toNat % 2 ^ wa, fun l _ => (s.vlane d.toNat l).toNat % 2 ^ wa, toV, true),
      (.bufSet keep target n, True, s.slotMask, 0, 1, [], .bufSet (decide (keep = 1)) target.toNat n.toNat, zero, zero, no, true),
      (.bufGet d n, s.SDst d.toNat, s.slotMask, 0, 1, [], .bufGet n.toNat, zero, zero, toS, false)],
    let ⟨i, ready, lanes, kind, align, rs, what, data, cmp, dst, waits⟩ := x
    ready → (∀ r ∈ rs, s.Allowed 0 kind align r) →
    ∃ t, exec i s = .next t ∧ t.pc = s.pc + 4 ∧ dst.2.1 t ∧
      Kept dst.2.2 (let u := s.advance.modGroup g fun y => if waits = true then { y with susp := .arrival s.nextId } else y
        { u with nextId := s.nextId + 1, flight := s.flight ++ [⟨s.nextId, .scr {
            col := s.myCol, core := s.myCore, team := s.myTeam, op := what, dst := dst.1, waiting := false, got := [], grp := some (g, b), thr := none, pc := s.pc,
            insn := insnWord i, lanes := lanes, strike := none, einj := (s.grp g).einj
            accs := rs.map fun r => ⟨r.lane, r.sub, segBase (s.seg 0) + r.off, r.size, data r.lane r.sub, cmp r.lane r.sub, withOff r.ptr r.off⟩ }⟩] }) t

/-! ### Results, requests and count-downs as they arrive -/

/-- R45, R133, R143, R145, R146, R147, R151, R152, R161, R163, R164, R254, Tables 8-2 to 8-4: a result fills its register: the live lanes it names hold its values and marks, its other lanes are as they were; a stream thread goes on with its word. A request of a group, all of it checked against the buffers at once, is performed as it arrives: a load reads its bytes, of the lines that must fill as they fill, a store writes its bytes and sets the full bits of its lines, an atomic goes to its banks, where it reads and replaces later, `buf.set` moves its buffer, `buf.get` reads it. An access of TAL or GLB that was left to be performed later is performed by the event that brings its result, or, a store, by a step of its own. -/
def Obligations.Arrivals : Prop :=
  (∀ (s : State) (id g r c h : Nat) (ls : List LaneVal) (x : Word) (p : Option Poison) (load : Bool), r < 64 → (ls.map (·.lane)).Nodup →
    (s.item id = some (.result (.vreg g r) ls x p load) → ∃ F : Image → VReg → VReg,
      (∀ im v, (F im v).full = true ∧ ∀ l < 64,
        (∀ y ∈ ls, y.lane = l → (liveMask im).getLsbD l = true → vget 0 (F im v).lanes l = y.val ∧ (F im v).poisonOf l = y.poison) ∧
        ((∀ y ∈ ls, y.lane ≠ l) ∨ (liveMask im).getLsbD l = false → vget 0 (F im v).lanes l = vget 0 v.lanes l ∧ (F im v).poisonOf l = v.poisonOf l)) ∧
      s.Brings (.resultArrival id) ((s.drop id).modImage g fun im => { im with v := vmod im.v r (F im) })) ∧
    (s.item id = some (.result (.sreg g r) ls x p load) →
      s.Brings (.resultArrival id) ((s.drop id).modImage g fun im => { im with s := if r = 0 then im.s else vmod im.s r fun _ => ⟨x, true, p⟩ })) ∧
    (s.item id = some (.result (.thread c h r) ls x none load) →
      s.Brings (.resultArrival id) ((s.drop id).modThread c h fun y => { y with s := if r = 0 then y.s else vmod y.s r fun _ => ⟨x, true, none⟩, susp := .none }))) ∧
  (∀ (s : State) (id : Nat) (r : ScrReq) (g : Nat) (b : Bool), s.item id = some (.scr r) → r.waiting = false → r.grp = some (g, b) → r.thr = none → s.earlier id (onItsWay g) = false →
    s.coreBefore id r = false → (∀ f ∈ s.flight, ∀ q, f.item = .scr q → q.waiting = true → (∃ o n, q.op = .atom o n) → comesAfter r q = false) →
    let free := fun (u : State) => u.modGroup g fun x => { x with susp := .none }
    let becomes := fun (i : Item) => ({ s with flight := s.flight.map fun f => if f.id = id then ⟨id, i⟩ else f } : State)
    let team := s.team r.team
    let reached := fun (a : Acc) => s.bufLines r.team r.core a.addr a.size
    let buffer := s.buf r.team r.core
    let reads := fun (a : Acc) => (⟨a.lane, a.sub, a.size, leNat ((List.range a.size).map fun i => s.scrByte r.team r.core (a.addr + i)),
      if s.scrPoisoned r.team r.core a.addr a.size = true then some .line else none⟩ : Piece)
    (r.op = .load → (∀ a ∈ r.accs, ∀ q ∈ reached a, (buffer q.1).st = .empty → (buffer q.1).isFull q.2 = true) →
      let waits := fun (a : Acc) => (reached a).any fun q => decide ((buffer q.1).st = .filling) && !(buffer q.1).isFull q.2
      (r.accs.any waits = true →
        s.Brings (.scratchpadArrival id) (free (becomes (.scr { r with
          waiting := true, accs := r.accs.filter waits, got := r.got ++ (r.accs.filter fun a => !waits a).map reads })))) ∧
      (∀ d, r.dst = some d → r.accs.any waits = false →
        s.Brings (.scratchpadArrival id) (free (becomes (resultItem d (gatherLanes (r.got ++ r.accs.map reads)) r.strike true))))) ∧
    (r.op = .store → team.resident = true → (∀ a ∈ r.accs, reached a = []) →
      s.Brings (.scratchpadArrival id) (free (({ s.drop id with
        mem := s.mem.store (r.accs.map fun a => (scrHome team.col r.core a.addr, leBytes a.size a.data)) false } : State).wakeLoads r.team r.core))) ∧
    (∀ a k i, r.op = .store → team.resident = true → r.accs = [a] → reached a = [(k, i)] → ((buffer k).st = .empty ∨ (buffer k).st = .full) →
      s.Brings (.scratchpadArrival id) (free (((({ s.drop id with mem := s.mem.store [(scrHome team.col r.core a.addr, leBytes a.size a.data)] false } : State).modGroup g
        fun x => { x with bufStores := vmod x.bufStores k (· + 1) }).modBuf r.team r.core k fun x => if x.st = .filling then x.setLine i else { x with bits := x.bits.set i true }).wakeLoads r.team r.core))) ∧
    (∀ op signed, r.op = .atom op signed → (∀ a ∈ r.accs, reached a = []) →
      s.Brings (.scratchpadArrival id) (free (becomes (.scr { r with waiting := true })))) ∧
    (∀ a k i cause, r.accs = [a] → reached a = [(k, i)] →
      ((r.op = .load ∨ ∃ o n, r.op = .atom o n) → (buffer k).st = .empty → (buffer k).isFull i = false → cause = 0x80) →
      ((r.op = .store ∨ ∃ o n, r.op = .atom o n) → (buffer k).st = .filling ∨ (buffer k).st = .draining → cause = 0x81) →
      ((r.op = .load ∨ ∃ o n, r.op = .atom o n) ∧ (buffer k).st = .empty ∧ (buffer k).isFull i = false ∨
        (r.op = .store ∨ ∃ o n, r.op = .atom o n) ∧ ((buffer k).st = .filling ∨ (buffer k).st = .draining)) →
      s.Brings (.scratchpadArrival id) ((((s.drop id).refill r.dst).modGroup g fun x =>
        { x with image := x.image.modSlot b fun p => { p with pc := r.pc }, einj := uncount r.einj x.einj, susp := .none }).raise
          ⟨g, b, cause, k + (buffer k).st.code * 256, some a.ptr, a.lane, r.lanes, r.insn, r.pc, false, false⟩)) ∧
    (∀ k, r.op = .bufGet k → ∀ d, r.dst = some d →
      s.Brings (.scratchpadArrival id) (becomes (resultItem d [⟨0, BitVec.ofNat 64 (if (buffer k).declared = true then
        (buffer k).st.code + (buffer k).bits.count true * 2 ^ 16 + (buffer k).lines * 2 ^ 32 else 0), none⟩] r.strike false))) ∧
    (∀ keep k, (buffer k).declared = true → ((buffer k).st = .empty ∨ (buffer k).st = .full) →
      (r.op = .bufSet keep 0 k → s.Brings (.scratchpadArrival id) (free ((s.drop id).modBuf r.team r.core k fun x =>
        { x with st := .empty, bits := if keep = true then x.bits else List.replicate x.lines false, owner := none, kick := none, bound := false }))) ∧
      (r.op = .bufSet keep 2 k → s.Brings (.scratchpadArrival id) (free ((s.drop id).modBuf r.team r.core k fun x =>
        { x with st := .full, bits := List.replicate x.lines true, owner := none, kick := none, bound := false }))))) ∧
  (∀ (s : State) (id : Nat) (r : ScrReq) (a : Acc) (op : Nat) (signed : Bool) (d : Dest), s.item id = some (.scr r) → r.waiting = true → r.op = .atom op signed →
    (s.team r.team).resident = true → r.accs = [a] → a.sub = 0 → s.bufLines r.team r.core a.addr a.size = [] → r.dst = some d →
    let old := leNat ((List.range a.size).map fun i => s.scrByte r.team r.core (a.addr + i))
    let mark := if s.scrPoisoned r.team r.core a.addr a.size = true then some Poison.line else none
    exec (.resultArrival id) s = exec (.resultArrival id) ((({ s with
      mem := s.mem.store [(scrHome (s.team r.team).col r.core a.addr, leBytes a.size (atomNew op (8 * a.size) signed old a.data a.cmp))] false } : State).wakeLoads
      r.team r.core).setItem id (resultItem d [⟨a.lane, BitVec.ofNat 64 old, mark⟩] r.strike true))) ∧
  (∀ (s : State) (id : Nat) (l : Late), s.item id = some (.late l) → s.latePerforms id l = true → l.thr = none → s.mem.wf = true →
    (∀ (inv : Bool) (g r n size : Nat) (lanes : List Nat) (H : Nat → Nat → List (Nat × Nat)), l.op = .load inv → l.dst = some (.vreg g r) → l.strike = none →
      lanes.Pairwise (· < ·) → 0 < n → size * n ≤ 8 → (∀ x e, ((H x e).map (·.2)).sum = size) →
      l.accs = lanes.flatMap (fun x => (List.range n).map fun e => ⟨x, e, size, H x e, 0, 0⟩) →
      ∃ (u : State) (ls : List LaneVal), exec (.resultArrival id) s = exec (.resultArrival id) u ∧
        u.flight = s.flight.map (fun f => if f.id = id then ⟨id, .result (.vreg g r) ls 0 none true⟩ else f) ∧ ls.map (·.lane) = lanes ∧
        (∀ y ∈ ls, ∀ e < n, ∀ i < size, s.SeesAt l.col l.core id inv (homeByte (H y.lane e) i) (bitsOf y.val.toNat (8 * (size * e + i)) 8)) ∧
        u.cols.map Column.noL1 = s.cols.map Column.noL1 ∧ { u with flight := s.flight, cols := s.cols } = s) ∧
    (∀ (a : LateAcc) (h n op : Nat) (signed : Bool) (d : Dest), l.op = .atom op (8 * n) signed → l.dst = some d → l.accs = [a] → a.pieces = [(h, n)] → 0 < n →
      ∃ u, exec (.resultArrival id) s = exec (.resultArrival id) u ∧
        u.flight = s.flight.map (fun f => if f.id = id then ⟨id, resultItem d [⟨a.lane, BitVec.ofNat 64 (s.mem.nat h n), if s.mem.isPoisoned h = true then some .line else none⟩] l.strike true⟩ else f) ∧
        (∀ z, (z < h ∨ h + n ≤ z ∨ s.roByte z = true) → u.mem.byte z = s.mem.byte z) ∧
        (∀ i < n, s.roByte (h + i) = false → s.roHalf (h + i) = false →
          (u.mem.byte (h + i)).toNat = bitsOf (atomNew op (8 * n) signed (s.mem.nat h n) a.data a.cmp) (8 * i) 8) ∧
        u.cols.map Column.noL1 = s.cols.map Column.noL1 ∧ { u with mem := s.mem, flight := s.flight, cols := s.cols } = s) ∧
    (∀ (a : LateAcc) (h n : Nat) (rest : List Choice), l.op = .store → l.accs = [a] → a.pieces = [(h, n)] → a.size = n → s.running = true → s.schedule = .perform id :: rest →
      ∃ t, step s = .next t ∧ t.flight = s.flight.filter (fun f => decide (f.id ≠ id)) ∧
        (∀ z, (z < h ∨ h + n ≤ z ∨ s.roByte z = true) → t.mem.byte z = s.mem.byte z) ∧
        (∀ i < n, s.roByte (h + i) = false → s.roHalf (h + i) = false → (t.mem.byte (h + i)).toNat = bitsOf a.data (8 * i) 8) ∧
        t.cols.map Column.noL1 = s.cols.map Column.noL1 ∧
        { t with mem := s.mem, flight := s.flight, cols := s.cols, held := s.held, issues := s.issues } = { s.tick with schedule := rest }))

/-! ### Barriers, phases and fences -/

/-- R166–R173, R255–R258, Tables 9-1 to 9-5: the five barrier instructions act on the object of their index at the home of the team's (lower) core, `phase` and `fenceq` release and acquire, and what has to wait holds its slot. An object with `SCOPE` 3 or a reserved bit set is UNINIT to each of them, and `bar.test` shows it so. -/
def Obligations.BarriersAndPhases : Prop :=
  ∀ (s : State) (g : Nat) (b : Bool) (h : Nat) (a d : Reg) (p : BitVec 1) (sc : BitVec 2) (m : BitVec 11) (i : BitVec 12),
  s.ReadyCore → s.cur = .slot g b →
  let x := s.grp g
  let team := s.team x.team
  let home := scrHome team.col team.core (segBase (s.seg 0) + i.toNat * 16)
  let o := Bar.ofNat (s.mem.nat home 16)
  let inside := i.toNat * 16 + 16 ≤ segLimit (s.seg 0)
  let usable := o.st ≠ 0 ∧ o.scope ≠ 3 ∧ o.reserved = false
  let n := if a.toNat = 0 then 1 else (s.sval a.toNat).toNat % 2 ^ 32
  let count := a.toNat = 0 ∨ s.SSrc a.toNat
  let writes := fun (o' : Bar) => ({ s.advance with mem := s.mem.store [(home, leBytes 16 o'.toNat)] false } : State)
  let loaded := fun (bound : Nat) => ∀ f ∈ s.flight, f.id < bound → s.loadOf x.col x.core f.item = false
  let sealed := fun (u : State) => u.modGroup g fun y => { y with regions := y.regions.map fun r => { r with sealed := true } }
  let acquired := s.advance.modCore x.col x.core fun y => { y with l1 := y.l1.filter (·.invariant) }
  let opened := (s.core x.col x.core).phase.opened
  let opens := fun (scope : Nat) (more : List Flight) =>
    sealed ({ s.advance.modCore x.col x.core (fun y => { y with phase := { y.phase with counter := y.phase.counter + 1, opened := y.phase.opened ++ [s.nextId] } }) with
      flight := s.flight ++ ⟨s.nextId, .release x.col x.core false scope⟩ :: more, nextId := s.nextId + 1 + more.length } : State)
  let ends := fun (u : State) (e : Bool) => u.setFlags { s.flags with e := e }
  let traps := fun (j : Instr) (cause detail : Nat) => s.Handles g b h → ∃ t, exec j s = .next t ∧ s.Enters t g b h
    { cause := cause, detail := detail, lanes := s.slotMask, insn := insnWord j % 2 ^ 32, pc := s.pc }
  (inside → s.SSrc a.toNat → let c := (s.sval a.toNat).toNat % 2 ^ 32
    s.Does (.barInit a i) { s.advance with mem := s.mem.store [(home, leBytes 16 (c + c * 2 ^ 32 + (if c = 0 then 2 else 1) * 2 ^ 64 +
      (if c = 0 then 1 else 0) * 2 ^ 66 + bitsOf (s.mem.nat home 16) 67 1 * 2 ^ 67 + bitsOf (s.mem.nat home 16) 68 2 * 2 ^ 68 +
      (bitsOf (s.mem.nat home 16) 104 8 + 1) % 256 * 2 ^ 104))] false }) ∧
  (inside → count → usable → o.st ≠ 3 →
    (o.st = 1 → o.remain + n < 2 ^ 32 → s.Does (.barExp a i) (writes { o with remain := o.remain + n })) ∧
    (o.st = 2 → 0 < o.expect + n → o.expect + n < 2 ^ 32 → s.Does (.barExp a i) (writes { o with st := 1, remain := o.expect + n })) ∧
    (o.st = 2 → o.expect + n = 0 → s.Does (.barExp a i) (writes o)) ∧
    (2 ^ 32 ≤ (if o.st = 1 then o.remain else o.expect) + n → s.Does (.barExp a i) (writes { o with st := 3, overflow := true })) ∧
    (3 ≤ opened.length → s.Waits (.barArr a i)) ∧
    (opened.length < 3 → s.Does (.barArr a i) (opens o.scope [⟨s.nextId + 1, .countdown ⟨x.team, team.core, segBase (s.seg 0) + i.toNat * 16, o.gen⟩ n none (some s.nextId)⟩]))) ∧
  (inside → usable → (o.st ≠ 3 → o.parity = p.toNat → s.Waits (.barWait p i)) ∧
    (loaded s.nextId → (o.st = 3 → s.Does (.barWait p i) (ends acquired true)) ∧ (o.st ≠ 3 → o.parity ≠ p.toNat → s.Does (.barWait p i) (ends acquired false)))) ∧
  (inside → s.SDst d.toNat → s.Does (.barTest d i) { s.advance.emptyS d.toNat with
    nextId := s.nextId + 1
    flight := s.flight ++ [⟨s.nextId, .result (.sreg g d.toNat) [] (BitVec.ofNat 64 (o.remain + (if o.scope = 3 ∨ o.reserved = true then 0 else o.st) * 2 ^ 35 + o.parity * 2 ^ 37 + o.scope * 2 ^ 38 + o.kind * 2 ^ 40 +
      bitsOf (s.mem.nat home 16) 96 5 * 2 ^ 41 + o.gen * 2 ^ 46)) none false⟩] }) ∧
  (∀ j ∈ [(Instr.barInit a i, s.SSrc a.toNat), (.barArr a i, count), (.barWait p i, True), (.barTest d i, s.SDst d.toNat), (.barExp a i, count)],
    j.2 → ¬ inside → traps j.1 0x40 0) ∧
  (inside → count → opened.length < 3 →
    (¬ usable → traps (.barArr a i) 0x83 i.toNat ∧ traps (.barExp a i) 0x83 i.toNat ∧ traps (.barWait p i) 0x83 i.toNat) ∧
    (usable → o.st = 3 → let detail := i.toNat + bitsOf (s.mem.nat home 16) 96 5 * 2 ^ 16
      traps (.barArr a i) 0x84 detail ∧ traps (.barExp a i) 0x84 detail)) ∧
  (∀ i ∈ [Instr.phase 0 sc, .phase 1 sc], (3 ≤ opened.length → s.Waits i) ∧ (opened.length < 3 → ∃ t, exec i s = .next t ∧
    t.pc = s.pc ∧ t.prog = .release s.nextId ∧ Kept {} (opens sc.toNat []) t)) ∧
  (loaded s.nextId → s.Does (.phase 2 sc) (ends acquired false)) ∧
  s.Does (.fenceq 0) s.advance ∧
  (m ≠ 0 → (s.fencePending m.toNat s.nextId = true → s.Waits (.fenceq m)) ∧
    (s.fencePending m.toNat s.nextId = false → loaded s.nextId → s.Does (.fenceq m) acquired) ∧
    (∀ (bound : Nat) (u : State), u = s.setProg (.fence bound) → (s.fencePending m.toNat bound = true → u.Waits (.fenceq m)) ∧
      (s.fencePending m.toNat bound = false → loaded bound → u.Does (.fenceq m) acquired))) ∧
  (∀ (bound : Nat) (e : Bool) (u : State), u = s.setProg (.released bound e) →
    u.Does (.phase 1 sc) (ends s.advance e) ∧ (loaded bound → u.Does (.phase 0 sc) (ends acquired e) ∧ (inside → u.Does (.barWait p i) (ends acquired e))))

/-- R168–R170, R208, R255, R257, Table 9-2: a count-down, an error event and the end of a release, as they come about; a count-down that finds its object UNINIT is discarded, and the stream thread that sent it faults at its transfer. -/
def Obligations.BarrierEvents : Prop :=
  ∀ (s : State) (id n : Nat) (y : BarBind) (src : Option CountSrc) (rel : Option Nat),
  let home := scrHome (s.team y.team).col y.core y.addr
  let o := Bar.ofNat (s.mem.nat home 16)
  let usable := o.st ≠ 0 ∧ o.scope ≠ 3 ∧ o.reserved = false
  let writes := fun (o' : Bar) => ({ s.drop id with mem := s.mem.store [(home, leBytes 16 o'.toNat)] false } : State)
  ((s.team y.team).resident = true → s.item id = some (.countdown y n src rel) → (∀ r, rel = some r → s.item r = none) → s.earlier id (sameCount y src) = false →
    let left := if o.st = 2 then o.expect else o.remain
    let does := s.Brings (.countdown id)
    (¬ usable → src = none → does (s.drop id)) ∧
    (¬ usable → ∀ z, src = some z → let h := s.thread z.col z.thr
      (h.kick.isSome = true → h.bars.contains y = true → does ((s.drop id).streamFault z.col z.thr 0x83 ((y.addr - (s.team y.team).scrBase) / 16 % 4096) none z.pc z.insn z.xfer)) ∧
      (h.kick.isSome = false ∨ h.bars.contains y = false → does (s.drop id))) ∧
    (usable → (y.gen ≠ o.gen ∨ o.st = 3 ∨ n = 0 → does (s.drop id)) ∧
      (y.gen = o.gen → o.st ≠ 3 → n ≠ 0 →
        (left < n → does (writes { o with remain := left, st := 3, underflow := true })) ∧
        (left = n → does (writes { o with remain := 0, st := 2, parity := 1 - o.parity })) ∧
        (n < left → does (writes { o with remain := left - n, st := 1 }))))) ∧
  (∀ flag < 5, (s.team y.team).resident = true → s.item id = some (.barError y flag) →
    let does := s.Brings (.barrierErrorEvent id)
    (¬ usable ∨ y.gen ≠ o.gen → does (s.drop id)) ∧
    (usable → y.gen = o.gen → does (writes { o with
      st := 3
      fault := o.fault || decide (flag = 0)
      timeout := o.timeout || decide (flag = 1)
      underflow := o.underflow || decide (flag = 2)
      overflow := o.overflow || decide (flag = 3)
      dead := o.dead || decide (flag = 4) }))) ∧
  (∀ (col core scope : Nat) (thread : Bool), s.item id = some (.release col core thread scope) → (s.phaseOf col core thread).opened.head? = some id →
    s.earlier id (State.storeOf col core thread scope) = false →
    let seen := fun (d : Nat × Bool) => decide (s.phaseHolds id = true ∧ d.1 < id ∧ (d.2 = true → 3 ≤ scope) ∧ 2 ≤ scope)
    let e := (s.phaseOf col core thread).dropped.any seen
    ∃ t, exec (.releaseComplete id) s = .next t ∧ t.mem = s.mem ∧ t.item id = none ∧
      t.groups = s.groups.map (fun x =>
        let f := fun (p : Path) => if p.prog = .release id then { p with prog := .released s.nextId e } else p
        { x with image := { x.image with slotA := x.image.slotA.map f, slotB := x.image.slotB.map f, stack := x.image.stack.map f } }) ∧
      t.cols = (s.modPhaseOf col core thread fun p => { p with opened := p.opened.tail, dropped := p.dropped.filter fun d => !seen d }).cols.map (fun c =>
        { c with threads := c.threads.map fun h => if h.prog = .release id then { h with prog := .released s.nextId e } else h }) ∧
      ∀ f ∈ t.flight, ∀ r, f.item = .remote r → r.release ≠ some id)

/-! ### Streams -/

/-- R161, R186, R199–R201, R206, R207, R214–R216, R172, R254: the instructions of a stream thread but its transfers: words loaded from and stored to memory, at once or later, and the scratchpad, layout records and their windows, its barrier, what it waits for, its loop and its end; and the faults of Table 11-9 that they raise. -/
def Obligations.StreamInstructions : Prop :=
  ∀ (s : State) (c th : Nat) (k : Kick) (d a : Reg) (l m : BitVec 3) (w p : BitVec 2) (o : BitVec 10) (x : BitVec 1) (i : BitVec 12) (j : BitVec 18) (H n : Nat),
  s.ReadyStream → s.cur = .thread c th → (s.thread c th).kick = some k →
  let q := s.sval a.toNat
  let off := fun (size : Nat) => (ptrOff q + size * o.toNat) % 2 ^ 48
  let word : Req := ⟨0, 0, q, off 8, 8⟩
  let block : Req := ⟨0, 0, q, off 64, 64⟩
  let mine := fun (f : Thread → Thread) => s.advance.modThread c th f
  let at_ := segBase (s.seg 0) + i.toNat * 16
  let inside := i.toNat * 16 + 16 ≤ segLimit (s.seg 0)
  let bar := s.barRead k.team (s.team k.team).core at_
  let loaded := ∀ f ∈ s.flight, f.id < s.nextId → loadOfThread c th f.item = false
  let faults := fun (y : Instr) (cause detail : Nat) =>
    exec y s = .next ((s.modThread c th fun y => { y with walkFault := none }).streamFault c th cause detail none s.pc (insnWord y) s.nextId).changed
  let sends := fun (y : Instr) (op : ScrOp) (dst : Option Dest) (data : Nat) (u : State) => s.Does y (({ u with
    nextId := s.nextId + 1
    flight := s.flight ++ [(⟨s.nextId, .scr {
      col := c, core := k.core, team := k.team, op := op, dst := dst, waiting := false, got := [], grp := none, thr := some th, pc := s.pc, insn := insnWord y, lanes := 0
      strike := none, einj := s.me.einj, accs := [⟨0, 0, segBase (s.seg 0) + word.off, 8, data, 0, withOff q word.off⟩] }⟩ : Flight)] } : State).modThread c th
    fun y => { y with susp := .arrival s.nextId })
  let late := fun (op : LateOp) (data : Nat) (d : Option Dest) => ({ s.advance with
    nextId := s.nextId + 1
    flight := s.flight ++ [⟨s.nextId, .late { col := c, core := k.core, thr := some th, grp := k.grp, op := op, accs := [⟨0, 0, 8, [(H, 8)], data, 0⟩], dst := d, strike := none }⟩] } : State)
  let sees := fun (n : Nat) (v : Nat) => ∀ e < n, bitsOf v (8 * e) 8 = ((s.lateByte c 0 (some th) s.nextId (H + e)).getD (s.mem.byte (H + e))).toNat
  let record := fun (b : BitVec 512) =>
    (LRec.bad b = false → s.Does (.tlrec l a p o) (mine fun y => { y with recs := vmod y.recs l.toNat fun _ =>
      { valid := true, record := b, org := Vector.replicate 5 0, shp := Vector.ofFn fun e : Fin 5 => BitVec.ofNat 32 (if e.val < bv b 72 3 then bv b (128 + 32 * e.val) 32 else 1) } })) ∧
    (LRec.bad b = true → faults (.tlrec l a p o) 0xA0 0)
  (p.toNat ≠ 0 → s.SDst d.toNat → s.SSrc a.toNat → s.Reaches p.toNat 0 8 word [(H, 8)] →
    (s.defers true [(H, 8)] = false → (∀ e < 8, s.mem.isPoisoned (H + e) = false) → ∀ v < 2 ^ 64, sees 8 v →
      s.Does (.sld d a p o) (({ s.advance.emptyS d.toNat with
        nextId := s.nextId + 1
        flight := s.flight ++ [⟨s.nextId, .result (.thread c th d.toNat) [] (BitVec.ofNat 64 v) none true⟩] } : State).modThread c th fun y => { y with susp := .arrival s.nextId })) ∧
    (s.defers true [(H, 8)] = true → s.Does (.sld d a p o) (((late (.load false) 0 (some (.thread c th d.toNat))).emptyS d.toNat).modThread c th fun y => { y with susp := .arrival s.nextId }))) ∧
  (p.toNat ≠ 0 → s.SSrc d.toNat → s.SSrc a.toNat → s.Reaches p.toNat 1 8 word [(H, 8)] →
    let sealed := fun (u : State) => u.modThread c th fun y => { y with regions := y.regions.map fun r => if r.idem then r else { r with sealed := true } }
    (s.defers false [(H, 8)] = false → s.Does (.sst d a p o) { sealed s.advance with mem := (s.storeHome [(H, leBytes 8 (s.sval d.toNat).toNat)] false).mem }) ∧
    (s.defers false [(H, 8)] = true → s.Does (.sst d a p o) (sealed (late .store (s.sval d.toNat).toNat none)))) ∧
  (s.SDst d.toNat → s.SSrc a.toNat → s.Allowed 0 0 8 word → sends (.sld d a 0 o) .load (some (.thread c th d.toNat)) 0 (s.advance.emptyS d.toNat)) ∧
  (s.SSrc d.toNat → s.SSrc a.toNat → s.Allowed 0 1 8 word → sends (.sst d a 0 o) .store none (s.sval d.toNat).toNat s.advance) ∧
  (s.SSrc a.toNat → (p.toNat ≠ 0 → s.Reaches p.toNat 0 64 block [(H, 64)] → (∀ e < 64, s.mem.isPoisoned (H + e) = false) → ∀ v < 2 ^ 512, sees 64 v → record (BitVec.ofNat 512 v)) ∧
    (p.toNat = 0 → s.Allowed 0 0 64 block → s.scrObject (withOff q block.off) 64 64 = .ok n → record (BitVec.ofNat 512 n))) ∧
  (s.SDst d.toNat → s.SSrc a.toNat → m.toNat < 5 →
    let old := vget RecSlot.invalid (s.thread c th).recs l.toNat
    (old.valid = false → faults (.taddr d a m l w) 0xA2 l.toNat) ∧
    (old.valid = true → w.toNat = 2 → 2 ^ 32 ≤ q.toNat → faults (.taddr d a m l w) 0xA0 0) ∧
    (old.valid = true → (w.toNat = 2 → q.toNat < 2 ^ 32) →
      let new := { old with
        org := if w.toNat < 2 then vmod old.org m.toNat fun y => if w.toNat = 0 then q else y + q else old.org
        shp := if w.toNat = 2 then vmod old.shp m.toNat fun _ => BitVec.ofNat 32 q.toNat else old.shp }
      let r := new.lrec
      let spot := r.spot (s.ncol k.ctx) (s.colNum k.ctx c) new.origin
      let lies := ∀ e < 5, 0 ≤ new.origin.getD e 0 ∧ new.origin.getD e 0 < r.dims.getD e 1
      ∀ v, (lies → v = BitVec.ofNat 64 (ptrDev r.base * 2 ^ 54 + spot.1 % 64 * 2 ^ 48 + spot.2)) → (¬ lies → v = 0) →
        s.Does (.taddr d a m l w) ((mine fun y => { y with recs := vmod y.recs l.toNat fun _ => new }).writeS d.toNat v))) ∧
  (¬ inside → faults (.tarr i) 0x40 0 ∧ faults (.twait x i) 0x40 0) ∧
  (inside → bar.uninit = true → faults (.tarr i) 0x83 i.toNat ∧ faults (.twait x i) 0x83 i.toNat) ∧
  (inside → bar.uninit = false → let bound : BarBind := ⟨k.team, (s.team k.team).core, at_, bar.gen⟩
    s.Does (.tarr i) (mine fun y => { y with bar := some bound, bars := if bound ∈ y.bars then y.bars else y.bars ++ [bound] }) ∧
    (bar.st = 3 → faults (.twait x i) 0x84 (i.toNat + bar.errf * 2 ^ 16)) ∧
    (bar.st ≠ 3 → bar.parity = x.toNat → s.Waits (.twait x i)) ∧
    (bar.st ≠ 3 → bar.parity ≠ x.toNat → loaded → s.Does (.twait x i) s.advance)) ∧
  s.Does .tarrNone (mine fun y => { y with bar := none }) ∧
  ((∀ f ∈ s.flight, xferOf c th f.item = false) → s.Does .twaitDrain s.advance) ∧
  ((∃ f ∈ s.flight, xferOf c th f.item = true) → s.Waits .twaitDrain) ∧
  (a.toNat ≠ 0 → s.SSrc a.toNat → let target := s.pc + 4 + BitVec.ofInt 64 (4 * j.toInt)
    (q - 1 ≠ 0 → s.CodeTarget target) → ∃ t, exec (.tloop a j) s = .next t ∧ t.pc = (if q - 1 = 0 then s.pc + 4 else target) ∧ t.SGets a.toNat (q - 1) ∧ Kept { s := [a.toNat] } s t) ∧
  s.Does .texit (mine fun y => { y with st := .exiting })

/-- R190–R193, R255, R350, Tables 11-1 and 11-2: `stk` by its leader: its pointer, its control word and its program are checked, its release is opened, and one kick leaves for the scratchpad controller, which the group's fetch waits for. -/
def Obligations.KickIssue : Prop :=
  ∀ (s : State) (g : Nat) (b : Bool) (h : Nat) (c : BitVec 3) (a : Reg) (p : BitVec 12), s.ReadyCore → s.cur = .slot g b →
  let x := s.grp g
  let q := s.sval a.toNat
  let i := Instr.stk c a p
  let n := p.toNat
  let code := s.seg 4
  let opened := (s.core x.col x.core).phase.opened
  let traps := fun (cause detail : Nat) => s.Handles g b h → ∃ t, exec i s = .next t ∧ s.Enters t g b h
    { cause := cause, detail := detail, lanes := s.active, insn := insnWord i % 2 ^ 32, pc := s.pc }
  let legal := fun (w : Nat) => bitsOf w 62 2 = 0 ∧ bitsOf w 60 1 = 0 ∧ bitsOf w 0 16 &&& bitsOf w 16 16 = 0 ∧
    bitsOf w 32 16 &&& bitsOf w 16 16 = bitsOf w 32 16 ∧ (bitsOf w 61 1 = 0 → bitsOf w 48 12 = 0)
  (s.lanes = [] → s.SDst a.toNat → s.Does i s.advance) ∧
  (∀ (lead : Nat) (ls : List Nat) (obj : Nat), s.lanes = lead :: ls → s.SSrc a.toNat → s.Allowed 0 0 128 ⟨lead, 0, q, ptrOff q, 128⟩ → s.scrBlock q 128 128 = .ok obj →
    let w := obj % 2 ^ 64
    (segLimit code < 4 → traps 0xA1 n) ∧
    (∀ H0 H1 : Nat, 4 ≤ segLimit code → s.translate (segBase code) 3 none 0 = .ok H0 →
      (s.mem.nat H0 4 ≤ n ∨ segLimit code < 8 + 4 * n → traps 0xA1 n) ∧
      (n < s.mem.nat H0 4 → 8 + 4 * n ≤ segLimit code → s.translate (segBase code + 4 + 4 * n) 3 none 0 = .ok H1 →
        let entry := s.mem.nat H1 4
        (entry % 4 ≠ 0 ∨ segLimit code ≤ entry ∨ ¬ legal w → traps 0xA1 n) ∧
        (entry % 4 = 0 → entry < segLimit code → legal w →
          (8 ≤ s.kicksHeld x.col x.core ∨ 3 ≤ opened.length → s.Waits i) ∧
          (s.kicksHeld x.col x.core < 8 → opened.length < 3 → s.Does i (({ s.advance.modCore x.col x.core (fun y =>
              { y with phase := { y.phase with counter := y.phase.counter + 1, opened := y.phase.opened ++ [s.nextId] } }) with
            nextId := s.nextId + 2
            flight := s.flight ++ [⟨s.nextId, .release x.col x.core false 1⟩, ⟨s.nextId + 1, .kick {
              id := s.nextId + 1, ctx := x.ctx, launch := x.launch, team := x.team, grp := x.id, gid := x.gid, tid := x.tid, core := x.core, cls := c.toNat
              entry := BitVec.ofNat 64 entry, argPtr := q, args := [], fill := bitsOf w 0 16, drain := bitsOf w 16 16, keep := bitsOf w 32 16
              bar := if bitsOf w 61 1 = 1 then some ⟨x.team, (s.team x.team).core, segBase (s.seg 0) + 16 * bitsOf w 48 12, 0⟩ else none
              weight := Launch.weight (s.launch x.launch), seg := x.seg, release := s.nextId, stores := x.bufStores } x.col b s.pc (insnWord i) s.active x.einj⟩] } : State).modGroup g
            fun y => { y with susp := .arrival (s.nextId + 1) }))))))

/-- R144, R147, R168, R193, R350, Table 8-2: the transition point of a kick: its barrier and its buffers are checked; all of them make their transitions, its barrier's generation is bound, its argument block is copied, and it joins its core's queue; or it faults and nothing has changed. -/
def Obligations.TransitionPoints : Prop :=
  ∀ (s : State) (id col : Nat) (k : Kick) (b : Bool) (pc : Word) (insn : Nat) (lanes einj : Word), s.item id = some (.kick k col b pc insn lanes einj) →
  s.earlier id (onItsWay k.grp) = false →
  (∀ f ∈ s.flight, ∀ q, f.item = .scr q → q.waiting = true → (∃ o n, q.op = .atom o n) → q.grp.map (·.1) ≠ some k.grp ∧ ¬ (q.team = k.team ∧ q.core = k.core)) →
  let i := Instr.transitionPoint id
  let buffer := s.buf k.team k.core
  let base := segBase (vget 0 k.seg 0)
  let args := (List.range 16).map fun n => BitVec.ofNat 64 (s.scrNat k.team k.core (base + ptrOff k.argPtr + 8 * n) 8)
  let faults := fun (cause detail : Nat) => s.Brings i (((s.drop id).modGroup k.grp fun x =>
    { x with image := x.image.modSlot b fun p => { p with pc := pc }, einj := uncount einj x.einj, susp := .none }).raise ⟨k.grp, b, cause, detail, none, 0, lanes, insn, pc, false, false⟩)
  let bar := fun (y : BarBind) => s.barRead y.team y.core y.addr
  let index := fun (y : BarBind) => (y.addr - base) / 16
  let fits := ∀ y, k.bar = some y → 16 * index y + 16 ≤ segLimit (vget 0 k.seg 0)
  let armed := ∀ y, k.bar = some y → (bar y).uninit = false
  let moves := (∀ n ∈ bitsIn k.fill, (buffer n).declared = true ∧ (buffer n).st = .empty) ∧ (∀ n ∈ bitsIn k.drain, (buffer n).declared = true ∧ (buffer n).st = .full)
  (¬ fits → faults 0x40 0) ∧
  (fits → (∀ y, k.bar = some y → (bar y).uninit = true → faults 0x83 (index y)) ∧
    (armed → (¬ moves → ∃ n, n ∈ bitsIn k.fill ++ bitsIn k.drain ∧ faults 0x82 (n + (if (buffer n).declared = true then (buffer n).st.code * 256 else 0))) ∧
      (moves → s.Brings i ((((bitsIn k.drain).foldl (fun (u : State) n => u.modBuf k.team k.core n fun x => { x with st := .draining, kick := some k.id, owner := none, bound := false })
          ((bitsIn k.fill).foldl (fun (u : State) n => u.modBuf k.team k.core n fun x =>
            if x.bits.all (fun y => y) = true then { x with st := .full, kick := none, owner := none, bound := false } else { x with st := .filling, kick := some k.id, owner := none, bound := false })
            (s.drop id))).modCore col k.core fun x => { x with kicks := x.kicks ++ [{ k with args := args, bar := k.bar.map fun y => { y with gen := (bar y).gen } }] }).modGroup k.grp
        fun x => { x with susp := .none, regions := x.regions.map fun r => { r with sealed := true } }))))

/-- R144, R146, R193–R196, R216, R355, Tables 8-2 and 11-1: the streamer picks a kick by its credit for its lowest FREE thread, which begins as R195 says; a thread at `texit` ends its kick once its transfers have completed, and completes its drains; a rollback restores what its region saved, unless a transfer has sealed it by then. A thread's word returns to it and its store is performed. -/
def Obligations.StreamThreads : Prop :=
  ∀ (s : State) (col th : Nat), col < s.cols.length → th < 16 →
  let h := s.thread col th
  (∀ (core : Nat) (k : Kick), core < 4 → h.st = .free → (∀ t < th, (s.thread col t).st ≠ .free) → s.candidate col core = some k →
    let value := fun (e : Nat) (y : Kick) => (s.core col e).credit + (y.weight : Int)
    (∀ e y, e < core → s.candidate col e = some y → value e y < value core k) → (∀ e y, core < e → e < 4 → s.candidate col e = some y → value e y ≤ value core k) →
    ∃ t, exec (.kickStart col) s = .next t ∧ t.mem = s.mem ∧ t.groups = s.groups ∧ t.flight = s.flight ∧
      (∀ e < 4, (t.core col e).credit = (match s.candidate col e with
        | some y => value e y - (if e = core then (((List.range 4).filterMap (s.candidate col)).map fun y => (y.weight : Int)).sum else 0)
        | none => 0) ∧ (t.core col e).kicks = (s.core col e).kicks.filter fun y => decide (e = core → y.id ≠ k.id)) ∧
      t.teams = s.teams.map (fun y => if y.id = k.team then { y with bufs := y.bufs.modify (y.part k.core) fun l => l.mapIdx fun n x => if n < 16 ∧ x.kick = some k.id then { x with owner := some (col, th) } else x } else y) ∧
      (∀ e, e ≠ th → t.thread col e = s.thread col e) ∧
      (let u := t.thread col th
       u.st = .active ∧ u.pc = k.entry ∧ u.flags = ⟨false, false, false, false, false⟩ ∧ u.regions = [] ∧ u.bar = k.bar ∧ u.bars = k.bar.toList ∧ u.kick = some k ∧
       u.phase = h.phase ∧ u.credit = h.credit ∧ u.susp = .none ∧ u.prog = .start ∧ (∀ n < 8, (vget RecSlot.invalid u.recs n).valid = false) ∧
       ∀ r < 32, vget SReg.zero u.s r = ⟨if 1 ≤ r ∧ r ≤ 15 then k.args.getD r 0 else if r = 16 then BitVec.ofNat 64 (0x3FF * 2 ^ 54 + 0x3F * 2 ^ 48 + ptrOff k.argPtr)
         else if r = 17 then BitVec.ofNat 64 (k.gid % 256 + k.core % 4 * 256 + k.tid % 65536 * 65536) else 0, true, none⟩)) ∧
  (∀ k, h.kick = some k → h.st = .exiting → (∀ f ∈ s.flight, xferOf col th f.item = false) → s.noLate (lateOf col 0 (some th)) = true →
    let u := (bitsIn k.drain).foldl (fun (u : State) n => u.modBuf k.team k.core n fun x => if x.st = .draining ∧ x.kick = some k.id then
        (if bitsOf k.keep n 1 = 1 then { x with st := .full, owner := none, kick := none, bound := false }
          else { x with st := .empty, bits := List.replicate x.lines false, owner := none, kick := none, bound := false }) else x) (s.modThread col th fun y => { y with regions := [] })
    ((∀ y ∈ u.buffersOf col th, (u.buf y.1 y.2.1 y.2.2).st ≠ .filling) →
      s.Brings (.kickEnd col th) (u.modThread col th fun y => { Thread.reset with phase := y.phase, credit := y.credit })) ∧
    (∀ A B y, u.buffersOf col th = A ++ y :: B → (∀ z ∈ A, (u.buf z.1 z.2.1 z.2.2).st ≠ .filling) → (u.buf y.1 y.2.1 y.2.2).st = .filling →
      s.Brings (.kickEnd col th) (u.streamFault col th 0xA1 y.2.2 none (h.pc - 4) (insnWord .texit) s.nextId))) ∧
  (∀ (cause : Nat) (x : ThreadRaise) (r : SRegion) (rs : List SRegion), h.st = .rolling cause x → h.regions = r :: rs → (∀ f ∈ s.flight, xferOf col th f.item = false) →
    (r.sealed = true → s.Brings (.streamRollback col th) (s.streamFault col th 0xB4 cause x.addr x.pc x.insn s.nextId)) ∧
    (r.sealed = false → s.Brings (.streamRollback col th) (s.modThread col th fun y => { y with
      st := .active, s := r.s, flags := r.flags, pc := r.pc, recs := r.recs, bar := r.bar, regions := { r with retry := r.retry + 1 } :: rs
      rollbacks := min (y.rollbacks + 1) 65535, lastCause := cause, prog := .start, susp := .none, walkFault := none }))) ∧
  (∀ (id : Nat) (r : ScrReq) (a : Acc), s.item id = some (.scr r) → r.waiting = false → r.grp = none → r.thr = some th → r.col = col → r.accs = [a] →
    (∀ f ∈ s.flight, ∀ q, f.item = .scr q → q.waiting = true → (∃ o n, q.op = .atom o n) → comesAfter r q = false) →
    s.bufLines r.team r.core a.addr a.size = [] →
    (r.op = .store → (s.team r.team).resident = true → s.Brings (.scratchpadArrival id)
      ((({ s.drop id with mem := s.mem.store [(scrHome (s.team r.team).col r.core a.addr, leBytes a.size a.data)] false } : State).wakeLoads r.team r.core).modThread col th
        fun y => { y with susp := .none })) ∧
    (∀ d, r.op = .load → r.dst = some d → r.strike = none → r.got = [] → a.size = 8 → a.sub = 0 → s.Brings (.scratchpadArrival id) ({ s with flight := s.flight.map fun f => if f.id = id then
      ⟨id, resultItem d [⟨a.lane, BitVec.ofNat 64 (s.scrNat r.team r.core a.addr 8), if s.scrPoisoned r.team r.core a.addr 8 = true then some .line else none⟩] none true⟩ else f })))

/-! ### The machine -/

/-- R387: the device after a power-on reset whose steps all pass. No context, queue or page table exists: no context, launch, team or group is there, every queue is DISABLED, and memory reads as zero but for the `STATE` field of the 256 queue descriptors, which reads 4 (Table 17-1 default, R387 step 8; log 6); no error is recorded, nothing is under way. The free and model-chosen parts of the reset state are not claimed here. -/
def Obligations.Reset : Prop :=
  let s := State.reset
  s.ctxs = [] ∧ s.launches = [] ∧ s.teams = [] ∧ s.groups = [] ∧ s.flight = [] ∧ s.images = [] ∧
  s.queues.length = 256 ∧ (∀ q < 256, (s.queue q).st = .disabled) ∧
  (∀ a, (a < Config.qtabPa ∨ Config.qtabPa + 16384 ≤ a) → s.mem.byte a = 0) ∧
  (∀ q < 256, s.mem.nat (Config.qtabPa + 64 * q) 64 = 4 * 2 ^ 320) ∧
  (∀ a, s.mem.isPoisoned a = false) ∧ s.mem.wf = true ∧
  (∀ c < s.cols.length, ∀ k < 4, (s.core c k).l1 = [] ∧ (s.core c k).tlb = [] ∧ (s.core c k).resident = none ∧ (s.core c k).kicks = [] ∧ (s.core c k).credit = 0) ∧
  (∀ c < s.cols.length, ∀ t < 16, (s.thread c t).st = .free) ∧
  (∀ n < 8, s.sems.getD n 1 = 0) ∧ s.lost = [] ∧ s.time = 0 ∧ s.cycles = 0

/-- R38, R51, R54, R123, R125, R187: a step whose schedule names an agent that can issue, and that its pipe or streamer takes next, runs the word at that agent's program counter: the instruction that the word decodes to, its own trap where it decodes to none, and the fault of the fetch where there is none. Before that the step has only let time pass, made the agent the issuing one and settled whether its accesses are performed later (the schedule says; R264). With nothing scheduled, nothing that has issued to be performed and no event due, the agent is the one that R123, R188 and R189 choose. -/
def Obligations.StepRuns : Prop :=
  ∀ (s : State) (a : Agent) (late : Bool) (r : List Choice), s.running = true →
  let u : State := { s.tick with schedule := r, cur := a, late := late }
  ((s.schedule = (if late then .issueLate a else .issue a) :: r ∧ ({ s.tick with schedule := r } : State).isTurn a = true) ∨
    (s.schedule = [] ∧ r = [] ∧ late = false ∧ (∀ f ∈ s.flight, s.tick.performsNow f = false) ∧ firstEvent s.tick s.tick.dueEvents = none ∧ s.tick.agentChoice = some a)) →
  u.canIssue = true → u.haltsHere = false → u.boundaryCause = none →
  let code := u.seg 4
  let pc := u.pc
  (segLimit code ≤ pc.toNat → step s = exec .fetchPastCodeLimit u) ∧
  (pc.toNat < segLimit code → ∀ home, u.translate (segBase code + pc.toNat) 3 (withOff pc pc.toNat) 0 = .ok home →
    (∀ i, decode (BitVec.ofNat 32 (s.mem.nat home 4)) = .ok i → step s = exec i u) ∧
    (∀ c, decode (BitVec.ofNat 32 (s.mem.nat home 4)) = .reject c → step s = exec (.wordNotAnInstruction (BitVec.ofNat 32 (s.mem.nat home 4))) u))

/-- R51, Tables 3-14 to 3-24: decoding the word of a well-formed instruction gives that instruction, with every field at every value its encoding admits; the word has 32 bits. -/
def Obligations.DecodeEncode : Prop :=
  ∀ (i : Instr) (w : Nat), wellFormed i = true → encode i = some w → w < 2 ^ 32 ∧ decode (BitVec.ofNat 32 w) = .ok i

/-- R51, R54, Tables 3-14 to 3-24: words written out from the opcode tables decode to what they stand for, and the words that R54's checks refuse are refused by name. -/
def Obligations.DecodeWords : Prop :=
  (∀ p ∈ [(0x10000040, Instr.setmode 0x40), (0x2F105182, .ssel 4 5 6 2), (0x3808FFFF, .sli 2 0xFFFF), (0x08100003, .split 4 3), (0x40152A00, .kand 5 18 40),
      (0x50081040, .vadd 2 1 1), (0x62041001, .vaddi 1 1 1), (0x7E152039, .vcvt 5 18 3 9), (0x90042400, .vld 1 2 1 0), (0xB2040000, .barWait 1 0), (0x9D005002, .xsend 5 2),
      (0xC2152A00, .mxMm 5 18 40), (0xD3152001, .csmov 5 18 1), (0xE90FFFFB, .tloop 3 (-5)), (0xEA000000, .texit)],
    decode (BitVec.ofNat 32 p.1) = .ok p.2) ∧
  (∀ p ∈ [(0, Reject.zeroWord), (1, .illegalOpcode), (0xFF000000, .illegalOpcode), (0x0C000000, .illegalOpcode), (0x01000001, .reservedField), (0x49000008, .reservedField)],
    decode (BitVec.ofNat 32 p.1) = .reject p.2)

/-- R6, R339, R341: every step keeps the canonical form of memory: addresses rise strictly, and no byte, tag or mark is listed at what it reads as unlisted. -/
def Obligations.StepKeepsMemory : Prop := ∀ (s t : State), s.mem.wf = true → step s = .next t → t.mem.wf = true

/-- R196, R201, R204, R205, R209, R210, R212, R213, R355, Tables 11-3 and 11-4: a transfer is checked and takes its barrier at issue, and a ninth waits; the datapath grants it one destination line after the other: a copy within device memory moves the elements of its next line, which seals the regions of its thread; one whose elements have all moved counts its barrier down by what its lines have not counted; a line of a multicast reaches its receiver, whose buffer fills, and counts for its copy. -/
def Obligations.Transfers : Prop :=
  (∀ (s : State) (c th : Nat) (k : Kick) (d a b m : BitVec 3) (o : BitVec 2) (r : Reg), s.ReadyStream → s.cur = .thread c th → (s.thread c th).kick = some k →
    let h := s.thread c th
    let slot := fun (n : BitVec 3) => vget RecSlot.invalid h.recs n.toNat
    let out := (s.flight.filter fun f => xferOf c th f.item).length
    let faults := fun (i : Instr) (cause detail : Nat) (p : Option Word) =>
      exec i s = .next ((s.modThread c th fun y => { y with walkFault := none }).streamFault c th cause detail p s.pc (insnWord i) s.nextId).changed
    ∀ p ∈ [(Instr.tcopy d a, XKind.copy, (none : Option (BitVec 3)), True), (.tgath d a b m, .gather m.toNat, some b, m.toNat < 5), (.tscat d a b m, .scatter m.toNat, some b, m.toNat < 5),
        (.tred d a o, .reduce o.toNat, none, o.toNat ≠ 3), (.tmcast d a r, .multicast (s.sval r.toNat), none, s.SSrc r.toNat)],
      p.2.2.2 →
      let used := [d, a] ++ p.2.2.1.toList
      let D := slot d
      let A := slot a
      let I := (p.2.2.1.map slot).getD RecSlot.invalid
      let fits := D.lrec.esize = A.lrec.esize ∧ (match p.2.1 with
        | .gather n => countOf D.shape = countOf I.shape * countOf (A.shape.set n 1) ∧ 4 ≤ I.lrec.efmt ∧ I.lrec.efmt ≤ 7
        | .scatter n => countOf A.shape = countOf I.shape * countOf (D.shape.set n 1) ∧ 4 ≤ I.lrec.efmt ∧ I.lrec.efmt ≤ 7
        | .reduce _ => countOf D.shape = countOf A.shape ∧ D.lrec.efmt = A.lrec.efmt ∧ D.lrec.efmt ≤ 11
        | .multicast _ => countOf D.shape = countOf A.shape ∧ D.lrec.space = 0
        | .copy => countOf D.shape = countOf A.shape)
      (8 ≤ out → s.Waits p.1) ∧
      (out < 8 →
        (∀ B n C, used = B ++ n :: C → (∀ x ∈ B, (slot x).valid = true) → (slot n).valid = false → faults p.1 0xA2 n.toNat none) ∧
        ((∀ n ∈ used, (slot n).valid = true) →
          (¬ fits → faults p.1 0xA0 0 none) ∧
          (fits → (∀ B n C, used = B ++ n :: C → (∀ x ∈ B, s.ptrBad (slot x).lrec.base = false) → s.ptrBad (slot n).lrec.base = true → faults p.1 0x46 0 (some (slot n).lrec.base)) ∧
            ((∀ n ∈ used, s.ptrBad (slot n).lrec.base = false) →
              (D.lrec.space = 3 → faults p.1 0x41 0 (some D.lrec.base)) ∧
              (D.lrec.space ≠ 3 → s.noLate (lateOf c 0 (some th)) = true → s.Does p.1 { s.advance with
                nextId := s.nextId + 1
                flight := s.flight ++ [(⟨s.nextId, .xfer {
                  col := c, thr := th, kick := k.id, pc := s.pc, insn := insnWord p.1, kind := p.2.1, dst := D, src := A, idx := I, bar := h.bar
                  done := false, granted := [], counted := 0, recv := none, sent := false, got := [], walkOff := 0, walkFault := none, waitsOn := [], broken := [] }⟩ : Flight)] })))))) ∧
  (∀ (s : State) (id : Nat) (x : Xfer) (k : Kick), s.item id = some (.xfer x) → s.earlier id (xferOf x.col x.thr) = false → (∀ f ∈ s.flight, partOf id f.item = false) →
    (∀ c ∈ s.cols, ∀ w ∈ c.walks, Waiter.item id ∉ w.waiters) → x.col < s.cols.length → x.thr < 16 →
    (s.thread x.col x.thr).st = .active → (s.thread x.col x.thr).frameWait = none → (s.thread x.col x.thr).kick = some k →
    let D := x.dst.lrec
    let elements := match x.kind with
      | .scatter _ => countOf x.src.shape
      | _ => countOf x.dst.shape
    (x.done = true → s.Brings (.transferComplete id) (match x.bar with
      | none => s.drop id
      | some b =>
        let bytes := (s.barRead b.team b.core b.addr).kind = 1
        let n := match x.kind with
          | .multicast _ => if bytes ∨ x.sent = true then 0 else (x.recv.map List.length).getD 0
          | _ => if bytes then D.esize * elements - x.counted else 1
        if n = 0 then s.drop id else { s.drop id with flight := (s.drop id).flight ++ [⟨s.nextId, .countdown b n (some ⟨x.col, x.thr, id, x.pc, x.insn⟩) none⟩], nextId := s.nextId + 1 })) ∧
    (∀ (from_ to_ : Nat → Nat) (e0 : Nat) (rest : List Nat), x.done = false → x.kind = .copy → x.bar = none → D.space ≠ 0 → s.mem.wf = true →
      s.granted x.col x.thr = true → x.src.lrec.esize = D.esize →
      let place := fun (e : Nat) => coordsOf x.dst.origin x.dst.shape e
      let line := fun (e : Nat) => let c := D.spot (s.ncol k.ctx) (s.colNum k.ctx x.col) (place e); (c.1, c.2 / 128)
      let left := (List.range elements).filter fun e => !x.granted.contains e
      let mine := left.filter fun e => decide (line e = line e0)
      left = e0 :: rest → (∀ e ∈ left, D.inBounds (place e) = true) →
      (∀ e ∈ mine, let f := coordsOf x.src.origin x.src.shape e
        x.src.lrec.inBounds f = true ∧ s.reach x k x.src.lrec 0 f = .home (from_ e) ∧ s.reach x k D 1 (place e) = .home (to_ e)) →
      (∀ e ∈ mine, ∀ f ∈ mine, e ≠ f → to_ e + D.esize ≤ to_ f ∨ to_ f + D.esize ≤ to_ e) →
      (∀ e ∈ mine, ∀ i < D.esize, s.roByte (to_ e + i) = false ∧ s.roHalf (to_ e + i) = false) →
      ∃ t, exec (.transferComplete id) s = .next t ∧ t.groups = s.groups ∧ t.teams = s.teams ∧
        t.item id = (if elements ≤ (x.granted ++ mine).length then none else some (.xfer { x with granted := x.granted ++ mine, waitsOn := [] })) ∧
        (∀ c h, let y := t.thread c h; y = { s.thread c h with credit := y.credit, regions := y.regions }) ∧
        (t.thread x.col x.thr).regions = (s.thread x.col x.thr).regions.map (fun r =>
          if r.openedAt ≤ id ∧ ((mine.any fun e => decide (homeCol (to_ e) ≠ x.col)) = true ∨ r.idem = false) then { r with sealed := true } else r) ∧
        (∀ e ∈ mine, ∀ i < D.esize, t.mem.byte (to_ e + i) = s.mem.byte (from_ e + i)) ∧
        ∀ y, (∀ e ∈ mine, y < to_ e ∨ to_ e + D.esize ≤ y) → t.mem.byte y = s.mem.byte y)) ∧
  (∀ (s : State) (id xid t core line count : Nat) (pieces : List (Nat × List Byte)) (carries : Bool) (x : Xfer),
    s.item id = some (.mcline xid t core line pieces carries count) → s.item xid = some (.xfer x) →
    let i := Instr.multicastLine id
    let u := s.drop id
    let arrives := fun (v : State) => if pieces = [] then (v.bufFill t core line 1).wakeLoads t core else v.scrWrite t core pieces carries
    let more := u.flight.any fun f => match f.item with
      | .mcline y t' core' _ _ _ _ => y = xid && t' = t && core' = core
      | _ => false
    let counts := fun (v : State) => match x.bar with
      | none => v
      | some b =>
        let n := if (v.barRead b.team b.core b.addr).kind = 1 then count else if x.done = true ∧ more = false then 1 else 0
        if n = 0 then v else v.place (.countdown b n (some ⟨x.col, x.thr, xid, x.pc, x.insn⟩) none)
    (s.bufAt t core line = none → s.Brings i (counts (if pieces = [] then u else u.scrStore t core pieces carries))) ∧
    (∀ n l, s.bufAt t core line = some (n, l) →
      ((s.buf t core n).st = .empty → s.Brings i (counts (arrives (u.modBuf t core n fun y => { y with st := .filling, owner := some (x.col, x.thr), kick := none, bound := true })))) ∧
      ((s.buf t core n).st = .filling → s.Brings i (counts (arrives u))) ∧
      ((s.buf t core n).st = .full ∨ (s.buf t core n).st = .draining → xid ≠ id → s.Brings i
        (u.streamFault x.col x.thr 0x81 (n + (s.buf t core n).st.code * 256) (some (withOff x.dst.lrec.base (line - (s.team t).scrBase))) x.pc x.insn xid))))

/-! ### The device -/

/-- R17–R19, R23, R283, R387–R390, R392, Tables 25-1 to 25-3: power and reset. The boot ROM takes the record of the flash slot with the higher `SEQNO` if it passes steps 2 and 3, else the other; where both fail, the key is not regenerated, or more than 32 columns are USE or none is left, the device stays in reset with that step and its reason, its Larnar ports alone alive. Otherwise it starts with nothing in it but the queue descriptors, whose `STATE` is 4, its columns numbered and its partitions formed, or one partition of all columns where the stored split is refused, with the reason; without a pod port every member is LOST (R360). What survives is flash, the map-out list and the stored split (and what lies outside the device: the schedule, the free values drawn, the answers given). The numbers of the reasons are the model's (log 35). -/
def Obligations.PowerAndReset : Prop :=
  ∀ (s : State) (env : BootEnv) (port : Nat) (a b : ConfigRecord), s.flash = [a, b] →
  let fresh : State := { State.reset with
    flash := s.flash, mapOut := s.mapOut, storedSplit := s.storedSplit, schedule := s.schedule, draws := s.draws, nextId := s.nextId, images := s.images, outbox := s.outbox }
  let off : State := { fresh with power := .off, cols := [], split := [], ports := List.replicate 22 .down, identity := false }
  let passes := fun (r : ConfigRecord) => r.signed = true ∧ recReserved r = false ∧ recMagic r = 0x4B5A0C0F ∧ (∀ p < 34, recColState r p ≠ 3) ∧ 64 ≤ recLength r ∧
    recTrimOff r + recTrimLen r ≤ recLength r ∧ recTrainOff r + recTrainLen r ≤ recLength r ∧ recLength r ≤ recSigOff r
  let first := if recSeqno a < recSeqno b then b else a
  let second := if recSeqno a < recSeqno b then a else b
  let alive := (List.range 22).map fun p => if 2 ≤ p then PortState.down else if s.portCarries p = true then s.ports.getD p .down else .training
  let stays := fun (n why : Nat) => ({ fresh with boot := .stays n why, cols := [], split := [], ports := alive, identity := decide (4 < n) } : State)
  let boots := fun (i : Instr) =>
    (¬ passes first → ¬ passes second → s.Brings i (stays (if second.signed = true then 3 else 2) 1)) ∧
    (∀ r, (passes first ∧ r = first ∨ ¬ passes first ∧ passes second ∧ r = second) →
      (env.pufOk = false → s.Brings i (stays 4 1)) ∧
      (env.pufOk = true →
        let mapOut := (env.trainFail.filter fun p => p < 34).foldl setPut s.mapOut
        let use := (List.range 34).filter fun p => recColState r p = 0
        let phys := use.filter fun p => !mapOut.contains p
        let split := s.storedSplit.map fun x => ((phys.filter fun p => decide (p < x.1)).length, (phys.filter fun p => decide (x.1 ≤ p) && decide (p ≤ x.2)).length)
        let bad := if split.any fun p => p.2 = 0 then 1 else if env.unreachable = true then 2 else 0
        (32 < use.length → s.Brings i { stays 7 2 with mapOut := mapOut }) ∧
        (use.length ≤ 32 → phys = [] → s.Brings i { stays 7 1 with mapOut := mapOut }) ∧
        (use.length ≤ 32 → phys ≠ [] → ∃ m : Memory, m.wf = true ∧ m.poisoned = [] ∧ m.cairnPoison = [] ∧
          (∀ q < 256, m.byte (recQtabPa r + 64 * q + 40) = 4) ∧ (∀ y, (∀ q < 256, y ≠ recQtabPa r + 64 * q + 40) → m.byte y = 0) ∧
          s.Brings i { fresh with
            mem := m
            mapOut := mapOut
            cols := phys.map Column.reset
            record := r
            split := if bad = 0 then split else [(0, phys.length)]
            splitRefused := bad
            lost := if r.ports.any fun p => 2 ≤ p && p < 18 then [] else List.range 1024
            ports := (List.range 22).map fun p => if r.ports.contains p then .training else .down })))
  (s.power = .off → boots (.powerOn env)) ∧
  (port < 2 → s.power ≠ .off → s.portCarries port = true → (s.boot = .ready → s.submitted.head? = some port) → boots (.reset port env) ∧ s.Brings (.off port) off) ∧
  (∀ die < 2, s.power ≠ .off → s.Brings (.thermalTrip die) off)

/-- R19, R23, R37, R359–R361, R363, R389, R391, R392, R396, Tables 23-1, 25-2 and 25-3: commands to the management core. It performs the command that a host port submitted first: each is accepted with its effect, or is refused with a configuration error and changes nothing, and its status goes to the port and its mailbox. A new record replaces the flash slot with the lower `SEQNO`; a quote is in progress behind any other, and its response says what R391 lists, with the signature. The management core enables a port that is DOWN; no command of a host port does (R396). -/
def Obligations.DeviceCommands : Prop :=
  ∀ (s : State) (port value larnar hostdev member link part : Nat) (ranges : List (Nat × Nat)) (windows : List HostWindow) (nonce : BitVec 256) (a b record : ConfigRecord),
  let answered := fun (ok : Bool) (u : State) => ({ u with
    submitted := s.submitted.tail, mails := u.mails.modify port fun m => { m with status := some ok }, outbox := u.outbox ++ [.status port ok] } : State)
  let sent := ∀ f ∈ s.flight, ∀ r, f.item = .remote r → r.sent = true
  let quiet := sent ∧ (∀ f ∈ s.flight, ∀ r, f.item = .remote r → r.answer.isSome = true) ∧ ∀ c ∈ s.cols, ∀ k ∈ c.keys, k.armed = false
  let live := fun (ps : List PortState) => (List.range 16).any fun i => ps.getD (2 + i) .down ≠ .down && ps.getD (2 + i) .down ≠ .isolated
  let lost := fun (ps : List PortState) => if live ps || decide (1024 ≤ s.lost.length) then s.lost else List.range 1024
  let moved := fun (x : PortState) => ({ s with
    ports := s.ports.set link x
    lost := lost (s.ports.set link x)
    sems := if link < 2 ∧ (x = .isolated ∨ x = .down) then s.sems.map fun o => if o = link + 1 then 0 else o else s.sems } : State)
  let state := s.ports.getD link .down
  let apart := ∀ l r, (∃ x y z, ranges = x ++ l :: y ++ r :: z) → l.2 < r.1 ∨ r.2 < l.1
  (port < 2 → s.portCarries port = true → s.submitted.head? = some port →
    (∀ p ∈ [(Instr.partition port ranges, (s.ctxs = [] ∧ ranges.length ∈ [1, 2, 4] ∧ (∀ r ∈ ranges, r.1 ≤ r.2 ∧ r.2 < 34) ∧ apart), { s with storedSplit := ranges }),
        (.idle port, s.power = .standby, { s with power := .on }),
        (.partitionReset port part, part ∈ s.stopped, { s with stopped := s.stopped.filter fun x => x ≠ part }),
        (.reAdmit port member, member < 1024, { s with lost := s.lost.filter fun x => x ≠ member }),
        (.hostWindows port larnar hostdev windows, (larnar < 2 ∧ hostdev ≤ 0x3FE ∧ windows.length ≤ 16 ∧ (s.devSet = true → hostdev ≠ s.dev)),
          { s with hostdev := s.hostdev.set larnar (some hostdev), windows := s.windows.set larnar windows }),
        (.portEnable port link, False, s)],
      (p.2.1 → s.Brings p.1 (answered true p.2.2)) ∧ (¬ p.2.1 → s.Brings p.1 (answered false s))) ∧
    (sent → let ok := s.ctxs = [] ∧ value ≤ 0x3FE ∧ some value ∉ s.hostdev
      (ok → s.Brings (.memberNumber port value) (answered true { s with dev := value, devSet := true })) ∧ (¬ ok → s.Brings (.memberNumber port value) (answered false s))) ∧
    (∀ p ∈ [(Instr.isolate port link, link < 22, PortState.isolated), (.restore port link, (link < 22 ∧ state = .isolated), .training)],
      (p.2.1 → quiet → s.Brings p.1 (answered true (moved p.2.2))) ∧ (¬ p.2.1 → s.Brings p.1 (answered false s))) ∧
    (let ports := (List.range 22).map fun p => if 2 ≤ p && p < 18 then PortState.down else s.ports.getD p .down
     let ok := s.power = .on ∧ ∀ c ∈ s.ctxs, c.st = .preempted
     (ok → quiet → s.ports.length = 22 → s.Brings (.standby port) (answered true { s with power := .standby, ports := ports, lost := lost ports })) ∧
     (¬ ok → s.Brings (.standby port) (answered false s))) ∧
    (s.flash = [a, b] → s.Brings (.recordUpdate port record) (answered true { s with flash := if recSeqno b < recSeqno a then [a, record] else [record, b] })) ∧
    s.Brings (.quote port nonce) { s with submitted := s.submitted.tail, flight := s.flight ++ [(⟨s.nextId, .quote port nonce⟩ : Flight)], nextId := s.nextId + 1 }) ∧
  (link < 22 → state = .down → quiet → s.Brings (.portEnable 3 link) (moved .training)) ∧
  (∀ id r, s.running = true → s.schedule = .perform id :: r → s.item id = some (.quote port nonce) → s.earlier id State.isQuote = false →
    let q : Quote := ⟨nonce, Config.shake256 (recBytes s.record), recSeqno s.record, Config.romVersion, s.cols.map (·.phys), s.split, s.dev⟩
    let u : State := { s.tick with schedule := r }
    step s = .next { u with
      flight := s.flight.filter fun f => f.id ≠ id
      mails := s.mails.modify port fun m => { m with status := some true }
      outbox := s.outbox ++ [.quote port q (Config.sign (s.draws + 1) (quoteBytes q)), .status port true]
      held := []
      issues := s.issues + 1 })

/-- R20, R21, R37, R245, R281, R312, R339–R341, R352, R354, R359, R360, R372, R393–R395, Tables 2-2, 19-3 and 23-1: events of the device's hardware. Heat, power and droop set and clear what halves or stretches issue; ports change their state, a port that comes to carry nothing gives what it held to another one or ends it, and a Larnar port that is lost frees the semaphores it held; an uncorrectable error is contained where it is found, then its column is DEGRADED and joins the map-out list; a lost column kills the contexts that use it and answers what was to be performed there with poison; mesh errors kill contexts; the patrol scrubber counts a line's error only while its tag is unchanged, and takes a QUARANTINED page through SCRUBBING to FREE, zeroed. -/
def Obligations.DeviceEvents : Prop :=
  ∀ (s : State) (die drop link member col part line tag leaf core reg lane : Nat) (bad vec inv : Bool),
  let heat := fun (f : Die → Die) => ({ s with dies := s.dies.modify die f } : State)
  let d := s.dies.getD die ⟨false, false, false⟩
  let live := fun (ps : List PortState) => (List.range 16).any fun i => ps.getD (2 + i) .down ≠ .down && ps.getD (2 + i) .down ≠ .isolated
  let moved := fun (x : PortState) => ({ s with
    ports := s.ports.set link x
    lost := if live (s.ports.set link x) || decide (1024 ≤ s.lost.length) then s.lost else List.range 1024
    sems := if link < 2 ∧ (x = .isolated ∨ x = .down) then s.sems.map fun o => if o = link + 1 then 0 else o else s.sems } : State)
  let unarmed := ∀ c ∈ s.cols, ∀ k ∈ c.keys, k.armed = false
  let quiet := (∀ f ∈ s.flight, ∀ r, f.item = .remote r → r.sent = true ∧ r.answer.isSome = true) ∧ unarmed
  let state := s.ports.getD link .down
  let carries := state = .up ∨ state = .degraded
  let degraded := fun (u : State) => { u with mapOut := setPut u.mapOut (u.col col).phys, cols := u.cols.modify col fun x => { x with degraded := true } }
  let gone := fun (c : Nat) (f : Flight) => match f.item with
    | .remote r => if r.dev = none ∧ r.host = none ∧ r.tcol = c ∧ r.answer = none then ({ f with item := .remote { r with answer := some (0, some .dead, false) } } : Flight) else f
    | _ => f
  let without := fun (c : Nat) (u : State) => ({ u with flight := u.flight.map (gone c) } : State)
  let kills := fun (p : Context → Bool) (u : State) => ((s.ctxs.filter p).map fun c => c.num).foldl killCtx u
  let e := s.mem.nat leaf 8
  let page := fun (st : Nat) => ({ s with mem := s.mem.storeNat leaf 8 (e - bitsOf e 53 3 * 2 ^ 53 + st * 2 ^ 53) } : State)
  let isLeaf := bitsOf e 52 1 = 1
  let at_ := line / 128 * 128
  let poisoned := ({ s with mem := { s.mem with poisoned := setPut s.mem.poisoned at_ } } : State)
  let words := ({ s with mem := { s.mem with cairnPoison := (List.range 32).foldl (fun p i => setPut p (at_ + 4 * i)) s.mem.cairnPoison } } : State)
  let released := fun (u : State) => ({ u with ctxs := u.ctxs.filter fun c => !(c.st = .quarantined && c.pages.all fun p =>
    bitsOf (u.mem.nat (p / 8) 8) 53 3 ≠ 3 && bitsOf (u.mem.nat (p / 8) 8) 53 3 ≠ 4) } : State)
  let struck := fun (x : Group) => { x with image := (if vec then { x.image with v := vmod x.image.v reg fun y => { y with poison := (y.poison.filter fun p => p.1 ≠ lane % 64) ++ [(lane % 64, .line)] } }
    else if reg = 0 then x.image else { x.image with s := vmod x.image.s reg fun y => { y with poison := some .line } }) }
  (∀ p ∈ [(Instr.thermalHigh die, die < 2, heat fun x => { x with hot := true }), (.thermalNormal die, (die < 2 ∧ d.hot = true), heat fun x => { x with hot := false }),
      (.powerOver, True, { s with overPower := true }), (.powerNormal, s.overPower = true, { s with overPower := false }),
      (.alarm ⟨die, drop⟩, (die < 2 ∧ s.droopEn = true ∧ s.droopThresh.toNat ≤ drop),
        { (heat fun x => { x with stretch := true, halved := false }) with alarms := if s.alarms = 0xFFFFFFFF then s.alarms else s.alarms + 1 }),
      (.stretchEnd die, d.stretch = true, heat fun x => { x with stretch := false, halved := true }), (.halvedWindowEnd die, d.halved = true, heat fun x => { x with halved := false }),
      (.correctedErrorThreshold col, col < s.cols.length, degraded s), (.uncorrectableError col (.hardware false), col < s.cols.length, degraded s),
      (.uncorrectableError col (.hardware true), col < s.cols.length, degraded (without col (kills (s.usesColumn col) { s with cols := s.cols.modify col fun x => { x with dead := true } }))),
      (.uncorrectableError col (.line line), (col < s.cols.length ∧ at_ < 2 ^ 42 ∧ s.scrOwner at_ = none), degraded poisoned),
      (.uncorrectableError col (.line line), (col < s.cols.length ∧ 2 ^ 42 ≤ at_), degraded words),
      (.uncorrectableError col (.page leaf), (col < s.cols.length ∧ isLeaf ∧ bitsOf e 53 3 = 1), degraded (page 2)),
      (.uncorrectableError col (.structureOf member), col < s.cols.length, degraded (s.killCtx member)),
      (.uncorrectableError col (.register member reg vec lane), col < s.cols.length, degraded { s with groups := s.groups.map fun x => if x.id = member then struck x else x }),
      (.uncorrectableError col (.cached core line inv), col < s.cols.length, degraded { s with
        cols := s.cols.modify col fun x => { x with cores := vmod x.cores core fun k => { k with
          l1 := k.l1.map fun l => if l.line = at_ ∧ l.invariant = inv then { l with poisoned := true } else l } } }),
      (.meshPayloadError member, (s.ctx member).st ∉ [CState.unused, .killed, .quarantined], s.killCtx member),
      (.meshHeaderError part, part < s.split.length,
        let p := s.split.getD part (0, 0)
        let u := (List.range p.2).foldl (fun u k => without (p.1 + k) u) (kills (fun c => (List.range p.2).any fun k => s.usesColumn (p.1 + k) c) s)
        { u with stopped := setPut u.stopped part }),
      (.patrolScrub line tag bad, (State.homeCol line < s.cols.length ∧ (s.mem.tag line ≠ tag ∨ bad = false)), released s),
      (.patrolScrub line tag bad, (State.homeCol line = col ∧ col < s.cols.length ∧ s.mem.tag line = tag ∧ bad = true ∧ at_ < 2 ^ 42 ∧ s.scrOwner at_ = none), released (degraded poisoned)),
      (.scrubbing leaf, (isLeaf ∧ bitsOf e 53 3 = 3 ∧ ∀ c ∈ s.ctxs, c.st = .killed → ∀ p ∈ c.pages, p / 8 ≠ leaf), page 4)],
    p.2.1 → s.Brings p.1 p.2.2) ∧
  (∀ t k, at_ < 2 ^ 42 → s.scrOwner at_ = some (t, k) → col < s.cols.length → s.Brings (.uncorrectableError col (.line line)) (degraded (poisoned.teamLevel t (at_ % 2 ^ 20)))) ∧
  (∀ r, s.item member = some (.remote r) → r.answer = none → col < s.cols.length →
    s.Brings (.uncorrectableError col (.carried member)) (s.setItem member (.remote { r with poison := true }))) ∧
  (∀ p ∈ [(Instr.training link .full, state = .training, PortState.up), (.training link .reduced, state = .training, .degraded), (.training link .failed, state = .training, .down),
      (.laneFail link, state = .up, .degraded), (.replayLimit link, carries, .isolated), (.peerSilence link, carries, .isolated)],
    link < 22 → p.2.1 → quiet → s.Brings p.1 (moved p.2.2)) ∧
  (link < 2 → carries → quiet → s.Brings (.larnarLinkDown link) (moved .isolated)) ∧
  (∀ id r m g ln, 2 ≤ link → link < 22 → carries → unarmed → s.item id = some (.remote r) → (∀ f ∈ s.flight, ∀ q, f.item = .remote q → f.id = id) →
    r.why = .lane g ln none → r.via = some link → r.answer = none → r.waiting = false → r.sent = true → r.dev = some m → r.host = none →
    (∀ x ∈ s.flight, ∀ y ∈ s.flight, x.id = y.id → x = y) →
    let ports := s.ports.set link .isolated
    let other := ((List.range 16).map fun i => 2 + i).find? fun p => ports.getD p .down = .up || ports.getD p .down = .degraded
    (∀ q, other = some q → s.Brings (.replayLimit link) { moved .isolated with
      flight := (s.setItem id (.remote { r with via := some q })).flight, outbox := s.outbox ++ [.request m id] }) ∧
    (other = none → s.Brings (.replayLimit link) { moved .isolated with
      flight := s.flight.filter fun f => f.id ≠ id
      cols := s.cols.modify r.col fun x => { x with cores := vmod x.cores r.core fun k => { k with phase := { k.phase with dropped := k.phase.dropped ++ [(id, true)] } } } })) ∧
  (member < 1024 → (∀ f ∈ s.flight, ∀ r, f.item = .remote r → r.sent = true ∧ (r.answer.isSome = true ∨ r.dev ≠ some member)) → unarmed →
    s.Brings (.lossNotice member) { s with lost := setPut s.lost member }) ∧
  (∀ l, (s.ctxs.flatMap fun c => c.pages).findSome? (fun p => if p / 8 = leaf then some (p % 8) else none) = some l → isLeaf → bitsOf e 53 3 = 4 → s.mem.wf = true →
    let c := leaf / 2 ^ 35
    let p := bitsOf e 8 40 * 256
    let user := fun (t : Team) => t.col = c ∧ ∃ x ∈ (s.ctx t.ctx).pages, x / 8 = leaf
    let within := fun (h n y : Nat) => h ≤ y ∧ y < h + n
    let mine := fun (y : Nat) =>
      if bitsOf e 50 2 = 2 ∧ (s.cairnUsers leaf).isEmpty = false then ∃ t ∈ s.teams, user t ∧ (if t.pair = true then
          within (cairnHome c (t.core * 2 ^ 23 + p % 2 ^ 24 / 2)) (2 ^ levelShift l / 2) y ∨ within (cairnHome c ((t.core + 1) * 2 ^ 23 + p % 2 ^ 24 / 2)) (2 ^ levelShift l / 2) y
        else within (cairnHome c (t.core * 2 ^ 23 + p % 2 ^ 23)) (2 ^ levelShift l) y)
      else within (physHome c (bitsOf e 50 2) p) (2 ^ levelShift l) y
    (∀ i < 8, ¬ mine (leaf + i)) →
    ∃ t, exec (.scrubDone leaf) s = .next t ∧ bitsOf (t.mem.nat leaf 8) 53 3 = 5 ∧
      (∀ y, mine y → t.mem.byte y = resetByte y ∧ t.mem.isPoisoned y = false) ∧
      (∀ y, ¬ mine y → (y < leaf ∨ leaf + 8 ≤ y) → t.mem.byte y = s.mem.byte y) ∧
      t.ctxs = (released { s with mem := t.mem }).ctxs ∧
      { t with mem := s.mem, ctxs := s.ctxs, held := s.held, issues := s.issues } = s)

/-- R280, R281, R283, R290, R339, R362, R380, R387, R396, Tables 16-3 and 23-2: what hosts and the network do to the device. Reads and writes through the aperture, the atomic window, doorbells, semaphores and the mailbox of a Larnar port that carries traffic; the Ethernet engine's queue pairs, its doorbell poll and the packets that arrive. An access that the aperture does not take is answered with an error and changes nothing; a device that stays in reset answers for its mailbox alone. Where the mailbox's words lie is the model's choice (log 36). -/
def Obligations.HostAccesses : Prop :=
  ∀ (s : State) (port addr n q m agent qp k : Nat) (bytes : List Byte) (x y : Word) (w w2 : Bool), s.mem.wf = true → s.cols.length ≤ 32 →
  let tells := fun (u : State) (o : Out) => ({ u with outbox := u.outbox ++ [o] } : State)
  let carries := port < 2 ∧ s.portCarries port = true
  let takes := fun (a k : Nat) => 0 < k ∧ k ≤ 128 ∧ s.physSpan a k = true ∧ s.colDead (a / 2 ^ 35) = false
  let stores := fun (i : Instr) (a : Nat) (bs : List Byte) (o : List Out) => ∃ t, exec i s = .next t ∧
    (∀ z, (a ≤ z ∧ z < a + bs.length ∧ s.roByte z = false → let b := bs.getD (z - a) 0
        (t.mem.byte z).toNat = if s.roHalf z = true then b.toNat % 16 + (s.mem.byte z).toNat / 16 * 16 else b.toNat) ∧
      (¬ (a ≤ z ∧ z < a + bs.length ∧ s.roByte z = false) → t.mem.byte z = s.mem.byte z)) ∧
    t.outbox = s.outbox ++ o ∧ { t with mem := s.mem, outbox := s.outbox, held := s.held, issues := s.issues } = s
  let door := 2 ^ 40
  let sem := 2 ^ 40 + 0x1000
  let mail := 2 ^ 40 + 0x2000
  let window := 2 ^ 41
  let rung : State := { s with queues := s.queues.modify q fun z => if z.st = .disabled then z else { z with wake := true } }
  let holder := s.sems.getD n 0
  let read := fun (a : Nat) => if holder = 0 then tells { s with sems := s.sems.set n a } (.semaphore a (BitVec.ofNat 64 (a * 16 + 1))) else tells s (.semaphore a (BitVec.ofNat 64 (holder * 16)))
  let freed := fun (a : Nat) => if holder = a then { s with sems := s.sems.set n 0 } else s
  let word := BitVec.ofNat 64 (s.mem.nat (addr - window) 8)
  let seen := fun (z : QueuePair) => BitVec.ofNat 64 (s.mem.nat z.doorbell 8)
  let isSem := fun (a l : Nat) => l = 8 ∧ a % 8 = 0 ∧ sem ≤ a ∧ a + 8 ≤ sem + 64
  let isMail := fun (a l : Nat) => 0 < l ∧ mail ≤ a ∧ a + l ≤ mail + 0x1000
  let isDoor := fun (a l : Nat) => 0 < l ∧ door ≤ a ∧ a + l ≤ door + 2048
  let box := (s.mails.getD port ⟨[], none⟩).command
  let span := fun (a l : Nat) => s.physSpan a l = true ∧ s.colDead (a / 2 ^ 35) = false
  let answered := fun (ok : Bool) (u : State) => ({ u with
    submitted := s.submitted.tail, mails := u.mails.modify port fun m => { m with status := some ok }, outbox := u.outbox ++ [.status port ok] } : State)
  let ether := (∃ z ∈ s.qps, z.qp = qp) ∧ ∃ p ∈ [18, 19, 20, 21], s.portCarries p = true
  (carries → s.boot = .ready →
    (takes addr n → s.Brings (.hostRead port addr n) (tells s (.hostData port (s.mem.bytes addr n)))) ∧
    (¬ takes addr n → ¬ isSem addr n → ¬ isMail addr n → s.Brings (.hostRead port addr n) (tells s (.hostError port))) ∧
    (n < 8 → s.Brings (.hostRead port (sem + 8 * n) 8) (read (port + 1)))) ∧
  (carries → s.boot ≠ .ready → ¬ isMail addr n → s.Brings (.hostRead port addr n) (tells s (.hostError port))) ∧
  (carries → isMail (mail + k) n → ∃ bs : List Byte, bs.length = n ∧
    (∀ j < n, (k + j < 256 → bs.getD j 0 = box.getD (k + j) 0) ∧
      (512 ≤ k + j → k + j < 764 → (bs.getD j 0).toNat = bitsOf (s.fifo.getD ((k + j - 512) / 4) 0).toNat (8 * ((k + j) % 4)) 8) ∧
      (764 ≤ k + j → k + j < 768 → (bs.getD j 0).toNat = bitsOf s.drops (8 * ((k + j) % 4)) 8)) ∧
    s.Brings (.hostRead port (mail + k) n) (tells { s with fifo := if k ≤ 512 ∧ 512 < k + n then s.fifo.tail else s.fifo } (.hostData port bs))) ∧
  (carries →
    (takes addr bytes.length → stores (.hostWrite port addr bytes) addr bytes []) ∧
    (bytes.length = 8 → n < 8 → s.Brings (.hostWrite port (sem + 8 * n) bytes) (freed (port + 1))) ∧
    (isDoor addr bytes.length → ∃ t, exec (.hostWrite port addr bytes) s = .next t ∧
      (∀ z < 256, t.queue z = if door + 8 * z < addr + bytes.length ∧ addr < door + 8 * z + 8 ∧ (s.queue z).st ≠ .disabled then { s.queue z with wake := true } else s.queue z) ∧
      { t with queues := s.queues, held := s.held, issues := s.issues } = s) ∧
    (isMail (mail + k) bytes.length → box.length = 256 → ∃ c : List Byte, c.length = 256 ∧
      (∀ i < 256, c.getD i 0 = if k ≤ i ∧ i < k + bytes.length then bytes.getD (i - k) 0 else box.getD i 0) ∧
      s.Brings (.hostWrite port (mail + k) bytes) { s with
        mails := s.mails.modify port fun m => { m with command := c }, submitted := if k < 4 then s.submitted ++ [port] else s.submitted }) ∧
    (¬ takes addr bytes.length → ¬ isDoor addr bytes.length → ¬ isSem addr bytes.length → ¬ isMail addr bytes.length →
      s.Brings (.hostWrite port addr bytes) (tells s (.hostError port))) ∧
    (q < 256 → s.Brings (.doorbellWrite port q) rung) ∧ (256 ≤ q → s.Brings (.doorbellWrite port q) (tells s (.hostError port))) ∧
    (∀ p ∈ [(Instr.hostFetchAdd port addr x, word + x), (.hostSwap port addr x, x), (.hostCompareSwap port addr x y, if word = x then y else word)],
      (window ≤ addr → addr % 8 = 0 → takes (addr - window) 8 → stores p.1 (addr - window) (leBytes 8 p.2.toNat) [.hostData port (leBytes 8 word.toNat)]) ∧
      (addr < window ∨ addr % 8 ≠ 0 ∨ ¬ takes (addr - window) 8 → s.Brings p.1 (tells s (.hostError port)))) ∧
    (s.submitted.head? = some port →
     let ok := qp < 4096 ∧ addr % 8 = 0 ∧ s.physSpan addr 8 = true ∧ 0x400000000 ≤ addr % 2 ^ 35 ∧ ∀ z ∈ s.qps, z.qp ≠ qp
     (ok → s.Brings (.queuePairCreate port qp addr) (answered true { s with qps := s.qps ++ [⟨qp, addr, BitVec.ofNat 64 (s.mem.nat addr 8), 0⟩] })) ∧
     (¬ ok → s.Brings (.queuePairCreate port qp addr) (answered false s)))) ∧
  (n < 8 → agent = 3 ∨ (1 ≤ agent ∧ agent ≤ 2 ∧ s.portCarries (agent - 1) = true) →
    s.Brings (.semaphoreRead agent n none) (read agent) ∧ s.Brings (.semaphoreWrite agent n none) (freed agent)) ∧
  (1 ≤ agent → agent ≤ 2 → n < 8 → m < 8 → s.portCarries 0 = true → s.portCarries 1 = true →
    let first := fun (u : State) => if w = true then u.semWrite agent n else u.semRead agent n
    let other := fun (u : State) => if w2 = true then u.semWrite (3 - agent) m else u.semRead (3 - agent) m
    s.Brings (if w = true then .semaphoreWrite agent n (some ⟨w2, m⟩) else .semaphoreRead agent n (some ⟨w2, m⟩))
      { (if s.semLast = agent - 1 then other (first s) else first (other s)) with semLast := 1 - s.semLast }) ∧
  s.Brings .ethernetDoorbellPoll { s with qps := s.qps.map fun z => if seen z = z.seen then z else { z with seen := seen z, posted := z.posted + 1 } } ∧
  (ether →
    (∀ i ∈ [Instr.rdmaIngress qp (.write addr bytes), .rdmaIngress qp (.send addr bytes), .rdmaIngress qp (.response addr bytes)],
      (span addr bytes.length → stores i addr bytes []) ∧ (¬ span addr bytes.length → s.Brings i s)) ∧
    (span addr n → ∃ p : Bool, (0 < n → (p = true ↔ ∃ j < n, s.mem.isPoisoned (addr + j) = true)) ∧ s.Brings (.rdmaIngress qp (.read addr n)) (tells s (.rdma qp (s.mem.bytes addr n) p))) ∧
    (¬ span addr n → s.Brings (.rdmaIngress qp (.read addr n)) s))

/-! ### Links -/

/-- R257, R260, R319, R350, R363, R364, R365, R366, R368, R369, R371, R372: the remote instructions. Each sends one request for every active lane, in ascending order of lane, to where the lane's pointer leads; it publishes, and E tells whether a target is lost; a register that gets values is empty until every lane has returned. A request leaves behind the earlier ones of its stream and after its release, and ends with its answer: data, acknowledgement, refusal, poison, or none in 4 ms; a retry-later makes it wait, with those behind it. -/
def Obligations.RemoteRequests : Prop :=
  ∀ (s : State) (g : Nat) (b : Bool) (h : Nat) (d a c : Reg) (sc : BitVec 3) (r : BitVec 1) (o : BitVec 4),
  (s.ReadyCore → s.cur = .slot g b →
    let x := s.grp g
    let num := s.colNum x.ctx x.col
    let w := ewidth s.etype / 8
    let n := 2 ^ sc.toNat
    let m := if o.toNat = 1 ∨ o.toNat = 2 then 4 else 8
    let away := fun (p : Word) => s.resolve p num
    let sealed := fun (u : State) => u.modGroup g fun y => { y with regions := y.regions.map fun r => { r with sealed := true } }
    let opened := (s.core x.col x.core).phase.opened
    let opens := fun (u : State) => ({ u.modCore x.col x.core (fun y => { y with phase := { y.phase with counter := y.phase.counter + 1, opened := y.phase.opened ++ [s.nextId] } }) with
      flight := s.flight ++ [⟨s.nextId, .release x.col x.core false 3⟩], nextId := s.nextId + 1 } : State)
    let low := fun (v : Reg) (k l : Nat) => BitVec.ofNat 64 ((s.vlane v.toNat l).toNat % 2 ^ (8 * k))
    let ask : Remote := { kind := .read, why := .lane g 0 none, ctx := x.ctx, launch := x.launch, col := x.col, core := x.core, dev := none, host := none, tcol := 0, off := 0, size := 0, data := 0, cmp := 0, op := 0, signed := false, poison := false, bytes := [], sentAt := s.time, backoff := 0, sent := false, waiting := false, release := none, via := none, answer := none }
    let asks := fun (v : Reg) (k : Nat) (make : Nat → Remote) (u : State) => s.lanes.foldl (fun u l => let p := s.vlane v.toNat l
      u.placeRemote { make l with off := ptrOff p, size := k } (away p) p) u
    let e := fun (v : Reg) => s.lanes.any fun l => s.targetDead x.ctx (away (s.vlane v.toNat l))
    let sends := fun (v : Reg) (k : Nat) (make : Nat → Remote) (u : State) => (asks v k make u).sendAll.setFlags { s.flags with e := e v }
    let returns := fun (v : Reg) (k : Nat) (make : Nat → Nat → Remote) (u : State) => if s.lanes = [] then u.setFlags { s.flags with e := false }
      else sends v k (fun l => make u.nextId l) { u.emptyV d.toNat with flight := u.flight ++ [⟨u.nextId, .gather (.vreg g d.toNat) s.lanes.length [] none⟩], nextId := u.nextId + 1 }
    let goes := fun (v : Reg) (k : Nat) => ∀ l ∈ s.lanes, s.ptrBad (s.vlane v.toNat l) = false ∧ ptrOff (s.vlane v.toNat l) % k = 0
    let first := sealed s.advance
    (sc.toNat < 4 → s.VDst d.toNat → s.VSrc a.toNat → goes a n →
      s.Does (.rld d a sc) (returns a n (fun i l => { ask with why := .lane g l (some i) }) first)) ∧
    (sc.toNat < 4 → s.VSrc d.toNat → s.VSrc a.toNat → goes a n →
      s.Does (.rst d a sc) (sends a n (fun l => { ask with kind := .write, why := .lane g l none, data := low d n l }) first)) ∧
    (o.toNat < 5 → s.VSrc d.toNat → s.VSrc a.toNat → goes a m →
      s.Does (.rred d a o) (sends a m (fun l => { ask with kind := .reduce, why := .lane g l none, data := low d m l, op := o.toNat }) first)) ∧
    (s.VSrc d.toNat → s.VSrc a.toNat → s.VSrc c.toNat → 4 ≤ s.etype → s.etype < 8 → goes c w →
      (r = 1 → 3 ≤ opened.length → (o.toNat < 7 ∨ o.toNat = 9 → s.Waits (.ratom d a c r o)) ∧ s.Waits (.rcas d a c r)) ∧
      ∀ (u : State) (q : Option Nat), (r = 0 ∧ u = first ∧ q = none ∨ r = 1 ∧ opened.length < 3 ∧ u = opens first ∧ q = some s.nextId) →
        (o.toNat < 7 ∨ o.toNat = 9 → s.Does (.ratom d a c r o) (returns c w (fun i l =>
          { ask with kind := .atomic, why := .lane g l (some i), data := low a w l, op := o.toNat, signed := decide (s.etype % 2 = 0), release := q }) u)) ∧
        s.Does (.rcas d a c r) (returns c w (fun i l =>
          { ask with kind := .cas, why := .lane g l (some i), data := low a w l, cmp := low d w l, op := 7, release := q }) u)) ∧
    (∀ i ∈ [(Instr.rld d a sc, a, n, sc.toNat < 4 ∧ s.VDst d.toNat ∧ s.VSrc a.toNat), (.rst d a sc, a, n, sc.toNat < 4 ∧ s.VSrc d.toNat ∧ s.VSrc a.toNat),
        (.rred d a o, a, m, o.toNat < 5 ∧ s.VSrc d.toNat ∧ s.VSrc a.toNat),
        (.ratom d a c r o, c, w, (o.toNat < 7 ∨ o.toNat = 9) ∧ s.VSrc d.toNat ∧ s.VSrc a.toNat ∧ s.VSrc c.toNat ∧ 4 ≤ s.etype ∧ s.etype < 8),
        (.rcas d a c r, c, w, s.VSrc d.toNat ∧ s.VSrc a.toNat ∧ s.VSrc c.toNat ∧ 4 ≤ s.etype ∧ s.etype < 8)],
      i.2.2.2 → s.Handles g b h → ∀ (A B : List Nat) (l : Nat), s.lanes = A ++ l :: B →
      let p := fun (l : Nat) => s.vlane i.2.1.toNat l
      let traps := fun (cause detail : Nat) => ∃ t, exec i.1 s = .next t ∧ s.Enters t g b h {
        cause := cause, detail := detail, addr := p l, remote := s.namesAway (some (p l)) num, lane := l, lanes := s.active, insn := insnWord i.1 % 2 ^ 32, pc := s.pc }
      ((∀ y ∈ A, s.ptrBad (p y) = false) → s.ptrBad (p l) = true → traps 0x46 0) ∧
      ((∀ y ∈ s.lanes, s.ptrBad (p y) = false) → (∀ y ∈ A, ptrOff (p y) % i.2.2.1 = 0) → ptrOff (p l) % i.2.2.1 ≠ 0 → traps 0x43 i.2.2.1))) ∧
  (∀ (q : Remote) (p : Word) (num : Nat),
    let t := s.resolve p num
    let own := ptrDev p = 0x3FF ∨ ptrDev p = s.dev
    let col := if ptrCol p = 0x3F then num else ptrCol p
    let host := s.hostdev.findIdx? fun y => decide (y = some (ptrDev p))
    ∃ q', (s.targetDead q.ctx t = false → s.placeRemote q t p = s.place (.remote q')) ∧
      (s.targetDead q.ctx t = true → s.placeRemote q t p = (s.place (.remote q')).endRemote s.nextId q' .dead) ∧
      (own → s.targetDead q.ctx t = s.colDead ((s.part q.ctx).1 + col) ∧ q' = { q with tcol := (s.part q.ctx).1 + col }) ∧
      (¬ own → ∀ port, host = some port → s.targetDead q.ctx t = false ∧
        q' = { q with host := some port, tcol := ptrCol p, answer := (s.hostRefuses port p (if q.bytes = [] then q.size else q.bytes.length) (q.kind ≠ .write) (q.kind ≠ .read)).map fun c => (0, some (.denied c), false) }) ∧
      (¬ own → host = none → s.targetDead q.ctx t = s.lost.contains (ptrDev p) ∧ q' = { q with dev := some (ptrDev p), tcol := col })) ∧
  (s.flight.Pairwise (fun f f' => f.id < f'.id) → ∀ k q, s.sendAll.item k = some (.remote q) → q.sent = false →
    q.release.isSome = true ∨ (q.dev.isSome = true ∧ s.devSet = false) ∨
      ∃ k' q', k' < k ∧ s.sendAll.item k' = some (.remote q') ∧ sameStream q' q = true ∧ (q'.sent = false ∨ q'.waiting = true)) ∧
  (∀ (id cause : Nat) (v : Word) (q : Remote), s.item id = some (.remote q) →
    let faraway := (q.dev.isSome = true ∨ q.host.isSome = true) ∧ q.via.isSome = true ∧ q.answer = none
    let value := q.kind = .read ∨ q.kind = .atomic ∨ q.kind = .cas
    let u := s.drop id
    let noted := u.modCore q.col q.core fun y => { y with phase := { y.phase with dropped := y.phase.dropped ++ [(id, q.dev.isSome || q.host.isSome)] } }
    (q.sent = true → q.waiting = false →
      (∀ i ∈ [(Instr.dataResponse id v, q.answer = some (v, none, true) ∨ (faraway ∧ value), RemEnd.done v false),
          (.acknowledgement id, (∃ y, q.answer = some (y, none, false)) ∨ (faraway ∧ ¬ value), .done 0 false),
          (.refusal id cause, (∃ y f, q.answer = some (y, some (.denied cause), f)) ∨ faraway, .refused cause),
          (.poison id, (∃ f, q.answer = some (v, some .line, f)), .done v true), (.poison id, (∃ y f, q.answer = some (y, some .dead, f)), .dead),
          (.poison id, faraway, if ¬ value ∨ Config.homeGone id = true then .dead else .done 0 true),
          (.requestTimeout id, q.answer = none ∧ q.dev.isSome = true ∧ q.sentAt + 4000000 ≤ s.time, .dead)],
        i.2.1 → s.Brings i.1 (s.endRemote id q i.2.2).sendAll) ∧
      (faraway → q.host = none → ∃ fl : List Flight, s.Brings (.retryLater id) { s with flight := fl } ∧ fl.length = s.flight.length ∧
        ∀ (k : Nat) (f f' : Flight), s.flight[k]? = some f → fl[k]? = some f' → f'.id = f.id ∧
          (f.id = id → f'.item = .remote { q with waiting := true, backoff := if q.backoff = 0 then 1 else min 64 (2 * q.backoff), sentAt := s.time }) ∧
          (f.id ≠ id → (∀ y, f.item = .remote y → id < f.id → sameStream y q = true → y.answer = none → f'.item = .remote { y with sent := false, waiting := false }) ∧
            ((∀ y, f.item = .remote y → ¬ (id < f.id ∧ sameStream y q = true ∧ y.answer = none)) → f' = f)))) ∧
    (∀ member, q.dev = some member → q.host = none → (∀ y f, q.why ≠ .frame y f) → q.waiting = true → q.sentAt + 1000 * q.backoff ≤ s.time →
      s.earlierInStream id q (fun y => !y.sent || y.waiting) = false → s.Brings (.retryBackoff id)
        ({ s.setItem id (.remote { q with waiting := false, sentAt := s.time, via := s.podPort }) with
          outbox := if s.podPort = none then s.outbox else s.outbox ++ [.request member id] } : State).sendAll) ∧
    (∀ (g l gi : Nat) (dst : Dest) (left : Nat) (got : List LaneVal) (k : Option Strike), q.why = .lane g l (some gi) → u.item gi = some (.gather dst left got k) →
      ∀ i ∈ [(RemEnd.done v false, v, (none : Option Poison)), (.done v true, v, some Poison.line), (.refused cause, 0, some (.denied cause)), (.dead, 0, some .dead)],
        let got' : List LaneVal := got ++ [⟨l, BitVec.ofNat 64 (i.2.1.toNat % 2 ^ (8 * q.size)), i.2.2⟩]
        s.endRemote id q i.1 = u.setItem gi (if left ≤ 1 then resultItem dst got' k true else .gather dst (left - 1) got' k)) ∧
    (∀ g l, q.why = .lane g l none → s.endRemote id q (.done v true) = u ∧ s.endRemote id q (.done v false) = u ∧ s.endRemote id q (.refused cause) = noted ∧ s.endRemote id q .dead = noted) ∧
    (∀ epi g bar k, q.why = .row epi g bar k → s.endRemote id q (.done v false) = u.rowDone epi bar k ∧ s.endRemote id q (.refused cause) = noted ∧
      (bar = none → s.endRemote id q .dead = noted) ∧ (∀ y, bar = some y → s.endRemote id q .dead = noted.place (.barError y 4))) ∧
    (∀ xid k y, q.why = .element xid k → u.item xid = some (.xfer y) →
      let p := BitVec.ofNat 64 (q.dev.getD s.dev % 2 ^ 10 * 2 ^ 54 + q.tcol % 2 ^ 6 * 2 ^ 48 + q.off % 2 ^ 48)
      (∀ f, s.endRemote id q (.done v f) = u.setItem xid (.xfer { y with got := (k, BitVec.ofNat 64 (v.toNat % 2 ^ (8 * q.size)), f) :: y.got })) ∧
      s.endRemote id q (.refused cause) = u.streamFault y.col y.thr 0x45 cause (some p) y.pc y.insn xid ∧
      s.endRemote id q .dead = u.streamFault y.col y.thr 0x44 0 (some p) y.pc y.insn xid))

/-- R21, R37, R309, R317–R319, R361, R364–R367, R369, R370, R372, Table 23-4: what a request does at its target column, one of this device and one of another member: it is performed on one page that lets it, as one step, and answered with the old value, an acknowledgement or poison; or it is refused with its cause; or it waits for the walk of its page. One of this device waits for the earlier accesses of its core to its bytes and of its stream (R254). A column that cannot serve memory answers another member with poison, one whose routers have stopped not at all; a request that finds no walk slot, or would pass an earlier one of its source that was turned away or waits, is answered with retry-later. -/
def Obligations.RequestsAtTheirTarget : Prop :=
  ∀ (s : State) (q : Brixel) (r : Remote) (c h cause : Nat), s.mem.wf = true →
  let n := if q.bytes = [] then q.size else q.bytes.length
  let ctx := if q.ext = true then c else r.ctx
  let col := if q.ext = true then (s.part c).1 + q.col else r.tcol
  let old := s.mem.nat h n
  let x := q.data.toNat
  let v := fun (y : Nat) => (if q.signed = true ∧ 2 ^ (8 * n - 1) ≤ y then (y : Int) - 2 ^ (8 * n) else y : Int)
  let word := fun (y : Nat) => (if 2 ^ 63 ≤ y then (y : Int) - 2 ^ 64 else y : Int)
  let atom := [(old + x) % 2 ^ (8 * n), if v x < v old then x else old, if v old < v x then x else old, old &&& x, old ||| x, old ^^^ x, x,
    if old = q.cmp.toNat then x else old].getD q.op (if x ≤ old then 0 else (old + 1) % 2 ^ (8 * n))
  let reduced := [(old + x) % 2 ^ 64, (old + x) % 2 ^ 32, ropElem 2 old x, if word old ≤ word x then x else old, if word old ≤ word x then old else x].getD q.op (ropElem q.op old x)
  ∀ p ∈ [(Instr.brixelRead q, RemKind.read, 0, (none : Option (List Byte)), q.bytes = [], true), (.brixelWrite q, .write, 1, some (if q.bytes = [] then leBytes n x else q.bytes), True, false),
      (.brixelReduce q, .reduce, 2, some (leBytes n reduced), q.bytes = [] ∧ (q.op < 5 → n = if q.op = 1 ∨ q.op = 2 then 4 else 8), false),
      (.brixelAtomic q, .atomic, 2, some (leBytes n atom), q.bytes = [] ∧ q.op ≠ 8 ∧ x < 2 ^ (8 * n), true),
      (.brixelCompareAndSwap q, .cas, 2, some (leBytes n (if old = q.cmp.toNat then x else old)), q.bytes = [], true)],
    let i := p.1
    let returns := p.2.2.2.2.2
    let page := n ≤ 65536 - q.off % 65536
    let bad := (pieceLines [(h, n)]).any s.mem.isPoisoned
    let serves := fun (t : State) => (∀ z, t.mem.byte z = match p.2.2.2.1 with
      | none => s.mem.byte z
      | some bs => if h ≤ z ∧ z < h + bs.length ∧ s.roByte z = false then
          (if s.roHalf z = true then BitVec.ofNat 8 ((bs.getD (z - h) 0).toNat % 16 + (s.mem.byte z).toNat / 16 * 16) else bs.getD (z - h) 0)
        else s.mem.byte z)
    let taken : State := { s with turned := s.turned.filter fun y => !(y.src = q.src && y.id = q.id) }
    let fresh := ∀ f ∈ s.flight, f.item ≠ .brixel p.2.1 q
    let arrives := fun (base : State) => (fresh ∧ s.podPort ≠ none ∧ base = taken) ∨
      (∃ f, s.flight.find? (fun f => decide (f.item = .brixel p.2.1 q)) = some f ∧ s.itemWalks f.id = false ∧ base = { taken with flight := s.flight.filter fun y => y.id ≠ f.id })
    let turned : State := { taken with turned := taken.turned ++ [(⟨q.src, q.pod, q.col, q.id, s.time⟩ : Turned)], outbox := s.outbox ++ [.retryLater q.src q.id] }
    (p.2.2.2.2.1 → page →
      (q.ext = false → s.item q.id = some (.remote r) → r.kind = p.2.1 → r.sent = true → r.waiting = false → r.answer = none → r.dev = none → r.host = none → s.brixelOf q.id r = q →
          s.itemWalks q.id = false → s.stoppedAt col = false → s.behindOwn q.id r = false → s.earlierInStream q.id r (fun y => y.answer.isNone) = false →
        let answers := fun (u : State) (a : Word × Option Poison × Bool) => u.setItem q.id (.remote { r with answer := some a })
        (s.meets ctx col q.off p.2.2.1 = .home h → ∃ t, exec i s = .next t ∧ serves t ∧ t.cols.map Column.noL1 = s.cols.map Column.noL1 ∧
          { t with mem := s.mem, cols := s.cols, held := s.held, issues := s.issues } =
            answers s (BitVec.ofNat 64 (if returns = true then old else 0), if returns = true ∧ bad = true then some .line else none, returns)) ∧
        (s.meets ctx col q.off p.2.2.1 = .refused cause → s.Brings i (answers s (0, some (.denied cause), false))) ∧
        (s.meets ctx col q.off p.2.2.1 = .miss → ∀ u, startWalk s col ctx q.off p.2.2.1 (some (q.src, q.pod)) (.item q.id) = some u → s.Brings i u)) ∧
      (q.ext = true → s.isLost q.src = false → s.devSet = true → s.podContext q.pod = some c → q.col < s.ncol c → s.stoppedAt col = false → s.colDead col = false →
        ∀ base, arrives base → (fresh → s.passes q.src q.pod q.col q.id = false) →
        let tells := fun (o : Out) => ({ base with outbox := s.outbox ++ [o] } : State)
        (s.meets ctx col q.off p.2.2.1 = .home h → ∃ t, exec i s = .next t ∧ serves t ∧ { t with mem := s.mem, held := s.held, issues := s.issues } =
          tells (if returns = true then (if bad = true then .poisoned q.src q.id else .data q.src q.id (BitVec.ofNat 64 old)) else .ack q.src q.id)) ∧
        (s.meets ctx col q.off p.2.2.1 = .refused cause → s.Brings i (tells (.refused q.src q.id cause))) ∧
        (s.meets ctx col q.off p.2.2.1 = .miss → fresh → let u := startWalk (taken.place (.brixel p.2.1 q)) col ctx q.off p.2.2.1 (some (q.src, q.pod)) (.item s.nextId)
          (∀ v, u = some v → s.Brings i v) ∧ (u = none → s.Brings i turned)))) ∧
    (q.ext = true → ∀ base, arrives base →
      let tells := fun (o : Out) => ({ base with outbox := s.outbox ++ [o] } : State)
      (s.isLost q.src = true → s.Brings i base) ∧
      (s.isLost q.src = false → s.devSet = false → s.Brings i (tells (.refused q.src q.id Config.earlyRefusal))) ∧
      (s.isLost q.src = false → s.devSet = true → s.podContext q.pod = none → s.Brings i (tells (.refused q.src q.id 0x45))) ∧
      (s.isLost q.src = false → s.devSet = true → s.podContext q.pod = some c →
        (s.ncol c ≤ q.col → s.Brings i (tells (.refused q.src q.id 0x46))) ∧
        (q.col < s.ncol c → (s.stoppedAt col = true → s.Brings i base) ∧
          (s.stoppedAt col = false → s.colDead col = true → s.Brings i (tells (.poisoned q.src q.id))) ∧
          (s.stoppedAt col = false → s.colDead col = false → fresh → s.passes q.src q.pod q.col q.id = true → s.Brings i turned))))

/-- R21, R37, R168, R361, R364, R365, R367, R371–R375, R377, Tables 23-5 and 23-6: collectives. `rred.coll` checks its descriptor and its barrier, arms a key at its column's endpoint and sends one frame along its route. That the frame carries the poison of the inactive lanes of `D` is DEDUCED (log 25). A frame to another member is a request of this device, which carries its source. A frame goes on at HOP, is accumulated at ACC, or discarded with UNDERFLOW, and delivered at DLV; a finished accumulation sets out along the rest of the route; a key ends by its delivery or its timers. One that comes from a LOST member is discarded. -/
def Obligations.Collectives : Prop :=
  ∀ (s : State) (g : Nat) (b : Bool) (h : Nat) (d a : Reg) (o : BitVec 4) (f : Frame) (col cc : Nat) (e : BitVec 32) (es : List (BitVec 32)) (key : Key),
  let places := fun (u : State) (c : Nat) (k : Key) => u.modCol c fun y => { y with keys := if y.keys.any (fun z => z.key = k.key) = true then y.keys.map fun z => if z.key = k.key then k else z else y.keys ++ [k] }
  let drops := fun (u : State) (c : Nat) (k : KeyId) => u.modCol c fun y => { y with keys := y.keys.filter fun z => z.key ≠ k }
  let fresh := fun (k : KeyId) (r : Option Nat) => ({
    key := k, armed := false, expect := 0, team := 0, grp := 0, bar := none, since := s.time, tmo := 0, rop := r, arrived := 0, acc := [], accPoison := false, entries := [], armedAt := 0 } : Key)
  let keys := fun (c : Nat) => (s.col c).keys
  let find := fun (c : Nat) (k : KeyId) => (keys c).find? fun z => z.key = k
  let errs := fun (u : State) (k : Key) (flag : Nat) => match k.bar with
    | some y => u.place (.barError y flag)
    | none => u
  let full := fun (k : Key) => k.armed = true ∧ k.acc ≠ [] ∧ k.arrived = k.expect
  let finished := fun (k : Key) => ({
    ext := false, src := s.dev, id := 0, pod := k.key.pod, tag := k.key.tag, chunk := k.key.chunk, rop := k.rop.getD 0, bitmap := k.expect, entries := k.entries, payload := k.acc, poison := k.accPoison } : Frame)
  (s.ReadyCore → s.cur = .slot g b → o.toNat < 5 → s.VDst d.toNat → s.VDst a.toNat →
    let i := Instr.rredColl d a o
    let y := s.grp g
    let traps := fun (cause detail lane : Nat) (p : Option Word) => s.Handles g b h → ∃ t, exec i s = .next t ∧ s.Enters t g b h {
      cause := cause, detail := detail, addr := p.getD 0, remote := s.namesAway p (s.colNum y.ctx y.col), lane := lane, lanes := s.active, insn := insnWord i % 2 ^ 32, pc := s.pc }
    (s.lanes = [] → s.Does i (s.advance.setFlags { s.flags with e := false })) ∧
    (∀ (lead : Nat) (ls : List Nat) (n : Nat), s.lanes = lead :: ls → s.VSrc d.toNat → (s.vreg a.toNat).poisonOf lead = none →
      let p := s.vlane a.toNat lead
      s.Allowed 0 0 64 ⟨lead, 0, p, ptrOff p, 64⟩ → s.scrBlock p 64 64 = .ok n →
      let bits := fun (k w : Nat) => bitsOf n k w
      let ent := (List.range (bits 40 4)).map fun k => BitVec.ofNat 32 (bits (256 + 32 * k) 32)
      let mine := fun (e : BitVec 32) => bv e 22 10 = 0x3FF ∨ bv e 22 10 = s.dev
      let good := bits 156 100 = 0 ∧ bits 44 4 = 0 ∧ bits 38 2 = 0 ∧ 1 ≤ bits 40 4 ∧ bits 40 4 ≤ 8 ∧
        ∀ e ∈ ent, bv e 0 6 = 0 ∧ bv e 14 3 ≤ 2 ∧ bv e 6 8 ≤ 15 ∧ (mine e → bv e 17 5 < s.ncol y.ctx)
      let at_ := segBase (s.seg 0) + bits 144 12 * 16
      let c := (s.team y.team).core
      let bar := s.barRead y.team c at_
      let k : KeyId := ⟨bv (s.ctx y.ctx).record 128 20, bits 0 32, bits 128 16⟩
      (¬ good → traps 0x46 0 lead (some p)) ∧
      (good → bits 144 12 * 16 + 16 ≤ segLimit (s.seg 0) →
        (bar.uninit = true → traps 0x83 (bits 144 12) 0 none) ∧
        (bar.uninit = false → find y.col k = none → 64 ≤ (keys y.col).length → s.Waits i) ∧
        (bar.uninit = false → (find y.col k ≠ none ∨ (keys y.col).length < 64) →
          let old := (find y.col k).getD (fresh k (some o.toNat))
          let new := { old with armed := true, expect := BitVec.ofNat 64 (bits 64 64), team := y.team, grp := g, bar := some ⟨y.team, c, at_, bar.gen⟩, since := s.time, tmo := if bits 48 16 = 0 then 2000 else bits 48 16, armedAt := s.nextId }
          let route := ent.map fun e => if bv e 22 10 = 0x3FF then BitVec.ofNat 32 (s.dev * 2 ^ 22 + e.toNat % 2 ^ 22) else e
          let lost := route.any fun e => if bv e 22 10 = s.dev then s.colDead ((s.part y.ctx).1 + bv e 17 5) else s.isLost (bv e 22 10)
          let frame : Frame := {
            ext := false, src := s.dev, id := 0, pod := k.pod, tag := k.tag, chunk := k.chunk, rop := o.toNat, bitmap := BitVec.ofNat 64 (2 ^ bits 32 6), entries := route, payload := (List.range y.width).map (s.vlane d.toNat), poison := (List.range y.width).any fun l => ((s.vreg d.toNat).poisonOf l).isSome }
          let sealed := s.advance.modGroup g fun y => { y with regions := y.regions.map fun r => { r with sealed := true } }
          let armed := places { sealed with nextId := s.nextId + 1 } y.col new
          ∀ u, (full new → ¬ full old → u = armed.shipFrame y.col none (finished new)) → (¬ full new ∨ full old → u = armed) →
            s.Does i ((u.shipFrame y.col (some g) frame).setFlags { s.flags with e := lost }))))) ∧
  (∀ (u : State) (c : Nat) (grp : Option Nat) (f : Frame), (f.entries = [] → u.shipFrame c grp f = u) ∧ (f.entries = e :: es →
    let part := (u.split.find? fun p => decide (p.1 ≤ c) && decide (c < p.1 + p.2)).getD (0, 0)
    let f' := { f with ext := false, src := u.dev, id := 0 }
    (bv e 22 10 = u.dev → (bv e 17 5 < part.2 → u.shipFrame c grp f = u.place (.frame (part.1 + bv e 17 5) f')) ∧ (part.2 ≤ bv e 17 5 → u.shipFrame c grp f = u)) ∧
    (bv e 22 10 ≠ u.dev → (u.lost.contains (bv e 22 10) = true → u.shipFrame c grp f = u) ∧
      (u.lost.contains (bv e 22 10) = false → ∃ q : Remote, q.kind = .frame ∧ q.why = .frame grp f' ∧ q.dev = some (bv e 22 10) ∧ q.host = none ∧ q.tcol = bv e 17 5 ∧ q.poison = f.poison ∧
        q.sent = false ∧ q.waiting = false ∧ q.release = none ∧ q.answer = none ∧ u.shipFrame c grp f = (u.place (.remote q)).sendAll)))) ∧
  (∀ (id m : Nat) (q : Remote) (grp : Option Nat), q.why = .frame grp f → q.dev = some m → q.host = none →
    s.emit id q = { s.setItem id (.remote { q with via := s.podPort }) with
      outbox := if s.podPort = none then s.outbox else s.outbox ++ [.frame m { f with ext := true, src := s.dev, id := id }] }) ∧
  (∀ i ∈ [(Instr.hop f, 0), (.acc f, 1), (.dlv f, 2)], f.entries = e :: es → bv e 14 3 = i.2 → (∀ x ∈ s.flight, ∀ c, x.item ≠ .frame c f) → f.ext = true → s.podPort ≠ none →
    let taken : State := { s with turned := s.turned.filter fun y => !(y.src = f.src && y.id = f.id) }
    let there := (s.part cc).1 + bv e 17 5
    let mine := s.isLost f.src = false ∧ s.devSet = true ∧ bv e 22 10 = s.dev
    let tells := fun (o : Out) => ({ s with outbox := s.outbox ++ [o] } : State)
    (s.isLost f.src = true → s.Brings i.1 s) ∧
    (s.isLost f.src = false → s.devSet = false → s.Brings i.1 (tells (.refused f.src f.id Config.earlyRefusal))) ∧
    (mine → s.podContext f.pod = none → s.Brings i.1 (tells (.refused f.src f.id 0x45))) ∧
    (mine → s.podContext f.pod = some cc → s.ncol cc ≤ bv e 17 5 → s.Brings i.1 (tells (.ack f.src f.id))) ∧
    (mine → s.podContext f.pod = some cc → bv e 17 5 < s.ncol cc → (s.stoppedAt there = true → s.Brings i.1 s) ∧
      (s.stoppedAt there = false → s.colDead there = true → s.Brings i.1 (tells (.poisoned f.src f.id))) ∧
      (s.stoppedAt there = false → s.colDead there = false → s.passes f.src f.pod (bv e 17 5) f.id = true →
        s.Brings i.1 { taken with turned := taken.turned ++ [(⟨f.src, f.pod, bv e 17 5, f.id, s.time⟩ : Turned)], outbox := s.outbox ++ [.retryLater f.src f.id] }))) ∧
  (∀ (u : State) (held : Bool), f.entries = e :: es → u.cols = s.cols → s.stoppedAt col = false → s.colDead col = false →
    let taken := s.turned.filter fun y => !(y.src = f.src && y.id = f.id)
    ((∃ id, s.item id = some (.frame col f) ∧ (∀ x ∈ s.flight, ∀ c, x.item = .frame c f → x.id = id) ∧ u = s.drop id ∧ held = true) ∨
      ((∀ x ∈ s.flight, ∀ c, x.item ≠ .frame c f) ∧ f.ext = true ∧ s.podPort ≠ none ∧ s.isLost f.src = false ∧ s.devSet = true ∧ bv e 22 10 = s.dev ∧ s.podContext f.pod = some cc ∧
        bv e 17 5 < s.ncol cc ∧ col = (s.part cc).1 + bv e 17 5 ∧ s.passes f.src f.pod (bv e 17 5) f.id = false ∧
        u = { s with turned := taken, outbox := s.outbox ++ [.ack f.src f.id] } ∧ held = false)) →
    let k : KeyId := ⟨f.pod, f.tag, f.chunk⟩
    let rest := { f with entries := es }
    let room := find col k ≠ none ∨ (keys col).length < 64
    (bv e 14 3 = 0 → s.Brings (.hop f) (u.shipFrame col none rest)) ∧
    (bv e 14 3 = 1 → room → let old := (find col k).getD (fresh k (some f.rop))
      let clash := old.arrived &&& f.bitmap ≠ 0 ∨ (old.armed = true ∧ f.bitmap &&& ~~~old.expect ≠ 0) ∨ ∃ r, old.rop = some r ∧ r ≠ f.rop
      (clash → (full old → s.Brings (.acc f) ((errs u old 2).shipFrame col none (finished old))) ∧ (¬ full old → s.Brings (.acc f) (errs u old 2))) ∧
      (¬ clash → let new := { old with
            rop := some f.rop
            arrived := old.arrived ||| f.bitmap
            acc := if old.acc = [] then f.payload else List.zipWith (ropLane f.rop) old.acc f.payload
            accPoison := old.accPoison || f.poison
            entries := es }
        (full new → s.Brings (.acc f) ((places u col new).shipFrame col none (finished new))) ∧ (¬ full new → s.Brings (.acc f) (places u col new)))) ∧
    (bv e 14 3 = 2 →
      (find col k = some key → key.armed = true →
        let core := if s.hasGroup key.grp = true then (s.grp key.grp).core else (s.team key.team).core
        let buf := s.buf key.team core (bv e 6 8)
        let n := 8 * f.payload.length
        let at_ := (s.team key.team).scrBase + 128 * buf.start + f.chunk * n
        let lies := buf.declared = true ∧ f.chunk * n + n ≤ 128 * buf.lines ∧ s.bufCheck key.team core at_ n .store = none
        (¬ lies → s.Brings (.dlv f) ((errs u key 0).shipFrame col none rest)) ∧
        (lies → ∀ y, key.bar = some y → let v := u.scrWrite key.team core [(at_, f.payload.flatMap fun x => leBytes 8 x.toNat)] f.poison
          s.Brings (.dlv f) ((drops (v.place (.countdown y (if (v.barRead y.team y.core y.addr).kind = 1 then n else 1) none none)) col k).shipFrame col none rest))) ∧
      (find col k = some key → key.armed = false → held = false → s.Brings (.dlv f) (u.place (.frame col f))) ∧
      (find col k = none → (keys col).length < 64 → held = false → s.Brings (.dlv f) ((places u col (fresh k none)).place (.frame col f))) ∧
      (find col k = none → (keys col).length < 64 → held = true → s.Brings (.dlv f) (places s col (fresh k none)))) ∧
    (¬ room → held = false → bv e 14 3 = 1 ∨ bv e 14 3 = 2 → s.Brings (if bv e 14 3 = 1 then .acc f else .dlv f) { s with
      turned := taken ++ [(⟨f.src, f.pod, bv e 17 5, f.id, s.time⟩ : Turned)], outbox := s.outbox ++ [.retryLater f.src f.id] })) ∧
  (find col key.key = some key →
    (key.armed = true → key.since + 1000 * key.tmo ≤ s.time → s.Brings (.keyTimeout col key.key) (drops (errs s key 1) col key.key)) ∧
    (key.armed = false → key.since + 2000000 ≤ s.time → ∃ fl : List Flight, s.Brings (.unarmedKeyExpiry col key.key) { drops s col key.key with flight := fl } ∧ fl.Sublist s.flight ∧
      ∀ x ∈ s.flight, x ∉ fl ↔ ∃ f : Frame, x.item = .frame col f ∧ (⟨f.pod, f.tag, f.chunk⟩ : KeyId) = key.key ∧ ∃ e es, f.entries = e :: es ∧ bv e 14 3 = 2))

/-- R175, R176, R177, R178, R179, R180, R181, R350: channels and exchange sets. `xsend` waits for a slot and sends its whole register into it, `xrecv` waits for the oldest full slot and claims it; slots are granted in ring order. `xperm` sends its register to where its code leads, waits until its vector has been accepted and its partner's has come, and then writes it; the faults of R178 and R180. -/
def Obligations.Exchange : Prop :=
  ∀ (s : State) (g : Nat) (b : Bool) (h : Nat) (d a : Reg) (c : BitVec 4) (set code : BitVec 6),
  (s.ReadyCore → s.cur = .slot g b →
    let x := s.grp g
    let num := s.colNum x.ctx x.col
    let col := fun (n : Nat) => (s.part x.ctx).1 + n
    let ch := (s.team x.team).chans.getD c.toNat noChannel
    let traps := fun (u : State) (i : Instr) (cause detail : Nat) => s.Handles g b h → ∃ t, exec i u = .next t ∧ u.Enters t g b h
      { cause := cause, detail := detail, lanes := s.slotMask, insn := insnWord i % 2 ^ 32, pc := s.pc }
    let sealed := s.advance.modGroup g fun y => { y with regions := y.regions.map fun r => { r with sealed := true } }
    let whole := (List.range x.width).map (s.vlane a.toNat)
    let modChan := fun (u : State) (t : Nat) (f : Channel → Channel) => u.modTeam t fun y => { y with chans := lmod y.chans c.toNat f }
    (s.VAll a.toNat →
      let i := Instr.xsend a c
      let producer := ch.slots ≠ [] ∧ bitsOf ch.pcols num 1 = 1 ∧ ch.ptid = x.tid ∧ bitsOf ch.pgids x.gid 1 = 1
      (¬ producer → traps s i 0x85 c.toNat) ∧
      (producer → s.colDead (col ch.ccol) = true → traps s i 0x44 0) ∧
      (producer → s.colDead (col ch.ccol) = false → ∀ y, (s.teams.find? fun z => z.launch = (s.team x.team).launch && z.col = (s.part (s.team x.team).ctx).1 + ch.ccol && z.tid = ch.ctid) = some y →
        let gone := ∀ z ∈ s.groups, z.team = y.id → bitsOf ch.cgids z.gid 1 = 1 → z.st = .exited
        let slots := ((s.team y.id).chans.getD c.toNat noChannel).slots
        let mine := fun (k : Nat) => slots[k]? = some (.reserved (2 * g + bit b))
        let used := fun (k : Nat) => ∃ f ∈ s.flight, ∃ v, f.item = .chan y.id c.toNat k v
        let asked := ∃ f ∈ s.flight, f.item = .grant y.id c.toNat g b
        (gone → traps s i 0x85 c.toNat) ∧
        (¬ gone → (∀ k, mine k → ¬ used k → (∀ j < k, mine j → used j) → s.Does i (sealed.place (.chan y.id c.toNat k whole))) ∧
          ((∀ k, mine k → used k) → (asked → s.Waits i) ∧ (¬ asked → ∃ t, exec i s = .next t ∧ t.pc = s.pc ∧ t.held.contains s.cur = true ∧ Kept {} (s.place (.grant y.id c.toNat g b)) t))))) ∧
    (s.VDst d.toNat →
      let i := Instr.xrecv d c
      let consumer := ch.slots ≠ [] ∧ num = ch.ccol ∧ ch.ctid = x.tid ∧ bitsOf ch.cgids x.gid 1 = 1
      let y := s.team x.team
      let at_ := y.scrBase + 128 * ch.start + ch.nextClaim * (128 * 2 ^ ch.slotsz)
      let message := (List.range x.width).map fun l =>
        (⟨l, BitVec.ofNat 64 (s.scrNat x.team y.core (at_ + 8 * l) 8), if s.scrPoisoned x.team y.core (at_ + 8 * l) 8 = true then some .line else none⟩ : LaneVal)
      (¬ consumer → traps s i 0x85 c.toNat) ∧
      (consumer → ch.slots[ch.nextClaim]? ≠ some .full → s.Waits i) ∧
      (consumer → ch.slots[ch.nextClaim]? = some .full → s.Does i (modChan ((s.advance.emptyV d.toNat).place (.result (.vreg g d.toNat) message 0 none false)) x.team fun z =>
        { z with slots := z.slots.set z.nextClaim (.claimed s.nextId), nextClaim := (z.nextClaim + 1) % z.slots.length }))) ∧
    (s.VDst d.toNat → s.VAll a.toNat →
      let i := Instr.xperm d a set code
      let members := (List.range 32).filter fun n => bitsOf ((s.team x.team).xsets.getD set.toNat 0) n 1 = 1
      let k := members.length
      let p := members.findIdx (· = num)
      let n := code.toNat - 0x20
      let partner := num ^^^ code.toNat
      (num ∉ members ∨ (code.toNat < 0x20 ∧ partner ∉ members) → traps s i 0x85 (set.toNat * 64 + code.toNat)) ∧
      (∀ (dests : List Nat) (source : Nat), num ∈ members →
        (code.toNat < 0x20 ∧ partner ∈ members ∧ dests = [partner] ∧ source = partner ∨
          0x20 ≤ code.toNat ∧ code.toNat < 0x3F ∧ dests = [members.getD ((p + n % k) % k) 0] ∧ source = members.getD ((p + k - n % k) % k) 0 ∨
          code.toNat = 0x3F ∧ dests = (if p = 0 then members else []) ∧ source = members.headD 0) →
        let serial := vget 0 x.perms set.toNat + 1
        let v : PermVec := ⟨x.launch, x.tid, x.gid, set.toNat, serial, code.toNat, num, whole⟩
        let sent := ({ sealed with flight := s.flight ++ dests.mapIdx fun j y => ⟨s.nextId + j, .perm v (col y)⟩, nextId := s.nextId + dests.length } : State).modGroup g
          fun y => { y with perms := vmod y.perms set.toNat fun _ => serial }
        let pending := fun (m : Nat) => ∃ f ∈ s.flight, ∃ w c, f.item = .perm w c ∧ w.launch = x.launch ∧ w.tid = x.tid ∧ w.gid = x.gid ∧ w.set = set.toNat ∧ w.serial = m ∧ w.fromCol = num
        let upTo := fun (m : Nat) (w : PermVec) => decide (w.launch = x.launch ∧ w.tid = x.tid ∧ w.gid = x.gid ∧ w.set = set.toNat ∧ w.serial ≤ m)
        let come := fun (m : Nat) => (s.core x.col x.core).perms.filter (upTo m)
        let bad := fun (m : Nat) (w : PermVec) => decide (w.serial ≠ m ∨ w.code ≠ code.toNat ∨ w.fromCol ≠ source)
        let rest := fun (u : State) (m : Nat) => u.modCore x.col x.core fun y => { y with perms := y.perms.filter fun z => !upTo m z }
        let takes := fun (u v : State) (m : Nat) (w : PermVec) => ∃ t, exec i v = .next t ∧ t.pc = s.pc + 4 ∧ VWrites s t d.toNat (List.range x.width) (fun l => w.data.getD l 0) ∧
          Kept { v := [d.toNat] } (rest u m) t
        let fails := fun (u v : State) (m : Nat) => ∀ w, (come m).find? (bad m) = some w → w.code < 64 → s.Handles g b h → ∃ t, exec i v = .next t ∧ (rest u m).Enters t g b h
          { cause := 0x85, detail := set.toNat * 64 + w.code, lanes := s.slotMask, insn := insnWord i % 2 ^ 32, pc := s.pc }
        let clean := fun (m : Nat) => ∀ w ∈ come m, bad m w = false
        (clean serial → dests ≠ [] ∨ pending serial ∨ come serial = [] →
          ∃ t, exec i s = .next t ∧ t.pc = s.pc ∧ t.prog = .sent serial ∧ Kept {} (sent.modGroup g fun y => { y with susp := .perm }) t) ∧
        (clean serial → dests = [] → ¬ pending serial → ∀ w, (come serial).head? = some w → takes sent s serial w) ∧
        fails sent s serial ∧
        (∀ (m : Nat) (u : State), u = s.setProg (.sent m) →
          (clean m → pending m ∨ come m = [] → u.Waits i) ∧
          (clean m → ¬ pending m → ∀ w, (come m).head? = some w → takes s u m w) ∧
          fails u u m)))) ∧
  (∀ (team ch id : Nat) (A B : List Flight), s.flight = A ++ ⟨id, .grant team ch g b⟩ :: B → (∀ f ∈ A, ∀ g b, f.item ≠ .grant team ch g b) →
    let c := (s.team team).chans.getD ch noChannel
    (c.slots[c.nextGrant]? = some .free ∨ ∃ n, c.slots[c.nextGrant]? = some (.claimed n) ∧ s.item n = none) →
    s.Brings (.channelGrant team ch) ((s.drop id).modTeam team fun y => { y with chans := lmod y.chans ch fun z =>
      { z with slots := z.slots.set z.nextGrant (.reserved (2 * g + bit b)), nextGrant := (z.nextGrant + 1) % z.slots.length } })) ∧
  (∀ (id t ch k : Nat) (data : List Word), s.item id = some (.chan t ch k data) →
    let y := s.team t
    let c := y.chans.getD ch noChannel
    s.Brings (.channelMessageArrival id) (((s.drop id).scrStore t y.core [(y.scrBase + 128 * c.start + k * (128 * 2 ^ c.slotsz), data.flatMap fun w => leBytes 8 w.toNat)] false).modTeam t
      fun y => { y with chans := lmod y.chans ch fun z => { z with slots := z.slots.set k .full } })) ∧
  (∀ (id col : Nat) (v : PermVec) (x : Group), s.item id = some (.perm v col) → (s.groups.find? fun z => z.launch = v.launch && z.col = col && z.tid = v.tid && z.gid = v.gid) = some x →
    (v.serial ≤ vget 0 x.perms v.set ∨
      ((s.core col x.core).perms.filter fun w => decide (w.launch = v.launch ∧ w.tid = v.tid ∧ w.gid = v.gid ∧ w.set = v.set ∧ vget 0 x.perms v.set < w.serial)).length < 4) →
    s.Brings (.xpermArrival id) (let u := (s.drop id).modCore col x.core fun y => { y with perms := y.perms ++ [v] }
      { u with groups := s.groups.map fun z =>
          if z.susp = .perm ∧ z.launch = v.launch ∧ (z.id = x.id ∨ (z.tid = v.tid ∧ z.gid = v.gid ∧ s.colNum z.ctx z.col = v.fromCol)) then { z with susp := .none, waitFrom := none } else z }))

/-! ### The matrix gang -/

/-- R222, R223, R224, R225, R226, R227, R228, R233, R234, R235, R240, R242: the matrix instructions as they issue. Each checks its gang value, block, residency, cairn extent and operands in the order of the spec, and is accepted into the matrix queue with where they lie (a matrix operand is read when the queue performs the instruction; R235, R265); an `mx.mm` of a gang waits at its latch for the other members, and the last one opens it. -/
def Obligations.MatrixInstructions : Prop :=
  ∀ (s : State) (g : Nat) (b : Bool) (h : Nat) (d a c : Reg) (arr : BitVec 2) (n : Nat), s.ReadyCore → s.cur = .slot g b →
  let y := s.grp g
  let tm := s.team y.team
  let gang := y.image.gang
  let pair := gang.getLsbD 32
  let qa := s.sval a.toNat
  let qc := s.sval c.toNat
  let traps := fun (i : Instr) (lanes : Word) (cause detail : Nat) => s.Handles g b h → ∃ t, exec i s = .next t ∧ s.Enters t g b h
    { cause := cause, detail := detail, lanes := lanes, insn := insnWord i % 2 ^ 32, pc := s.pc }
  let op := fun (cm : CairnMap) (k : MxKind) => (.mx { col := y.col, core := tm.core, team := y.team, grp := g, cmap := cm, kind := k } : Item)
  let span := fun (q : Word) (off size align x : Nat) => s.Allowed 0 0 align ⟨0, 0, q, off % 2 ^ 48, size⟩ ∧ x = segBase (s.seg 0) + off % 2 ^ 48 ∧
    s.bufCheck y.team y.core x size .load = none ∧ s.bufHolds y.team y.core x size = false ∧ s.scrComing x size = false
  let byte := fun (x : Nat) => (s.scrByte y.team y.core x).toNat
  let book := fun (code : Nat) (q : Word) (l : List Nat) => if codebookFmt code = true then ∃ n, s.scrObject q (codebookBytes code) 8 = .ok n ∧ l = entriesOf code n else l = []
  let touched := fun (spans : List (Nat × Nat)) (p : Nat) => ∃ x ∈ spans, (segBase (s.seg 3) + x.1) / 65536 ≤ p ∧ p ≤ (segBase (s.seg 3) + x.1 + x.2 - 1) / 65536
  let reach := fun (kind : Nat) (spans : List (Nat × Nat)) (H : Nat → Nat) => ∀ p, touched spans p → s.translate (p * 65536) kind none 0 = .ok (H p)
  let maps := fun (spans : List (Nat × Nat)) (H : Nat → Nat) (cm : CairnMap) => cm.base = segBase (s.seg 3) ∧ ∀ p, touched spans p → cm.pages.find? (fun z => decide (z.1 = p)) = some (p, H p)
  let lies := fun (o : Word) (size align : Nat) => o.toNat % align = 0 ∧ o.toNat + size ≤ segLimit (s.seg 3)
  (s.SSrc a.toNat → let i := Instr.mxGang a
    let ms := (List.range 32).filter fun k => qa.getLsbD k
    let in_ := fun (k : Nat) => s.groups.find? fun x => x.team = y.team && x.gid = k
    let good := qa.toNat < 2 ^ 33 ∧ (qa = 0 ∨ 2 ≤ ms.length ∧ ms.length ≤ 6 ∧ y.gid ∈ ms ∧
      (∀ k ∈ ms, ∃ x, in_ k = some x ∧ (qa.getLsbD 32 = false → x.core = y.core)) ∧ (qa.getLsbD 32 = true → tm.pair = true))
    (s.atLatch y = true → s.Waits i) ∧ (s.atLatch y = false → (¬ good → traps i s.slotMask 0x90 qa.toNat) ∧
      (good → s.Does i (s.advance.modGroup g fun x => { x with image := { x.image with gang := qa } })))) ∧
  (s.SSrc a.toNat → s.SSrc c.toNat → s.scrObject qc 32 32 = .ok n → let i := Instr.mxLdb a c arr
    let fb := BitVec.ofNat 256 n
    let test := fbBad fb (some (nEff (fbB fb) arr.toNat pair / 64))
    let K := kLog arr.toNat (fbSparse fb)
    let nb := fbCols fb
    let w := codeBits (fbB fb)
    let m := K / fbLen fb * nb
    (∀ k, test = some k → traps i s.slotMask 0x92 k) ∧
    (test = none → ∀ la lb z, book (fbA fb) (fbCba fb) la → book (fbB fb) (fbCbb fb) lb → (isScaled (fbB fb) = true → span (fbBscale fb) (ptrOff (fbBscale fb)) m 1 z) →
      let signed := fun (k : Nat) => isScaled (fbB fb) = true ∧ k < m ∧ 0x80 ≤ byte (z + k) ∧ ∀ j < k, byte (z + j) < 0x80
      let loads := fun (x : Nat) => s.Does i (s.advance.place (op ⟨0, []⟩ (.ldb
        { team := y.team, pair := pair, arr := arr.toNat, bfmt := fbB fb, blen := fbLen fb, sparse := fbSparse fb, ncols := nb, codes := [], kept := [], poison := [], scales := [], codebook := lb }
        { core := y.core, block := fb, at_ := x, scales := if isScaled (fbB fb) = true then z else 0 })))
      (fbSparse fb = false → ∀ x, let size := K * nb * w / 8
        span qa (ptrOff qa) size 8 x → (∀ k, signed k → traps i s.slotMask 0x93 (byte (z + k))) ∧
        ((∀ k, ¬ signed k) → loads x)) ∧
      (fbSparse fb = true → ∀ x, let tag := sparseTag (fbB fb)
        let total := K / 2 * nb
        let per := (sparseShape tag).2.2
        let L := (total + per - 1) / per
        let count := fun (l : Nat) => if l + 1 = L then total - per * (L - 1) else per
        let line := fun (l : Nat) => s.scrBytes y.team y.core (x + 128 * l) 128
        let refused := fun (l : Nat) => l < L ∧ sparseBad tag (count l) (line l) = true ∧ ∀ j < l, sparseBad tag (count j) (line j) = false
        span qa (ptrOff qa) (L * 128) 128 x → (∀ k, signed k → traps i s.slotMask 0x93 (byte (z + k))) ∧
        ((∀ k, ¬ signed k) → (∀ l, refused l → traps i s.slotMask 0x95 l) ∧ ((∀ l, ¬ refused l) → loads x))))) ∧
  (s.SSrc d.toNat → s.SSrc a.toNat → s.SSrc c.toNat → let i := Instr.mxMm d a c
    (∀ u, (u = s.setProg .latched → u.Waits i) ∧ (u = s.setProg .accepted → u.Does i s.advance)) ∧
    (s.scrObject qc 32 32 = .ok n →
      let fb := BitVec.ofNat 256 n
      let o := s.sval d.toNat
      let rows := fbRows fb
      let w := codeBits (fbA fb)
      let fits := fun (r : Residency) => s.residentNow y.col tm.core = some r ∧ r.team = y.team ∧ r.bfmt = fbB fb ∧ r.blen = fbLen fb ∧ r.sparse = fbSparse fb ∧ r.pair = pair
      (∀ k, fbBad fb none = some k → traps i s.slotMask 0x92 k) ∧
      (fbBad fb none = none → ∀ la lb, book (fbA fb) (fbCba fb) la → book (fbB fb) (fbCbb fb) lb →
        ((∀ r, ¬ fits r) → traps i s.slotMask 0x92 0x100) ∧
        (∀ r, fits r →
          let N := nEff r.bfmt r.arr r.pair
          let K := kLog r.arr r.sparse
          let size := K * w / 8
          let per := K / fbLen fb
          let spans := [(o.toNat, 4 * rows * N)]
          (¬ lies o (4 * rows * N) 64 → traps i s.slotMask 0x94 o.toNat) ∧
          (lies o (4 * rows * N) 64 → ∀ (H X Z : Nat → Nat), reach 2 spans H → (∀ r < rows, span qa (ptrOff qa + r * size) size 8 (X r)) →
              (isScaled (fbA fb) = true → ∀ r < rows, span qa (ptrOff qa + 16 * fbAsoff fb + r * per) per 1 (Z r)) →
            let scale := fun (k : Nat) => byte (Z (k / per) + k % per)
            let signed := fun (k : Nat) => isScaled (fbA fb) = true ∧ k < rows * per ∧ 0x80 ≤ scale k ∧ ∀ j < k, scale j < 0x80
            (∀ k, signed k → traps i s.slotMask 0x93 (scale k)) ∧
            ((∀ k, ¬ signed k) → ∃ cm : CairnMap, maps spans H cm ∧
              (let src : ASource := ⟨y.core, (List.range rows).map X, if isScaled (fbA fb) = true then (List.range rows).map Z else [], K, la⟩
               let lc := if pair = true then tm.core else y.core
               let arrival : Arrival := ⟨g, b, gang, y.team, fb, src, o.toNat, cm, s.cycles, s.pc, insnWord i, s.slotMask⟩
               let queue := (s.core y.col lc).latches ++ [arrival]
               let ms := (List.range 32).filter fun k => gang.getLsbD k
               let head := fun (k : Nat) => queue.find? fun z => z.team = y.team && z.gang = gang && (s.grp z.grp).gid = k
               let member := fun (z : Arrival) => (⟨z.grp, (s.grp z.grp).gid, z.cairn, z.cmap, z.src⟩ : Member)
               (gang = 0 → s.Does i (s.advance.place (op cm (.joint fb [member arrival])))) ∧
               (gang ≠ 0 → (∃ k ∈ ms, head k = none) → ∃ t, exec i s = .next t ∧ t.pc = s.pc ∧ t.prog = .latched ∧ t.held.contains s.cur = true ∧
                 Kept {} (s.modCore y.col lc fun k => { k with latches := queue }) t) ∧
               (gang ≠ 0 → (∀ k ∈ ms, head k ≠ none) → let as := ms.filterMap head
                 arrival ∈ as → (∀ z ∈ as, z.block = fb) → s.Does i ((as.filter fun z => decide (z ≠ arrival)).foldl
                   (fun u z => u.modGroup z.grp fun x => { x with image := x.image.modSlot z.slot fun p => { p with prog := .accepted } })
                   ((s.advance.modCore y.col lc fun k => { k with latches := queue.filter fun z => !as.contains z }).place (op cm (.joint fb (as.map member))))))))))))) ∧
  (s.SSrc d.toNat → let o := s.sval d.toNat
    let i := Instr.mxZero d
    (¬ lies o 4096 64 → traps i s.slotMask 0x94 o.toNat) ∧
    (lies o 4096 64 → ∀ H, reach 1 [(o.toNat, 4096)] H → ∃ cm, maps [(o.toNat, 4096)] H cm ∧ s.Does i (s.advance.place (op cm (.zero o.toNat))))) ∧
  (s.VDst d.toNat → s.SSrc a.toNat → let i := Instr.mxAcv d a
    let spans := s.lanes.map fun l => (qa.toNat + 8 * l, 8)
    (s.lanes = [] → s.Does i s.advance) ∧
    (∀ l, s.lanes.getLast? = some l → (¬ lies qa (8 * l + 8) 8 → traps i s.active 0x94 qa.toNat) ∧
      (lies qa (8 * l + 8) 8 → ∀ H, reach 0 spans H → ∃ cm, maps spans H cm ∧ s.Does i ((s.advance.emptyV d.toNat).place (op cm (.acv qa.toNat (.vreg g d.toNat) s.lanes none)))))) ∧
  (s.SSrc d.toNat → s.VSrc a.toNat → let i := Instr.mxVac d a
    let o := s.sval d.toNat
    let spans := s.lanes.map fun l => (o.toNat + 8 * l, 8)
    let able := s.etype = 4 ∨ s.etype = 5 ∨ s.etype = 10
    (¬ able → traps i s.active 0x21 0) ∧
    (able → (s.lanes = [] → s.Does i s.advance) ∧
      (∀ l, s.lanes.getLast? = some l → (¬ lies o (8 * l + 8) 8 → traps i s.active 0x94 o.toNat) ∧
        (lies o (8 * l + 8) 8 → ∀ H, reach 2 spans H → ∃ cm, maps spans H cm ∧
          s.Does i (s.advance.place (op cm (.vac o.toNat (s.lanes.map fun l => (l, s.vlane a.toNat l)) s.etype s.sat))))))) ∧
  (d.toNat < 8 → s.SSrc a.toNat → s.SSrc c.toNat → let i := Instr.mxCsum d a c
    let rows := bv qc 0 16
    let cols := bv qc 16 16
    let stride := bv qc 32 16
    let tests := [(0, rows = 0 ∨ 4096 < rows), (16, cols = 0 ∨ 4096 < cols), (32, stride < cols), (49, bv qc 49 15 ≠ 0)]
    let spans := (List.range rows).map fun r => (qa.toNat + 4 * r * stride, 4 * cols)
    (s.foldPending g d.toNat s.nextId = true → s.Waits i) ∧
    (s.foldPending g d.toNat s.nextId = false →
      (∀ A x B, tests = A ++ x :: B → (∀ z ∈ A, ¬ z.2) → x.2 → traps i s.slotMask 0x92 x.1) ∧
      ((∀ x ∈ tests, ¬ x.2) → let size := 4 * ((rows - 1) * stride + cols)
        (¬ lies qa size 64 → traps i s.slotMask 0x94 qa.toNat) ∧
        (lies qa size 64 → ∀ H, reach 0 spans H → ∃ cm, maps spans H cm ∧ s.Does i (s.advance.place (op cm (.csum qa.toNat qc d.toNat))))))) ∧
  (s.SSrc d.toNat → s.SSrc a.toNat → s.SSrc c.toNat → s.scrObject qa 64 64 = .ok n → let i := Instr.mxEpi d a c
    let blk := BitVec.ofNat 512 n
    let e := Epi.of blk
    let o := s.sval d.toNat
    let size := 4 * ((e.rows - 1) * e.cstride + e.cols)
    let spans := (List.range e.rows).map fun r => (o.toNat + 4 * r * e.cstride, 4 * e.cols)
    let array := fun (on : Bool) (q : Word) (l : List Nat) => if on = true then ∃ n, s.scrObject q (4 * e.cols) 1 = .ok n ∧ l = (List.range e.cols).map fun k => bitsOf n (32 * k) 32 else l = []
    let held := e.csum = true ∧ s.foldPending g e.csreg s.nextId = true
    let target := fun (q : Word) (off size x : Nat) => s.Allowed 0 1 1 ⟨0, 0, q, off % 2 ^ 48, size⟩ ∧ x = segBase (s.seg 0) + off % 2 ^ 48 ∧ s.bufCheck y.team y.core x size .store = none
    (∀ k, epiBad blk = some k → traps i s.slotMask 0x92 k) ∧
    (epiBad blk = none → (held → s.Waits i) ∧
      (¬ held → (¬ lies o size 64 → traps i s.slotMask 0x94 o.toNat) ∧
        (lies o size 64 → ∀ (H : Nat → Nat) (scale bias : List Nat) (dests : List EpiDst), reach 0 spans H → array e.sclv e.scale scale → array e.biasv e.bias bias → dests.length = e.rows →
          (e.table = false → ∀ r < e.rows, ∃ x z, dests[r]? = some (.scr x z) ∧ target qc (ptrOff qc + r * e.rstride) e.rowBytes x ∧
            (e.qnt = false → z = 0) ∧ (e.qnt = true → target e.qsptr (ptrOff e.qsptr + r * e.scaleBytes) e.scaleBytes z)) →
          (e.table = true → ∃ n, s.scrObject qc (8 * e.rows) 8 = .ok n ∧ ∀ r < e.rows, let p := BitVec.ofNat 64 (bitsOf n (64 * r) 64)
            (p = 0 → dests[r]? = some .skip) ∧ (p ≠ 0 → s.ptrBad p = false ∧ ptrOff p % max 1 (e.width / 8) = 0 ∧ dests[r]? = some (.ptr p))) →
          let at_ := segBase (s.seg 0) + e.bar * 16
          let bar := s.barRead y.team tm.core at_
          (e.barv = true → e.bar * 16 + 16 ≤ segLimit (s.seg 0)) →
          (e.barv = true → bar.uninit = true → traps i s.slotMask 0x83 e.bar) ∧
          ((e.barv = true → bar.uninit = false) → ∃ cm, maps spans H cm ∧ ∀ u, (if e.barv = true ∨ (∃ p, EpiDst.ptr p ∈ dests ∧ ptrDev p ≠ 0x3FF ∧ ptrDev p ≠ s.dev)
              then u = s.advance.modGroup g fun x => { x with regions := x.regions.map fun r => { r with sealed := true } } else u = s.advance) →
            s.Does i (u.place (op cm (.epi o.toNat blk dests scale bias (if e.barv = true then some ⟨y.team, tm.core, at_, bar.gen⟩ else none) y.image.gens))))))))

/-- R224, R225, R226, R229, R231, R232, R233, R236, R237, R238, R239, R242, R244, R245: what the matrix queue performs, one instruction at a time in the order of acceptance, each once the rows of the epilogues before it have been written: what it reads of A and B in the scratchpad; the joint product word by word, members, rows and columns ascending, `mx.ldb`, `mx.zero`, `mx.acv`, `mx.vac`, `mx.csum` and `mx.epi` with the rows it sends; poisoned cairn words; the arrival of a row; the end of a wait at a latch. The integer product is exact, wrapped or clamped once in each slice. -/
def Obligations.MatrixQueue : Prop :=
  ∀ (s : State) (id : Nat) (m : MxOp), s.mem.wf = true →
  let at_ := fun (o : Nat) => s.cairnAt m.team m.cmap o
  let word := fun (o : Nat) => s.mem.nat (at_ o) 4
  let bad := fun (o : Nat) => s.mem.cairnPoison.contains (at_ o) || s.mem.isPoisoned (at_ o)
  let u := s.drop id
  let clean := fun (os : List Nat) => ∀ o ∈ os, bad o = false
  let first := fun (os : List Nat) (o : Nat) => o ∈ os ∧ bad o = true ∧ ∀ z ∈ os, bad z = true → o ≤ z
  let steps := fun (t : State) (W : List (Nat × (Nat → Nat))) (mark : Nat → Prop) => ∃ M : Nat → Memory, M 0 = s.mem ∧ t.mem = M W.length ∧ ∀ k h f, W[k]? = some (h, f) →
    (∀ z, z < h ∨ h + 4 ≤ z → (M (k + 1)).byte z = (M k).byte z) ∧ (M (k + 1)).nat h 4 = f ((M k).nat h 4) % 2 ^ 32 ∧
    (∀ z, z ∈ (M (k + 1)).cairnPoison ↔ z ∈ (M k).cairnPoison ∨ (z = h ∧ mark k))
  let same := fun (t : State) => { t with mem := s.mem, held := s.held, issues := s.issues } = u
  (s.item id = some (.mx m) → (∀ f ∈ s.flight, f.id < id → ∀ q, f.item = .mx q → ¬ (q.col = m.col ∧ q.core = m.core)) → (∀ f ∈ s.flight, s.queueRow m.col m.core f.item = false) →
    (∀ r b, m.kind = .ldb r b → let fb := b.block
      let K := kLog r.arr r.sparse
      let nb := r.ncols
      let w := codeBits (fbB fb)
      let byte := fun (x : Nat) => (s.scrByte r.team b.core x).toNat
      let poisoned := fun (x w k : Nat) => s.scrPoisoned r.team b.core (x + w * k / 8) ((w * k % 8 + w + 7) / 8) = true
      let scaled := isScaled (fbB fb) = true
      let tag := sparseTag (fbB fb)
      let total := K / 2 * nb
      let per := (sparseShape tag).2.2
      let L := (total + per - 1) / per
      let count := fun (l : Nat) => if l + 1 = L then total - per * (L - 1) else per
      let line := fun (l : Nat) => s.scrBytes r.team b.core (b.at_ + 128 * l) 128
      r.bfmt = fbB fb → r.blen = fbLen fb → r.sparse = fbSparse fb → nb = fbCols fb → r.arr < 4 → fbBad fb (some (nEff r.bfmt r.arr r.pair / 64)) = none →
      ∃ codes kept scales : List Nat, ∃ poison : List Bool, s.Brings (.mxLdbPerform id) (u.modCore m.col m.core fun k => { k with
          resident := some { r with codes := codes, kept := kept, scales := scales, poison := poison } }) ∧
        scales = (if scaled then (List.range (K / r.blen * nb)).map fun k => byte (b.scales + k) else []) ∧
        (r.sparse = false → kept = r.kept ∧ codes.length = K * nb ∧ ∀ k < K * nb, codes.getD k 0 = bitsOf (s.scrNat r.team b.core b.at_ (K * nb * w / 8)) (w * k) w ∧
          (poison.getD k false = true ↔ poisoned b.at_ w k ∨ (scaled ∧ poisoned b.scales 8 (k / nb / r.blen * nb + k % nb)))) ∧
        (r.sparse = true → (∀ l < L, sparseBad tag (count l) (line l) = false) → codes.length = total ∧ ∀ l < L, ∀ j < count l, let k := per * l + j
          codes.getD k 0 = bitsOf (leNat (line l)) (8 * (sparseShape tag).1 + w * j) w ∧ kept.getD k 0 = 4 * (k / (2 * nb)) + bitsOf (leNat (line l)) (64 + 2 * j) 2 ∧
          (poison.getD k false = true ↔ s.scrPoisoned r.team b.core (b.at_ + 128 * l) 128 = true ∨ (scaled ∧ poisoned b.scales 8 (kept.getD k 0 / r.blen * nb + k / 2 % nb))))) ∧
    (∀ fb ms R, m.kind = .joint fb ms → (s.core m.col m.core).resident = some R →
      let K := kLog R.arr R.sparse
      let N := nEff R.bfmt R.arr R.pair
      let per := K / R.blen
      let rows := fbRows fb
      let cells := fun (n : Nat) => if R.sparse = true then (List.range (K / 4)).flatMap fun g => [0, 1].map fun j => let i := 2 * (g * R.ncols + n) + j; (R.kept.getD i 0, R.codes.getD i 0, R.poison.getD i false)
        else (List.range K).map fun k => (k, R.codes.getD (k * R.ncols + n) 0, R.poison.getD (k * R.ncols + n) false)
      let column := fun (n : Nat) => if n < R.ncols then colBlocks R.bfmt R.blen K R.codebook ((cells n).map fun x => (x.1, x.2.1)) ((List.range per).map fun k => R.scales.getD (k * R.ncols + n) 0)
        else zeroBlocks R.blen K R.sparse
      let row := fun (D : AData) (r : Nat) => rowBlocks (fbA fb) R.blen D.codebook ((D.codes.drop (r * K)).take K) ((D.scales.drop (r * per)).take per)
      let dirty := fun (D : AData) (r k : Nat) => ((D.poison.drop (r * K)).take K).getD k false = true
      let outs := ms.flatMap fun x => (List.range rows).flatMap fun r => (List.range N).map fun n => (x, r, n)
      let data := fun (x : Member) => dataA s m.team fb x.src
      (∀ x ∈ outs, 2 ^ 42 ≤ s.cairnAt m.team x.1.cmap (x.1.cairn + 4 * (x.2.1 * N + x.2.2))) → (s.team m.team).col < 32 →
      (∀ x ∈ ms, x.src.core < 4 ∧ ∀ y ∈ x.src.rows ++ x.src.scales, y + 2 * x.src.klog ≤ 2 ^ 20) →
      ∃ t, exec (.jointOperation id) s = .next t ∧ same t ∧
        steps t (outs.map fun x => (s.cairnAt m.team x.1.cmap (x.1.cairn + 4 * (x.2.1 * N + x.2.2)), fun w => outputWord (fbAcc fb) (256 / R.blen) w (row (data x.1) x.2.1) (column x.2.2))) fun k => ∃ x, outs[k]? = some x ∧
          ((x.2.2 < R.ncols ∧ ∃ z ∈ cells x.2.2, z.2.2 = true) ∨ if R.sparse = true ∧ x.2.2 < R.ncols then ∃ z ∈ cells x.2.2, dirty (data x.1) x.2.1 z.1 else ∃ k, dirty (data x.1) x.2.1 k)) ∧
    (∀ (fb : BitVec 256) (src : ASource), let D := dataA s m.team fb src
      let w := codeBits (fbA fb)
      let K := src.klog
      let per := K / fbLen fb
      let poisoned := fun (x w k : Nat) => s.scrPoisoned m.team src.core (x + w * k / 8) ((w * k % 8 + w + 7) / 8) = true
      K % 8 = 0 → 0 < K → 0 < fbLen fb → K % fbLen fb = 0 → (src.scales = [] ∨ src.scales.length = src.rows.length) →
      D.codebook = src.book ∧ D.codes.length = src.rows.length * K ∧ D.scales.length = src.scales.length * per ∧
      (∀ r x, src.rows[r]? = some x → ∀ k < K, D.codes.getD (r * K + k) 0 = bitsOf (s.scrNat m.team src.core x (K * w / 8)) (w * k) w ∧
        (D.poison.getD (r * K + k) false = true ↔ poisoned x w k ∨ ∃ z, src.scales[r]? = some z ∧ poisoned z 8 (k / fbLen fb))) ∧
      (∀ r z, src.scales[r]? = some z → ∀ k < per, D.scales.getD (r * per + k) 0 = (s.scrByte m.team src.core (z + k)).toNat)) ∧
    (∀ o, m.kind = .zero o →
      let inside := fun (z : Nat) => ∃ k < 64, at_ (o + 64 * k) ≤ z ∧ z < at_ (o + 64 * k) + 64
      ∃ t, exec (.mxZeroPerform id) s = .next t ∧ same t ∧ (∀ z, inside z → t.mem.byte z = 0) ∧ (∀ z, ¬ inside z → t.mem.byte z = s.mem.byte z) ∧
        ∀ z, z ∈ t.mem.cairnPoison ↔ z ∈ s.mem.cairnPoison ∧ ¬ inside z) ∧
    (∀ o d ls k, m.kind = .acv o d ls k → s.Brings (.mxAcvPerform id) (s.setItem id (resultItem d (ls.map fun l =>
      ⟨l, BitVec.ofNat 64 (word (o + 8 * l) + word (o + 8 * l + 4) * 2 ^ 32), if bad (o + 8 * l) = true ∨ bad (o + 8 * l + 4) = true then some .line else none⟩) k true))) ∧
    (∀ o ls e sat, m.kind = .vac o ls e sat →
      let os := ls.flatMap fun l => [o + 8 * l.1, o + 8 * l.1 + 4]
      (∀ x, first os x → s.Brings (.mxVacPerform id) (u.asyncCause m.grp 0xB1 (2 ^ 63 + x))) ∧
      (clean os → ∃ t, exec (.mxVacPerform id) s = .next t ∧ same t ∧ steps t (ls.flatMap fun l => [0, 1].map fun k => (at_ (o + 8 * l.1 + 4 * k), fun w => let x := bitsOf l.2.toNat (32 * k) 32
        if e = 10 then fadd ⟨.f32, 0, false, false, false, false⟩ 0 w x else fit e sat (ival e w + ival e x))) fun _ => False)) ∧
    (∀ o x r, m.kind = .csum o x r →
      let rows := bv x 0 16
      let cols := bv x 16 16
      let off := fun (j k : Nat) => o + 4 * (k * bv x 32 16 + j)
      let tile := (List.range cols).flatMap fun j => (List.range rows).map fun k => off j k
      (∀ z, first tile z → s.Brings (.mxCsumPerform id) (u.wakeMoves.asyncCause m.grp 0xB1 (2 ^ 63 + z))) ∧
      let fold := fun (y : IReg) => if bv x 48 1 = 1 then { y with ipart := y.ipart + BitVec.ofInt 64 ((tile.map fun z => asSigned 32 (word z)).foldl (· + ·) 0) }
        else { y with fpart := (List.range cols).foldl (fun a j => BitVec.ofNat 64 (fadd ⟨.f64, 0, false, false, false, false⟩ 0 a.toNat (columnSum ((List.range rows).map fun k => word (off j k))))) y.fpart }
      (clean tile → s.Brings (.mxCsumPerform id) (u.modImage m.grp fun im => { im with i := vmod im.i r fold }).wakeMoves)) ∧
    (∀ o blk dests scale bias bar gens, m.kind = .epi o blk dests scale bias bar gens →
      let e := Epi.of blk
      let x := s.grp m.grp
      let os := (List.range e.rows).flatMap fun r => (List.range e.cols).map fun n => o + 4 * (r * e.cstride + n)
      let skipped := (dests.filter fun d => d = .skip).length * (e.rowBytes + e.scaleBytes)
      let done := State.epiRows id m e scale.toArray bias.toArray o bar dests.zipIdx u ⟨vget ⟨0, 0⟩ x.image.i e.csreg, gens⟩
      let v := if e.csum = true then done.1.modImage m.grp fun im => { im with i := vmod im.i e.csreg fun _ => done.2.reg } else done.1
      (∀ z, first os z → (bar = none → s.Brings (.mxEpiPerform id) (u.wakeMoves.asyncCause m.grp 0xB1 (2 ^ 63 + z))) ∧
        (∀ y, bar = some y → s.Brings (.mxEpiPerform id) ((u.place (.barError y 0)).wakeMoves.asyncCause m.grp 0xB1 (2 ^ 63 + z)))) ∧
      (clean os → (bar = none → s.Brings (.mxEpiPerform id) v.wakeMoves.sendAll) ∧
        (∀ y, bar = some y → let bytes := (v.barRead y.team y.core y.addr).kind = 1
          (bytes → skipped = 0 → s.Brings (.mxEpiPerform id) v.wakeMoves.sendAll) ∧
          (bytes → skipped ≠ 0 → s.Brings (.mxEpiPerform id) (v.place (.countdown y skipped none none)).wakeMoves.sendAll) ∧
          (¬ bytes → (∃ d ∈ dests, d ≠ .skip) → s.Brings (.mxEpiPerform id) v.wakeMoves.sendAll) ∧
          (¬ bytes → (∀ d ∈ dests, d = .skip) → s.Brings (.mxEpiPerform id) (v.rowDone id bar 0).wakeMoves.sendAll)))) ) ∧
  (∀ (r : Row), s.item id = some (.row r) → (∀ f ∈ s.flight, f.id < id → ∀ q, f.item = .row q → q.epi ≠ r.epi) →
    let parts := r.pieces.flatMap fun p => lineParts (p.2.length + 1) p.1 p.2
    let refused := fun (p : Nat × List Byte) => s.bufCheck r.team r.core p.1 p.2.length .store
    let written := fun (ps : List (Nat × List Byte)) => u.scrWrite r.team r.core ps false
    ((∀ p ∈ parts, refused p = none) → s.Brings (.epilogueRowArrival id) ((written parts).rowDone r.epi r.bar r.bytes)) ∧
    (∀ A p B c, parts = A ++ p :: B → (∀ q ∈ A, refused q = none) → refused p = some c → ∃ t fl, t = written (parts.filter fun q => (refused q).isNone) ∧
      (∀ f, f ∈ fl ↔ f ∈ t.flight ∧ ∀ q, f.item = .row q → q.epi ≠ r.epi) ∧
      (r.bar = none → s.Brings (.epilogueRowArrival id) (({ t with flight := fl } : State).asyncCause r.grp 0x81 c.2)) ∧
      (∀ y, r.bar = some y → s.Brings (.epilogueRowArrival id) ((({ t with flight := fl } : State).place (.barError y 0)).asyncCause r.grp 0x81 c.2)))) ∧
  (∀ (g : Nat) (b : Bool) (a : Arrival) (A B : List Arrival), let x := s.grp g
    let own := x.core
    let low := (s.team x.team).core
    (s.core x.col own).latches ++ (s.core x.col low).latches = A ++ a :: B → a.grp = g → a.slot = b → (∀ z ∈ A, ¬ (z.grp = g ∧ z.slot = b)) → x.out = false → x.swapwait ≠ 0 →
      x.swapwait.toNat ≤ s.cycles - a.at_ →
    let leave := fun (k : Core) => { k with latches := k.latches.filter fun z => decide (z ≠ a) }
    s.Brings (.gangTimeout g b) ((((s.modCore x.col own leave).modCore x.col low leave).modImage g fun im => im.modSlot b fun p => { p with prog := .start }).raise
      ⟨g, b, 0x91, a.gang.toNat, none, 0, a.lanes, a.insn, a.pc, false, false⟩)) ∧
  (∀ (ca cb len K w : Nat) (xs ys : List Nat), ca < 16 → cb < 16 → intCode ca = true → intCode cb = true → len ∈ [16, 32, 64] → K ∈ [256, 512, 1024, 4096] → xs.length = K → ys.length = K → w < 2 ^ 32 →
    let value := fun (c x : Nat) => match ownValue c [] x with
      | .fin neg m _ => if neg = true then -(m : Int) else m
      | _ => 0
    let sum := fun (l n : Nat) => ((List.range n).map fun k => value ca (xs.getD (l + k) 0) * value cb (ys.getD (l + k) 0)).foldl (· + ·) (0 : Int)
    let row := rowBlocks ca len [] xs []
    let col := colBlocks cb len K [] (ys.zipIdx.map fun y => (y.2, y.1)) []
    (((outputWord 1 (256 / len) w row col : Nat) : Int) - (w + sum 0 K)) % 2 ^ 32 = 0 ∧
    asSigned 32 (outputWord 2 (256 / len) w row col) = (List.range (K / 256)).foldl (fun a k => max (-2 ^ 31) (min (2 ^ 31 - 1) (a + sum (256 * k) 256))) (asSigned 32 w)) ∧
  (∀ (e : Epi) (width : Nat) (scale bias : Array Nat) (xs : List Nat) (st : EpiState), e.qnt = false → e.eround ≠ 5 →
    let f := fun (x n : Nat) =>
      let f := if e.cint = true then convertElem 4 10 f32Mode 0 x else x
      let f := if e.sclv = true then fmul f32Mode 0 f (scale.getD n 0) else f
      activate e.act (if e.biasv = true then fadd f32Mode 0 f (bias.getD n 0) else f)
    let exact := e.cint = true ∧ e.sclv = false ∧ e.biasv = false ∧ e.act = 0 ∧ e.ofmt < 8
    let y := fun (x n : Nat) => if exact then fit e.ofmt e.esat (asSigned 32 x) else if isFloat e.ofmt = true ∧ (unpack .f32 false (f x n)).isNan = true then (fmtOf e.ofmt).defNan
      else convertElem 10 e.ofmt ⟨fmtOf e.ofmt, e.eround, e.esat, false, false, false⟩ (vget 0 st.gens (n % width)) (f x n)
    (epiRow e width scale bias xs st).2.1 = xs.zipIdx.flatMap (fun p => leBytes (ewidth e.ofmt / 8) (y p.1 p.2)) ∧
    (e.csum = true → (epiRow e width scale bias xs st).1.reg = xs.zipIdx.foldl (fun i p => if exact then { i with ipart := i.ipart + BitVec.ofInt 64 (asSigned 32 p.1) }
      else { i with fpart := foldFloat 10 i.fpart (f p.1 p.2) }) st.reg))

/-- R342, R343, R344, R345, R347, R348, R349, R351, R352, R353, R355, Table 21-2: the checksum instructions fold, clear, compare and read invariant registers; `rgn.beg` records the group, `rgn.pres` copies lines, as its core's earlier accesses leave them, `rgn.end` commits, `rgn.abt` and a failed check end at one row of the table: a trap, queue level, or a rollback, which puts the preserved lines and the recorded image back. The same of a stream thread. -/
def Obligations.Regions : Prop :=
  (∀ (s : State) (g : Nat) (b : Bool) (h : Nat) (d a c : Reg) (p i : BitVec 1) (sp : BitVec 2) (n : BitVec 10), s.ReadyCore → s.cur = .slot g b →
    let x := s.grp g
    let sum : FMode := ⟨.f64, 0, false, false, false, false⟩
    let ireg := fun (r : Reg) => vget ⟨0, 0⟩ x.image.i r.toNat
    let idle := fun (r : Reg) => r.toNat < 8 ∧ ∀ f ∈ s.flight, f.id < s.nextId → foldInto g r.toNat f.item = false
    let folds := fun (r : Reg) (f : IReg → IReg) => s.advance.modGroup g fun y => { y with image := { y.image with i := vmod y.image.i r.toNat f } }
    let empty : Prop := (∃ r < 64, (vget VReg.zero x.image.v r).full = false) ∨ ∃ r < 64, (vget SReg.zero x.image.s r).full = false
    let regions := fun (rs : List Region) => s.advance.modGroup g fun y => { y with regions := rs }
    let traps := fun (j : Instr) (cause detail : Nat) => s.Handles g b h → ∃ t, exec j s = .next t ∧
      s.Enters t g b h { cause := cause, detail := detail, lanes := s.slotMask, insn := insnWord j % 2 ^ 32, pc := s.pc }
    let lower := fun (j : Instr) (cause back detail : Nat) =>
      (x.regions = [] → back ≠ 0xFF → traps j cause detail) ∧
      (∀ r rs, x.regions = r :: rs → x.privileged = false →
        let queueLevel := fun (c : Nat) => s.Brings j ((s.modGroup g fun y => { y with walkFault := none }).queueLevel ⟨g, b, c, back, none, 0, s.slotMask, insnWord j, s.pc, false, false⟩)
        (r.sealed = true → queueLevel 0xB4) ∧ (r.sealed = false → r.retry = 2 → queueLevel 0xB5) ∧
        (r.sealed = false → r.retry ≠ 2 → s.mem.wf = true → (r.undo.map (·.line)).Nodup → (∀ u ∈ r.undo, u.line % 128 = 0 ∧ u.bytes.length = 128 ∧ ∀ k < 128, s.roByte (u.line + k) = false ∧ s.roHalf (u.line + k) = false) →
          s.noLate (lateOf x.col x.core none) = true →
          let leave := fun (k : Core) => { k with latches := k.latches.filter fun z => decide (z.grp ≠ g) }
          let restart := fun (q : Path) => { q with prog := .start, waitFrom := none }
          ∃ t, exec j s = .next t ∧ (∀ u ∈ r.undo, t.mem.bytes u.line 128 = u.bytes ∧ t.mem.isPoisoned u.line = u.poisoned) ∧
            (∀ z, (∀ u ∈ r.undo, z < u.line ∨ u.line + 128 ≤ z) → t.mem.byte z = s.mem.byte z) ∧
            t.groups = s.groups.map (fun y => if y.id = g then { y with
              image := { r.image with slotA := r.image.slotA.map restart, slotB := r.image.slotB.map restart }
              regions := { r with retry := r.retry + 1 } :: rs
              rollbacks := min (y.rollbacks + 1) 65535
              lastCause := back
              susp := .none
              replay := none
              frameWait := none
              walkFault := none
              waitFrom := none } else y) ∧
            t.flight = (s.flight.filter fun f => !pendingOf g r.openedAt f).map (forget g r.openedAt) ∧
            (∀ dst ls w m k id, r.openedAt ≤ id → destOf (· = g) dst = true → ⟨id, .result dst ls w m k⟩ ∉ t.flight) ∧
            t.cols.map Column.noL1 = ((s.modCore x.col x.core leave).modCore x.col (s.team x.team).core leave).cols.map Column.noL1 ∧
            { t with mem := s.mem, groups := s.groups, flight := s.flight, cols := s.cols, held := s.held, issues := s.issues } = s))
    (idle d → s.VSrc a.toNat → isElem s.etype = true →
      let xs := s.lanes.flatMap fun l => (List.range (64 / ewidth s.etype)).map fun e => elemOf (s.vlane a.toNat l) (ewidth s.etype) e
      s.Does (.csacc d a) (folds d fun y => xs.foldl (fun y z => if isInt s.etype = true then { y with ipart := y.ipart + BitVec.ofInt 64 (ival s.etype z) }
        else { y with fpart := BitVec.ofNat 64 (fadd sum 0 y.fpart.toNat (convertElem s.etype 11 sum 0 z)) }) y)) ∧
    (idle d → s.Does (.csclr d) (folds d fun _ => ⟨0, 0⟩)) ∧
    (d.toNat < 8 → ¬ idle d → s.Waits (.csclr d)) ∧
    (idle a → idle d → s.SSrc c.toNat →
      let u := ireg a
      let v := ireg d
      let t := s.sval c.toNat
      let cause := fun (bad : Bool) => if bad = true then lower (.cschk a d c) 0xB0 0xB0 (a.toNat + 16 * d.toNat) else s.Does (.cschk a d c) s.advance
      ((unpack .f64 false t.toNat).isNan = true ∨ (t.getLsbD 63 = true ∧ t.toNat ≠ 2 ^ 63) → traps (.cschk a d c) 0x21 0) ∧
      (∀ nt mt et, unpack .f64 false t.toNat = .fin nt mt et → (nt = true → t.toNat = 2 ^ 63) →
        (u.ipart ≠ v.ipart → cause true) ∧
        (∀ x y, u.ipart = v.ipart → unpack .f64 false u.fpart.toNat = x → unpack .f64 false v.fpart.toNat = y →
          (x.isNan = true ∨ y.isNan = true → cause true) ∧
          (∀ z w, x = .inf z → y = .inf w → cause (decide (z ≠ w))) ∧
          (∀ z m e w, (x = .inf z ∧ y = .fin w m e) ∨ (x = .fin w m e ∧ y = .inf z) → cause true) ∧
          (∀ z m e z' m' e' k, x = .fin z m e → y = .fin z' m' e' → k ≤ e → k ≤ e' → k ≤ et →
            let at_ := fun (neg : Bool) (m : Nat) (e : Int) => (if neg = true then -(m : Int) else m) * 2 ^ (e - k).toNat
            cause (decide (at_ false mt et < ((at_ z m e - at_ z' m' e').natAbs : Int))))))) ∧
    (s.SDst d.toNat → idle a → ∃ t, exec (.csmov d a p) s = .next t ∧ t.SGets d.toNat (if p = 1 then (ireg a).fpart else (ireg a).ipart) ∧ t.pc = s.pc + 4 ∧ Kept { s := [d.toNat] } s t) ∧
    (s.SDst d.toNat → a.toNat < 8 → ¬ idle a → s.Does (.csmov d a p) ((s.advance.emptyS d.toNat).place (.csmov (.sreg g d.toNat) a.toNat p.toNat none))) ∧
    ((empty → s.Waits (.rgnBeg i)) ∧ (¬ empty → 8 ≤ x.regions.length → traps (.rgnBeg i) 0xB2 9) ∧
      (¬ empty → x.regions.length < 8 → s.Does (.rgnBeg i) (regions (⟨(s.advance.grp g).image, [], false, decide (i = 1), 0, s.nextId⟩ :: x.regions)))) ∧
    (s.SSrc a.toNat → sp.toNat < 3 → x.regions = [] → traps (.rgnPres a sp n) 0xB2 0) ∧
    (∀ r rs (ps fresh : List Nat), s.SSrc a.toNat → sp.toNat < 3 → x.regions = r :: rs → ps.length = n.toNat →
      let q := s.sval a.toNat
      let start := segBase (s.seg 0) + ptrOff q
      let at_ := fun (k : Nat) => (⟨0, 0, q, ptrOff q + 128 * k, 128⟩ : Req)
      s.Allowed (if sp.toNat = 2 then 0 else sp.toNat + 1) 0 128 ⟨0, 0, q, ptrOff q, 128 * n.toNat⟩ →
      (sp.toNat = 2 → s.bufCheck x.team x.core start (128 * n.toNat) .load = none ∧ s.bufHolds x.team x.core start (128 * n.toNat) = false ∧ s.scrComing start (128 * n.toNat) = false ∧
        ∀ k z, ps[k]? = some z → z = scrHome x.col x.core (start + 128 * k)) →
      (sp.toNat < 2 → ∀ k z, ps[k]? = some z → s.Reaches (sp.toNat + 1) 0 128 (at_ k) [(z, 128)]) →
      fresh.Pairwise (· < ·) → (∀ l, l ∈ fresh ↔ l ∈ ps ∧ ∀ u ∈ r.undo, u.line ≠ l) →
      let here := ps.map fun z => (z, 128)
      s.noLate (fun l => lateOf x.col x.core none l && meetPieces (latePieces l) here) = true → s.clash x.col x.core none s.nextId false here = false →
      let used := (x.regions.map fun y => y.undo.length).sum + fresh.length
      (used ≤ 64 → s.Does (.rgnPres a sp n) (regions ({ r with undo := r.undo ++ fresh.map fun l => ⟨l, s.mem.bytes l 128, s.mem.isPoisoned l⟩ } :: rs))) ∧
      (64 < used → fresh ≠ [] → traps (.rgnPres a sp n) 0xB3 (128 * n.toNat))) ∧
    (x.regions = [] → traps .rgnEnd 0xB2 0 ∧ traps .rgnAbt 0xB2 0) ∧
    (∀ r, x.regions = [r] → s.Does .rgnEnd (regions [])) ∧
    (∀ r o rs, x.regions = r :: o :: rs → s.Does .rgnEnd (regions ({ o with
      undo := o.undo ++ r.undo.filter fun u => decide (∀ w ∈ o.undo, w.line ≠ u.line)
      sealed := o.sealed || r.sealed } :: rs))) ∧
    lower .rgnAbt 0xFF 0xFF 0) ∧
  (∀ (s : State) (c k : Nat) (i : BitVec 1), s.ReadyStream → s.cur = .thread c k →
    let h := s.thread c k
    let regions := fun (rs : List SRegion) => s.advance.modThread c k fun y => { y with regions := rs }
    let u := s.modThread c k fun y => { y with walkFault := none }
    let faults := fun (j : Instr) (cause detail : Nat) => s.Brings j (u.streamFault c k cause detail none s.pc (insnWord j) s.nextId)
    (h.regions.length < 2 → s.Does (.rgnBeg i) (regions (⟨h.s, h.flags, s.pc + 4, h.recs, h.bar, false, decide (i = 1), 0, s.nextId⟩ :: h.regions))) ∧
    (2 ≤ h.regions.length → faults (.rgnBeg i) 0xB2 3) ∧
    (h.regions = [] → faults .rgnEnd 0xB2 0 ∧ faults .rgnAbt 0xB2 0) ∧
    (∀ r, h.regions = [r] → s.Does .rgnEnd (regions [])) ∧
    (∀ r o rs, h.regions = r :: o :: rs → s.Does .rgnEnd (regions ({ o with sealed := o.sealed || r.sealed } :: rs))) ∧
    (∀ r rs, h.regions = r :: rs → (r.sealed = true → faults .rgnAbt 0xB4 0xFF) ∧ (r.sealed = false → r.retry = 2 → faults .rgnAbt 0xB5 0xFF) ∧
      (r.sealed = false → r.retry ≠ 2 → s.Brings .rgnAbt (s.modThread c k fun y => { y with walkFault := none, st := .rolling 0xFF ⟨0xFF, 0, none, s.pc, insnWord .rgnAbt, 0⟩, susp := .none }))))

/-! ### Pages -/

/-- R306, R307, R309, R310, R311, R312, R313, R314, R316, R329, R333, R354, Tables 19-3 to 19-5: a walk reads the entry of one level after the other; on a VALID leaf it fills the TLBs of those who wait and they replay; on a leaf in another state they meet its cause; on PAGE_NOT_PRESENT a record is posted once the ring has room, and a resolve ends the wait; a privileged group does not wait (R329, R333), and a trap whose frame waited goes on with its wake. A poisoned entry kills the context. Shootdowns, whose word is counted down once every access through a removed entry has been performed, and writes of entries. -/
def Obligations.Pages : Prop :=
  ∀ (s : State) (col port id : Nat) (w : Walk) (A B : List Walk),
  let walks := (s.col col).walks
  let given := fun (f : Option (Nat × Nat)) (off : Nat) => f.map fun c => (⟨off, c.1, c.2⟩ : WalkFault)
  let ends := fun (f : Option (Nat × Nat)) (u : State) (x : Waiter) => match x with
    | .slot g => match (u.grp g).frameWait with
      | some r => let v := u.modGroup g fun y => { y with susp := .none, frameWait := none }
        if f = none then v.enterTrap r else v.stopGroup g
      | none => u.modGroup g fun y => match y.susp with
        | .walk off => { y with susp := .none, walkFault := given f off }
        | _ => y
    | .thread k => match (u.thread col k).frameWait with
      | some r => let v := u.modThread col k fun y => { y with susp := .none, frameWait := none }
        if f = none then v.streamFault col k r.cause r.detail r.addr r.pc r.insn r.upto else v.streamEnd col k r.upto
      | none => u.modThread col k fun y => match y.susp with
        | .walk off => { y with susp := .none, walkFault := given f off }
        | _ => y
    | .item n => match f, u.item n with
      | some c, some (.xfer z) => u.setItem n (.xfer { z with walkFault := some ⟨z.walkOff, c.1, c.2⟩ })
      | some c, some (.remote r) => u.setItem n (.remote { r with answer := some (0, some (.denied c.1), false) })
      | some c, some (.brixel _ q) => let v := u.drop n
        { v with outbox := v.outbox ++ [.refused q.src q.id c.1] }
      | _, _ => u
  let wake := fun (f : Option (Nat × Nat)) (u : State) => (w.waiters.foldl (ends f) u).retryFrames col
  let privileged := fun (x : Waiter) => match x with
    | .slot g => (s.grp g).privileged
    | _ => false
  let cmd : State := { s with submitted := s.submitted.tail }
  let mine := port < 2 ∧ s.portCarries port = true ∧ s.submitted.head? = some port
  let without := fun (u : State) => u.modCol col fun c => { c with walks := c.walks.filter fun z => decide (z.fid ≠ w.fid) }
  let becomes := fun (u : State) (x : Walk) => u.modCol col fun c => { c with walks := c.walks.map fun z => if z.fid = x.fid then x else z }
  let freed := cmd.modCol col fun c => { c with ring := c.ring.filter fun r => decide (bv r 0 5 ≠ w.fid) }
  let answered := fun (ok : Bool) (u : State) => ({ u with mails := u.mails.modify port fun m => { m with status := some ok }, outbox := u.outbox ++ [.status port ok] } : State)
  let waits := fun (v : State) (x : Walk) (e : Word) (l : Nat) (bad : Bool) => ∃ r : BitVec 256,
    s.Brings (if w.st = .walking then .walkComplete col w.fid else .faultRecordPost col w.fid)
      (let u := (becomes v { x with st := .absent e l bad true }).modCol col fun c => { c with ring := c.ring ++ [r] }
      { u with outbox := u.outbox ++ [.notify col w.fid] }) ∧
    bv r 0 5 = w.fid ∧ bv r 5 6 = w.ctx % 64 ∧ bv r 11 5 = col % 32 ∧ bv r 34 2 = (l - 1) % 4 ∧ bv r 36 1 = bit bad ∧ bv r 37 1 = bit w.remote.isSome ∧
    bv r 38 2 = w.kind % 4 ∧ bv r 48 8 = min x.waiters.length 255 ∧ bv r 64 64 = x.time % 2 ^ 64 ∧ bv r 162 10 = (w.remote.getD (0, 0)).1 % 2 ^ 10 ∧
    bv r 172 20 = (w.remote.getD (0, 0)).2 % 2 ^ 20 ∧ bv r 192 48 = w.off % 2 ^ 48
  (walks = A ++ w :: B → (∀ z ∈ A ++ B, z.fid ≠ w.fid) → w.fid < 32 →
    let walk := walkTable s w.ctx col w.off
    (w.st = .walking → walk = .struck → s.Brings (.walkComplete col w.fid) (s.killCtx w.ctx)) ∧
    (∀ e l a, w.st = .walking → walk = .leaf e l a →
      let size := 2 ^ levelShift l
      let entry : TlbEntry := ⟨w.ctx, w.off / size * size, size, BitVec.ofNat 64 e⟩
      let put := fun (n : Nat) (tlb : List TlbEntry) => (entry :: tlb.filter fun t => decide (t ≠ entry)).take n
      let fill := fun (u : State) (x : Waiter) => match x with
        | .slot g => u.modCore col (u.grp g).core fun k => { k with tlb := put 256 k.tlb }
        | _ => u.modCol col fun c => { c with tlb := put 64 c.tlb }
      (pteState e = 1 → s.Brings (.walkComplete col w.fid)
        (wake none (w.waiters.foldl fill ((without s).modCtx w.ctx fun c => { c with pages := setPut c.pages (8 * a + l) })))) ∧
      (pteState e = 2 → s.Brings (.walkComplete col w.fid) (wake (some (0x63, e)) (without s))) ∧
      (pteState e = 3 ∨ pteState e = 4 → s.Brings (.walkComplete col w.fid) (wake (some (0x62, e)) (without s)))) ∧
    (∀ e l a bad, w.st = .walking → walk = .absent e l a bad →
      let x := { w with st := .absent (BitVec.ofNat 64 e) l bad false, time := s.time, waiters := w.waiters.filter fun y => !privileged y }
      let v := (w.waiters.filter privileged).foldl (ends (some (0x60, e))) (becomes s x)
      ((v.col col).ring.length < 64 → waits v x (BitVec.ofNat 64 e) l bad) ∧ (64 ≤ (v.col col).ring.length → s.Brings (.walkComplete col w.fid) v)) ∧
    (∀ e l bad, w.st = .absent e l bad false → (s.col col).ring.length < 64 → waits s w e l bad) ∧
    (∀ e l bad, mine → w.st = .absent e l bad true →
      s.Brings (.retry port col w.fid) (answered true (becomes freed { w with st := .walking })) ∧
      s.Brings (.fault port col w.fid) (answered true (wake (some (0x60, e.toNat)) (without freed))))) ∧
  (∀ u : State, (∀ g ∈ u.groups, g.frameWait = none) → (∀ k < 16, (u.thread col k).frameWait = none) → u.retryFrames col = u) ∧
  (∀ fid, mine → (∀ z ∈ walks, z.fid = fid → ∀ e l bad, z.st ≠ .absent e l bad true) →
    s.Brings (.retry port col fid) (answered true cmd) ∧ s.Brings (.fault port col fid) (answered true cmd)) ∧
  (∀ (ctx off n : Nat) (at_ e : Nat → Nat), n ≤ 4 → at_ 0 = bv (s.ctx ctx).record 448 64 + 8 * s.colNum ctx col → (∀ k ≤ n, e k = s.mem.nat (at_ k) 8) →
    (∀ k < n, s.mem.isPoisoned (at_ k) = false ∧ malformed k (e k) = false ∧ pteLeaf (e k) = false ∧ pteState (e k) = 1 ∧
      at_ (k + 1) = talHome col (ptePa (e k) + 8 * [bitsOf off 39 9, bitsOf off 30 9, bitsOf off 21 9, bitsOf off 16 5].getD k 0)) →
    walkTable s ctx col off = if s.mem.isPoisoned (at_ n) = true then .struck
      else if malformed n (e n) = true then .absent (e n) n (at_ n) true
      else if pteLeaf (e n) = true ∧ pteState (e n) ≠ 0 ∧ pteState (e n) ≠ 5 then .leaf (e n) n (at_ n)
      else if pteLeaf (e n) = true ∨ pteState (e n) ≠ 1 then .absent (e n) n (at_ n) false
      else walkTable s ctx col off) ∧
  (∀ (block : BitVec 256), mine →
    let ctx := bv block 0 6
    let base := bv block 144 48
    let npg := bv block 112 32
    let named := (List.range 32).filter fun c => block.getLsbD (80 + c)
    let cnt := bv block 192 64
    let keeps := fun (t : TlbEntry) => !(decide (t.ctx = ctx) && (decide (npg = 0) || (decide (t.base < base + npg * 65536) && decide (base < t.base + t.size))))
    let shot := fun (c : Column) => { c with tlb := c.tlb.filter keeps, cores := c.cores.map fun k => { k with tlb := k.tlb.filter keeps } }
    let ok := (s.ctx ctx).st ∉ [.unused, .killed, .quarantined] ∧ (∀ c ∈ named, c < s.ncol ctx) ∧ bv block 6 74 = 0 ∧ base % 65536 = 0
    let gone := fun (c : Column) => ((c.tlb ++ c.cores.toList.flatMap fun k => k.tlb).filter fun t => !keeps t).map fun t => (t.base, t.size)
    (¬ ok → s.Brings (.shootdown port block) (answered false cmd)) ∧
    (ok → s.noLate (fun l => decide (l.col ∈ named.map (s.colOf ctx))) = true → ∃ t, exec (.shootdown port block) s = .next t ∧ t.mem = s.mem.storeNat cnt 8 named.length ∧ t.cols.length = s.cols.length ∧
      (∀ c < s.cols.length, t.col c = if c ∈ named.map (s.colOf ctx) then shot (s.col c) else s.col c) ∧
      t.flight = s.flight ++ (named.zipIdx.map fun x => ⟨s.nextId + x.2, .shootdown (s.colOf ctx x.1) ctx base npg cnt (gone (s.col (s.colOf ctx x.1)))⟩) ∧ t.nextId = s.nextId + named.length ∧
      { t with mem := s.mem, cols := s.cols, flight := s.flight, nextId := s.nextId, held := s.held, issues := s.issues } = answered true cmd)) ∧
  (∀ c ctx base npg cnt gone, s.item id = some (.shootdown c ctx base npg cnt gone) → s.usesGone c ctx id gone = false →
    s.Brings (.shootdownColumnDone id) (({ s with mem := s.mem.storeNat cnt 8 ((s.mem.nat cnt 8 + (2 ^ 64 - 1)) % 2 ^ 64) } : State).drop id)) ∧
  (∀ addr (entry : Word), mine →
    let old := s.mem.nat addr 8
    let shut := pteLeaf old = true ∧ (pteState old = 3 ∨ pteState old = 4)
    (shut → s.Brings (.leafWrite port addr entry) (answered false cmd)) ∧
    (¬ shut → s.Brings (.leafWrite port addr entry) (answered true { cmd with mem := s.mem.storeNat addr 8 entry.toNat })))

/-! ### Queues, launches, contexts -/

/-- R283, R284, R286–R289, R293–R296, R298–R303, Tables 17-2 to 17-4 and 18-4: the engine examines heads and dispatches; a launch waits for its dependences, is checked and admitted, its teams are placed with their groups in the state of a start, each at the lowest place that has room and is not kept, and it completes once its work is done and its release has completed, DONE or, where its work was stopped, FAILED; each end writes a status word and settles the queue. The commands of queues and of the ridge partition. -/
def Obligations.QueuesAndLaunches : Prop :=
  ∀ (s : State) (q l c port cores : Nat),
  let answered := fun (ok : Bool) (u : State) => ({ u with mails := u.mails.modify port fun m => { m with status := some ok }, outbox := u.outbox ++ [.status port ok] } : State)
  let cmd : State := { s with submitted := s.submitted.tail }
  let status := fun (u : State) (q t st detail : Nat) => ({ u with
    mem := u.mem.storeNat ((u.queue q).statPa + 8 * (t % 2 ^ ((u.queue q).log2sz + 4))) 8 (st + detail % 2 ^ 24 * 2 ^ 8 + t % 2 ^ 32 * 2 ^ 32) } : State)
  let engine := fun (u : State) (q : Nat) (f : Queue → Queue) =>
    let v : State := { u with queues := u.queues.modify q f }
    let y := v.queue q
    let at_ := recQtabPa u.record + 64 * q
    ({ v with mem := v.mem.store [(at_ + 24, leBytes 8 y.head), (at_ + 35, leBytes 1 y.errCode ++ leBytes 4 y.errTick ++
      leBytes 1 (match y.st with | .idle => 0 | .running => 1 | .blocked => 2 | .error => 3 | .disabled => 4))] false } : State)
  let ready := fun (u : State) (q : Nat) =>
    let y := u.queue q
    let w := u.mem.nat (y.statPa + 8 * (y.head % 2 ^ (y.log2sz + 4))) 8
    decide (w % 256 = 1) && decide (w / 2 ^ 32 % 2 ^ 32 = y.head % 2 ^ 32)
  let alive := fun (x : Launch) => decide (x.st ∈ [LState.waitingDeps, .admitting, .running, .draining, .failing])
  let settle := fun (u : State) (q : Nat) =>
    let y := u.queue q
    let inFlight := u.launches.any fun x => decide (x.queue = q) && alive x
    let waits := u.launches.any fun x => decide (x.queue = q) && decide (x.st ∈ [LState.waitingDeps, .admitting])
    if y.st = .disabled then u
    else if y.disabling = true ∧ inFlight = false then engine u q fun z => { z with st := .disabled, disabling := false, wake := false }
    else
      let st := if y.st = .blocked ∧ waits = false then .running else y.st
      engine u q fun z => { z with st := if st = .running ∧ inFlight = false ∧ ready u q = false then .idle else st, wake := true }
  let ends := fun (u : State) (x : Launch) (st : LState) (code detail : Nat) =>
    let v := status (u.modLaunch x.id fun z => { z with st := st }) x.queue x.ticket code detail
    let y := v.queue x.queue
    let failed := fun (v : State) => v.modCtx y.ctx fun z => if z.st = .active then { z with st := .faulted } else z
    let v := if (code = 4 ∨ code = 7) ∧ y.st ≠ .disabled then failed (if y.st = .error then v else engine v x.queue fun z => { z with st := .error, errTick := x.ticket % 2 ^ 32, errCode := code }) else v
    settle v x.queue
  let d := s.queue q
  let x := s.launch l
  -- examination
  (∀ i ∈ [Instr.queueExamine q, .queuePoll q], q < 256 → s.canExamine q = true → s.served q = true →
    (i = .queueExamine q → d.wake = true) → (i = .queuePoll q → d.st = .idle ∧ d.examined + 64000 ≤ s.time) →
    let u : State := { s with queues := s.queues.modify q fun z => { z with wake := false, examined := s.time } }
    let struck := s.queueStruck q
    (struck = true → s.Brings i (u.killCtx d.ctx)) ∧
    (struck = false → ready s q = true → d.st = .error → s.Brings i (engine (status u q d.head 5 (d.errTick % 2 ^ 23)) q fun z => { z with head := (z.head + 1) % 2 ^ 64, wake := true })) ∧
    (struck = false → ready s q = true → d.st ≠ .error →
      let fresh : Launch := { Launch.blank with
        id := s.nextId, queue := q, ticket := d.head, ctx := d.ctx, st := .waitingDeps, record := BitVec.ofNat 1024 (s.mem.nat (d.ringPa + 128 * (d.head % 2 ^ (d.log2sz + 4))) 128) }
      let v := engine (status u q d.head 2 0) q fun z => { z with st := .blocked, head := (z.head + 1) % 2 ^ 64, wake := true }
      s.Brings i { v with launches := v.launches ++ [fresh], nextId := v.nextId + 1, lastQueue := q }) ∧
    (struck = false → ready s q = false → s.Brings i (if d.st = .running ∧ (s.launches.any fun x => decide (x.queue = q) && alive x) = false then engine u q fun z => { z with st := .idle } else u))) ∧
  -- dependences and admission
  (x.st = .waitingDeps →
    let i := Instr.launchAdmission l
    let n := s.ncol x.ctx
    let deps := ((List.range 4).map fun k => bv x.record (384 + 64 * k) 64).filter fun d => d.testBit 63
    let foreign := fun (d : Nat) => (s.queue (d / 2 ^ 32 % 2 ^ 8)).ctx ≠ x.ctx
    let word := fun (d : Nat) =>
      let y := s.queue (d / 2 ^ 32 % 2 ^ 8)
      s.mem.nat (y.statPa + 8 * (d % 2 ^ 32 % 2 ^ (y.log2sz + 4))) 8
    let later := fun (d : Nat) => (word d / 2 ^ 32 % 2 ^ 32 + 2 ^ 32 - d % 2 ^ 32) % 2 ^ 32
    let met := fun (d : Nat) => (later d = 0 ∧ word d % 256 ∈ [3, 6]) ∨ (0 < later d ∧ later d ≤ 2 ^ 31)
    let failed := fun (d : Nat) => later d = 0 ∧ word d % 256 ∈ [4, 5, 7]
    let error := fun (reason : Nat) => s.Brings i (ends s x .error 7 reason)
    ((∃ d ∈ deps, foreign d) → error 4) ∧
    ((∀ d ∈ deps, ¬ foreign d) →
      (∀ A d B, deps = A ++ d :: B → (∀ e ∈ A, met e) → failed d → (∀ e ∈ B, met e ∨ failed e) → s.Brings i (ends s x .flushed 5 (2 ^ 23 + d % 2 ^ 23))) ∧
      ((∀ d ∈ deps, met d) →
        (s.recordBad x = true → error 1) ∧
        (s.recordBad x = false →
          (s.readGrid x = .error .struck → s.Brings i (s.killCtx x.ctx)) ∧ (s.readGrid x = .error .fault → error 1) ∧
          (∀ g, s.readGrid x = .ok g →
            let bad := ∃ k < 32, 65536 < g.getD k 0 ∨ (g.getD k 0 ≠ 0 ∧ n ≤ k)
            let used := (List.range 32).filter fun k => decide (g.getD k 0 ≠ 0)
            let tables := (List.range n).mapM fun k => if g.getD k 0 = 0 then .ok ([], [], []) else s.readTables x g (s.colOf x.ctx k)
            (bad → error 2) ∧ (¬ bad → used = [] → s.Brings i (ends s x .empty 6 0)) ∧
            (¬ bad → used ≠ [] →
              (tables = .error .struck → s.Brings i (s.killCtx x.ctx)) ∧ (tables = .error .fault → error 6) ∧
              (∀ ts, tables = .ok ts →
                let dead := ∃ k ∈ used, (s.col (s.colOf x.ctx k)).dead = true ∨ s.cols.length ≤ s.colOf x.ctx k
                let large := (∃ k ∈ used, s.neverFits x (s.colOf x.ctx k) = true) ∨ s.tooLarge x g = true
                let read := s.touchTables x g
                { read with ctxs := s.ctxs } = s ∧ (dead → s.Brings i (ends read x .error 7 5)) ∧ (¬ dead → large → s.Brings i (ends read x .error 7 3)) ∧
                (¬ dead → ¬ large → s.Brings i (read.modLaunch x.id fun z => { z with
                  st := .admitting, grid := g.take n, placed := List.replicate n 0, admitted := true
                  bufs := ts.map fun t => t.1, chans := ts.map fun t => t.2.1, xsets := ts.map fun t => t.2.2 }))))))))) ∧
  -- placement
  (let k := s.colNum x.ctx c
   let i := Instr.teamPlacement l c
   let dead := (s.col c).dead = true ∨ s.cols.length ≤ c
   s.power = .on → s.mayPlace x = true → s.colOf x.ctx k = c → x.placed.getD k 0 < x.grid.getD k 0 →
    (dead → s.Brings i (ends (s.stopLaunch l) x .error 7 5)) ∧
    (¬ dead → s.imageStruck x = true → s.Brings i (s.killCtx x.ctx)) ∧
    (∀ u, ¬ dead → s.imageStruck x = false → s.writeImages x = some u →
      let y := u.launch l
      let kept := fun (core : Nat) => u.keptBack y c (if y.pairs = true then [core, core + 1] else [core])
      (∀ v, x.coop = true ∨ x.ridge = true → u.placeAll l = some v → s.Brings i v) ∧
      (∀ A core B r, x.coop = false → x.ridge = false → u.placesFor y c = A ++ core :: B → (∀ a ∈ A, kept a = true ∨ u.roomAt y c a = none) → kept core = false →
        u.roomAt y c core = some r → s.Brings i (u.placeTeam y k core r.1 r.2)))) ∧
  (∀ (y : Launch) (k core scr cairn : Nat), (∀ t ∈ s.teams, t.id ≠ s.nextId) →
    let u := s.placeTeam y k core scr cairn
    let col := s.colOf y.ctx k
    let tid := y.placed.getD k 0
    let default := fun (j : Nat) => BitVec.ofNat 64 (s.mem.nat (bv (s.ctx y.ctx).record 384 64 + 8 * j) 8)
    let seg := fun (base bytes : Nat) => BitVec.ofNat 64 (base / 8192 * 2 ^ 29 + bytes / 128)
    u.nextId = s.nextId + 1 + y.ngroups ∧
    u.launches = (s.launches.map fun z => if z.id = y.id then { z with placed := z.placed.modify k (· + 1), st := if z.st = .admitting then .running else z.st } else z) ∧
    u.teams.getLast? = some { Team.blank with
      id := s.nextId, launch := y.id, ctx := y.ctx, col := col, tid := tid, core := core, pair := y.pairs, width := y.width, groups := y.ngroups
      scrBase := scr, scrBytes := y.scrb, cairnBase := cairn, cairnBytes := y.cairnb, chans := y.chans.getD k [], xsets := y.xsets.getD k []
      bufs := List.replicate (if y.pairs = true then 2 else 1) (y.bufs.getD k []), resident := true, exempt := s.exemptIn y k, ended := false } ∧
    (∀ h, h = core ∨ (y.pairs = true ∧ h = core + 1) → (u.core col h).l1 = []) ∧
    ∃ (stack : Nat) (gs : List Group), u.groups = s.groups ++ gs ∧ gs.length = y.ngroups ∧ ∀ j g, gs[j]? = some g →
      (g.core = core ∨ (y.pairs = true ∧ g.core = core + 1)) ∧
      g.einj = ((s.injections.find? fun n => decide (n.1 = y.ctx ∧ n.2.1 = s.colNum y.ctx col ∧ n.2.2.1 = tid ∧ n.2.2.2.1 = j)).map fun n => n.2.2.2.2).getD 0 ∧
      g = { Group.blank with
        id := s.nextId + 1 + j, team := s.nextId, launch := y.id, ctx := y.ctx, col := col, tid := tid, gid := j, core := g.core, width := y.width, vregs := y.nv, sregs := y.ns
        seg := #v[seg scr y.scrb, default 1, default 2, seg cairn y.cairnb, default 4, if y.argSeg = 0 then default 5 else y.argSeg, seg stack ((1024 + 576 * y.ngroups + 127) / 128 * 128), 0]
        trapbase := BitVec.ofNat 64 (bv (s.ctx y.ctx).record 160 32), swapwait := BitVec.ofNat 32 (bv (s.ctx y.ctx).record 224 32), frame := 1024 + 576 * j
        st := .active, einj := g.einj
        image := { Image.blank with
          slotA := some { Path.blank with pc := y.entry, mask := BitVec.ofNat 64 (2 ^ y.width - 1) }
          gens := Vector.ofFn fun (e : Fin 64) =>
            let z : BitVec 32 := 0x6A09E667 ^^^ (BitVec.ofNat 32 (s.colNum y.ctx col) <<< 24) ^^^ (BitVec.ofNat 32 tid <<< 16) ^^^ (BitVec.ofNat 32 j <<< 8) ^^^ BitVec.ofNat 32 e.val
            if e.val < y.width then (if z = 0 then 1 else z) else 0 } }) ∧
  -- completion
  (x.st = .failing → x.id = l → s.released l = true → s.Brings (.launchComplete l) (ends s x .failed 4 (x.cause.getD 0))) ∧
  (x.st = .draining → s.ranOut l = true → s.released l = true →
    s.Brings (.launchComplete l) (ends { s with
      teams := s.teams.map fun t => if t.launch = l then { t with resident := false, swapped := false, ended := true } else t
      cols := s.cols.map fun k => { k with cores := k.cores.map fun k => { k with perms := k.perms.filter fun p => decide (p.launch ≠ l) } } } x .done 3 0)) ∧
  -- commands
  (port < 2 → s.portCarries port = true → s.submitted.head? = some port →
    let b := BitVec.ofNat 512 (s.mem.nat (recQtabPa s.record + 64 * q) 64)
    let ring := bv b 0 64
    let words := bv b 64 64
    let size := 2 ^ (bv b 256 4 + 4)
    let owner := bv b 266 6
    let ok := q < 256 ∧ d.st = .disabled ∧ bv b 323 189 = 0 ∧ bv b 272 8 = 0 ∧ bv b 260 4 = 0 ∧ bv b 256 4 ≤ 12 ∧ ring % 128 = 0 ∧ words % 8 = 0 ∧
      (s.ctx owner).st ∈ [CState.created, .active] ∧ s.physSpan ring (128 * size) = true ∧ s.physSpan words (8 * size) = true
    let struck := s.mem.isPoisoned (recQtabPa s.record + 64 * q)
    (¬ ok → s.Brings (.queueEnable port q) (answered false cmd)) ∧
    (ok → struck = true → s.Brings (.queueEnable port q) (answered false (cmd.killCtx owner))) ∧
    (ok → struck = false → s.Brings (.queueEnable port q) (answered true ((engine cmd q fun z => { z with
      st := .idle, ctx := owner, prio := bv b 264 2, log2sz := bv b 256 4, head := bv b 128 64, statPa := words, ringPa := ring, wake := true, disabling := false
      examined := s.time }).modCtx owner fun z => if z.st = .created then { z with st := .active, held := 0 } else z))) ∧
    (256 ≤ q ∨ d.st = .disabled → s.Brings (.queueDisable port q) (answered false cmd)) ∧
    (q < 256 → d.st ≠ .disabled → s.Brings (.queueDisable port q) (answered true (settle { cmd with queues := s.queues.modify q fun z => { z with disabling := true } } q))) ∧
    (256 ≤ q ∨ d.st ≠ .error → s.Brings (.resetQueue port q) (answered false cmd)) ∧
    (q < 256 → d.st = .error → s.Brings (.resetQueue port q) (answered true (engine cmd q fun z => { z with st := .idle, wake := true }))) ∧
    (let held := ∃ t ∈ s.teams, t.resident = true ∧ t.col = c ∧ ∃ k < 4, 4 - max cores (s.col c).ridge ≤ k ∧ (k = t.core ∨ (t.pair = true ∧ k = t.core + 1))
     let ok := c < s.cols.length ∧ cores ≤ 2 ∧ ¬ held
     (¬ ok → s.Brings (.ridge port c cores) (answered false cmd)) ∧
     (ok → s.Brings (.ridge port c cores) (answered true (cmd.modCol c fun z => { z with ridge := cores })))))

/-- R124, R271, R272, R275–R280, R331, R334, R397, Table 16-2: the commands that create, destroy, kill and acknowledge a context, halt and resume a group, enable debugging and arm an injection; a quantum that expires, a pre-emption that has saved every team and thread, residency given again, quarantine, teams swapped out and back; the watchdog and the pre-emption of a handler. -/
def Obligations.Contexts : Prop :=
  ∀ (s : State) (port n id : Nat) (on : Bool),
  let answered := fun (ok : Bool) (u : State) => ({ u with mails := u.mails.modify port fun m => { m with status := some ok }, outbox := u.outbox ++ [.status port ok] } : State)
  let cmd : State := { s with submitted := s.submitted.tail }
  let x := s.ctx n
  let gone : Prop := x.st ∈ [CState.unused, .killed, .quarantined]
  let without := fun (k : Nat) => s.ctxs.filter fun y => decide (y.num ≠ k)
  let g := s.grp id
  let stands : Bool := match g.susp with
    | .walk _ => true
    | _ => decide (g.st = .trapped)
  let coresOf := fun (t : Team) => if t.pair = true then [t.core, t.core + 1] else [t.core]
  let save := fun (u : State) (id : Nat) =>
    let t := u.team id
    let at_ := fun (k : Nat) => scrHome t.col k t.scrBase
    let u := (u.teamGroups id).foldl State.writeStack (u.settle fun l => decide ((u.grp l.grp).team = id))
    (u.modTeam id fun z => { z with
      resident := false
      saved := (coresOf t).map fun k => u.mem.bytes (at_ k) t.scrBytes
      savedPoison := u.mem.poisoned.filter fun a => (coresOf t).any fun k => decide (at_ k ≤ a) && decide (a < at_ k + t.scrBytes)
      savedB := (u.core t.col t.core).resident.filter fun r => decide (r.team = id) }).modCore t.col t.core fun k =>
        { k with resident := k.resident.filter fun r => decide (r.team ≠ id) }
  let latches := fun (u : State) => ({ u with cols := u.cols.map fun k => { k with cores := k.cores.map fun y => { y with
    latches := y.latches.map fun a => if (u.grp a.grp).ctx = n ∧ u.ridgeLaunch (u.grp a.grp).launch = false then { a with at_ := u.cycles - a.at_ } else a } } } : State)
  let placed := fun (u : State) (ts : List Nat) (o : Bool) => ({ u with
    groups := u.groups.map fun y => if y.team ∈ ts ∧ y.st ≠ .exited then { y with out := o, waitFrom := none } else y } : State)
  -- commands
  (port < 2 → s.portCarries port = true → s.submitted.head? = some port →
    (∀ r : BitVec 512,
      let ok := n < 64 ∧ x.st = .unused ∧ bv r 322 30 = 0 ∧ bv r 256 16 = 0 ∧ bv r 148 12 = 0 ∧ bv r 6 122 = 0 ∧ bv r 272 48 % 65536 = 0 ∧ bv r 352 32 ≠ 0 ∧
        bv r 320 2 < s.split.length ∧ bv r 0 6 = n ∧
        (bv r 128 20 = 0 ∨ ∀ y ∈ s.ctxs, y.st ∈ [CState.created, .active, .preempted, .faulted] → bv y.record 128 20 ≠ bv r 128 20)
      (ok → s.Brings (.contextCreate port n r) (answered true { cmd with
        ctxTable := s.ctxTable.set n r
        ctxs := without n ++ [{ num := n, st := .created, record := r, debug := false, held := 0, expiry := false, expiryAt := 0, saved := [], pages := [] }] })) ∧
      (¬ ok → s.Brings (.contextCreate port n r) (answered false { cmd with ctxTable := s.ctxTable.set n r }))) ∧
    (∀ p ∈ [(Instr.contextDestroy port n, x.st = .created, { cmd with ctxs := without n }), (.kill port n, ¬ gone, cmd.killCtx n),
        (.acknowledge port n, x.st = .faulted, cmd.modCtx n fun y => { y with st := .active, held := 0 }),
        (.debuggingEnable port n on, ¬ gone, cmd.modCtx n fun y => { y with debug := on }),
        (.halt port id, s.hasGroup id = true ∧ g.st ≠ .exited ∧ g.halted = false, cmd.modGroup id fun y =>
          if stands = true then { y with halted := true } else { y with haltPending := true }),
        (.resume port id, g.halted = true, cmd.modGroup id fun y => { y with halted := false })],
      (p.2.1 → s.Brings p.1 (answered true p.2.2)) ∧ (¬ p.2.1 → s.Brings p.1 (answered false cmd))) ∧
    (∀ (col tid gid : Nat) (value : Word),
      let here := fun (y : Group) => decide (y.ctx = n ∧ y.col = s.colOf n col ∧ y.tid = tid ∧ y.gid = gid ∧ y.st ≠ .exited)
      let v := value &&& 0x30FFFFFFFFF00000
      let i := Instr.injection port n col tid gid value
      (gone ∨ s.ncol n ≤ col → s.Brings i (answered false cmd)) ∧
      (¬ gone → col < s.ncol n →
        (∀ y, s.groups.find? here = some y → s.Brings i (answered true (cmd.modGroup y.id fun z => { z with einj := v }))) ∧
        (s.groups.find? here = none → s.Brings i (answered true { cmd with injections := s.injections ++ [(n, col, tid, gid, v)] }))))) ∧
  -- residency
  (∀ y ∈ s.launches, x.st = .active → x.expiry = false → bv x.record 192 32 ≠ 0 → y.ctx ≠ n → s.wantsCores y (s.heldCores n) = true →
    s.ctxPrio n < (s.queue y.queue).prio ∨ (bv x.record 192 32 * 1000 ≤ x.held ∧ s.ctxPrio n ≤ (s.queue y.queue).prio) →
    s.Brings (.quantumExpiry n) (s.modCtx n fun z => { z with expiry := true, expiryAt := s.cycles })) ∧
  (s.canPreempt n = true →
    let out := (s.teams.filter fun t => decide (t.ctx = n) && (t.resident && !s.ridgeLaunch t.launch)).map fun t => t.id
    let keep := fun (u : State) (p : Nat × Nat) =>
      let h := u.thread p.1 p.2
      let k := (h.kick.map fun k => k.id).getD 0
      let own := fun (b : Buffer) => if b.owner = some p then { b with owner := some (p.1, 16 + k) } else b
      (({ u with teams := u.teams.map fun t => { t with bufs := t.bufs.map fun bs => bs.map own } } : State).modCtx n fun y => { y with saved := y.saved ++ [(p.1, h)] }).modThread p.1 p.2 Thread.freed
    s.Brings (.preemptionComplete n) ((latches (placed (out.foldl save ((s.threadsOf n).foldl keep s)) out true)).modCtx n fun y =>
      { y with st := if y.st = .active then .preempted else y.st, expiry := false })) ∧
  (∀ u v, s.power = .on → x.st = .preempted ∨ ((x.st = .active ∨ x.st = .faulted) ∧ (s.awayTeams n ≠ [] ∨ x.saved ≠ []) ∧ x.expiry = false) →
    s.restoreAll (s.awayTeams n) = some u → x.saved.foldlM resumeThread u = some v →
    s.Brings (.contextResume n) ((latches (placed v ((s.awayTeams n).map fun t => t.id) false)).modCtx n fun y =>
      { y with st := if y.st = .preempted then .active else y.st, held := 0, saved := [] })) ∧
  (x.st = .killed → (∀ f ∈ s.flight, s.workOfCtx n f.item = false) → s.Brings (.contextQuarantine n) (s.modCtx n fun y => { y with st := .quarantined })) ∧
  -- teams
  (let t := s.team id
   (s.canSwap t = true → s.Brings (.teamSwap id) (let u := (save s id).modTeam id fun z => { z with swapped := true, ready := false }
    { u with groups := u.groups.map fun y => if y.team = id ∧ y.st ≠ .exited then { y with waitFrom := none, image := { y.image with swapped := true } } else y })) ∧
   (t.swapped = true → t.ended = false →
    let earlier : Prop := ∃ y ∈ s.teams, y.swapped = true ∧ y.ready = true ∧ y.ended = false ∧ y.col = t.col ∧ (∃ k ∈ coresOf y, k ∈ coresOf t) ∧ y.readyAt < t.readyAt
    (t.ready = true → ¬ earlier → s.roomBack t = true → (s.ctx t.ctx).st ∈ [CState.active, .faulted] → s.preempting t.ctx = false → s.Brings (.teamReadmit id) (s.restoreTeam id)) ∧
    (t.ready = false → (∃ y ∈ s.groups, y.team = t.id ∧ s.groupGoesOn y = true) → s.Brings (.teamReadmit id) (s.modTeam id fun z => { z with ready := true, readyAt := s.issues + 1 }))) ∧
   (let ks := coresOf t
    let u := s.restoreTeam id
    let v := ((s.displaced t.col ks (cairnRange t).1 (cairnRange t).2).filter fun y => decide (y.id ≠ id)).foldl writeBackCairn s
    let cairn := fun (k : Nat) => cairnHome t.col (k * 2 ^ 23 + (cairnRange t).1)
    let scr := fun (k : Nat) => scrHome t.col k t.scrBase
    let size := (cairnRange t).2
    let inScr := fun (z : Nat) => ∃ k ∈ ks, scr k ≤ z ∧ z < scr k + t.scrBytes
    let inCairn := fun (z : Nat) => t.savedCairn ≠ [] ∧ ∃ k ∈ ks, cairn k ≤ z ∧ z < cairn k + size
    s.mem.wf = true → t.col < 34 → (∀ k ∈ ks, k < 4) → t.scrBase + t.scrBytes ≤ 2 ^ 20 → (cairnRange t).1 + size ≤ 2 ^ 23 → t.saved.length = ks.length →
    (∀ b ∈ t.saved, b.length = t.scrBytes) → (t.savedCairn ≠ [] → t.savedCairn.length = ks.length ∧ ∀ b ∈ t.savedCairn, b.length = size) →
    (∀ j k i, ks[j]? = some k → i < t.scrBytes → u.mem.byte (scr k + i) = (t.saved.getD j []).getD i 0) ∧
    (t.savedCairn ≠ [] → ∀ j k i, ks[j]? = some k → i < size → u.mem.byte (cairn k + i) = (t.savedCairn.getD j []).getD i 0) ∧
    (∀ z, ¬ inScr z → ¬ inCairn z → u.mem.byte z = s.mem.byte z) ∧
    (∀ z, z ∈ u.mem.poisoned ↔ (z ∈ t.savedPoison ∨ (z ∈ s.mem.poisoned ∧ ¬ inScr z)) ∧ ¬ inCairn z) ∧
    (∀ z, inScr z ∨ inCairn z → s.mem.tag z < u.mem.tag z) ∧
    (∀ z, z ∈ u.mem.cairnPoison ↔ (t.savedCairn ≠ [] ∧ z ∈ t.savedCairnPoison) ∨ (z ∈ s.mem.cairnPoison ∧ ¬ inCairn z)) ∧
    u.teams = v.teams.map (fun z => if z.id = id then { z with
      resident := true, swapped := false, ready := false, saved := [], savedPoison := [], savedCairn := [], savedCairnPoison := [], savedB := none } else z) ∧
    u.cols = (match t.savedB with
      | none => s.cols
      | some b => (s.modCore t.col t.core fun k => { k with resident := some b }).cols) ∧
    { u with mem := s.mem, teams := s.teams, cols := s.cols } = s)) ∧
  -- timers
  (s.hasGroup id = true → s.stateWaiting g = true → 2 ^ 34 ≤ s.waitedFor g →
    s.Brings (.watchdog id) (s.modGroup id fun y => { y with async := y.async ++ [⟨0xB9, 0⟩], waitFrom := some s.cycles })) ∧
  (s.hasGroup id = true → g.st = .active → g.privileged = true → g.halted = false → (s.team g.team).resident = true → s.preempting g.ctx = true →
    s.ridgeLaunch g.launch = false → max g.trapAt (s.ctx g.ctx).expiryAt + 65536 ≤ s.cycles →
    s.Brings (.preempt id) { s with
      launches := s.launches.map fun y => if y.id = g.launch then { y with cause := some (y.cause.getD 0xB8) } else y
      report := some ⟨g.ctx, g.col, g.core, g.gid, 0xB8, ((g.image.slot g.trapSlot).getD Path.blank).pc⟩
      groups := s.groups.map fun y => if y.id = id then { y with st := .trapped, susp := .none, frameWait := none, out := true } else y
      ctxs := s.ctxs.map fun y => if y.num = g.ctx ∧ y.st = .active then { y with st := .faulted } else y })
end

