-- ==== Sys2Proof/Laws/State.lean ====
section
/-! SUPPORT. One law per field of State for each basic update, and what is found after an update. -/

namespace Sys2Proof.Machine

open Sys2Proof

namespace State

/-! ### modGroup -/

@[simp] theorem modGroup_mem (s : State) (g : Nat) (f : Group → Group) : (s.modGroup g f).mem = s.mem := rfl
@[simp] theorem modGroup_cols (s : State) (g : Nat) (f : Group → Group) : (s.modGroup g f).cols = s.cols := rfl
@[simp] theorem modGroup_teams (s : State) (g : Nat) (f : Group → Group) : (s.modGroup g f).teams = s.teams := rfl
@[simp] theorem modGroup_launches (s : State) (g : Nat) (f : Group → Group) : (s.modGroup g f).launches = s.launches := rfl
@[simp] theorem modGroup_ctxs (s : State) (g : Nat) (f : Group → Group) : (s.modGroup g f).ctxs = s.ctxs := rfl
@[simp] theorem modGroup_ctxTable (s : State) (g : Nat) (f : Group → Group) : (s.modGroup g f).ctxTable = s.ctxTable := rfl
@[simp] theorem modGroup_images (s : State) (g : Nat) (f : Group → Group) : (s.modGroup g f).images = s.images := rfl
@[simp] theorem modGroup_queues (s : State) (g : Nat) (f : Group → Group) : (s.modGroup g f).queues = s.queues := rfl
@[simp] theorem modGroup_lastQueue (s : State) (g : Nat) (f : Group → Group) : (s.modGroup g f).lastQueue = s.lastQueue := rfl
@[simp] theorem modGroup_flight (s : State) (g : Nat) (f : Group → Group) : (s.modGroup g f).flight = s.flight := rfl
@[simp] theorem modGroup_nextId (s : State) (g : Nat) (f : Group → Group) : (s.modGroup g f).nextId = s.nextId := rfl
@[simp] theorem modGroup_time (s : State) (g : Nat) (f : Group → Group) : (s.modGroup g f).time = s.time := rfl
@[simp] theorem modGroup_cycles (s : State) (g : Nat) (f : Group → Group) : (s.modGroup g f).cycles = s.cycles := rfl
@[simp] theorem modGroup_issues (s : State) (g : Nat) (f : Group → Group) : (s.modGroup g f).issues = s.issues := rfl
@[simp] theorem modGroup_cur (s : State) (g : Nat) (f : Group → Group) : (s.modGroup g f).cur = s.cur := rfl
@[simp] theorem modGroup_late (s : State) (g : Nat) (f : Group → Group) : (s.modGroup g f).late = s.late := rfl
@[simp] theorem modGroup_held (s : State) (g : Nat) (f : Group → Group) : (s.modGroup g f).held = s.held := rfl
@[simp] theorem modGroup_schedule (s : State) (g : Nat) (f : Group → Group) : (s.modGroup g f).schedule = s.schedule := rfl
@[simp] theorem modGroup_draws (s : State) (g : Nat) (f : Group → Group) : (s.modGroup g f).draws = s.draws := rfl
@[simp] theorem modGroup_boot (s : State) (g : Nat) (f : Group → Group) : (s.modGroup g f).boot = s.boot := rfl
@[simp] theorem modGroup_power (s : State) (g : Nat) (f : Group → Group) : (s.modGroup g f).power = s.power := rfl
@[simp] theorem modGroup_flash (s : State) (g : Nat) (f : Group → Group) : (s.modGroup g f).flash = s.flash := rfl
@[simp] theorem modGroup_record (s : State) (g : Nat) (f : Group → Group) : (s.modGroup g f).record = s.record := rfl
@[simp] theorem modGroup_mapOut (s : State) (g : Nat) (f : Group → Group) : (s.modGroup g f).mapOut = s.mapOut := rfl
@[simp] theorem modGroup_storedSplit (s : State) (g : Nat) (f : Group → Group) : (s.modGroup g f).storedSplit = s.storedSplit := rfl
@[simp] theorem modGroup_split (s : State) (g : Nat) (f : Group → Group) : (s.modGroup g f).split = s.split := rfl
@[simp] theorem modGroup_splitRefused (s : State) (g : Nat) (f : Group → Group) : (s.modGroup g f).splitRefused = s.splitRefused := rfl
@[simp] theorem modGroup_identity (s : State) (g : Nat) (f : Group → Group) : (s.modGroup g f).identity = s.identity := rfl
@[simp] theorem modGroup_stopped (s : State) (g : Nat) (f : Group → Group) : (s.modGroup g f).stopped = s.stopped := rfl
@[simp] theorem modGroup_dev (s : State) (g : Nat) (f : Group → Group) : (s.modGroup g f).dev = s.dev := rfl
@[simp] theorem modGroup_devSet (s : State) (g : Nat) (f : Group → Group) : (s.modGroup g f).devSet = s.devSet := rfl
@[simp] theorem modGroup_ports (s : State) (g : Nat) (f : Group → Group) : (s.modGroup g f).ports = s.ports := rfl
@[simp] theorem modGroup_lost (s : State) (g : Nat) (f : Group → Group) : (s.modGroup g f).lost = s.lost := rfl
@[simp] theorem modGroup_hostdev (s : State) (g : Nat) (f : Group → Group) : (s.modGroup g f).hostdev = s.hostdev := rfl
@[simp] theorem modGroup_windows (s : State) (g : Nat) (f : Group → Group) : (s.modGroup g f).windows = s.windows := rfl
@[simp] theorem modGroup_sems (s : State) (g : Nat) (f : Group → Group) : (s.modGroup g f).sems = s.sems := rfl
@[simp] theorem modGroup_semLast (s : State) (g : Nat) (f : Group → Group) : (s.modGroup g f).semLast = s.semLast := rfl
@[simp] theorem modGroup_fifo (s : State) (g : Nat) (f : Group → Group) : (s.modGroup g f).fifo = s.fifo := rfl
@[simp] theorem modGroup_drops (s : State) (g : Nat) (f : Group → Group) : (s.modGroup g f).drops = s.drops := rfl
@[simp] theorem modGroup_report (s : State) (g : Nat) (f : Group → Group) : (s.modGroup g f).report = s.report := rfl
@[simp] theorem modGroup_alarms (s : State) (g : Nat) (f : Group → Group) : (s.modGroup g f).alarms = s.alarms := rfl
@[simp] theorem modGroup_droopEn (s : State) (g : Nat) (f : Group → Group) : (s.modGroup g f).droopEn = s.droopEn := rfl
@[simp] theorem modGroup_droopThresh (s : State) (g : Nat) (f : Group → Group) : (s.modGroup g f).droopThresh = s.droopThresh := rfl
@[simp] theorem modGroup_dies (s : State) (g : Nat) (f : Group → Group) : (s.modGroup g f).dies = s.dies := rfl
@[simp] theorem modGroup_overPower (s : State) (g : Nat) (f : Group → Group) : (s.modGroup g f).overPower = s.overPower := rfl
@[simp] theorem modGroup_injections (s : State) (g : Nat) (f : Group → Group) : (s.modGroup g f).injections = s.injections := rfl
@[simp] theorem modGroup_qps (s : State) (g : Nat) (f : Group → Group) : (s.modGroup g f).qps = s.qps := rfl
@[simp] theorem modGroup_mails (s : State) (g : Nat) (f : Group → Group) : (s.modGroup g f).mails = s.mails := rfl
@[simp] theorem modGroup_submitted (s : State) (g : Nat) (f : Group → Group) : (s.modGroup g f).submitted = s.submitted := rfl
@[simp] theorem modGroup_turned (s : State) (g : Nat) (f : Group → Group) : (s.modGroup g f).turned = s.turned := rfl
@[simp] theorem modGroup_outbox (s : State) (g : Nat) (f : Group → Group) : (s.modGroup g f).outbox = s.outbox := rfl

/-! ### modCol -/

@[simp] theorem modCol_mem (s : State) (c : Nat) (f : Column → Column) : (s.modCol c f).mem = s.mem := rfl
@[simp] theorem modCol_groups (s : State) (c : Nat) (f : Column → Column) : (s.modCol c f).groups = s.groups := rfl
@[simp] theorem modCol_teams (s : State) (c : Nat) (f : Column → Column) : (s.modCol c f).teams = s.teams := rfl
@[simp] theorem modCol_launches (s : State) (c : Nat) (f : Column → Column) : (s.modCol c f).launches = s.launches := rfl
@[simp] theorem modCol_ctxs (s : State) (c : Nat) (f : Column → Column) : (s.modCol c f).ctxs = s.ctxs := rfl
@[simp] theorem modCol_ctxTable (s : State) (c : Nat) (f : Column → Column) : (s.modCol c f).ctxTable = s.ctxTable := rfl
@[simp] theorem modCol_images (s : State) (c : Nat) (f : Column → Column) : (s.modCol c f).images = s.images := rfl
@[simp] theorem modCol_queues (s : State) (c : Nat) (f : Column → Column) : (s.modCol c f).queues = s.queues := rfl
@[simp] theorem modCol_lastQueue (s : State) (c : Nat) (f : Column → Column) : (s.modCol c f).lastQueue = s.lastQueue := rfl
@[simp] theorem modCol_flight (s : State) (c : Nat) (f : Column → Column) : (s.modCol c f).flight = s.flight := rfl
@[simp] theorem modCol_nextId (s : State) (c : Nat) (f : Column → Column) : (s.modCol c f).nextId = s.nextId := rfl
@[simp] theorem modCol_time (s : State) (c : Nat) (f : Column → Column) : (s.modCol c f).time = s.time := rfl
@[simp] theorem modCol_cycles (s : State) (c : Nat) (f : Column → Column) : (s.modCol c f).cycles = s.cycles := rfl
@[simp] theorem modCol_issues (s : State) (c : Nat) (f : Column → Column) : (s.modCol c f).issues = s.issues := rfl
@[simp] theorem modCol_cur (s : State) (c : Nat) (f : Column → Column) : (s.modCol c f).cur = s.cur := rfl
@[simp] theorem modCol_late (s : State) (c : Nat) (f : Column → Column) : (s.modCol c f).late = s.late := rfl
@[simp] theorem modCol_held (s : State) (c : Nat) (f : Column → Column) : (s.modCol c f).held = s.held := rfl
@[simp] theorem modCol_schedule (s : State) (c : Nat) (f : Column → Column) : (s.modCol c f).schedule = s.schedule := rfl
@[simp] theorem modCol_draws (s : State) (c : Nat) (f : Column → Column) : (s.modCol c f).draws = s.draws := rfl
@[simp] theorem modCol_boot (s : State) (c : Nat) (f : Column → Column) : (s.modCol c f).boot = s.boot := rfl
@[simp] theorem modCol_power (s : State) (c : Nat) (f : Column → Column) : (s.modCol c f).power = s.power := rfl
@[simp] theorem modCol_flash (s : State) (c : Nat) (f : Column → Column) : (s.modCol c f).flash = s.flash := rfl
@[simp] theorem modCol_record (s : State) (c : Nat) (f : Column → Column) : (s.modCol c f).record = s.record := rfl
@[simp] theorem modCol_mapOut (s : State) (c : Nat) (f : Column → Column) : (s.modCol c f).mapOut = s.mapOut := rfl
@[simp] theorem modCol_storedSplit (s : State) (c : Nat) (f : Column → Column) : (s.modCol c f).storedSplit = s.storedSplit := rfl
@[simp] theorem modCol_split (s : State) (c : Nat) (f : Column → Column) : (s.modCol c f).split = s.split := rfl
@[simp] theorem modCol_splitRefused (s : State) (c : Nat) (f : Column → Column) : (s.modCol c f).splitRefused = s.splitRefused := rfl
@[simp] theorem modCol_identity (s : State) (c : Nat) (f : Column → Column) : (s.modCol c f).identity = s.identity := rfl
@[simp] theorem modCol_stopped (s : State) (c : Nat) (f : Column → Column) : (s.modCol c f).stopped = s.stopped := rfl
@[simp] theorem modCol_dev (s : State) (c : Nat) (f : Column → Column) : (s.modCol c f).dev = s.dev := rfl
@[simp] theorem modCol_devSet (s : State) (c : Nat) (f : Column → Column) : (s.modCol c f).devSet = s.devSet := rfl
@[simp] theorem modCol_ports (s : State) (c : Nat) (f : Column → Column) : (s.modCol c f).ports = s.ports := rfl
@[simp] theorem modCol_lost (s : State) (c : Nat) (f : Column → Column) : (s.modCol c f).lost = s.lost := rfl
@[simp] theorem modCol_hostdev (s : State) (c : Nat) (f : Column → Column) : (s.modCol c f).hostdev = s.hostdev := rfl
@[simp] theorem modCol_windows (s : State) (c : Nat) (f : Column → Column) : (s.modCol c f).windows = s.windows := rfl
@[simp] theorem modCol_sems (s : State) (c : Nat) (f : Column → Column) : (s.modCol c f).sems = s.sems := rfl
@[simp] theorem modCol_semLast (s : State) (c : Nat) (f : Column → Column) : (s.modCol c f).semLast = s.semLast := rfl
@[simp] theorem modCol_fifo (s : State) (c : Nat) (f : Column → Column) : (s.modCol c f).fifo = s.fifo := rfl
@[simp] theorem modCol_drops (s : State) (c : Nat) (f : Column → Column) : (s.modCol c f).drops = s.drops := rfl
@[simp] theorem modCol_report (s : State) (c : Nat) (f : Column → Column) : (s.modCol c f).report = s.report := rfl
@[simp] theorem modCol_alarms (s : State) (c : Nat) (f : Column → Column) : (s.modCol c f).alarms = s.alarms := rfl
@[simp] theorem modCol_droopEn (s : State) (c : Nat) (f : Column → Column) : (s.modCol c f).droopEn = s.droopEn := rfl
@[simp] theorem modCol_droopThresh (s : State) (c : Nat) (f : Column → Column) : (s.modCol c f).droopThresh = s.droopThresh := rfl
@[simp] theorem modCol_dies (s : State) (c : Nat) (f : Column → Column) : (s.modCol c f).dies = s.dies := rfl
@[simp] theorem modCol_overPower (s : State) (c : Nat) (f : Column → Column) : (s.modCol c f).overPower = s.overPower := rfl
@[simp] theorem modCol_injections (s : State) (c : Nat) (f : Column → Column) : (s.modCol c f).injections = s.injections := rfl
@[simp] theorem modCol_qps (s : State) (c : Nat) (f : Column → Column) : (s.modCol c f).qps = s.qps := rfl
@[simp] theorem modCol_mails (s : State) (c : Nat) (f : Column → Column) : (s.modCol c f).mails = s.mails := rfl
@[simp] theorem modCol_submitted (s : State) (c : Nat) (f : Column → Column) : (s.modCol c f).submitted = s.submitted := rfl
@[simp] theorem modCol_turned (s : State) (c : Nat) (f : Column → Column) : (s.modCol c f).turned = s.turned := rfl
@[simp] theorem modCol_outbox (s : State) (c : Nat) (f : Column → Column) : (s.modCol c f).outbox = s.outbox := rfl

/-! ### modTeam -/

@[simp] theorem modTeam_mem (s : State) (t : Nat) (f : Team → Team) : (s.modTeam t f).mem = s.mem := rfl
@[simp] theorem modTeam_cols (s : State) (t : Nat) (f : Team → Team) : (s.modTeam t f).cols = s.cols := rfl
@[simp] theorem modTeam_groups (s : State) (t : Nat) (f : Team → Team) : (s.modTeam t f).groups = s.groups := rfl
@[simp] theorem modTeam_launches (s : State) (t : Nat) (f : Team → Team) : (s.modTeam t f).launches = s.launches := rfl
@[simp] theorem modTeam_ctxs (s : State) (t : Nat) (f : Team → Team) : (s.modTeam t f).ctxs = s.ctxs := rfl
@[simp] theorem modTeam_ctxTable (s : State) (t : Nat) (f : Team → Team) : (s.modTeam t f).ctxTable = s.ctxTable := rfl
@[simp] theorem modTeam_images (s : State) (t : Nat) (f : Team → Team) : (s.modTeam t f).images = s.images := rfl
@[simp] theorem modTeam_queues (s : State) (t : Nat) (f : Team → Team) : (s.modTeam t f).queues = s.queues := rfl
@[simp] theorem modTeam_lastQueue (s : State) (t : Nat) (f : Team → Team) : (s.modTeam t f).lastQueue = s.lastQueue := rfl
@[simp] theorem modTeam_flight (s : State) (t : Nat) (f : Team → Team) : (s.modTeam t f).flight = s.flight := rfl
@[simp] theorem modTeam_nextId (s : State) (t : Nat) (f : Team → Team) : (s.modTeam t f).nextId = s.nextId := rfl
@[simp] theorem modTeam_time (s : State) (t : Nat) (f : Team → Team) : (s.modTeam t f).time = s.time := rfl
@[simp] theorem modTeam_cycles (s : State) (t : Nat) (f : Team → Team) : (s.modTeam t f).cycles = s.cycles := rfl
@[simp] theorem modTeam_issues (s : State) (t : Nat) (f : Team → Team) : (s.modTeam t f).issues = s.issues := rfl
@[simp] theorem modTeam_cur (s : State) (t : Nat) (f : Team → Team) : (s.modTeam t f).cur = s.cur := rfl
@[simp] theorem modTeam_late (s : State) (t : Nat) (f : Team → Team) : (s.modTeam t f).late = s.late := rfl
@[simp] theorem modTeam_held (s : State) (t : Nat) (f : Team → Team) : (s.modTeam t f).held = s.held := rfl
@[simp] theorem modTeam_schedule (s : State) (t : Nat) (f : Team → Team) : (s.modTeam t f).schedule = s.schedule := rfl
@[simp] theorem modTeam_draws (s : State) (t : Nat) (f : Team → Team) : (s.modTeam t f).draws = s.draws := rfl
@[simp] theorem modTeam_boot (s : State) (t : Nat) (f : Team → Team) : (s.modTeam t f).boot = s.boot := rfl
@[simp] theorem modTeam_power (s : State) (t : Nat) (f : Team → Team) : (s.modTeam t f).power = s.power := rfl
@[simp] theorem modTeam_flash (s : State) (t : Nat) (f : Team → Team) : (s.modTeam t f).flash = s.flash := rfl
@[simp] theorem modTeam_record (s : State) (t : Nat) (f : Team → Team) : (s.modTeam t f).record = s.record := rfl
@[simp] theorem modTeam_mapOut (s : State) (t : Nat) (f : Team → Team) : (s.modTeam t f).mapOut = s.mapOut := rfl
@[simp] theorem modTeam_storedSplit (s : State) (t : Nat) (f : Team → Team) : (s.modTeam t f).storedSplit = s.storedSplit := rfl
@[simp] theorem modTeam_split (s : State) (t : Nat) (f : Team → Team) : (s.modTeam t f).split = s.split := rfl
@[simp] theorem modTeam_splitRefused (s : State) (t : Nat) (f : Team → Team) : (s.modTeam t f).splitRefused = s.splitRefused := rfl
@[simp] theorem modTeam_identity (s : State) (t : Nat) (f : Team → Team) : (s.modTeam t f).identity = s.identity := rfl
@[simp] theorem modTeam_stopped (s : State) (t : Nat) (f : Team → Team) : (s.modTeam t f).stopped = s.stopped := rfl
@[simp] theorem modTeam_dev (s : State) (t : Nat) (f : Team → Team) : (s.modTeam t f).dev = s.dev := rfl
@[simp] theorem modTeam_devSet (s : State) (t : Nat) (f : Team → Team) : (s.modTeam t f).devSet = s.devSet := rfl
@[simp] theorem modTeam_ports (s : State) (t : Nat) (f : Team → Team) : (s.modTeam t f).ports = s.ports := rfl
@[simp] theorem modTeam_lost (s : State) (t : Nat) (f : Team → Team) : (s.modTeam t f).lost = s.lost := rfl
@[simp] theorem modTeam_hostdev (s : State) (t : Nat) (f : Team → Team) : (s.modTeam t f).hostdev = s.hostdev := rfl
@[simp] theorem modTeam_windows (s : State) (t : Nat) (f : Team → Team) : (s.modTeam t f).windows = s.windows := rfl
@[simp] theorem modTeam_sems (s : State) (t : Nat) (f : Team → Team) : (s.modTeam t f).sems = s.sems := rfl
@[simp] theorem modTeam_semLast (s : State) (t : Nat) (f : Team → Team) : (s.modTeam t f).semLast = s.semLast := rfl
@[simp] theorem modTeam_fifo (s : State) (t : Nat) (f : Team → Team) : (s.modTeam t f).fifo = s.fifo := rfl
@[simp] theorem modTeam_drops (s : State) (t : Nat) (f : Team → Team) : (s.modTeam t f).drops = s.drops := rfl
@[simp] theorem modTeam_report (s : State) (t : Nat) (f : Team → Team) : (s.modTeam t f).report = s.report := rfl
@[simp] theorem modTeam_alarms (s : State) (t : Nat) (f : Team → Team) : (s.modTeam t f).alarms = s.alarms := rfl
@[simp] theorem modTeam_droopEn (s : State) (t : Nat) (f : Team → Team) : (s.modTeam t f).droopEn = s.droopEn := rfl
@[simp] theorem modTeam_droopThresh (s : State) (t : Nat) (f : Team → Team) : (s.modTeam t f).droopThresh = s.droopThresh := rfl
@[simp] theorem modTeam_dies (s : State) (t : Nat) (f : Team → Team) : (s.modTeam t f).dies = s.dies := rfl
@[simp] theorem modTeam_overPower (s : State) (t : Nat) (f : Team → Team) : (s.modTeam t f).overPower = s.overPower := rfl
@[simp] theorem modTeam_injections (s : State) (t : Nat) (f : Team → Team) : (s.modTeam t f).injections = s.injections := rfl
@[simp] theorem modTeam_qps (s : State) (t : Nat) (f : Team → Team) : (s.modTeam t f).qps = s.qps := rfl
@[simp] theorem modTeam_mails (s : State) (t : Nat) (f : Team → Team) : (s.modTeam t f).mails = s.mails := rfl
@[simp] theorem modTeam_submitted (s : State) (t : Nat) (f : Team → Team) : (s.modTeam t f).submitted = s.submitted := rfl
@[simp] theorem modTeam_turned (s : State) (t : Nat) (f : Team → Team) : (s.modTeam t f).turned = s.turned := rfl
@[simp] theorem modTeam_outbox (s : State) (t : Nat) (f : Team → Team) : (s.modTeam t f).outbox = s.outbox := rfl

/-! ### modLaunch -/

@[simp] theorem modLaunch_mem (s : State) (l : Nat) (f : Launch → Launch) : (s.modLaunch l f).mem = s.mem := rfl
@[simp] theorem modLaunch_cols (s : State) (l : Nat) (f : Launch → Launch) : (s.modLaunch l f).cols = s.cols := rfl
@[simp] theorem modLaunch_groups (s : State) (l : Nat) (f : Launch → Launch) : (s.modLaunch l f).groups = s.groups := rfl
@[simp] theorem modLaunch_teams (s : State) (l : Nat) (f : Launch → Launch) : (s.modLaunch l f).teams = s.teams := rfl
@[simp] theorem modLaunch_ctxs (s : State) (l : Nat) (f : Launch → Launch) : (s.modLaunch l f).ctxs = s.ctxs := rfl
@[simp] theorem modLaunch_ctxTable (s : State) (l : Nat) (f : Launch → Launch) : (s.modLaunch l f).ctxTable = s.ctxTable := rfl
@[simp] theorem modLaunch_images (s : State) (l : Nat) (f : Launch → Launch) : (s.modLaunch l f).images = s.images := rfl
@[simp] theorem modLaunch_queues (s : State) (l : Nat) (f : Launch → Launch) : (s.modLaunch l f).queues = s.queues := rfl
@[simp] theorem modLaunch_lastQueue (s : State) (l : Nat) (f : Launch → Launch) : (s.modLaunch l f).lastQueue = s.lastQueue := rfl
@[simp] theorem modLaunch_flight (s : State) (l : Nat) (f : Launch → Launch) : (s.modLaunch l f).flight = s.flight := rfl
@[simp] theorem modLaunch_nextId (s : State) (l : Nat) (f : Launch → Launch) : (s.modLaunch l f).nextId = s.nextId := rfl
@[simp] theorem modLaunch_time (s : State) (l : Nat) (f : Launch → Launch) : (s.modLaunch l f).time = s.time := rfl
@[simp] theorem modLaunch_cycles (s : State) (l : Nat) (f : Launch → Launch) : (s.modLaunch l f).cycles = s.cycles := rfl
@[simp] theorem modLaunch_issues (s : State) (l : Nat) (f : Launch → Launch) : (s.modLaunch l f).issues = s.issues := rfl
@[simp] theorem modLaunch_cur (s : State) (l : Nat) (f : Launch → Launch) : (s.modLaunch l f).cur = s.cur := rfl
@[simp] theorem modLaunch_late (s : State) (l : Nat) (f : Launch → Launch) : (s.modLaunch l f).late = s.late := rfl
@[simp] theorem modLaunch_held (s : State) (l : Nat) (f : Launch → Launch) : (s.modLaunch l f).held = s.held := rfl
@[simp] theorem modLaunch_schedule (s : State) (l : Nat) (f : Launch → Launch) : (s.modLaunch l f).schedule = s.schedule := rfl
@[simp] theorem modLaunch_draws (s : State) (l : Nat) (f : Launch → Launch) : (s.modLaunch l f).draws = s.draws := rfl
@[simp] theorem modLaunch_boot (s : State) (l : Nat) (f : Launch → Launch) : (s.modLaunch l f).boot = s.boot := rfl
@[simp] theorem modLaunch_power (s : State) (l : Nat) (f : Launch → Launch) : (s.modLaunch l f).power = s.power := rfl
@[simp] theorem modLaunch_flash (s : State) (l : Nat) (f : Launch → Launch) : (s.modLaunch l f).flash = s.flash := rfl
@[simp] theorem modLaunch_record (s : State) (l : Nat) (f : Launch → Launch) : (s.modLaunch l f).record = s.record := rfl
@[simp] theorem modLaunch_mapOut (s : State) (l : Nat) (f : Launch → Launch) : (s.modLaunch l f).mapOut = s.mapOut := rfl
@[simp] theorem modLaunch_storedSplit (s : State) (l : Nat) (f : Launch → Launch) : (s.modLaunch l f).storedSplit = s.storedSplit := rfl
@[simp] theorem modLaunch_split (s : State) (l : Nat) (f : Launch → Launch) : (s.modLaunch l f).split = s.split := rfl
@[simp] theorem modLaunch_splitRefused (s : State) (l : Nat) (f : Launch → Launch) : (s.modLaunch l f).splitRefused = s.splitRefused := rfl
@[simp] theorem modLaunch_identity (s : State) (l : Nat) (f : Launch → Launch) : (s.modLaunch l f).identity = s.identity := rfl
@[simp] theorem modLaunch_stopped (s : State) (l : Nat) (f : Launch → Launch) : (s.modLaunch l f).stopped = s.stopped := rfl
@[simp] theorem modLaunch_dev (s : State) (l : Nat) (f : Launch → Launch) : (s.modLaunch l f).dev = s.dev := rfl
@[simp] theorem modLaunch_devSet (s : State) (l : Nat) (f : Launch → Launch) : (s.modLaunch l f).devSet = s.devSet := rfl
@[simp] theorem modLaunch_ports (s : State) (l : Nat) (f : Launch → Launch) : (s.modLaunch l f).ports = s.ports := rfl
@[simp] theorem modLaunch_lost (s : State) (l : Nat) (f : Launch → Launch) : (s.modLaunch l f).lost = s.lost := rfl
@[simp] theorem modLaunch_hostdev (s : State) (l : Nat) (f : Launch → Launch) : (s.modLaunch l f).hostdev = s.hostdev := rfl
@[simp] theorem modLaunch_windows (s : State) (l : Nat) (f : Launch → Launch) : (s.modLaunch l f).windows = s.windows := rfl
@[simp] theorem modLaunch_sems (s : State) (l : Nat) (f : Launch → Launch) : (s.modLaunch l f).sems = s.sems := rfl
@[simp] theorem modLaunch_semLast (s : State) (l : Nat) (f : Launch → Launch) : (s.modLaunch l f).semLast = s.semLast := rfl
@[simp] theorem modLaunch_fifo (s : State) (l : Nat) (f : Launch → Launch) : (s.modLaunch l f).fifo = s.fifo := rfl
@[simp] theorem modLaunch_drops (s : State) (l : Nat) (f : Launch → Launch) : (s.modLaunch l f).drops = s.drops := rfl
@[simp] theorem modLaunch_report (s : State) (l : Nat) (f : Launch → Launch) : (s.modLaunch l f).report = s.report := rfl
@[simp] theorem modLaunch_alarms (s : State) (l : Nat) (f : Launch → Launch) : (s.modLaunch l f).alarms = s.alarms := rfl
@[simp] theorem modLaunch_droopEn (s : State) (l : Nat) (f : Launch → Launch) : (s.modLaunch l f).droopEn = s.droopEn := rfl
@[simp] theorem modLaunch_droopThresh (s : State) (l : Nat) (f : Launch → Launch) : (s.modLaunch l f).droopThresh = s.droopThresh := rfl
@[simp] theorem modLaunch_dies (s : State) (l : Nat) (f : Launch → Launch) : (s.modLaunch l f).dies = s.dies := rfl
@[simp] theorem modLaunch_overPower (s : State) (l : Nat) (f : Launch → Launch) : (s.modLaunch l f).overPower = s.overPower := rfl
@[simp] theorem modLaunch_injections (s : State) (l : Nat) (f : Launch → Launch) : (s.modLaunch l f).injections = s.injections := rfl
@[simp] theorem modLaunch_qps (s : State) (l : Nat) (f : Launch → Launch) : (s.modLaunch l f).qps = s.qps := rfl
@[simp] theorem modLaunch_mails (s : State) (l : Nat) (f : Launch → Launch) : (s.modLaunch l f).mails = s.mails := rfl
@[simp] theorem modLaunch_submitted (s : State) (l : Nat) (f : Launch → Launch) : (s.modLaunch l f).submitted = s.submitted := rfl
@[simp] theorem modLaunch_turned (s : State) (l : Nat) (f : Launch → Launch) : (s.modLaunch l f).turned = s.turned := rfl
@[simp] theorem modLaunch_outbox (s : State) (l : Nat) (f : Launch → Launch) : (s.modLaunch l f).outbox = s.outbox := rfl

/-! ### modCtx -/

@[simp] theorem modCtx_mem (s : State) (n : Nat) (f : Context → Context) : (s.modCtx n f).mem = s.mem := rfl
@[simp] theorem modCtx_cols (s : State) (n : Nat) (f : Context → Context) : (s.modCtx n f).cols = s.cols := rfl
@[simp] theorem modCtx_groups (s : State) (n : Nat) (f : Context → Context) : (s.modCtx n f).groups = s.groups := rfl
@[simp] theorem modCtx_teams (s : State) (n : Nat) (f : Context → Context) : (s.modCtx n f).teams = s.teams := rfl
@[simp] theorem modCtx_launches (s : State) (n : Nat) (f : Context → Context) : (s.modCtx n f).launches = s.launches := rfl
@[simp] theorem modCtx_ctxTable (s : State) (n : Nat) (f : Context → Context) : (s.modCtx n f).ctxTable = s.ctxTable := rfl
@[simp] theorem modCtx_images (s : State) (n : Nat) (f : Context → Context) : (s.modCtx n f).images = s.images := rfl
@[simp] theorem modCtx_queues (s : State) (n : Nat) (f : Context → Context) : (s.modCtx n f).queues = s.queues := rfl
@[simp] theorem modCtx_lastQueue (s : State) (n : Nat) (f : Context → Context) : (s.modCtx n f).lastQueue = s.lastQueue := rfl
@[simp] theorem modCtx_flight (s : State) (n : Nat) (f : Context → Context) : (s.modCtx n f).flight = s.flight := rfl
@[simp] theorem modCtx_nextId (s : State) (n : Nat) (f : Context → Context) : (s.modCtx n f).nextId = s.nextId := rfl
@[simp] theorem modCtx_time (s : State) (n : Nat) (f : Context → Context) : (s.modCtx n f).time = s.time := rfl
@[simp] theorem modCtx_cycles (s : State) (n : Nat) (f : Context → Context) : (s.modCtx n f).cycles = s.cycles := rfl
@[simp] theorem modCtx_issues (s : State) (n : Nat) (f : Context → Context) : (s.modCtx n f).issues = s.issues := rfl
@[simp] theorem modCtx_cur (s : State) (n : Nat) (f : Context → Context) : (s.modCtx n f).cur = s.cur := rfl
@[simp] theorem modCtx_late (s : State) (n : Nat) (f : Context → Context) : (s.modCtx n f).late = s.late := rfl
@[simp] theorem modCtx_held (s : State) (n : Nat) (f : Context → Context) : (s.modCtx n f).held = s.held := rfl
@[simp] theorem modCtx_schedule (s : State) (n : Nat) (f : Context → Context) : (s.modCtx n f).schedule = s.schedule := rfl
@[simp] theorem modCtx_draws (s : State) (n : Nat) (f : Context → Context) : (s.modCtx n f).draws = s.draws := rfl
@[simp] theorem modCtx_boot (s : State) (n : Nat) (f : Context → Context) : (s.modCtx n f).boot = s.boot := rfl
@[simp] theorem modCtx_power (s : State) (n : Nat) (f : Context → Context) : (s.modCtx n f).power = s.power := rfl
@[simp] theorem modCtx_flash (s : State) (n : Nat) (f : Context → Context) : (s.modCtx n f).flash = s.flash := rfl
@[simp] theorem modCtx_record (s : State) (n : Nat) (f : Context → Context) : (s.modCtx n f).record = s.record := rfl
@[simp] theorem modCtx_mapOut (s : State) (n : Nat) (f : Context → Context) : (s.modCtx n f).mapOut = s.mapOut := rfl
@[simp] theorem modCtx_storedSplit (s : State) (n : Nat) (f : Context → Context) : (s.modCtx n f).storedSplit = s.storedSplit := rfl
@[simp] theorem modCtx_split (s : State) (n : Nat) (f : Context → Context) : (s.modCtx n f).split = s.split := rfl
@[simp] theorem modCtx_splitRefused (s : State) (n : Nat) (f : Context → Context) : (s.modCtx n f).splitRefused = s.splitRefused := rfl
@[simp] theorem modCtx_identity (s : State) (n : Nat) (f : Context → Context) : (s.modCtx n f).identity = s.identity := rfl
@[simp] theorem modCtx_stopped (s : State) (n : Nat) (f : Context → Context) : (s.modCtx n f).stopped = s.stopped := rfl
@[simp] theorem modCtx_dev (s : State) (n : Nat) (f : Context → Context) : (s.modCtx n f).dev = s.dev := rfl
@[simp] theorem modCtx_devSet (s : State) (n : Nat) (f : Context → Context) : (s.modCtx n f).devSet = s.devSet := rfl
@[simp] theorem modCtx_ports (s : State) (n : Nat) (f : Context → Context) : (s.modCtx n f).ports = s.ports := rfl
@[simp] theorem modCtx_lost (s : State) (n : Nat) (f : Context → Context) : (s.modCtx n f).lost = s.lost := rfl
@[simp] theorem modCtx_hostdev (s : State) (n : Nat) (f : Context → Context) : (s.modCtx n f).hostdev = s.hostdev := rfl
@[simp] theorem modCtx_windows (s : State) (n : Nat) (f : Context → Context) : (s.modCtx n f).windows = s.windows := rfl
@[simp] theorem modCtx_sems (s : State) (n : Nat) (f : Context → Context) : (s.modCtx n f).sems = s.sems := rfl
@[simp] theorem modCtx_semLast (s : State) (n : Nat) (f : Context → Context) : (s.modCtx n f).semLast = s.semLast := rfl
@[simp] theorem modCtx_fifo (s : State) (n : Nat) (f : Context → Context) : (s.modCtx n f).fifo = s.fifo := rfl
@[simp] theorem modCtx_drops (s : State) (n : Nat) (f : Context → Context) : (s.modCtx n f).drops = s.drops := rfl
@[simp] theorem modCtx_report (s : State) (n : Nat) (f : Context → Context) : (s.modCtx n f).report = s.report := rfl
@[simp] theorem modCtx_alarms (s : State) (n : Nat) (f : Context → Context) : (s.modCtx n f).alarms = s.alarms := rfl
@[simp] theorem modCtx_droopEn (s : State) (n : Nat) (f : Context → Context) : (s.modCtx n f).droopEn = s.droopEn := rfl
@[simp] theorem modCtx_droopThresh (s : State) (n : Nat) (f : Context → Context) : (s.modCtx n f).droopThresh = s.droopThresh := rfl
@[simp] theorem modCtx_dies (s : State) (n : Nat) (f : Context → Context) : (s.modCtx n f).dies = s.dies := rfl
@[simp] theorem modCtx_overPower (s : State) (n : Nat) (f : Context → Context) : (s.modCtx n f).overPower = s.overPower := rfl
@[simp] theorem modCtx_injections (s : State) (n : Nat) (f : Context → Context) : (s.modCtx n f).injections = s.injections := rfl
@[simp] theorem modCtx_qps (s : State) (n : Nat) (f : Context → Context) : (s.modCtx n f).qps = s.qps := rfl
@[simp] theorem modCtx_mails (s : State) (n : Nat) (f : Context → Context) : (s.modCtx n f).mails = s.mails := rfl
@[simp] theorem modCtx_submitted (s : State) (n : Nat) (f : Context → Context) : (s.modCtx n f).submitted = s.submitted := rfl
@[simp] theorem modCtx_turned (s : State) (n : Nat) (f : Context → Context) : (s.modCtx n f).turned = s.turned := rfl
@[simp] theorem modCtx_outbox (s : State) (n : Nat) (f : Context → Context) : (s.modCtx n f).outbox = s.outbox := rfl

/-! ### modQueue -/

@[simp] theorem modQueue_mem (s : State) (q : Nat) (f : Queue → Queue) : (s.modQueue q f).mem = s.mem := rfl
@[simp] theorem modQueue_cols (s : State) (q : Nat) (f : Queue → Queue) : (s.modQueue q f).cols = s.cols := rfl
@[simp] theorem modQueue_groups (s : State) (q : Nat) (f : Queue → Queue) : (s.modQueue q f).groups = s.groups := rfl
@[simp] theorem modQueue_teams (s : State) (q : Nat) (f : Queue → Queue) : (s.modQueue q f).teams = s.teams := rfl
@[simp] theorem modQueue_launches (s : State) (q : Nat) (f : Queue → Queue) : (s.modQueue q f).launches = s.launches := rfl
@[simp] theorem modQueue_ctxs (s : State) (q : Nat) (f : Queue → Queue) : (s.modQueue q f).ctxs = s.ctxs := rfl
@[simp] theorem modQueue_ctxTable (s : State) (q : Nat) (f : Queue → Queue) : (s.modQueue q f).ctxTable = s.ctxTable := rfl
@[simp] theorem modQueue_images (s : State) (q : Nat) (f : Queue → Queue) : (s.modQueue q f).images = s.images := rfl
@[simp] theorem modQueue_lastQueue (s : State) (q : Nat) (f : Queue → Queue) : (s.modQueue q f).lastQueue = s.lastQueue := rfl
@[simp] theorem modQueue_flight (s : State) (q : Nat) (f : Queue → Queue) : (s.modQueue q f).flight = s.flight := rfl
@[simp] theorem modQueue_nextId (s : State) (q : Nat) (f : Queue → Queue) : (s.modQueue q f).nextId = s.nextId := rfl
@[simp] theorem modQueue_time (s : State) (q : Nat) (f : Queue → Queue) : (s.modQueue q f).time = s.time := rfl
@[simp] theorem modQueue_cycles (s : State) (q : Nat) (f : Queue → Queue) : (s.modQueue q f).cycles = s.cycles := rfl
@[simp] theorem modQueue_issues (s : State) (q : Nat) (f : Queue → Queue) : (s.modQueue q f).issues = s.issues := rfl
@[simp] theorem modQueue_cur (s : State) (q : Nat) (f : Queue → Queue) : (s.modQueue q f).cur = s.cur := rfl
@[simp] theorem modQueue_late (s : State) (q : Nat) (f : Queue → Queue) : (s.modQueue q f).late = s.late := rfl
@[simp] theorem modQueue_held (s : State) (q : Nat) (f : Queue → Queue) : (s.modQueue q f).held = s.held := rfl
@[simp] theorem modQueue_schedule (s : State) (q : Nat) (f : Queue → Queue) : (s.modQueue q f).schedule = s.schedule := rfl
@[simp] theorem modQueue_draws (s : State) (q : Nat) (f : Queue → Queue) : (s.modQueue q f).draws = s.draws := rfl
@[simp] theorem modQueue_boot (s : State) (q : Nat) (f : Queue → Queue) : (s.modQueue q f).boot = s.boot := rfl
@[simp] theorem modQueue_power (s : State) (q : Nat) (f : Queue → Queue) : (s.modQueue q f).power = s.power := rfl
@[simp] theorem modQueue_flash (s : State) (q : Nat) (f : Queue → Queue) : (s.modQueue q f).flash = s.flash := rfl
@[simp] theorem modQueue_record (s : State) (q : Nat) (f : Queue → Queue) : (s.modQueue q f).record = s.record := rfl
@[simp] theorem modQueue_mapOut (s : State) (q : Nat) (f : Queue → Queue) : (s.modQueue q f).mapOut = s.mapOut := rfl
@[simp] theorem modQueue_storedSplit (s : State) (q : Nat) (f : Queue → Queue) : (s.modQueue q f).storedSplit = s.storedSplit := rfl
@[simp] theorem modQueue_split (s : State) (q : Nat) (f : Queue → Queue) : (s.modQueue q f).split = s.split := rfl
@[simp] theorem modQueue_splitRefused (s : State) (q : Nat) (f : Queue → Queue) : (s.modQueue q f).splitRefused = s.splitRefused := rfl
@[simp] theorem modQueue_identity (s : State) (q : Nat) (f : Queue → Queue) : (s.modQueue q f).identity = s.identity := rfl
@[simp] theorem modQueue_stopped (s : State) (q : Nat) (f : Queue → Queue) : (s.modQueue q f).stopped = s.stopped := rfl
@[simp] theorem modQueue_dev (s : State) (q : Nat) (f : Queue → Queue) : (s.modQueue q f).dev = s.dev := rfl
@[simp] theorem modQueue_devSet (s : State) (q : Nat) (f : Queue → Queue) : (s.modQueue q f).devSet = s.devSet := rfl
@[simp] theorem modQueue_ports (s : State) (q : Nat) (f : Queue → Queue) : (s.modQueue q f).ports = s.ports := rfl
@[simp] theorem modQueue_lost (s : State) (q : Nat) (f : Queue → Queue) : (s.modQueue q f).lost = s.lost := rfl
@[simp] theorem modQueue_hostdev (s : State) (q : Nat) (f : Queue → Queue) : (s.modQueue q f).hostdev = s.hostdev := rfl
@[simp] theorem modQueue_windows (s : State) (q : Nat) (f : Queue → Queue) : (s.modQueue q f).windows = s.windows := rfl
@[simp] theorem modQueue_sems (s : State) (q : Nat) (f : Queue → Queue) : (s.modQueue q f).sems = s.sems := rfl
@[simp] theorem modQueue_semLast (s : State) (q : Nat) (f : Queue → Queue) : (s.modQueue q f).semLast = s.semLast := rfl
@[simp] theorem modQueue_fifo (s : State) (q : Nat) (f : Queue → Queue) : (s.modQueue q f).fifo = s.fifo := rfl
@[simp] theorem modQueue_drops (s : State) (q : Nat) (f : Queue → Queue) : (s.modQueue q f).drops = s.drops := rfl
@[simp] theorem modQueue_report (s : State) (q : Nat) (f : Queue → Queue) : (s.modQueue q f).report = s.report := rfl
@[simp] theorem modQueue_alarms (s : State) (q : Nat) (f : Queue → Queue) : (s.modQueue q f).alarms = s.alarms := rfl
@[simp] theorem modQueue_droopEn (s : State) (q : Nat) (f : Queue → Queue) : (s.modQueue q f).droopEn = s.droopEn := rfl
@[simp] theorem modQueue_droopThresh (s : State) (q : Nat) (f : Queue → Queue) : (s.modQueue q f).droopThresh = s.droopThresh := rfl
@[simp] theorem modQueue_dies (s : State) (q : Nat) (f : Queue → Queue) : (s.modQueue q f).dies = s.dies := rfl
@[simp] theorem modQueue_overPower (s : State) (q : Nat) (f : Queue → Queue) : (s.modQueue q f).overPower = s.overPower := rfl
@[simp] theorem modQueue_injections (s : State) (q : Nat) (f : Queue → Queue) : (s.modQueue q f).injections = s.injections := rfl
@[simp] theorem modQueue_qps (s : State) (q : Nat) (f : Queue → Queue) : (s.modQueue q f).qps = s.qps := rfl
@[simp] theorem modQueue_mails (s : State) (q : Nat) (f : Queue → Queue) : (s.modQueue q f).mails = s.mails := rfl
@[simp] theorem modQueue_submitted (s : State) (q : Nat) (f : Queue → Queue) : (s.modQueue q f).submitted = s.submitted := rfl
@[simp] theorem modQueue_turned (s : State) (q : Nat) (f : Queue → Queue) : (s.modQueue q f).turned = s.turned := rfl
@[simp] theorem modQueue_outbox (s : State) (q : Nat) (f : Queue → Queue) : (s.modQueue q f).outbox = s.outbox := rfl

/-! ### place -/

@[simp] theorem place_mem (s : State) (i : Item) : (s.place i).mem = s.mem := rfl
@[simp] theorem place_cols (s : State) (i : Item) : (s.place i).cols = s.cols := rfl
@[simp] theorem place_groups (s : State) (i : Item) : (s.place i).groups = s.groups := rfl
@[simp] theorem place_teams (s : State) (i : Item) : (s.place i).teams = s.teams := rfl
@[simp] theorem place_launches (s : State) (i : Item) : (s.place i).launches = s.launches := rfl
@[simp] theorem place_ctxs (s : State) (i : Item) : (s.place i).ctxs = s.ctxs := rfl
@[simp] theorem place_ctxTable (s : State) (i : Item) : (s.place i).ctxTable = s.ctxTable := rfl
@[simp] theorem place_images (s : State) (i : Item) : (s.place i).images = s.images := rfl
@[simp] theorem place_queues (s : State) (i : Item) : (s.place i).queues = s.queues := rfl
@[simp] theorem place_lastQueue (s : State) (i : Item) : (s.place i).lastQueue = s.lastQueue := rfl
@[simp] theorem place_time (s : State) (i : Item) : (s.place i).time = s.time := rfl
@[simp] theorem place_cycles (s : State) (i : Item) : (s.place i).cycles = s.cycles := rfl
@[simp] theorem place_issues (s : State) (i : Item) : (s.place i).issues = s.issues := rfl
@[simp] theorem place_cur (s : State) (i : Item) : (s.place i).cur = s.cur := rfl
@[simp] theorem place_late (s : State) (i : Item) : (s.place i).late = s.late := rfl
@[simp] theorem place_held (s : State) (i : Item) : (s.place i).held = s.held := rfl
@[simp] theorem place_schedule (s : State) (i : Item) : (s.place i).schedule = s.schedule := rfl
@[simp] theorem place_draws (s : State) (i : Item) : (s.place i).draws = s.draws := rfl
@[simp] theorem place_boot (s : State) (i : Item) : (s.place i).boot = s.boot := rfl
@[simp] theorem place_power (s : State) (i : Item) : (s.place i).power = s.power := rfl
@[simp] theorem place_flash (s : State) (i : Item) : (s.place i).flash = s.flash := rfl
@[simp] theorem place_record (s : State) (i : Item) : (s.place i).record = s.record := rfl
@[simp] theorem place_mapOut (s : State) (i : Item) : (s.place i).mapOut = s.mapOut := rfl
@[simp] theorem place_storedSplit (s : State) (i : Item) : (s.place i).storedSplit = s.storedSplit := rfl
@[simp] theorem place_split (s : State) (i : Item) : (s.place i).split = s.split := rfl
@[simp] theorem place_splitRefused (s : State) (i : Item) : (s.place i).splitRefused = s.splitRefused := rfl
@[simp] theorem place_identity (s : State) (i : Item) : (s.place i).identity = s.identity := rfl
@[simp] theorem place_stopped (s : State) (i : Item) : (s.place i).stopped = s.stopped := rfl
@[simp] theorem place_dev (s : State) (i : Item) : (s.place i).dev = s.dev := rfl
@[simp] theorem place_devSet (s : State) (i : Item) : (s.place i).devSet = s.devSet := rfl
@[simp] theorem place_ports (s : State) (i : Item) : (s.place i).ports = s.ports := rfl
@[simp] theorem place_lost (s : State) (i : Item) : (s.place i).lost = s.lost := rfl
@[simp] theorem place_hostdev (s : State) (i : Item) : (s.place i).hostdev = s.hostdev := rfl
@[simp] theorem place_windows (s : State) (i : Item) : (s.place i).windows = s.windows := rfl
@[simp] theorem place_sems (s : State) (i : Item) : (s.place i).sems = s.sems := rfl
@[simp] theorem place_semLast (s : State) (i : Item) : (s.place i).semLast = s.semLast := rfl
@[simp] theorem place_fifo (s : State) (i : Item) : (s.place i).fifo = s.fifo := rfl
@[simp] theorem place_drops (s : State) (i : Item) : (s.place i).drops = s.drops := rfl
@[simp] theorem place_report (s : State) (i : Item) : (s.place i).report = s.report := rfl
@[simp] theorem place_alarms (s : State) (i : Item) : (s.place i).alarms = s.alarms := rfl
@[simp] theorem place_droopEn (s : State) (i : Item) : (s.place i).droopEn = s.droopEn := rfl
@[simp] theorem place_droopThresh (s : State) (i : Item) : (s.place i).droopThresh = s.droopThresh := rfl
@[simp] theorem place_dies (s : State) (i : Item) : (s.place i).dies = s.dies := rfl
@[simp] theorem place_overPower (s : State) (i : Item) : (s.place i).overPower = s.overPower := rfl
@[simp] theorem place_injections (s : State) (i : Item) : (s.place i).injections = s.injections := rfl
@[simp] theorem place_qps (s : State) (i : Item) : (s.place i).qps = s.qps := rfl
@[simp] theorem place_mails (s : State) (i : Item) : (s.place i).mails = s.mails := rfl
@[simp] theorem place_submitted (s : State) (i : Item) : (s.place i).submitted = s.submitted := rfl
@[simp] theorem place_turned (s : State) (i : Item) : (s.place i).turned = s.turned := rfl
@[simp] theorem place_outbox (s : State) (i : Item) : (s.place i).outbox = s.outbox := rfl

/-! ### drop -/

@[simp] theorem drop_mem (s : State) (id : Nat) : (s.drop id).mem = s.mem := rfl
@[simp] theorem drop_cols (s : State) (id : Nat) : (s.drop id).cols = s.cols := rfl
@[simp] theorem drop_groups (s : State) (id : Nat) : (s.drop id).groups = s.groups := rfl
@[simp] theorem drop_teams (s : State) (id : Nat) : (s.drop id).teams = s.teams := rfl
@[simp] theorem drop_launches (s : State) (id : Nat) : (s.drop id).launches = s.launches := rfl
@[simp] theorem drop_ctxs (s : State) (id : Nat) : (s.drop id).ctxs = s.ctxs := rfl
@[simp] theorem drop_ctxTable (s : State) (id : Nat) : (s.drop id).ctxTable = s.ctxTable := rfl
@[simp] theorem drop_images (s : State) (id : Nat) : (s.drop id).images = s.images := rfl
@[simp] theorem drop_queues (s : State) (id : Nat) : (s.drop id).queues = s.queues := rfl
@[simp] theorem drop_lastQueue (s : State) (id : Nat) : (s.drop id).lastQueue = s.lastQueue := rfl
@[simp] theorem drop_nextId (s : State) (id : Nat) : (s.drop id).nextId = s.nextId := rfl
@[simp] theorem drop_time (s : State) (id : Nat) : (s.drop id).time = s.time := rfl
@[simp] theorem drop_cycles (s : State) (id : Nat) : (s.drop id).cycles = s.cycles := rfl
@[simp] theorem drop_issues (s : State) (id : Nat) : (s.drop id).issues = s.issues := rfl
@[simp] theorem drop_cur (s : State) (id : Nat) : (s.drop id).cur = s.cur := rfl
@[simp] theorem drop_late (s : State) (id : Nat) : (s.drop id).late = s.late := rfl
@[simp] theorem drop_held (s : State) (id : Nat) : (s.drop id).held = s.held := rfl
@[simp] theorem drop_schedule (s : State) (id : Nat) : (s.drop id).schedule = s.schedule := rfl
@[simp] theorem drop_draws (s : State) (id : Nat) : (s.drop id).draws = s.draws := rfl
@[simp] theorem drop_boot (s : State) (id : Nat) : (s.drop id).boot = s.boot := rfl
@[simp] theorem drop_power (s : State) (id : Nat) : (s.drop id).power = s.power := rfl
@[simp] theorem drop_flash (s : State) (id : Nat) : (s.drop id).flash = s.flash := rfl
@[simp] theorem drop_record (s : State) (id : Nat) : (s.drop id).record = s.record := rfl
@[simp] theorem drop_mapOut (s : State) (id : Nat) : (s.drop id).mapOut = s.mapOut := rfl
@[simp] theorem drop_storedSplit (s : State) (id : Nat) : (s.drop id).storedSplit = s.storedSplit := rfl
@[simp] theorem drop_split (s : State) (id : Nat) : (s.drop id).split = s.split := rfl
@[simp] theorem drop_splitRefused (s : State) (id : Nat) : (s.drop id).splitRefused = s.splitRefused := rfl
@[simp] theorem drop_identity (s : State) (id : Nat) : (s.drop id).identity = s.identity := rfl
@[simp] theorem drop_stopped (s : State) (id : Nat) : (s.drop id).stopped = s.stopped := rfl
@[simp] theorem drop_dev (s : State) (id : Nat) : (s.drop id).dev = s.dev := rfl
@[simp] theorem drop_devSet (s : State) (id : Nat) : (s.drop id).devSet = s.devSet := rfl
@[simp] theorem drop_ports (s : State) (id : Nat) : (s.drop id).ports = s.ports := rfl
@[simp] theorem drop_lost (s : State) (id : Nat) : (s.drop id).lost = s.lost := rfl
@[simp] theorem drop_hostdev (s : State) (id : Nat) : (s.drop id).hostdev = s.hostdev := rfl
@[simp] theorem drop_windows (s : State) (id : Nat) : (s.drop id).windows = s.windows := rfl
@[simp] theorem drop_sems (s : State) (id : Nat) : (s.drop id).sems = s.sems := rfl
@[simp] theorem drop_semLast (s : State) (id : Nat) : (s.drop id).semLast = s.semLast := rfl
@[simp] theorem drop_fifo (s : State) (id : Nat) : (s.drop id).fifo = s.fifo := rfl
@[simp] theorem drop_drops (s : State) (id : Nat) : (s.drop id).drops = s.drops := rfl
@[simp] theorem drop_report (s : State) (id : Nat) : (s.drop id).report = s.report := rfl
@[simp] theorem drop_alarms (s : State) (id : Nat) : (s.drop id).alarms = s.alarms := rfl
@[simp] theorem drop_droopEn (s : State) (id : Nat) : (s.drop id).droopEn = s.droopEn := rfl
@[simp] theorem drop_droopThresh (s : State) (id : Nat) : (s.drop id).droopThresh = s.droopThresh := rfl
@[simp] theorem drop_dies (s : State) (id : Nat) : (s.drop id).dies = s.dies := rfl
@[simp] theorem drop_overPower (s : State) (id : Nat) : (s.drop id).overPower = s.overPower := rfl
@[simp] theorem drop_injections (s : State) (id : Nat) : (s.drop id).injections = s.injections := rfl
@[simp] theorem drop_qps (s : State) (id : Nat) : (s.drop id).qps = s.qps := rfl
@[simp] theorem drop_mails (s : State) (id : Nat) : (s.drop id).mails = s.mails := rfl
@[simp] theorem drop_submitted (s : State) (id : Nat) : (s.drop id).submitted = s.submitted := rfl
@[simp] theorem drop_turned (s : State) (id : Nat) : (s.drop id).turned = s.turned := rfl
@[simp] theorem drop_outbox (s : State) (id : Nat) : (s.drop id).outbox = s.outbox := rfl

/-! ### setItem -/

@[simp] theorem setItem_mem (s : State) (id : Nat) (i : Item) : (s.setItem id i).mem = s.mem := rfl
@[simp] theorem setItem_cols (s : State) (id : Nat) (i : Item) : (s.setItem id i).cols = s.cols := rfl
@[simp] theorem setItem_groups (s : State) (id : Nat) (i : Item) : (s.setItem id i).groups = s.groups := rfl
@[simp] theorem setItem_teams (s : State) (id : Nat) (i : Item) : (s.setItem id i).teams = s.teams := rfl
@[simp] theorem setItem_launches (s : State) (id : Nat) (i : Item) : (s.setItem id i).launches = s.launches := rfl
@[simp] theorem setItem_ctxs (s : State) (id : Nat) (i : Item) : (s.setItem id i).ctxs = s.ctxs := rfl
@[simp] theorem setItem_ctxTable (s : State) (id : Nat) (i : Item) : (s.setItem id i).ctxTable = s.ctxTable := rfl
@[simp] theorem setItem_images (s : State) (id : Nat) (i : Item) : (s.setItem id i).images = s.images := rfl
@[simp] theorem setItem_queues (s : State) (id : Nat) (i : Item) : (s.setItem id i).queues = s.queues := rfl
@[simp] theorem setItem_lastQueue (s : State) (id : Nat) (i : Item) : (s.setItem id i).lastQueue = s.lastQueue := rfl
@[simp] theorem setItem_nextId (s : State) (id : Nat) (i : Item) : (s.setItem id i).nextId = s.nextId := rfl
@[simp] theorem setItem_time (s : State) (id : Nat) (i : Item) : (s.setItem id i).time = s.time := rfl
@[simp] theorem setItem_cycles (s : State) (id : Nat) (i : Item) : (s.setItem id i).cycles = s.cycles := rfl
@[simp] theorem setItem_issues (s : State) (id : Nat) (i : Item) : (s.setItem id i).issues = s.issues := rfl
@[simp] theorem setItem_cur (s : State) (id : Nat) (i : Item) : (s.setItem id i).cur = s.cur := rfl
@[simp] theorem setItem_late (s : State) (id : Nat) (i : Item) : (s.setItem id i).late = s.late := rfl
@[simp] theorem setItem_held (s : State) (id : Nat) (i : Item) : (s.setItem id i).held = s.held := rfl
@[simp] theorem setItem_schedule (s : State) (id : Nat) (i : Item) : (s.setItem id i).schedule = s.schedule := rfl
@[simp] theorem setItem_draws (s : State) (id : Nat) (i : Item) : (s.setItem id i).draws = s.draws := rfl
@[simp] theorem setItem_boot (s : State) (id : Nat) (i : Item) : (s.setItem id i).boot = s.boot := rfl
@[simp] theorem setItem_power (s : State) (id : Nat) (i : Item) : (s.setItem id i).power = s.power := rfl
@[simp] theorem setItem_flash (s : State) (id : Nat) (i : Item) : (s.setItem id i).flash = s.flash := rfl
@[simp] theorem setItem_record (s : State) (id : Nat) (i : Item) : (s.setItem id i).record = s.record := rfl
@[simp] theorem setItem_mapOut (s : State) (id : Nat) (i : Item) : (s.setItem id i).mapOut = s.mapOut := rfl
@[simp] theorem setItem_storedSplit (s : State) (id : Nat) (i : Item) : (s.setItem id i).storedSplit = s.storedSplit := rfl
@[simp] theorem setItem_split (s : State) (id : Nat) (i : Item) : (s.setItem id i).split = s.split := rfl
@[simp] theorem setItem_splitRefused (s : State) (id : Nat) (i : Item) : (s.setItem id i).splitRefused = s.splitRefused := rfl
@[simp] theorem setItem_identity (s : State) (id : Nat) (i : Item) : (s.setItem id i).identity = s.identity := rfl
@[simp] theorem setItem_stopped (s : State) (id : Nat) (i : Item) : (s.setItem id i).stopped = s.stopped := rfl
@[simp] theorem setItem_dev (s : State) (id : Nat) (i : Item) : (s.setItem id i).dev = s.dev := rfl
@[simp] theorem setItem_devSet (s : State) (id : Nat) (i : Item) : (s.setItem id i).devSet = s.devSet := rfl
@[simp] theorem setItem_ports (s : State) (id : Nat) (i : Item) : (s.setItem id i).ports = s.ports := rfl
@[simp] theorem setItem_lost (s : State) (id : Nat) (i : Item) : (s.setItem id i).lost = s.lost := rfl
@[simp] theorem setItem_hostdev (s : State) (id : Nat) (i : Item) : (s.setItem id i).hostdev = s.hostdev := rfl
@[simp] theorem setItem_windows (s : State) (id : Nat) (i : Item) : (s.setItem id i).windows = s.windows := rfl
@[simp] theorem setItem_sems (s : State) (id : Nat) (i : Item) : (s.setItem id i).sems = s.sems := rfl
@[simp] theorem setItem_semLast (s : State) (id : Nat) (i : Item) : (s.setItem id i).semLast = s.semLast := rfl
@[simp] theorem setItem_fifo (s : State) (id : Nat) (i : Item) : (s.setItem id i).fifo = s.fifo := rfl
@[simp] theorem setItem_drops (s : State) (id : Nat) (i : Item) : (s.setItem id i).drops = s.drops := rfl
@[simp] theorem setItem_report (s : State) (id : Nat) (i : Item) : (s.setItem id i).report = s.report := rfl
@[simp] theorem setItem_alarms (s : State) (id : Nat) (i : Item) : (s.setItem id i).alarms = s.alarms := rfl
@[simp] theorem setItem_droopEn (s : State) (id : Nat) (i : Item) : (s.setItem id i).droopEn = s.droopEn := rfl
@[simp] theorem setItem_droopThresh (s : State) (id : Nat) (i : Item) : (s.setItem id i).droopThresh = s.droopThresh := rfl
@[simp] theorem setItem_dies (s : State) (id : Nat) (i : Item) : (s.setItem id i).dies = s.dies := rfl
@[simp] theorem setItem_overPower (s : State) (id : Nat) (i : Item) : (s.setItem id i).overPower = s.overPower := rfl
@[simp] theorem setItem_injections (s : State) (id : Nat) (i : Item) : (s.setItem id i).injections = s.injections := rfl
@[simp] theorem setItem_qps (s : State) (id : Nat) (i : Item) : (s.setItem id i).qps = s.qps := rfl
@[simp] theorem setItem_mails (s : State) (id : Nat) (i : Item) : (s.setItem id i).mails = s.mails := rfl
@[simp] theorem setItem_submitted (s : State) (id : Nat) (i : Item) : (s.setItem id i).submitted = s.submitted := rfl
@[simp] theorem setItem_turned (s : State) (id : Nat) (i : Item) : (s.setItem id i).turned = s.turned := rfl
@[simp] theorem setItem_outbox (s : State) (id : Nat) (i : Item) : (s.setItem id i).outbox = s.outbox := rfl

/-! ### out -/

@[simp] theorem out_mem (s : State) (o : Out) : (s.out o).mem = s.mem := rfl
@[simp] theorem out_cols (s : State) (o : Out) : (s.out o).cols = s.cols := rfl
@[simp] theorem out_groups (s : State) (o : Out) : (s.out o).groups = s.groups := rfl
@[simp] theorem out_teams (s : State) (o : Out) : (s.out o).teams = s.teams := rfl
@[simp] theorem out_launches (s : State) (o : Out) : (s.out o).launches = s.launches := rfl
@[simp] theorem out_ctxs (s : State) (o : Out) : (s.out o).ctxs = s.ctxs := rfl
@[simp] theorem out_ctxTable (s : State) (o : Out) : (s.out o).ctxTable = s.ctxTable := rfl
@[simp] theorem out_images (s : State) (o : Out) : (s.out o).images = s.images := rfl
@[simp] theorem out_queues (s : State) (o : Out) : (s.out o).queues = s.queues := rfl
@[simp] theorem out_lastQueue (s : State) (o : Out) : (s.out o).lastQueue = s.lastQueue := rfl
@[simp] theorem out_flight (s : State) (o : Out) : (s.out o).flight = s.flight := rfl
@[simp] theorem out_nextId (s : State) (o : Out) : (s.out o).nextId = s.nextId := rfl
@[simp] theorem out_time (s : State) (o : Out) : (s.out o).time = s.time := rfl
@[simp] theorem out_cycles (s : State) (o : Out) : (s.out o).cycles = s.cycles := rfl
@[simp] theorem out_issues (s : State) (o : Out) : (s.out o).issues = s.issues := rfl
@[simp] theorem out_cur (s : State) (o : Out) : (s.out o).cur = s.cur := rfl
@[simp] theorem out_late (s : State) (o : Out) : (s.out o).late = s.late := rfl
@[simp] theorem out_held (s : State) (o : Out) : (s.out o).held = s.held := rfl
@[simp] theorem out_schedule (s : State) (o : Out) : (s.out o).schedule = s.schedule := rfl
@[simp] theorem out_draws (s : State) (o : Out) : (s.out o).draws = s.draws := rfl
@[simp] theorem out_boot (s : State) (o : Out) : (s.out o).boot = s.boot := rfl
@[simp] theorem out_power (s : State) (o : Out) : (s.out o).power = s.power := rfl
@[simp] theorem out_flash (s : State) (o : Out) : (s.out o).flash = s.flash := rfl
@[simp] theorem out_record (s : State) (o : Out) : (s.out o).record = s.record := rfl
@[simp] theorem out_mapOut (s : State) (o : Out) : (s.out o).mapOut = s.mapOut := rfl
@[simp] theorem out_storedSplit (s : State) (o : Out) : (s.out o).storedSplit = s.storedSplit := rfl
@[simp] theorem out_split (s : State) (o : Out) : (s.out o).split = s.split := rfl
@[simp] theorem out_splitRefused (s : State) (o : Out) : (s.out o).splitRefused = s.splitRefused := rfl
@[simp] theorem out_identity (s : State) (o : Out) : (s.out o).identity = s.identity := rfl
@[simp] theorem out_stopped (s : State) (o : Out) : (s.out o).stopped = s.stopped := rfl
@[simp] theorem out_dev (s : State) (o : Out) : (s.out o).dev = s.dev := rfl
@[simp] theorem out_devSet (s : State) (o : Out) : (s.out o).devSet = s.devSet := rfl
@[simp] theorem out_ports (s : State) (o : Out) : (s.out o).ports = s.ports := rfl
@[simp] theorem out_lost (s : State) (o : Out) : (s.out o).lost = s.lost := rfl
@[simp] theorem out_hostdev (s : State) (o : Out) : (s.out o).hostdev = s.hostdev := rfl
@[simp] theorem out_windows (s : State) (o : Out) : (s.out o).windows = s.windows := rfl
@[simp] theorem out_sems (s : State) (o : Out) : (s.out o).sems = s.sems := rfl
@[simp] theorem out_semLast (s : State) (o : Out) : (s.out o).semLast = s.semLast := rfl
@[simp] theorem out_fifo (s : State) (o : Out) : (s.out o).fifo = s.fifo := rfl
@[simp] theorem out_drops (s : State) (o : Out) : (s.out o).drops = s.drops := rfl
@[simp] theorem out_report (s : State) (o : Out) : (s.out o).report = s.report := rfl
@[simp] theorem out_alarms (s : State) (o : Out) : (s.out o).alarms = s.alarms := rfl
@[simp] theorem out_droopEn (s : State) (o : Out) : (s.out o).droopEn = s.droopEn := rfl
@[simp] theorem out_droopThresh (s : State) (o : Out) : (s.out o).droopThresh = s.droopThresh := rfl
@[simp] theorem out_dies (s : State) (o : Out) : (s.out o).dies = s.dies := rfl
@[simp] theorem out_overPower (s : State) (o : Out) : (s.out o).overPower = s.overPower := rfl
@[simp] theorem out_injections (s : State) (o : Out) : (s.out o).injections = s.injections := rfl
@[simp] theorem out_qps (s : State) (o : Out) : (s.out o).qps = s.qps := rfl
@[simp] theorem out_mails (s : State) (o : Out) : (s.out o).mails = s.mails := rfl
@[simp] theorem out_submitted (s : State) (o : Out) : (s.out o).submitted = s.submitted := rfl
@[simp] theorem out_turned (s : State) (o : Out) : (s.out o).turned = s.turned := rfl

/-! ### changed -/

@[simp] theorem changed_mem (s : State) : (s.changed).mem = s.mem := rfl
@[simp] theorem changed_cols (s : State) : (s.changed).cols = s.cols := rfl
@[simp] theorem changed_groups (s : State) : (s.changed).groups = s.groups := rfl
@[simp] theorem changed_teams (s : State) : (s.changed).teams = s.teams := rfl
@[simp] theorem changed_launches (s : State) : (s.changed).launches = s.launches := rfl
@[simp] theorem changed_ctxs (s : State) : (s.changed).ctxs = s.ctxs := rfl
@[simp] theorem changed_ctxTable (s : State) : (s.changed).ctxTable = s.ctxTable := rfl
@[simp] theorem changed_images (s : State) : (s.changed).images = s.images := rfl
@[simp] theorem changed_queues (s : State) : (s.changed).queues = s.queues := rfl
@[simp] theorem changed_lastQueue (s : State) : (s.changed).lastQueue = s.lastQueue := rfl
@[simp] theorem changed_flight (s : State) : (s.changed).flight = s.flight := rfl
@[simp] theorem changed_nextId (s : State) : (s.changed).nextId = s.nextId := rfl
@[simp] theorem changed_time (s : State) : (s.changed).time = s.time := rfl
@[simp] theorem changed_cycles (s : State) : (s.changed).cycles = s.cycles := rfl
@[simp] theorem changed_cur (s : State) : (s.changed).cur = s.cur := rfl
@[simp] theorem changed_late (s : State) : (s.changed).late = s.late := rfl
@[simp] theorem changed_schedule (s : State) : (s.changed).schedule = s.schedule := rfl
@[simp] theorem changed_draws (s : State) : (s.changed).draws = s.draws := rfl
@[simp] theorem changed_boot (s : State) : (s.changed).boot = s.boot := rfl
@[simp] theorem changed_power (s : State) : (s.changed).power = s.power := rfl
@[simp] theorem changed_flash (s : State) : (s.changed).flash = s.flash := rfl
@[simp] theorem changed_record (s : State) : (s.changed).record = s.record := rfl
@[simp] theorem changed_mapOut (s : State) : (s.changed).mapOut = s.mapOut := rfl
@[simp] theorem changed_storedSplit (s : State) : (s.changed).storedSplit = s.storedSplit := rfl
@[simp] theorem changed_split (s : State) : (s.changed).split = s.split := rfl
@[simp] theorem changed_splitRefused (s : State) : (s.changed).splitRefused = s.splitRefused := rfl
@[simp] theorem changed_identity (s : State) : (s.changed).identity = s.identity := rfl
@[simp] theorem changed_stopped (s : State) : (s.changed).stopped = s.stopped := rfl
@[simp] theorem changed_dev (s : State) : (s.changed).dev = s.dev := rfl
@[simp] theorem changed_devSet (s : State) : (s.changed).devSet = s.devSet := rfl
@[simp] theorem changed_ports (s : State) : (s.changed).ports = s.ports := rfl
@[simp] theorem changed_lost (s : State) : (s.changed).lost = s.lost := rfl
@[simp] theorem changed_hostdev (s : State) : (s.changed).hostdev = s.hostdev := rfl
@[simp] theorem changed_windows (s : State) : (s.changed).windows = s.windows := rfl
@[simp] theorem changed_sems (s : State) : (s.changed).sems = s.sems := rfl
@[simp] theorem changed_semLast (s : State) : (s.changed).semLast = s.semLast := rfl
@[simp] theorem changed_fifo (s : State) : (s.changed).fifo = s.fifo := rfl
@[simp] theorem changed_drops (s : State) : (s.changed).drops = s.drops := rfl
@[simp] theorem changed_report (s : State) : (s.changed).report = s.report := rfl
@[simp] theorem changed_alarms (s : State) : (s.changed).alarms = s.alarms := rfl
@[simp] theorem changed_droopEn (s : State) : (s.changed).droopEn = s.droopEn := rfl
@[simp] theorem changed_droopThresh (s : State) : (s.changed).droopThresh = s.droopThresh := rfl
@[simp] theorem changed_dies (s : State) : (s.changed).dies = s.dies := rfl
@[simp] theorem changed_overPower (s : State) : (s.changed).overPower = s.overPower := rfl
@[simp] theorem changed_injections (s : State) : (s.changed).injections = s.injections := rfl
@[simp] theorem changed_qps (s : State) : (s.changed).qps = s.qps := rfl
@[simp] theorem changed_mails (s : State) : (s.changed).mails = s.mails := rfl
@[simp] theorem changed_submitted (s : State) : (s.changed).submitted = s.submitted := rfl
@[simp] theorem changed_turned (s : State) : (s.changed).turned = s.turned := rfl
@[simp] theorem changed_outbox (s : State) : (s.changed).outbox = s.outbox := rfl

/-! ### What is found after an update -/

@[simp] theorem place_flight (s : State) (i : Item) : (s.place i).flight = s.flight ++ [⟨s.nextId, i⟩] := rfl
@[simp] theorem place_nextId (s : State) (i : Item) : (s.place i).nextId = s.nextId + 1 := rfl
@[simp] theorem out_outbox (s : State) (o : Out) : (s.out o).outbox = s.outbox ++ [o] := rfl
@[simp] theorem changed_issues (s : State) : s.changed.issues = s.issues + 1 := rfl
@[simp] theorem changed_held (s : State) : s.changed.held = [] := rfl

/-- A group that is there is found after an update that keeps its number. -/
theorem grp_modGroup_same {s : State} {g : Nat} {f : Group → Group} (hg : s.hasGroup g = true) (hf : ∀ x, (f x).id = x.id) :
    (s.modGroup g f).grp g = f (s.grp g) := by
  simp only [grp, modGroup, hasGroup] at *
  generalize s.groups = l at *
  induction l with
  | nil => simp at hg
  | cons x r ih =>
    by_cases hx : x.id = g
    · simp [hx, hf]
    · have hr : (r.any fun x => decide (x.id = g)) = true := by simpa [hx] using hg
      simp only [List.map_cons, if_neg hx]
      rw [List.find?_cons_of_neg (by simpa using hx), List.find?_cons_of_neg (by simpa using hx)]
      exact ih hr

/-- Another group is as before. -/
theorem grp_modGroup_other {s : State} {g h : Nat} {f : Group → Group} (hne : h ≠ g) (hf : ∀ x, (f x).id = x.id) :
    (s.modGroup g f).grp h = s.grp h := by
  simp only [grp, modGroup]
  generalize s.groups = l
  induction l with
  | nil => rfl
  | cons x r ih =>
    simp only [List.map_cons]
    by_cases hx : x.id = h
    · rw [if_neg (by rw [hx]; exact hne)]
      rw [List.find?_cons_of_pos (by simpa using hx), List.find?_cons_of_pos (by simpa using hx)]
    · rw [List.find?_cons_of_neg (by by_cases hg : x.id = g <;> simp [hg, hf, hx]; simpa [hg] using hx), List.find?_cons_of_neg (by simpa using hx)]
      exact ih

theorem hasGroup_modGroup {s : State} {g h : Nat} {f : Group → Group} (hf : ∀ x, (f x).id = x.id) :
    (s.modGroup g f).hasGroup h = s.hasGroup h := by
  simp only [hasGroup, modGroup, List.any_map]
  congr 1
  funext x
  by_cases hx : x.id = g <;> simp [hx, hf]

/-- Two updates of one group are one. -/
theorem modGroup_modGroup {s : State} {g : Nat} {f h : Group → Group} (hf : ∀ x, (f x).id = x.id) :
    (s.modGroup g f).modGroup g h = s.modGroup g fun x => h (f x) := by
  simp only [modGroup, List.map_map]
  congr 2
  funext x
  by_cases hx : x.id = g <;> simp [hx, hf]

theorem grp_modImage_same {s : State} {g : Nat} {f : Image → Image} (hg : s.hasGroup g = true) :
    (s.modImage g f).grp g = { s.grp g with image := f (s.grp g).image } :=
  grp_modGroup_same hg fun _ => rfl

@[simp] theorem modImage_cur (s : State) (g : Nat) (f : Image → Image) : (s.modImage g f).cur = s.cur := rfl

theorem modGroup_congr {s : State} {g : Nat} {f h : Group → Group} (hf : ∀ x, f x = h x) : s.modGroup g f = s.modGroup g h := by
  rw [show f = h from funext hf]

theorem modCol_modCol {s : State} {c : Nat} {f h : Column → Column} : (s.modCol c f).modCol c h = s.modCol c fun x => h (f x) := by
  simp only [modCol, List.modify_modify_eq, Function.comp_def]

/-- A column that is there is found after an update. -/
theorem col_modCol_same {s : State} {c : Nat} {f : Column → Column} (hc : c < s.cols.length) : (s.modCol c f).col c = f (s.col c) := by
  simp [col, modCol, List.getD_eq_getElem?_getD, hc]

theorem col_modCol_other {s : State} {c d : Nat} {f : Column → Column} (h : d ≠ c) : (s.modCol c f).col d = s.col d := by
  simp [col, modCol, List.getD_eq_getElem?_getD, Ne.symm h]

end State

/-! ### Vectors -/

section
variable {α : Type} {n : Nat}

@[simp] theorem vget_vmod_same {d : α} {v : Vector α n} {i : Nat} {f : α → α} (h : i < n) : vget d (vmod v i f) i = f (vget d v i) := by
  simp [vget, vmod, h]

theorem vget_vmod_other {d : α} {v : Vector α n} {i j : Nat} {f : α → α} (h : j ≠ i) : vget d (vmod v i f) j = vget d v j := by
  simp only [vget, vmod]
  split
  · split
    · rw [Vector.getElem_set_ne (h := Ne.symm h)]
    · rfl
  · rfl

theorem vmod_vmod {v : Vector α n} {i : Nat} {f g : α → α} : vmod (vmod v i f) i g = vmod v i fun x => g (f x) := by
  simp only [vmod]
  split
  · simp
  · rfl

end

namespace State

/-- A thread of a column that is there is found after an update. -/
theorem thread_modThread_same {s : State} {c t : Nat} {f : Thread → Thread} (hc : c < s.cols.length) (ht : t < 16) :
    (s.modThread c t f).thread c t = f (s.thread c t) := by
  simp only [thread, modThread, col_modCol_same hc]
  exact vget_vmod_same ht

theorem modThread_modThread {s : State} {c t : Nat} {f h : Thread → Thread} :
    (s.modThread c t f).modThread c t h = s.modThread c t fun x => h (f x) := by
  simp only [modThread, modCol_modCol, vmod_vmod]

end State

end Sys2Proof.Machine
end

