-- ==== Sys2Proof/Laws/Frame.lean ====
section
/-! SUPPORT. Frames: what the updates of the issuing agent and the bookkeeping of an issue leave alone, and the one lemma by which an instruction completes. -/

namespace Sys2Proof.Machine

open Sys2Proof

/-! ### Frames compose -/

namespace Kept

theorem refl (m : May) (s : State) : Kept m s s where
  agent := rfl
  lanes := rfl
  world := rfl
  contexts := .refl _
  memory _ := rfl
  flags _ := rfl
  gens _ := rfl
  sregs _ _ := rfl
  vregs _ _ := rfl
  kregs _ _ := rfl

theorem trans {m : May} {s t u : State} (h : Kept m s t) (k : Kept m t u) : Kept m s u where
  agent := k.agent.trans h.agent
  lanes := k.lanes.trans h.lanes
  world := k.world.trans h.world
  contexts := k.contexts.trans h.contexts
  memory a := (k.memory a).trans (h.memory a)
  flags hm := (k.flags hm).trans (h.flags hm)
  gens hm := (k.gens hm).trans (h.gens hm)
  sregs r hr := (k.sregs r hr).trans (h.sregs r hr)
  vregs r hr := (k.vregs r hr).trans (h.vregs r hr)
  kregs r hr := (k.kregs r hr).trans (h.kregs r hr)

/-- What may change less may change more. -/
theorem mono {m m' : May} {s t : State} (h : Kept m s t) (hs : ∀ r ∈ m.s, r ∈ m'.s) (hv : ∀ r ∈ m.v, r ∈ m'.v) (hk : ∀ r ∈ m.k, r ∈ m'.k)
    (hf : m'.flags = false → m.flags = false) (hg : m'.gens = false → m.gens = false) : Kept m' s t :=
  { h with
    flags := h.flags ∘ hf
    gens := h.gens ∘ hg
    sregs := fun r hr => h.sregs r (hr ∘ hs r)
    vregs := fun r hr => h.vregs r (hr ∘ hv r)
    kregs := fun r hr => h.kregs r (hr ∘ hk r) }

/-- What changes nothing but counters may go with any frame. -/
theorem weaken {m : May} {s t : State} (h : Kept {} s t) : Kept m s t :=
  h.mono (fun _ hr => by simp at hr) (fun _ hr => by simp at hr) (fun _ hr => by simp at hr) (fun _ => rfl) (fun _ => rfl)

end Kept

/-! ### Frames of one group -/

/-- Two states of a group that differ, beyond the slot's program counter and bookkeeping, in what `m` names. -/
structure GroupKept (m : May) (b : Bool) (x y : Group) : Prop where
  id : y.id = x.id
  husk : y.husk = x.husk
  sregs : ∀ r, r ∉ m.s → vget SReg.zero y.image.s r = vget SReg.zero x.image.s r
  vregs : ∀ r, r ∉ m.v → vget VReg.zero y.image.v r = vget VReg.zero x.image.v r
  kregs : ∀ r, r ∉ m.k → vget 0 y.image.k r = vget 0 x.image.k r
  flags : m.flags = false → ((y.image.slot b).getD Path.blank).flags = ((x.image.slot b).getD Path.blank).flags
  gens : m.gens = false → y.image.gens = x.image.gens
  lanes : ((y.image.slot b).getD Path.blank).mask = ((x.image.slot b).getD Path.blank).mask
  contexts : (((y.image.slot (!b)).toList ++ y.image.stack).map State.entering).Perm (((x.image.slot (!b)).toList ++ x.image.stack).map State.entering)

theorem Group.width_of_husk {x y : Group} (h : y.husk = x.husk) : y.width = x.width := by
  have := congrArg Group.width h
  exact this

theorem Group.privileged_of_husk {x y : Group} (h : y.husk = x.husk) : y.privileged = x.privileged := by
  have := congrArg Group.privileged h
  exact this

/-- The slot holds a context that goes on issuing: a RUNNING one, or a handler's (R122, R134). -/
def Group.goesOn (x : Group) (b : Bool) : Bool := ((x.image.slot b).map fun p => x.privileged || State.isRunning p).getD false

theorem Group.goesOn_some {x : Group} {b : Bool} (h : x.goesOn b = true) : ∃ p, x.image.slot b = some p := by
  cases hs : x.image.slot b with
  | none => simp [goesOn, hs] at h
  | some p => exact ⟨p, rfl⟩

/-- Without a handler, the context that goes on is RUNNING. -/
theorem Group.goesOn_plain {x : Group} {b : Bool} (hp : x.privileged = false) : x.goesOn b = ((x.image.slot b).map State.isRunning).getD false := by
  simp only [goesOn, hp, Bool.false_or]

/-- Whether a slot goes on depends on the privilege and on what parks its context. -/
theorem Group.goesOn_congr {x y : Group} {b : Bool} (hp : y.privileged = x.privileged)
    (hs : (y.image.slot b).map State.isRunning = (x.image.slot b).map State.isRunning) : y.goesOn b = x.goesOn b := by
  simp only [goesOn, hp]
  cases hy : y.image.slot b <;> cases hx : x.image.slot b <;> simp [hy, hx] at hs <;> simp [hs]

namespace State

theorem world_slot {s : State} {g : Nat} {b : Bool} (hc : s.cur = .slot g b) :
    s.world = { s.modGroup g Group.husk with held := [], issues := 0 } := by
  simp only [world, hc]

theorem me_slot {s : State} {g : Nat} {b : Bool} (hc : s.cur = .slot g b) : s.me = s.grp g := by
  simp only [me, curGrp, hc]

end State

/-- A group is framed by itself. -/
theorem GroupKept.refl (m : May) (b : Bool) (x : Group) : GroupKept m b x x where
  id := rfl
  husk := rfl
  lanes := rfl
  contexts := .refl _
  flags _ := rfl
  gens _ := rfl
  sregs _ _ := rfl
  vregs _ _ := rfl
  kregs _ _ := rfl

/-- An update of the issuing group that keeps its husk is framed by what it does to the group. -/
theorem Kept.of_modGroup {m : May} {s : State} {g : Nat} {b : Bool} {f : Group → Group} (hc : s.cur = .slot g b) (hg : s.hasGroup g = true)
    (hid : ∀ x, (f x).id = x.id) (hh : ∀ x, (f x).husk = x.husk) (h : GroupKept m b (s.grp g) (f (s.grp g))) : Kept m s (s.modGroup g f) := by
  have hc' : (s.modGroup g f).cur = .slot g b := hc
  have hgrp := State.grp_modGroup_same hg hid
  have hw : (f (s.grp g)).width = (s.grp g).width := Group.width_of_husk h.husk
  refine ⟨rfl, ?_, fun _ => rfl, ?_, ?_, ?_, ?_, ?_, ?_, ?_⟩
  · rw [State.world_slot hc, State.world_slot hc', State.modGroup_modGroup hid, State.modGroup_congr hh]
  · intro r hr
    by_cases h0 : r = 0
    · simp [State.sreg, h0]
    · simp only [State.sreg, h0, if_false, hc, hc', hgrp]; exact h.sregs r hr
  · intro r hr
    simp only [State.vreg, State.me_slot hc, State.me_slot hc', hgrp]; exact h.vregs r hr
  · intro r hr
    simp only [State.kreg, State.me_slot hc, State.me_slot hc', hgrp, Image.kreg, hw, h.kregs r hr]
  · intro hm
    simp only [State.flags, hc, hc', State.myPath, State.me_slot hc, State.me_slot hc', State.curSlot, hgrp]; exact h.flags hm
  · intro hm
    simp only [State.me_slot hc, State.me_slot hc', hgrp]; exact h.gens hm
  · simp only [State.slotMask, hc, hc', State.myPath, State.me_slot hc, State.me_slot hc', State.curSlot, hgrp]; exact h.lanes
  · simp only [State.others, hc, hc', hgrp]; exact h.contexts

/-! ### Frames of one stream thread -/

/-- An update of the issuing thread that keeps its husk. -/
theorem Kept.of_modThread {m : May} {s : State} {c t : Nat} {f : Thread → Thread} (hc : s.cur = .thread c t) (hl : c < s.cols.length) (ht : t < 16)
    (hh : ∀ x, (f x).husk = x.husk) (hs : ∀ r, r ∉ m.s → vget SReg.zero (f (s.thread c t)).s r = vget SReg.zero (s.thread c t).s r)
    (hf : m.flags = false → (f (s.thread c t)).flags = (s.thread c t).flags) : Kept m s (s.modThread c t f) := by
  have hc' : (s.modThread c t f).cur = .thread c t := hc
  have hthr := State.thread_modThread_same (f := f) hl ht
  refine ⟨rfl, ?_, fun _ => rfl, ?_, fun _ _ => ?_, fun _ _ => ?_, ?_, fun _ => ?_, ?_, ?_⟩
  · simp only [State.world, hc, hc', State.modThread_modThread]
    rw [show (fun x => (f x).husk) = Thread.husk from funext hh]
  · intro r hr
    by_cases h0 : r = 0
    · simp [State.sreg, h0]
    · simp only [State.sreg, h0, if_false, hc, hc', hthr]; exact hs r hr
  · simp only [State.vreg, State.me, State.curGrp, hc, hc']; rfl
  · simp only [State.kreg, State.me, State.curGrp, hc, hc']; rfl
  · intro hm
    simp only [State.flags, hc, hc', hthr]; exact hf hm
  · simp only [State.me, State.curGrp, hc, hc']; rfl
  · simp only [State.slotMask, State.myPath, State.me, State.curGrp, State.curSlot, hc, hc']; rfl
  · simp only [State.others, hc, hc']; exact List.Perm.refl _

namespace State

/-- Counting an issue and forgetting who was held change nothing else. -/
theorem kept_changed (m : May) (s : State) : Kept m s s.changed := by
  refine { Kept.refl m s with world := ?_ }
  cases hc : s.cur <;> simp only [world, changed_cur, hc] <;> rfl

/-! ### The moves of R129 -/

theorem entering_entering (p : Path) : entering (entering p) = entering p := rfl

theorem popRunning_perm : ∀ {l r : List Path} {p : Path}, popRunning l = some (p, r) → l.Perm (p :: r)
  | [], _, _, h => by simp [popRunning] at h
  | x :: l, r, p, h => by
    simp only [popRunning] at h
    split at h
    · simp only [Option.some.injEq, Prod.mk.injEq] at h
      rw [h.1, h.2]
    · cases hp : popRunning l with
      | none => simp [hp] at h
      | some y =>
        simp only [hp, Option.map_some, Option.some.injEq, Prod.mk.injEq] at h
        obtain ⟨rfl, rfl⟩ := h
        exact ((popRunning_perm hp).cons x).trans (List.Perm.swap _ _ _)

theorem swapRunning_perm {q : Path} : ∀ {l r : List Path} {p : Path}, swapRunning q l = some (p, r) → (q :: l).Perm (p :: r)
  | [], _, _, h => by simp [swapRunning] at h
  | x :: l, r, p, h => by
    simp only [swapRunning] at h
    split at h
    · simp only [Option.some.injEq, Prod.mk.injEq] at h
      rw [← h.1, ← h.2]
      exact List.Perm.swap _ _ _
    · cases hp : swapRunning q l with
      | none => simp [hp] at h
      | some y =>
        simp only [hp, Option.map_some, Option.some.injEq, Prod.mk.injEq] at h
        obtain ⟨rfl, rfl⟩ := h
        exact (List.Perm.swap _ _ _).trans (((swapRunning_perm hp).cons x).trans (List.Perm.swap _ _ _))

theorem setSlot_slot_same (im : Image) (b : Bool) (p : Option Path) : (im.setSlot b p).slot b = p := by cases b <;> rfl
theorem setSlot_slot_other (im : Image) (b : Bool) (p : Option Path) : (im.setSlot b p).slot (!b) = im.slot (!b) := by cases b <;> rfl
theorem setSlot_stack (im : Image) (b : Bool) (p : Option Path) : (im.setSlot b p).stack = im.stack := by cases b <;> rfl
theorem withStack_slot (im : Image) (b : Bool) (st : List Path) : ({ im with stack := st } : Image).slot b = im.slot b := by cases b <;> rfl

/-- A slot that holds a RUNNING context stays as it is. -/
theorem fillSlot_running {im : Image} {b : Bool} (h : ((im.slot b).map isRunning).getD false = true) : fillSlot im b = im := by
  cases hs : im.slot b with
  | none => simp [hs] at h
  | some q =>
    have hq : isRunning q = true := by simpa [hs] using h
    simp only [fillSlot, hs, hq, if_true]

/-- Filling a slot moves contexts between it and the stack. -/
theorem fillSlot_contexts (im : Image) (b : Bool) :
    ((((fillSlot im b).slot b).toList ++ (fillSlot im b).stack).map entering).Perm (((im.slot b).toList ++ im.stack).map entering) := by
  cases hs : im.slot b with
  | none =>
    simp only [fillSlot, hs]
    cases hp : popRunning im.stack with
    | none => simp [hs]
    | some y =>
      simp only [setSlot_slot_same, setSlot_stack, Option.toList_some, Option.toList_none, List.nil_append, List.singleton_append, List.map_cons,
        entering_entering]
      exact ((popRunning_perm hp).map entering).symm
  | some q =>
    simp only [fillSlot, hs]
    split
    · simp [hs]
    · cases hp : swapRunning q im.stack with
      | none => simp [hs]
      | some y =>
        simp only [setSlot_slot_same, setSlot_stack, Option.toList_some, List.singleton_append, List.map_cons, entering_entering]
        exact ((swapRunning_perm hp).map entering).symm

/-- Filling a slot touches the other slot not at all. -/
theorem fillSlot_other (im : Image) (b : Bool) : (fillSlot im b).slot (!b) = im.slot (!b) := by
  simp only [fillSlot]
  split
  · split
    · rw [setSlot_slot_other, withStack_slot]
    · rfl
  · split
    · rfl
    · split
      · rw [setSlot_slot_other, withStack_slot]
      · rfl

/-- Of an image, filling a slot changes the slots and the stack alone. -/
theorem fillSlot_rest (im : Image) (b : Bool) :
    ({ fillSlot im b with slotA := none, slotB := none, stack := [] } : Image) = { im with slotA := none, slotB := none, stack := [] } := by
  simp only [fillSlot]
  cases b <;> split <;> (try split) <;> (try split) <;> rfl

theorem settle_rest (im : Image) :
    ({ settlePaths im with slotA := none, slotB := none, stack := [] } : Image) = { im with slotA := none, slotB := none, stack := [] } := by
  rw [settlePaths, fillSlot_rest, fillSlot_rest]

/-- Where the issuing slot holds a RUNNING context, settling leaves it there. -/
theorem settle_slot {im : Image} {b : Bool} (h : ((im.slot b).map isRunning).getD false = true) : (settlePaths im).slot b = im.slot b := by
  cases b with
  | false =>
    rw [settlePaths, show (false : Bool) = !true from rfl, fillSlot_other, show (!true : Bool) = false from rfl, fillSlot_running h]
  | true =>
    have h1 : (fillSlot im false).slot true = im.slot true := fillSlot_other im false
    rw [settlePaths, fillSlot_running (by rw [h1]; exact h), h1]

theorem settle_contexts {im : Image} {b : Bool} (h : ((im.slot b).map isRunning).getD false = true) :
    ((((settlePaths im).slot (!b)).toList ++ (settlePaths im).stack).map entering).Perm (((im.slot (!b)).toList ++ im.stack).map entering) := by
  cases b with
  | false =>
    rw [settlePaths, fillSlot_running h]
    exact fillSlot_contexts im true
  | true =>
    have h1 : (fillSlot im false).slot true = im.slot true := fillSlot_other im false
    rw [settlePaths, fillSlot_running (by rw [h1]; exact h)]
    exact fillSlot_contexts im false

theorem settle_running {im : Image} {b : Bool} (h : ((im.slot b).map isRunning).getD false = true) : (pathsOf (settlePaths im)).any isRunning = true := by
  have hs := settle_slot h
  rw [← hs] at h
  cases hp : (settlePaths im).slot b with
  | none => simp [hp] at h
  | some p =>
    have hr : isRunning p = true := by simpa [hp] using h
    cases b <;> simp [Image.slot] at hp <;> simp [pathsOf, hp, hr]

/-! ### The issuing agent goes on -/

/-- The issuing agent is there, and its slot holds a context that goes on. -/
def Live (s : State) : Prop := match s.cur with
  | .slot g b => s.hasGroup g = true ∧ (s.grp g).goesOn b = true
  | .thread c t => c < s.cols.length ∧ t < 16

theorem live_of_canIssue {s : State} (h : s.canIssue = true) : s.Live := by
  simp only [canIssue] at h
  simp only [Live]
  split at h
  · next g b hc =>
      simp only [slotReady, Bool.and_eq_true] at h
      try simp only [hc]
      exact ⟨by simp only [h], h.1.1.2⟩
  · next c t hc =>
      simp only [threadReady, Bool.and_eq_true, decide_eq_true_eq] at h
      try simp only [hc]
      exact ⟨by simp only [h], by simp only [h]⟩

end State

/-- A frame under which the issuing agent stays live. -/
structure Moves (m : May) (s t : State) : Prop extends Kept m s t where
  live : s.Live → t.Live

namespace Moves

theorem refl (m : May) (s : State) : Moves m s s := ⟨Kept.refl m s, id⟩
theorem trans {m : May} {s t u : State} (h : Moves m s t) (k : Moves m t u) : Moves m s u := ⟨h.toKept.trans k.toKept, fun l => k.live (h.live l)⟩
theorem weaken {m : May} {s t : State} (h : Moves {} s t) : Moves m s t := ⟨h.toKept.weaken, h.live⟩

end Moves

/-- An update of the issuing group that keeps its husk and what parks its slot's context. -/
theorem Moves.of_modGroup {m : May} {s : State} {g : Nat} {b : Bool} {f : Group → Group} (hc : s.cur = .slot g b) (hg : s.hasGroup g = true)
    (hid : ∀ x, (f x).id = x.id) (hh : ∀ x, (f x).husk = x.husk) (h : GroupKept m b (s.grp g) (f (s.grp g)))
    (hr : ((f (s.grp g)).image.slot b).map State.isRunning = ((s.grp g).image.slot b).map State.isRunning) : Moves m s (s.modGroup g f) := by
  refine ⟨Kept.of_modGroup hc hg hid hh h, fun l => ?_⟩
  have hc' : (s.modGroup g f).cur = .slot g b := hc
  simp only [State.Live, hc, hc', State.grp_modGroup_same hg hid, State.hasGroup_modGroup hid] at *
  exact ⟨l.1, (Group.goesOn_congr (Group.privileged_of_husk h.husk) hr).trans l.2⟩

theorem Moves.of_modThread {m : May} {s : State} {c t : Nat} {f : Thread → Thread} (hc : s.cur = .thread c t) (hl : c < s.cols.length) (ht : t < 16)
    (hh : ∀ x, (f x).husk = x.husk) (hs : ∀ r, r ∉ m.s → vget SReg.zero (f (s.thread c t)).s r = vget SReg.zero (s.thread c t).s r)
    (hf : m.flags = false → (f (s.thread c t)).flags = (s.thread c t).flags) : Moves m s (s.modThread c t f) := by
  refine ⟨Kept.of_modThread hc hl ht hh hs hf, fun _ => ?_⟩
  have hc' : (s.modThread c t f).cur = .thread c t := hc
  simp only [State.Live, hc']
  simp only [State.modThread, State.modCol, List.length_modify]
  exact ⟨hl, ht⟩

/-- The two ways an agent is live. -/
theorem State.Live.elim {s : State} (h : s.Live) :
    (∃ g b, s.cur = .slot g b ∧ s.hasGroup g = true ∧ (s.grp g).goesOn b = true) ∨
    (∃ c t, s.cur = .thread c t ∧ c < s.cols.length ∧ t < 16) := by
  cases hc : s.cur with
  | slot g b => simp only [State.Live, hc] at h; exact .inl ⟨g, b, rfl, h⟩
  | thread c t => simp only [State.Live, hc] at h; exact .inr ⟨c, t, rfl, h⟩

/-! ### The updates of the issuing agent -/

/-- An update of the context in a slot. -/
theorem GroupKept.of_modSlot {m : May} {b : Bool} {x : Group} {f : Path → Path} (hm : ∀ p, (f p).mask = p.mask)
    (hf : m.flags = false → ∀ p, (f p).flags = p.flags) (y : Group) (hy : y = { x with image := x.image.modSlot b f }) : GroupKept m b x y := by
  subst hy
  have hs : (x.image.modSlot b f).slot b = (x.image.slot b).map f := by cases b <;> rfl
  have key : ∀ {α : Type} (v : Path → α), (∀ p, v (f p) = v p) → v (((x.image.modSlot b f).slot b).getD Path.blank) = v ((x.image.slot b).getD Path.blank) := by
    intro α v h
    rw [hs]
    cases x.image.slot b with
    | none => rfl
    | some p => exact h p
  have hrest : (x.image.modSlot b f).s = x.image.s ∧ (x.image.modSlot b f).v = x.image.v ∧ (x.image.modSlot b f).k = x.image.k ∧
      (x.image.modSlot b f).gens = x.image.gens := by cases b <;> trivial
  exact {
    id := rfl
    husk := by cases b <;> rfl
    lanes := key _ hm
    flags := fun h => key _ (hf h)
    contexts := by cases b <;> exact .refl _
    gens := fun _ => hrest.2.2.2
    sregs := fun r _ => by rw [hrest.1]
    vregs := fun r _ => by rw [hrest.2.1]
    kregs := fun r _ => by rw [hrest.2.2.1] }

theorem Image.modSlot_slot (im : Image) (b : Bool) (f : Path → Path) : (im.modSlot b f).slot b = (im.slot b).map f := by cases b <;> rfl

namespace State

theorem modMyPath_slot {s : State} {g : Nat} {b : Bool} (hc : s.cur = .slot g b) (f : Path → Path) :
    s.modMyPath f = s.modGroup g fun x => { x with image := x.image.modSlot b f } := by
  simp only [modMyPath, modMe, curGrp, curSlot, hc]

/-- An update of the issuing context that keeps its lanes and its park. -/
theorem moves_modMyPath {m : May} {s : State} {g : Nat} {b : Bool} (hc : s.cur = .slot g b) (hg : s.hasGroup g = true) {f : Path → Path}
    (hm : ∀ p, (f p).mask = p.mask) (hp : ∀ p, (f p).parked = p.parked) (hf : m.flags = false → ∀ p, (f p).flags = p.flags) :
    Moves m s (s.modMyPath f) := by
  rw [modMyPath_slot hc]
  refine Moves.of_modGroup hc hg (fun _ => rfl) (fun x => ?_) (GroupKept.of_modSlot hm hf _ rfl) ?_
  · cases b <;> rfl
  · simp only [Image.modSlot_slot, Option.map_map]
    congr 1
    funext p
    simp only [Function.comp_def, isRunning, hp]

theorem moves_setPc {m : May} {s : State} (h : s.Live) (x : Word) : Moves m s (s.setPc x) := by
  obtain ⟨g, b, hc, hg, -⟩ | ⟨c, t, hc, hl, ht⟩ := h.elim <;> simp only [setPc, hc]
  · exact moves_modMyPath hc hg (fun _ => rfl) (fun _ => rfl) (fun _ _ => rfl)
  · exact Moves.of_modThread hc hl ht (fun _ => rfl) (fun _ _ => rfl) (fun _ => rfl)

theorem pc_setPc {s : State} (h : s.Live) (x : Word) : (s.setPc x).pc = x := by
  obtain ⟨g, b, hc, hg, hr⟩ | ⟨c, t, hc, hl, ht⟩ := h.elim
  · have hc' : (s.setPc x).cur = .slot g b := by simp only [setPc, hc, modMyPath_slot hc, modGroup_cur]
    simp only [pc, hc', myPath, me_slot hc', curSlot]
    simp only [setPc, hc, modMyPath_slot hc, grp_modGroup_same (f := fun y => { y with image := y.image.modSlot b _ }) hg (fun _ => rfl), Image.modSlot_slot]
    cases hs : (s.grp g).image.slot b with
    | none => simp [Group.goesOn, hs] at hr
    | some p => rfl
  · have hc' : (s.setPc x).cur = .thread c t := by simp only [setPc, hc]; exact hc
    simp only [pc, hc']
    simp only [setPc, hc, thread_modThread_same hl ht]

theorem moves_advance {m : May} {s : State} (h : s.Live) : Moves m s s.advance := moves_setPc h _

theorem pc_advance {s : State} (h : s.Live) : s.advance.pc = s.pc + 4 := pc_setPc h _

theorem live_advance {s : State} (h : s.Live) : s.advance.Live := (moves_advance (m := {}) h).live h

theorem moves_setFlags {m : May} {s : State} (h : s.Live) (hm : m.flags = true) (x : Flags) : Moves m s (s.setFlags x) := by
  obtain ⟨g, b, hc, hg, -⟩ | ⟨c, t, hc, hl, ht⟩ := h.elim <;> simp only [setFlags, hc]
  · exact moves_modMyPath hc hg (fun _ => rfl) (fun _ => rfl) (fun h => by simp [hm] at h)
  · exact Moves.of_modThread hc hl ht (fun _ => rfl) (fun _ _ => rfl) (fun h => by simp [hm] at h)

theorem flags_setFlags {s : State} (h : s.Live) (x : Flags) : (s.setFlags x).flags = x := by
  obtain ⟨g, b, hc, hg, hr⟩ | ⟨c, t, hc, hl, ht⟩ := h.elim
  · have hc' : (s.setFlags x).cur = .slot g b := by simp only [setFlags, hc, modMyPath_slot hc, modGroup_cur]
    simp only [flags, hc', myPath, me_slot hc', curSlot]
    simp only [setFlags, hc, modMyPath_slot hc, grp_modGroup_same (f := fun y => { y with image := y.image.modSlot b _ }) hg (fun _ => rfl), Image.modSlot_slot]
    cases hs : (s.grp g).image.slot b with
    | none => simp [Group.goesOn, hs] at hr
    | some p => rfl
  · have hc' : (s.setFlags x).cur = .thread c t := by simp only [setFlags, hc]; exact hc
    simp only [flags, hc']
    simp only [setFlags, hc, thread_modThread_same hl ht]

/-- An update of the issuing group's registers. -/
theorem moves_modImage {m : May} {s : State} {g : Nat} {b : Bool} (hc : s.cur = .slot g b) (hg : s.hasGroup g = true) {f : Image → Image}
    (hrest : ∀ im, ({ f im with v := Image.blank.v, s := Image.blank.s, k := Image.blank.k, gens := Image.blank.gens, slotA := none, slotB := none, stack := [] } : Image) =
      { im with v := Image.blank.v, s := Image.blank.s, k := Image.blank.k, gens := Image.blank.gens, slotA := none, slotB := none, stack := [] })
    (hA : ∀ im, (f im).slotA = im.slotA) (hB : ∀ im, (f im).slotB = im.slotB) (hst : ∀ im, (f im).stack = im.stack)
    (hs : ∀ im r, r ∉ m.s → vget SReg.zero (f im).s r = vget SReg.zero im.s r)
    (hv : ∀ im r, r ∉ m.v → vget VReg.zero (f im).v r = vget VReg.zero im.v r)
    (hk : ∀ im r, r ∉ m.k → vget 0 (f im).k r = vget 0 im.k r) (hgen : m.gens = false → ∀ im, (f im).gens = im.gens) :
    Moves m s (s.modImage g f) := by
  have hslot : ∀ im c, (f im).slot c = im.slot c := fun im c => by cases c <;> simp [Image.slot, hA, hB]
  refine Moves.of_modGroup hc hg (fun _ => rfl) (fun x => ?_) ⟨rfl, ?_, fun r hr => hs _ r hr, fun r hr => hv _ r hr, fun r hr => hk _ r hr, fun _ => ?_,
    fun h => hgen h _, ?_, ?_⟩ ?_
  · simp only [Group.husk, hrest]
  · simp only [Group.husk, hrest]
  · simp only [hslot]
  · simp only [hslot]
  · simp only [hslot, hst]; exact List.Perm.refl _
  · simp only [hslot]

/-! ### s registers -/

theorem moves_putS {m : May} {s : State} (h : s.Live) {r : Nat} (hr : r ∈ m.s) (x : SReg) : Moves m s (s.putS r x) := by
  simp only [putS]
  split
  · exact Moves.refl m s
  · obtain ⟨g, b, hc, hg, -⟩ | ⟨c, t, hc, hl, ht⟩ := h.elim <;> simp only [hc]
    · exact moves_modImage hc hg (fun _ => rfl) (fun _ => rfl) (fun _ => rfl) (fun _ => rfl)
        (fun im q hq => vget_vmod_other (by rintro rfl; exact hq hr)) (fun _ _ _ => rfl) (fun _ _ _ => rfl) (fun _ _ => rfl)
    · exact Moves.of_modThread hc hl ht (fun _ => rfl) (fun q hq => vget_vmod_other (by rintro rfl; exact hq hr)) (fun _ => rfl)

theorem moves_writeS {m : May} {s : State} (h : s.Live) {r : Nat} (hr : r ∈ m.s) (x : Word) : Moves m s (s.writeS r x) := moves_putS h hr _

theorem moves_emptyS {m : May} {s : State} (h : s.Live) {r : Nat} (hr : r ∈ m.s) : Moves m s (s.emptyS r) := moves_putS h hr _

/-- A register that the agent's file holds. -/
def inFile (s : State) (r : Nat) : Prop := if s.onCore = true then r < 64 else r < 32

theorem sreg_putS {s : State} (h : s.Live) {r : Nat} (hr : s.inFile r) (x : SReg) : (s.putS r x).sreg r = if r = 0 then SReg.zero else x := by
  by_cases h0 : r = 0
  · simp [sreg, h0]
  · obtain ⟨g, b, hc, hg, -⟩ | ⟨c, t, hc, hl, ht⟩ := h.elim
    · have hc' : (s.putS r x).cur = .slot g b := by simp only [putS, h0, if_false, hc]; exact hc
      have hr' : r < 64 := by simpa [inFile, onCore, hc] using hr
      simp only [sreg, h0, if_false, hc']
      simp only [putS, h0, if_false, hc, grp_modImage_same hg, vget_vmod_same hr']
    · have hc' : (s.putS r x).cur = .thread c t := by simp only [putS, h0, if_false, hc]; exact hc
      have hr' : r < 32 := by simpa [inFile, onCore, hc] using hr
      simp only [sreg, h0, if_false, hc']
      simp only [putS, h0, if_false, hc, thread_modThread_same hl ht, vget_vmod_same hr']

theorem sgets_writeS {s : State} (h : s.Live) {r : Nat} (hr : s.inFile r) (x : Word) : (s.writeS r x).SGets r x := sreg_putS h hr _

/-! ### v and k registers, generators -/

theorem moves_modV {m : May} {s : State} {g : Nat} {b : Bool} (hc : s.cur = .slot g b) (hg : s.hasGroup g = true) {r : Nat} (hr : r ∈ m.v) (f : VReg → VReg) :
    Moves m s (s.modV r f) := by
  simp only [modV, curGrp, hc]
  exact moves_modImage hc hg (fun _ => rfl) (fun _ => rfl) (fun _ => rfl) (fun _ => rfl) (fun _ _ _ => rfl)
    (fun im q hq => vget_vmod_other (by rintro rfl; exact hq hr)) (fun _ _ _ => rfl) (fun _ _ => rfl)

theorem vreg_modV {s : State} {g : Nat} {b : Bool} (hc : s.cur = .slot g b) (hg : s.hasGroup g = true) {r : Nat} (hr : r < 64) (f : VReg → VReg) :
    (s.modV r f).vreg r = f (s.vreg r) := by
  have hc' : (s.modV r f).cur = .slot g b := by simp only [modV, curGrp, hc]; exact hc
  simp only [vreg, me_slot hc, me_slot hc']
  simp only [modV, curGrp, hc, grp_modImage_same hg, vget_vmod_same hr]

theorem moves_writeK {m : May} {s : State} {g : Nat} {b : Bool} (hc : s.cur = .slot g b) (hg : s.hasGroup g = true) {r : Nat} (hr : r ∈ m.k) (x : Word) :
    Moves m s (s.writeK r x) := by
  simp only [writeK, curGrp, hc, Image.setK]
  split
  · have : s.modImage g (fun im => im) = s := by
      simp only [modImage, modGroup]
      rw [show (fun x : Group => if x.id = g then ({ x with image := x.image } : Group) else x) = id from by funext x; split <;> rfl, List.map_id]
    rw [this]
    exact Moves.refl m s
  · exact moves_modImage hc hg (fun _ => rfl) (fun _ => rfl) (fun _ => rfl) (fun _ => rfl) (fun _ _ _ => rfl) (fun _ _ _ => rfl)
      (fun im q hq => vget_vmod_other (by rintro rfl; exact hq hr)) (fun _ _ => rfl)

theorem kgets_writeK {s : State} {g : Nat} {b : Bool} (hc : s.cur = .slot g b) (hg : s.hasGroup g = true) {r : Nat} (hr : r < 16) (x : Word) :
    KGets s (s.writeK r x) r x := by
  have hc' : (s.writeK r x).cur = .slot g b := by simp only [writeK, curGrp, hc]; exact hc
  simp only [KGets, kreg, me_slot hc, me_slot hc']
  simp only [writeK, curGrp, hc, grp_modImage_same hg, me_slot hc]
  by_cases h0 : r = 0
  · simp [h0, Image.kreg]
  · simp only [Image.setK, Image.kreg, h0, if_false, vget_vmod_same hr]

/-- Stepped generators; where the frame keeps generators, they must be the old ones. -/
theorem moves_setGens {m : May} {s : State} {g : Nat} {b : Bool} (hc : s.cur = .slot g b) (hg : s.hasGroup g = true) (x : Vector (BitVec 32) 64)
    (hm : m.gens = false → x = s.me.image.gens) : Moves m s (s.setGens x) := by
  simp only [setGens, curGrp, hc]
  refine Moves.of_modGroup (f := fun y => { y with image := { y.image with gens := x } }) hc hg (fun _ => rfl) (fun _ => rfl)
    (by cases b <;> exact { GroupKept.refl m _ (s.grp g) with gens := fun h => by rw [← me_slot hc]; exact hm h }) (by cases b <;> rfl)

theorem gens_setGens {s : State} {g : Nat} {b : Bool} (hc : s.cur = .slot g b) (hg : s.hasGroup g = true) (x : Vector (BitVec 32) 64) :
    (s.setGens x).me.image.gens = x := by
  have hc' : (s.setGens x).cur = .slot g b := by simp only [setGens, curGrp, hc]; exact hc
  simp only [me_slot hc']
  simp only [setGens, curGrp, hc, grp_modImage_same hg]

end State

end Sys2Proof.Machine
end

