-- ==== Sys2Proof/Laws/Issue.lean ====
section
/-! SUPPORT. Everything that `State.issue` can do: an instruction whose checks pass and whose own effect goes on completes, and the bookkeeping of its issue leaves all else alone. -/

namespace Sys2Proof.Machine

open Sys2Proof

namespace State

/-! ### The bookkeeping of an issue -/

/-- A handler's issue leaves the control state frozen (R134). -/
theorem settleGroup_frozen {s : State} {g : Nat} (hp : (s.grp g).privileged = true) : s.settleGroup g = s := by simp only [settleGroup, hp, if_true]

/-- What `settleGroup` does to a group, not privileged, whose issuing slot holds a RUNNING context: the moves of R129 alone. -/
theorem settleGroup_running {s : State} {g : Nat} {b : Bool} (hg : s.hasGroup g = true) (hp : (s.grp g).privileged = false)
    (hr : (((s.grp g).image.slot b).map isRunning).getD false = true) : s.settleGroup g = s.modImage g settlePaths := by
  have h := settle_running hr
  simp only [settleGroup, hp, Bool.false_eq_true, if_false, grp_modImage_same hg]
  rw [if_neg]
  simp [h]

theorem moves_settle {m : May} {s : State} {g : Nat} {b : Bool} (hc : s.cur = .slot g b) (hg : s.hasGroup g = true)
    (hr : (s.grp g).goesOn b = true) : Moves m s (s.settleGroup g) := by
  cases hp : (s.grp g).privileged with
  | true => rw [settleGroup_frozen hp]; exact .refl m s
  | false =>
    rw [Group.goesOn_plain hp] at hr
    rw [settleGroup_running hg hp hr, modImage]
    have hs := settle_slot hr
    have hrest : ∀ im : Image, ∃ a c l, settlePaths im = { im with slotA := a, slotB := c, stack := l } := fun im =>
      ⟨(settlePaths im).slotA, (settlePaths im).slotB, (settlePaths im).stack,
        congrArg (fun y : Image => { y with slotA := (settlePaths im).slotA, slotB := (settlePaths im).slotB, stack := (settlePaths im).stack }) (settle_rest im)⟩
    have hk : ∀ x : Group, ({ x with image := settlePaths x.image } : Group).husk = x.husk := fun x => by
      obtain ⟨a, c, l, e⟩ := hrest x.image
      simp only [Group.husk, e]
    obtain ⟨a, c, l, e⟩ := hrest (s.grp g).image
    refine Moves.of_modGroup hc hg (fun _ => rfl) hk { GroupKept.refl m b (s.grp g) with
      husk := hk _
      lanes := by simp only [hs]
      flags := fun _ => by simp only [hs]
      contexts := settle_contexts hr
      gens := fun _ => by simp only [e]
      sregs := fun _ _ => by simp only [e]
      vregs := fun _ _ => by simp only [e]
      kregs := fun _ _ => by simp only [e] } (by simp only [hs])

theorem pc_settle {s : State} {g : Nat} {b : Bool} (hc : s.cur = .slot g b) (hg : s.hasGroup g = true)
    (hr : (s.grp g).goesOn b = true) : (s.settleGroup g).pc = s.pc := by
  cases hp : (s.grp g).privileged with
  | true => rw [settleGroup_frozen hp]
  | false =>
  rw [Group.goesOn_plain hp] at hr
  rw [settleGroup_running hg hp hr]
  have hc' : (s.modImage g settlePaths).cur = .slot g b := hc
  simp only [pc, hc, hc', myPath, me_slot hc, me_slot hc', curSlot, grp_modImage_same hg, settle_slot hr]

/-- An injection that is not armed changes nothing. -/
theorem injectAt_calm {old u : State} {i : Instr} {f : Form} (h : old.onCore = true → einjKind old.me = 0) : injectAt old i f u = u := by
  simp only [injectAt]
  rw [if_neg]
  simp only [Bool.and_eq_true, not_and]
  intro ⟨hc, hm⟩
  simp [einjMatches, h hc] at hm

/-- What the bookkeeping of an issue does to a live agent: to the group of a slot it makes the moves of R129 besides. -/
theorem retire_slot {old u : State} {i : Instr} {f : Form} {g : Nat} {b : Bool} (hc : u.cur = .slot g b) (hf : f.leaves = false)
    (hi : injectAt old i f u = u) :
    old.retire i f u = (((u.modMyPath (issuedPath (u.issues + 1))).modGroup g (issuedGroup (u.issues + 1) u.cycles)).settleGroup g).changed := by
  simp only [retire, hi, ite_self, hf, hc, Bool.false_eq_true, if_false, modMyPath_slot hc]
  rfl

theorem retire_thread {old u : State} {i : Instr} {f : Form} {c t : Nat} (hc : u.cur = .thread c t) (hi : injectAt old i f u = u) :
    old.retire i f u = (u.modThread c t (issuedThread (u.issues + 1) i)).changed := by
  simp only [retire, hi, ite_self, hc]

/-- The bookkeeping of an issue touches bookkeeping alone. -/
theorem husk_issuedGroup (n now : Nat) (x : Group) : (issuedGroup n now x).husk = x.husk := by
  simp only [issuedGroup, Group.husk]
  split <;> simp_all

theorem husk_issuedThread (n : Nat) (i : Instr) (h : Thread) : (issuedThread n i h).husk = h.husk := by
  simp only [issuedThread, Thread.husk]
  split <;> simp_all

/-- The bookkeeping of an issue that leaves its slot going on. -/
theorem kept_retire {m : May} {old u : State} {i : Instr} {f : Form} (hl : u.Live) (hf : f.leaves = false) (hi : injectAt old i f u = u) :
    Kept m u (old.retire i f u) := by
  obtain ⟨g, b, hc, hg, hr⟩ | ⟨c, t, hc, hlen, ht⟩ := hl.elim
  · rw [retire_slot hc hf hi]
    have m1 : Moves m u (u.modMyPath (issuedPath (u.issues + 1))) := moves_modMyPath hc hg (fun _ => rfl) (fun _ => rfl) (fun _ _ => rfl)
    have hc1 := m1.agent.trans hc
    have l1 := m1.live hl
    have hg1 : (u.modMyPath (issuedPath (u.issues + 1))).hasGroup g = true := by simp only [Live, hc1] at l1; exact l1.1
    have m2 : Moves m _ ((u.modMyPath (issuedPath (u.issues + 1))).modGroup g (issuedGroup (u.issues + 1) u.cycles)) :=
      Moves.of_modGroup hc1 hg1 (fun _ => rfl) (husk_issuedGroup _ _) { GroupKept.refl m b _ with husk := husk_issuedGroup _ _ _ } rfl
    have hc2 := m2.agent.trans hc1
    have l2 := m2.live l1
    simp only [Live, hc2] at l2
    exact (m1.trans (m2.trans (moves_settle hc2 l2.1 l2.2))).toKept.trans (kept_changed m _)
  · rw [retire_thread hc hi]
    exact (Moves.of_modThread (f := issuedThread (u.issues + 1) i) hc hlen ht (husk_issuedThread _ _) (fun _ _ => rfl) (fun _ => rfl)).toKept.trans (kept_changed m _)

/-- The program counter stands where the instruction's own effect put it. -/
theorem pc_retire {old u : State} {i : Instr} {f : Form} (hl : u.Live) (hf : f.leaves = false) (hi : injectAt old i f u = u) :
    (old.retire i f u).pc = u.pc := by
  obtain ⟨g, b, hc, hg, hr⟩ | ⟨c, t, hc, hlen, ht⟩ := hl.elim
  · rw [retire_slot hc hf hi, modMyPath_slot hc]
    generalize u.issues + 1 = n
    generalize u.cycles = k
    have hg1 : (u.modGroup g fun x => { x with image := x.image.modSlot b (issuedPath n) }).hasGroup g = true := by
      rw [hasGroup_modGroup]
      · exact hg
      · exact fun _ => rfl
    generalize hu2 : (u.modGroup g fun x => { x with image := x.image.modSlot b (issuedPath n) }).modGroup g (issuedGroup n k) = u2
    have hc2 : u2.cur = .slot g b := by rw [← hu2]; exact hc
    have hg2 : u2.hasGroup g = true := by rw [← hu2]; exact (hasGroup_modGroup (f := issuedGroup n k) fun _ => rfl).trans hg1
    have him : (u2.grp g).image = (u.grp g).image.modSlot b (issuedPath n) := by
      rw [← hu2, grp_modGroup_same (f := issuedGroup n k) hg1 fun _ => rfl, grp_modGroup_same hg]
      · rfl
      · exact fun _ => rfl
    have hr2 : (u2.grp g).goesOn b = true := by
      refine (Group.goesOn_congr (b := b) ?_ ?_).trans hr
      · rw [← hu2, grp_modGroup_same (f := issuedGroup n k) hg1 fun _ => rfl, grp_modGroup_same hg]
        · rfl
        · exact fun _ => rfl
      · rw [him, Image.modSlot_slot, Option.map_map]
        rfl
    have hs := pc_settle hc2 hg2 hr2
    have e : (u2.settleGroup g).changed.pc = (u2.settleGroup g).pc := by
      generalize u2.settleGroup g = w
      cases hw : w.cur <;> simp only [pc, changed_cur, hw, myPath, me, curGrp, curSlot, grp, changed_groups, thread, col, changed_cols]
    rw [e, hs]
    clear e hs
    simp only [pc, hc2, hc, myPath, me_slot hc2, me_slot hc, curSlot, him, Image.modSlot_slot]
    cases hs : (u.grp g).image.slot b with
    | none => simp [Group.goesOn, hs] at hr
    | some p => rfl
  · rw [retire_thread hc hi]
    have hc' : (u.modThread c t (issuedThread (u.issues + 1) i)).changed.cur = .thread c t := hc
    simp only [pc, hc', hc]
    show ((u.modThread c t (issuedThread (u.issues + 1) i)).thread c t).pc = _
    rw [thread_modThread_same hlen ht]
    rfl

/-! ### Completion -/

/-- A register field lets the instruction go on: the register is there, full, and clean if it is a source. -/
def Good (s : State) (u : Use) : Prop := s.useOk u = true ∧ s.useFull u = true ∧ s.usePoison u = none

theorem decodeRefuses_none {s : State} {f : Form} (he : s.wrongEngine f.engine = false) (hp : f.priv = true → s.me.privileged = true)
    (hv : f.reserved = false) (hu : ∀ x ∈ f.uses, s.Good x) : s.decodeRefuses f = none := by
  have hfind : f.uses.find? (fun u => !s.useOk u) = none := List.find?_eq_none.2 fun x hx => by simp [(hu x hx).1]
  simp only [decodeRefuses, he, hv, hfind, Bool.false_eq_true, if_false, Option.map_none]
  cases hpr : f.priv with
  | false => simp
  | true => simp [hp hpr]

theorem mem_sources {f : Form} {u : Use} (h : u ∈ sources f) : u ∈ f.uses := by
  simp only [sources, List.mem_flatMap, List.mem_filter] at h
  obtain ⟨_, _, h, _⟩ := h
  exact h

theorem issueRefuses_none {s : State} {f : Form} (hu : ∀ x ∈ f.uses, s.Good x) : s.issueRefuses f = none := by
  have h1 : (f.uses.any fun u => u.dst && !s.useFull u) = false := by
    simp only [List.any_eq_false, Bool.and_eq_true, not_and]
    intro x hx _
    simp [(hu x hx).2.1]
  have h2 : ((sources f).any fun u => !s.useFull u && s.slotWaits (u.slot.getD 0)) = false := by
    simp only [List.any_eq_false, Bool.and_eq_true, not_and]
    intro x hx h
    simp [(hu x (mem_sources hx)).2.1] at h
  have h3 : ((sources f).find? fun u => !s.useFull u) = none := List.find?_eq_none.2 fun x hx => by simp [(hu x (mem_sources hx)).2.1]
  have h4 : ((sources f).findSome? fun u => s.usePoison u) = none := List.findSome?_eq_none_iff.2 fun x hx => (hu x (mem_sources hx)).2.2
  simp only [issueRefuses, h1, h2, h3, h4, Bool.false_eq_true, if_false, Option.map_none, ite_self]

/-- An instruction whose checks pass and whose own effect goes on issues. -/
theorem issue_eq {s u : State} {i : Instr} {f : Form} {body : State → Eff State} (hr : s.Ready) (he : s.wrongEngine f.engine = false)
    (hp : f.priv = true → s.me.privileged = true) (hv : f.reserved = false) (hu : ∀ x ∈ f.uses, s.Good x) (hb : body s.advance = .ok u) :
    s.issue i f body = .next (s.retire i f u) := by
  simp only [issue, hr.issues, if_true, decodeRefuses_none he hp hv hu, issueRefuses_none hu, hr.fresh, hb]

/-- The same, with what the issue leaves alone: from the state of its own effect, everything but counters and the moves of R129. -/
theorem issue_next {s u : State} {i : Instr} {f : Form} {body : State → Eff State} (hr : s.Ready) (he : s.wrongEngine f.engine = false)
    (hp : f.priv = true → s.me.privileged = true) (hv : f.reserved = false) (hu : ∀ x ∈ f.uses, s.Good x) (hf : f.leaves = false)
    (hb : body s.advance = .ok u) (hl : u.Live) : ∃ t, s.issue i f body = .next t ∧ Kept {} u t ∧ t.pc = u.pc :=
  ⟨_, issue_eq hr he hp hv hu hb, kept_retire hl hf (injectAt_calm hr.calm), pc_retire hl hf (injectAt_calm hr.calm)⟩

/-- An instruction whose own effect traps takes the cause at its agent. -/
theorem issue_trap {s : State} {i : Instr} {f : Form} {body : State → Eff State} {t : Trap} (hr : s.Ready) (he : s.wrongEngine f.engine = false)
    (hp : f.priv = true → s.me.privileged = true) (hv : f.reserved = false) (hu : ∀ x ∈ f.uses, s.Good x) (hb : body s.advance = .error (.trap t)) :
    s.issue i f body = .next (s.fail i f t) := by
  simp only [issue, hr.issues, if_true, decodeRefuses_none he hp hv hu, issueRefuses_none hu, hr.fresh, hb, stopped']

/-- A decode check that fails comes before everything else (R54). -/
theorem issue_refused {s : State} {i : Instr} {f : Form} {body : State → Eff State} {t : Trap} (hr : s.canIssue = true) (hd : s.decodeRefuses f = some t) :
    s.issue i f body = .next (s.fail i f t) := by
  simp only [issue, hr, if_true, hd]

/-- An agent that cannot issue stops the step by name. -/
theorem issue_cannot {s : State} {i : Instr} {f : Form} {body : State → Eff State} (h : s.canIssue = false) : s.issue i f body = .fault .cannotIssue := by
  simp [issue, h]

/-! ### Register fields that are good -/

variable {s : State}

theorem wrongEngine_both : s.wrongEngine .both = false := rfl
theorem ReadyCore.engine (h : s.ReadyCore) : s.wrongEngine .core = false := by simp [wrongEngine, h.core]
theorem ReadyStream.engine (h : s.ReadyStream) : s.wrongEngine .stream = false := by simp [wrongEngine, h.stream]

theorem useOk_s {u : Use} (hf : u.file = .s) (h : s.SHas u.num) : s.useOk u = true := by
  simp only [useOk, hf]
  simp only [SHas] at h
  split
  · next hc => simpa [hc, or_assoc] using h
  · next hc => simpa [hc] using h

theorem good_s {u : Use} (hf : u.file = .s) (h : s.SSrc u.num) : s.Good u :=
  ⟨useOk_s hf h.1, by simp only [useFull, hf]; exact h.2.1, by
    cases hs : u.slot with
    | none => simp only [usePoison, hf, hs]
    | some k => simp only [usePoison, hf, hs, h.2.2, Option.map_none]⟩

theorem SSrc.toDst {r : Nat} (h : s.SSrc r) : s.SDst r := ⟨h.1, h.2.1⟩

theorem good_sd {d : Reg} (h : s.SDst d.toNat) : s.Good (.sd d) := ⟨useOk_s rfl h.1, h.2, rfl⟩
theorem good_sa {a : Reg} (h : s.SSrc a.toNat) : s.Good (.sa a) := good_s rfl h
theorem good_sb {a : Reg} (h : s.SSrc a.toNat) : s.Good (.sb a) := good_s rfl h
theorem good_sc {a : Reg} (h : s.SSrc a.toNat) : s.Good (.sc a) := good_s rfl h
theorem good_sdc {a : Reg} (h : s.SSrc a.toNat) : s.Good (.sdc a) := good_s rfl h

theorem good_vdst {u : Use} (hf : u.file = .v) (hs : u.slot = none) (h : s.VDst u.num) : s.Good u := by
  refine ⟨?_, ?_, ?_⟩
  · simp only [useOk, hf]; exact decide_eq_true h.1
  · simp only [useFull, hf]; exact h.2
  · simp only [usePoison, hf, hs]

theorem poisonedLane_none {r : Nat} {ls : List Nat} (h : ∀ l ∈ ls, (s.vreg r).poisonOf l = none) : s.poisonedLane r ls = none :=
  List.findSome?_eq_none_iff.2 fun l hl => by simp [h l hl]

theorem good_v {u : Use} (hf : u.file = .v) (h : s.VDst u.num)
    (hp : ∀ l ∈ (match u.rd with | .no => [] | .active => s.lanes | .all => List.range s.me.width), (s.vreg u.num).poisonOf l = none) : s.Good u := by
  refine ⟨?_, ?_, ?_⟩
  · simp only [useOk, hf]; exact decide_eq_true h.1
  · simp only [useFull, hf]; exact h.2
  · cases hs : u.slot with
    | none => simp only [usePoison, hf, hs]
    | some k =>
      cases hr : u.rd <;> simp only [hr] at hp <;> simp only [usePoison, hf, hs, hr, poisonedLane_none hp, Option.map_none]

theorem good_vd {d : Reg} (h : s.VDst d.toNat) : s.Good (.vd d) := good_vdst rfl rfl h
theorem good_va {a : Reg} (h : s.VSrc a.toNat) : s.Good (.va a .active) := good_v rfl h.1 h.2
theorem good_vb {a : Reg} (h : s.VSrc a.toNat) : s.Good (.vb a .active) := good_v rfl h.1 h.2
theorem good_vc {a : Reg} (h : s.VSrc a.toNat) : s.Good (.vc a .active) := good_v rfl h.1 h.2
theorem good_vdc {a : Reg} (h : s.VSrc a.toNat) : s.Good (.vdc a .active) := good_v rfl h.1 h.2
theorem good_vaNo {a : Reg} (h : s.VDst a.toNat) : s.Good (.va a .no) := good_v rfl h fun _ hl => by simp [Use.va] at hl
theorem good_vbNo {a : Reg} (h : s.VDst a.toNat) : s.Good (.vb a .no) := good_v rfl h fun _ hl => by simp [Use.vb] at hl
theorem good_vaAll {a : Reg} (h : s.VAll a.toNat) : s.Good (.va a .all) := good_v rfl h.1 fun l hl => h.2 l (by simpa [Use.va] using hl)
theorem good_k {p : Nat} {a : Reg} (h : a.toNat < 16) : s.Good (.kAt p a) := ⟨decide_eq_true h, rfl, rfl⟩
theorem good_j {a : Reg} (h : a.toNat < 4) : s.Good (.jd a) := ⟨decide_eq_true h, rfl, rfl⟩
theorem good_i {p : Nat} {a : Reg} (h : a.toNat < 8) : s.Good (.iAt p a) := ⟨decide_eq_true h, rfl, rfl⟩

/-- A register that the agent has lies in its file. -/
theorem inFile_of_has {d : Reg} (h : s.SHas d.toNat) : s.inFile d.toNat := by
  have := d.isLt
  simp only [SHas, inFile] at *
  split
  · omega
  · next hc => simpa [hc] using h

theorem VDst.lt {d : Reg} (_ : s.VDst d.toNat) : d.toNat < 64 := d.isLt

end State

end Sys2Proof.Machine
end

