-- ==== Sys2Proof/Laws/Results.lean ====
section
/-! SUPPORT. How an instruction completes, by the kind of its effect: a result in an s, v or k register, flags, a transfer of control, nothing at all. -/

namespace Sys2Proof.Machine

open Sys2Proof

namespace State

/-! ### What the program counter's advance leaves alone -/

section
variable {s : State}

theorem kept_advance (h : s.Live) : Kept {} s s.advance := (moves_advance h).toKept

theorem sreg_advance (h : s.Live) (r : Nat) : s.advance.sreg r = s.sreg r := (kept_advance h).sregs r (by simp)
theorem sval_advance (h : s.Live) (r : Nat) : s.advance.sval r = s.sval r := by simp only [sval, sreg_advance h]
theorem vreg_advance (h : s.Live) (r : Nat) : s.advance.vreg r = s.vreg r := (kept_advance h).vregs r (by simp)
theorem vlane_advance (h : s.Live) (r l : Nat) : s.advance.vlane r l = s.vlane r l := by simp only [vlane, vreg_advance h]
theorem kreg_advance (h : s.Live) (r : Nat) : s.advance.kreg r = s.kreg r := (kept_advance h).kregs r (by simp)
theorem flags_advance (h : s.Live) : s.advance.flags = s.flags := (kept_advance h).flags rfl
theorem slotMask_advance (h : s.Live) : s.advance.slotMask = s.slotMask := (kept_advance h).lanes
theorem cur_advance (s : State) : s.advance.cur = s.cur := by
  simp only [advance, setPc]
  split <;> rfl
theorem onCore_advance (s : State) : s.advance.onCore = s.onCore := by simp only [onCore, cur_advance]

/-- The issuing group is as before but for the program counter of its slot. -/
theorem me_advance (h : s.Live) : s.advance.me.husk = s.me.husk ∧ s.advance.me.image.gens = s.me.image.gens := by
  obtain ⟨g, b, hc, hg, -⟩ | ⟨c, t, hc, -, -⟩ := h.elim
  · have hc' : s.advance.cur = .slot g b := (cur_advance s).trans hc
    rw [me_slot hc, me_slot hc', advance, setPc, hc]
    simp only [modMyPath_slot hc]
    rw [grp_modGroup_same hg]
    · constructor
      · cases b <;> rfl
      · cases b <;> rfl
    · exact fun _ => rfl
  · have hc' : s.advance.cur = .thread c t := (cur_advance s).trans hc
    have : s.advance.groups = s.groups := by simp only [advance, setPc, hc]; rfl
    simp only [me, curGrp, hc, hc', grp, this, and_self]

theorem width_advance (h : s.Live) : s.advance.me.width = s.me.width := Group.width_of_husk (me_advance h).1

theorem image_advance (h : s.Live) : s.advance.me.image.mode = s.me.image.mode := by
  have := congrArg (fun g : Group => g.image.mode) (me_advance h).1
  exact this

theorem lanes_advance (h : s.Live) : s.advance.lanes = s.lanes := by
  simp only [lanes, active, slotMask_advance h, kreg_advance h, image_advance h, width_advance h]

theorem active_advance (h : s.Live) : s.advance.active = s.active := by
  simp only [active, slotMask_advance h, kreg_advance h, image_advance h]

theorem mode_advance (h : s.Live) : s.advance.mode = s.mode := by simp only [mode, image_advance h]
theorem etype_advance (h : s.Live) : s.advance.etype = s.etype := by simp only [etype, mode_advance h]
theorem sat_advance (h : s.Live) : s.advance.sat = s.sat := by simp only [sat, mode_advance h]
theorem round_advance (h : s.Live) : s.advance.round = s.round := by simp only [round, mode_advance h]

end

/-! ### Completions by kind of effect -/

section
variable {s : State} {i : Instr} {f : Form} {body : State → Eff State}

/-- The premises under which `issue` reaches the instruction's own effect. -/
structure Passes (s : State) (f : Form) : Prop where
  ready : s.Ready
  engine : s.wrongEngine f.engine = false
  priv : f.priv = true → s.me.privileged = true
  legal : f.reserved = false
  stays : f.leaves = false
  good : ∀ x ∈ f.uses, s.Good x

theorem Passes.live (h : s.Passes f) : s.Live := live_of_canIssue h.ready.issues

theorem goods0 : ∀ x ∈ ([] : List Use), s.Good x := by simp
theorem goods1 {a : Use} (h1 : s.Good a) : ∀ x ∈ [a], s.Good x := by simpa using h1
theorem goods2 {a b : Use} (h1 : s.Good a) (h2 : s.Good b) : ∀ x ∈ [a, b], s.Good x := List.forall_mem_cons.2 ⟨h1, goods1 h2⟩
theorem goods3 {a b c : Use} (h1 : s.Good a) (h2 : s.Good b) (h3 : s.Good c) : ∀ x ∈ [a, b, c], s.Good x := List.forall_mem_cons.2 ⟨h1, goods2 h2 h3⟩
theorem goods4 {a b c d : Use} (h1 : s.Good a) (h2 : s.Good b) (h3 : s.Good c) (h4 : s.Good d) : ∀ x ∈ [a, b, c, d], s.Good x :=
  List.forall_mem_cons.2 ⟨h1, goods3 h2 h3 h4⟩
theorem goods5 {a b c d e : Use} (h1 : s.Good a) (h2 : s.Good b) (h3 : s.Good c) (h4 : s.Good d) (h5 : s.Good e) : ∀ x ∈ [a, b, c, d, e], s.Good x :=
  List.forall_mem_cons.2 ⟨h1, goods4 h2 h3 h4 h5⟩

/-- The premises for an instruction of the core class, of both classes, of the stream class. -/
theorem ReadyCore.passes {gd : Bool} {us : List Use} {r : Res} (hr : s.ReadyCore) (h : ∀ x ∈ us, s.Good x) : s.Passes (.core gd us r) :=
  ⟨hr.toReady, hr.engine, by simp [Form.core], rfl, rfl, h⟩
theorem Ready.passes {us : List Use} {r : Res} (hr : s.Ready) (h : ∀ x ∈ us, s.Good x) : s.Passes (.both us r) :=
  ⟨hr, rfl, by simp [Form.both], rfl, rfl, h⟩
theorem ReadyStream.passes {us : List Use} (hr : s.ReadyStream) (h : ∀ x ∈ us, s.Good x) : s.Passes (.stream us) :=
  ⟨hr.toReady, hr.engine, by simp [Form.stream], rfl, rfl, h⟩

/-- From any effect that keeps its agent live. -/
theorem Passes.next {u : State} (h : s.Passes f) (hb : body s.advance = .ok u) (hl : u.Live) :
    ∃ t, s.issue i f body = .next t ∧ Kept {} u t ∧ t.pc = u.pc :=
  issue_next h.ready h.engine h.priv h.legal h.good h.stays hb hl

/-- From an effect that moves on from the advanced state. -/
theorem Passes.moves {m : May} {u : State} (h : s.Passes f) (hb : body s.advance = .ok u) (hm : Moves m s.advance u) :
    ∃ t, s.issue i f body = .next t ∧ Kept {} u t ∧ Kept m s t ∧ t.pc = u.pc := by
  have hl := h.live
  obtain ⟨t, ht, hk, hp⟩ := h.next (i := i) hb (hm.live (live_advance hl))
  exact ⟨t, ht, hk, ((moves_advance hl).toKept.trans hm.toKept).trans hk.weaken, hp⟩

/-- A value that a frame keeps. -/
theorem SGets.of_kept {u t : State} {d : Nat} {x : Word} (h : u.SGets d x) (hk : Kept {} u t) : t.SGets d x := (hk.sregs d (by simp)).trans h

theorem pc_putS {u : State} (r : Nat) (x : SReg) (hl : u.Live) : (u.putS r x).pc = u.pc := by
  by_cases h0 : r = 0
  · simp [putS, h0]
  · obtain ⟨g, b, hc, hg, -⟩ | ⟨c, t, hc, hlen, ht⟩ := hl.elim
    · have hc' : (u.putS r x).cur = .slot g b := by simp only [putS, h0, if_false, hc]; exact hc
      simp only [pc, hc, hc', myPath, me_slot hc, me_slot hc', curSlot]
      simp only [putS, h0, if_false, hc, grp_modImage_same hg]
      cases b <;> rfl
    · have hc' : (u.putS r x).cur = .thread c t := by simp only [putS, h0, if_false, hc]; exact hc
      simp only [pc, hc, hc']
      simp only [putS, h0, if_false, hc, thread_modThread_same hlen ht]

theorem pc_modImage {u : State} {g : Nat} {b : Bool} (hc : u.cur = .slot g b) (hg : u.hasGroup g = true) {f : Image → Image}
    (hA : ∀ im, (f im).slotA = im.slotA) (hB : ∀ im, (f im).slotB = im.slotB) : (u.modImage g f).pc = u.pc := by
  have hc' : (u.modImage g f).cur = .slot g b := hc
  simp only [pc, hc, hc', myPath, me_slot hc, me_slot hc', curSlot, grp_modImage_same hg]
  cases b <;> simp [Image.slot, hA, hB]

theorem pc_setFlags {u : State} (x : Flags) (hl : u.Live) : (u.setFlags x).pc = u.pc := by
  obtain ⟨g, b, hc, hg, hr⟩ | ⟨c, t, hc, hlen, ht⟩ := hl.elim
  · have hc' : (u.setFlags x).cur = .slot g b := by simp only [setFlags, hc, modMyPath_slot hc, modGroup_cur]
    simp only [pc, hc, hc', myPath, me_slot hc, me_slot hc', curSlot]
    simp only [setFlags, hc, modMyPath_slot hc, grp_modGroup_same (f := fun y => { y with image := y.image.modSlot b _ }) hg (fun _ => rfl), Image.modSlot_slot]
    cases hs : (u.grp g).image.slot b with
    | none => simp [Group.goesOn, hs] at hr
    | some p => rfl
  · have hc' : (u.setFlags x).cur = .thread c t := by simp only [setFlags, hc]; exact hc
    simp only [pc, hc, hc']
    simp only [setFlags, hc, thread_modThread_same hlen ht]

/-- A result in an s register. -/
theorem Passes.writesS {d : Nat} {x : Word} (h : s.Passes f) (hd : s.inFile d) (hb : body s.advance = .ok (s.advance.writeS d x)) :
    ∃ t, s.issue i f body = .next t ∧ t.SGets d x ∧ t.pc = s.pc + 4 ∧ Kept { s := [d] } s t := by
  have hl := h.live
  have ha := live_advance hl
  have hd' : s.advance.inFile d := by simp only [inFile, onCore_advance]; exact hd
  obtain ⟨t, ht, hk, hm, hp⟩ := h.moves (i := i) hb (moves_writeS (m := { s := [d] }) ha (by simp) x)
  exact ⟨t, ht, (sgets_writeS ha hd' x).of_kept hk, by rw [hp, writeS, pc_putS _ _ ha, pc_advance hl], hm⟩

/-- Flags. -/
theorem Passes.setsFlags {x : Flags} (h : s.Passes f) (hb : body s.advance = .ok (s.advance.setFlags x)) :
    ∃ t, s.issue i f body = .next t ∧ t.flags = x ∧ t.pc = s.pc + 4 ∧ Kept { flags := true } s t := by
  have hl := h.live
  have ha := live_advance hl
  obtain ⟨t, ht, hk, hm, hp⟩ := h.moves (i := i) hb (moves_setFlags (m := { flags := true }) ha rfl x)
  exact ⟨t, ht, (hk.flags rfl).trans (flags_setFlags ha x), by rw [hp, pc_setFlags _ ha, pc_advance hl], hm⟩

/-- No effect but the advance. -/
theorem Passes.skips (h : s.Passes f) (hb : body s.advance = .ok s.advance) :
    ∃ t, s.issue i f body = .next t ∧ t.pc = s.pc + 4 ∧ Kept {} s t := by
  have hl := h.live
  obtain ⟨t, ht, _, hm, hp⟩ := h.moves (i := i) hb (Moves.refl {} _)
  exact ⟨t, ht, by rw [hp, pc_advance hl], hm⟩

/-- A transfer of control. -/
theorem Passes.jumps {x : Word} (h : s.Passes f) (hb : body s.advance = .ok (s.advance.setPc x)) :
    ∃ t, s.issue i f body = .next t ∧ t.pc = x ∧ Kept {} s t := by
  have hl := h.live
  have ha := live_advance hl
  obtain ⟨t, ht, _, hm, hp⟩ := h.moves (i := i) hb (moves_setPc (m := {}) ha x)
  exact ⟨t, ht, by rw [hp, pc_setPc ha], hm⟩

/-- The issuing slot of a live agent on a core. -/
theorem Live.slot (h : s.Live) (hc : s.onCore = true) : ∃ g b, s.cur = .slot g b ∧ s.hasGroup g = true := by
  obtain ⟨g, b, hcur, hg, -⟩ | ⟨c, t, hcur, -, -⟩ := h.elim
  · exact ⟨g, b, hcur, hg⟩
  · simp [onCore, hcur] at hc

/-- A result in a k register. -/
theorem Passes.writesK {d : Nat} {x : Word} (h : s.Passes f) (hc : s.onCore = true) (hd : d < 16) (hb : body s.advance = .ok (s.advance.writeK d x)) :
    ∃ t, s.issue i f body = .next t ∧ KGets s t d x ∧ t.pc = s.pc + 4 ∧ Kept { k := [d] } s t := by
  have hl := h.live
  have ha := live_advance hl
  obtain ⟨g, b, hcur, hg⟩ := ha.slot ((onCore_advance s).trans hc)
  obtain ⟨t, ht, hk, hm, hp⟩ := h.moves (i := i) hb (moves_writeK (m := { k := [d] }) hcur hg (by simp) x)
  refine ⟨t, ht, ?_, ?_, hm⟩
  · have hw := kgets_writeK hcur hg hd x
    simp only [KGets, width_advance hl, kreg_advance hl] at hw ⊢
    exact (hk.kregs d (by simp)).trans hw
  · rw [hp, ← pc_advance hl]
    simp only [writeK, curGrp, hcur]
    exact pc_modImage hcur hg (fun im => by simp only [Image.setK]; split <;> rfl) (fun im => by simp only [Image.setK]; split <;> rfl)

/-! ### Lanes of v registers -/

theorem writeLanes_lane (f : Nat → Word) : ∀ (ls : List Nat) (v : Vector Word 64) (l : Nat), l < 64 →
    vget 0 ((ls.map fun l => (l, f l)).foldl (fun a p => vmod a p.1 fun _ => p.2) v) l = if l ∈ ls then f l else vget 0 v l
  | [], _, _, _ => by simp
  | x :: ls, v, l, hl => by
    simp only [List.map_cons, List.foldl_cons, writeLanes_lane f ls _ l hl, List.mem_cons]
    by_cases hm : l ∈ ls
    · simp [hm]
    · by_cases hx : l = x
      · subst hx
        simp [hm, vget_vmod_same hl]
      · simp only [hm, hx, or_self, if_false]
        exact vget_vmod_other hx

/-- Writing lanes of a v register: the lanes written hold their values clean, the others are as before. -/
theorem writeLanes_poison {v : VReg} {ls : List Nat} {f : Nat → Word} (l : Nat) :
    (v.writeLanes (ls.map fun l => (l, f l))).poisonOf l = if l ∈ ls then none else v.poisonOf l := by
  simp only [VReg.writeLanes, VReg.poisonOf, List.find?_filter]
  by_cases hm : l ∈ ls
  · rw [if_pos hm]
    rw [List.find?_eq_none.2]
    · rfl
    · intro q _ hq
      simp only [List.all_map, List.all_eq_true, Function.comp_def, decide_eq_true_eq] at hq
      exact hq.1 l hm hq.2.symm
  · rw [if_neg hm]
    congr 2
    funext q
    by_cases hq : q.1 = l
    · have : (ls.map fun l => (l, f l)).all (fun p => decide (p.1 ≠ q.1)) = true := by
        simp only [List.all_map, List.all_eq_true, Function.comp_def, decide_eq_true_eq]
        intro x hx
        rintro rfl
        exact hm (hq ▸ hx)
      simp [hq] at this ⊢
      exact this
    · simp [hq]

/-- A result in lanes of a v register, over an effect that came before it. -/
theorem Passes.writesVs {m : May} {d : Nat} {ls : List Nat} {fn : Nat → Word} {u : State} (h : s.Passes f) (hc : s.onCore = true) (hd : d < 64)
    (hb : body s.advance = .ok (u.writeV d (ls.map fun l => (l, fn l)))) (hm : Moves m s.advance u) (hpc : u.pc = s.advance.pc)
    (hdm : d ∈ m.v) (hv : u.vreg d = s.vreg d) :
    ∃ t, s.issue i f body = .next t ∧ VWrites s t d ls fn ∧ t.pc = s.pc + 4 ∧ Kept m s t ∧ Kept { v := [d] } u t := by
  have hl := h.live
  have ha := live_advance hl
  have hul := hm.live ha
  have hcu : u.onCore = true := by simp only [onCore, hm.agent, cur_advance] at hc ⊢; exact hc
  obtain ⟨g, b, hcur, hg⟩ := hul.slot hcu
  obtain ⟨t, ht, hk, hmk, hp⟩ := h.moves (i := i) hb (hm.trans (moves_modV (m := m) hcur hg hdm _))
  refine ⟨t, ht, ?_, ?_, hmk, (moves_modV (m := { v := [d] }) hcur hg (by simp) _).toKept.trans hk.weaken⟩
  · have hv' : t.vreg d = (s.vreg d).writeLanes (ls.map fun l => (l, fn l)) := by
      rw [hk.vregs d (by simp), writeV, vreg_modV hcur hg hd, hv]
    refine ⟨by rw [hv']; rfl, fun l hlt => ?_⟩
    have hlane : t.vlane d l = if l ∈ ls then fn l else s.vlane d l := by
      simp only [vlane, hv', VReg.writeLanes, writeLanes_lane fn _ _ l hlt]
    rw [hlane, hv', writeLanes_poison]
    by_cases hin : l ∈ ls <;> simp [hin]
  · rw [hp, ← pc_advance hl, ← hpc]
    simp only [writeV, modV, curGrp, hcur]
    exact pc_modImage hcur hg (fun _ => rfl) (fun _ => rfl)

/-- A result in the active lanes of a v register. -/
theorem Passes.writesV {m : May} {d : Nat} {fn : Nat → Word} {u : State} (h : s.Passes f) (hc : s.onCore = true) (hd : d < 64)
    (hb : body s.advance = .ok (u.writeV d (s.lanes.map fun l => (l, fn l)))) (hm : Moves m s.advance u) (hpc : u.pc = s.advance.pc)
    (hdm : d ∈ m.v) (hv : u.vreg d = s.vreg d) :
    ∃ t, s.issue i f body = .next t ∧ VGets s t d fn ∧ t.pc = s.pc + 4 ∧ Kept m s t := by
  obtain ⟨t, h1, h2, h3, h4, _⟩ := h.writesVs (i := i) hc hd hb hm hpc hdm hv
  exact ⟨t, h1, h2, h3, h4⟩

end

/-! ### Control -/

/-- The segments stay as the program counter goes on. -/
theorem seg_advance {s : State} (h : s.Live) (k : Nat) : s.advance.seg k = s.seg k := by
  obtain ⟨g, b, hc, hg, -⟩ | ⟨c, t, hc, hl, ht⟩ := h.elim
  · have hc' : s.advance.cur = .slot g b := (cur_advance s).trans hc
    have hk := (me_advance h).1
    rw [me_slot hc, me_slot hc'] at hk
    have := congrArg (fun x : Group => x.seg) hk
    simp only [seg, segs, hc, hc']
    exact congrArg (fun v => vget 0 v k) this
  · have hc' : s.advance.cur = .thread c t := (cur_advance s).trans hc
    simp only [seg, segs, hc, hc']
    simp only [advance, setPc, hc, thread_modThread_same hl ht]

/-- A transfer of control to a target that passes R125. -/
theorem goto_ok {s : State} {x : Word} (h : s.CodeTarget x) (hl : s.Live) : s.advance.goto x = .ok (s.advance.setPc x) := by
  simp only [goto, seg_advance hl]
  rw [if_neg (by simp [h.1]), if_neg (by have := h.2; omega)]

/-- What Table 3-8 says of a condition is what `condHolds` computes. -/
theorem condHolds_eq {f : Flags} {c : Nat} {yes : Bool} (h : (conditions38 f)[c]? = some yes) : condHolds f c = yes := by
  simp only [conditions38] at h
  rcases c with _ | _ | _ | _ | _ | _ | _ | _ | _ | _ | c <;> simp_all [condHolds]

/-- pc and liveness after an update of the issuing group that keeps its slots and its privilege. -/
theorem live_modGroup {u : State} {g : Nat} {b : Bool} {f : Group → Group} (hc : u.cur = .slot g b) (hl : u.Live) (hid : ∀ x, (f x).id = x.id)
    (hs : ∀ x, (f x).image.slot b = x.image.slot b) (hp : ∀ x, (f x).privileged = x.privileged := by exact fun _ => rfl) : (u.modGroup g f).Live ∧ (u.modGroup g f).pc = u.pc := by
  have hl' := hl
  simp only [Live, hc] at hl
  have hc' : (u.modGroup g f).cur = .slot g b := hc
  constructor
  · simp only [Live, hc']
    rw [hasGroup_modGroup hid, grp_modGroup_same hl.1 hid, Group.goesOn_congr (hp _) (by rw [hs])]
    exact hl
  · simp only [pc, hc, hc', myPath, me_slot hc, me_slot hc', curSlot]
    rw [grp_modGroup_same hl.1 hid, hs]

/-- The program counter of an agent that is a slot. -/
theorem pc_slot {u : State} {g : Nat} {b : Bool} (hc : u.cur = .slot g b) : u.pc = (((u.grp g).image.slot b).getD Path.blank).pc := by
  simp only [pc, hc, myPath, me_slot hc, curSlot]

end State

/-- What a frame keeps of the issuing group: everything but registers, generators, contexts and counters. -/
theorem Kept.husk {m : May} {s t : State} (h : Kept m s t) {g : Nat} {b : Bool} (hc : s.cur = .slot g b) (hg : s.hasGroup g = true) :
    t.hasGroup g = true ∧ (t.grp g).husk = (s.grp g).husk := by
  have hw := h.world
  rw [State.world_slot hc, State.world_slot (h.agent.trans hc)] at hw
  have hgs : (t.modGroup g Group.husk).groups = (s.modGroup g Group.husk).groups := by
    have := congrArg State.groups hw
    exact this
  have hh : ∀ u : State, (u.modGroup g Group.husk).hasGroup g = u.hasGroup g := fun u => State.hasGroup_modGroup (fun _ => rfl)
  have e1 : (t.modGroup g Group.husk).hasGroup g = (s.modGroup g Group.husk).hasGroup g := by simp only [State.hasGroup, hgs]
  have ht : t.hasGroup g = true := by rw [← hh t, e1, hh s]; exact hg
  refine ⟨ht, ?_⟩
  have e2 : (t.modGroup g Group.husk).grp g = (s.modGroup g Group.husk).grp g := by simp only [State.grp, hgs]
  exact (State.grp_modGroup_same (f := Group.husk) ht (fun _ => rfl)).symm.trans (e2.trans (State.grp_modGroup_same (f := Group.husk) hg (fun _ => rfl)))

namespace State

/-! ### The state whose program counter has gone on -/

theorem adv_field {s : State} {g : Nat} {b : Bool} (hc : s.cur = .slot g b) {α : Type} (π : State → α) (h : ∀ f, π (s.modGroup g f) = π s) : π s.advance = π s := by
  rw [advance, setPc, hc]
  simp only [modMyPath_slot hc]
  exact h _

theorem grp_advance {s : State} {g : Nat} {b : Bool} (hc : s.cur = .slot g b) (hg : s.hasGroup g = true) :
    s.advance.grp g = { s.grp g with image := (s.grp g).image.modSlot b fun p => { p with pc := s.pc + 4 } } := by
  simp only [advance, setPc, hc, modMyPath_slot hc]
  exact grp_modGroup_same (f := fun y => { y with image := y.image.modSlot b fun p => { p with pc := s.pc + 4 } }) hg (fun _ => rfl)

theorem hasGroup_advance {s : State} {g : Nat} {b : Bool} (hc : s.cur = .slot g b) : s.advance.hasGroup g = s.hasGroup g := by
  simp only [advance, setPc, hc, modMyPath_slot hc]
  exact hasGroup_modGroup (f := fun y => { y with image := y.image.modSlot b fun p => { p with pc := s.pc + 4 } }) (fun _ => rfl)

/-- An effect on the issuing group that keeps its slot. -/
theorem Passes.modsGroup {s : State} {i : Instr} {f : Form} {body : State → Eff State} {g : Nat} {b : Bool} {F : Group → Group} (h : s.Passes f)
    (hc : s.cur = .slot g b) (hb : body s.advance = .ok (s.advance.modGroup g F)) (hid : ∀ x, (F x).id = x.id)
    (hs : ∀ x, (F x).image.slot b = x.image.slot b) (hp : ∀ x, (F x).privileged = x.privileged := by exact fun _ => rfl) :
    ∃ t, s.issue i f body = .next t ∧ t.pc = s.pc + 4 ∧ Kept {} (s.advance.modGroup g F) t := by
  obtain ⟨h1, h2⟩ := live_modGroup ((cur_advance s).trans hc) (live_advance h.live) hid hs hp
  obtain ⟨t, h3, h4, h5⟩ := h.next (i := i) hb h1
  exact ⟨t, h3, by rw [h5, h2, pc_advance h.live], h4⟩

/-- An effect on anything but groups and stream threads. -/
theorem Passes.elsewhere {s u : State} {i : Instr} {f : Form} {body : State → Eff State} {g : Nat} {b : Bool} (h : s.Passes f)
    (hc : s.cur = .slot g b) (hb : body s.advance = .ok u) (hcu : u.cur = s.advance.cur) (hg : u.groups = s.advance.groups) :
    ∃ t, s.issue i f body = .next t ∧ t.pc = s.pc + 4 ∧ Kept {} u t := by
  have hca := (cur_advance s).trans hc
  have hla := live_advance h.live
  have hgr : u.grp g = s.advance.grp g := by simp only [grp, hg]
  have hl : u.Live := by
    simp only [Live, hca] at hla
    simp only [Live, hcu, hca, hasGroup, hg, hgr]
    exact hla
  obtain ⟨t, h3, h4, h5⟩ := h.next (i := i) hb hl
  refine ⟨t, h3, ?_, h4⟩
  rw [h5, pc_slot (hcu.trans hca), hgr, ← pc_slot hca, pc_advance h.live]

end State

end Sys2Proof.Machine
end

