-- ==== Sys2Proof/Laws/Elements.lean ====
section
/-! SUPPORT. Elements of lanes: packing and unpacking (R55), the fit of R85, lanes under a function of their elements, generators (R67). -/

namespace Sys2Proof.Machine

open Sys2Proof

theorem packNat_lt (w : Nat) : ∀ xs : List Nat, packNat w xs < 2 ^ (w * xs.length)
  | [] => by simp [packNat]
  | x :: xs => by
    have h1 := packNat_lt w xs
    have h2 : x % 2 ^ w < 2 ^ w := Nat.mod_lt _ (Nat.two_pow_pos w)
    simp only [packNat, List.length_cons, Nat.mul_succ, Nat.pow_add]
    have h3 : 2 ^ w * (packNat w xs + 1) ≤ 2 ^ w * 2 ^ (w * xs.length) := Nat.mul_le_mul_left _ h1
    rw [Nat.mul_succ] at h3
    rw [Nat.mul_comm (2 ^ (w * xs.length))]
    omega

theorem bitsOf_packNat (w : Nat) : ∀ (xs : List Nat) (e : Nat), bitsOf (packNat w xs) (w * e) w = xs.getD e 0 % 2 ^ w
  | [], e => by simp [packNat, bitsOf]
  | x :: xs, 0 => by
    simp [packNat, bitsOf, Nat.add_mul_mod_self_left]
  | x :: xs, e + 1 => by
    have h := bitsOf_packNat w xs e
    simp only [bitsOf, packNat, List.getD_cons_succ] at h ⊢
    rw [← h, Nat.mul_succ, Nat.add_comm (w * e) w, Nat.pow_add, ← Nat.div_div_eq_div_mul, Nat.add_mul_div_left _ _ (Nat.two_pow_pos w),
      Nat.div_eq_of_lt (Nat.mod_lt _ (Nat.two_pow_pos w)), Nat.zero_add]

/-- Sub-element `e` of a packed lane. -/
theorem elemOf_packLane {w : Nat} {xs : List Nat} (h : w * xs.length ≤ 64) (e : Nat) : elemOf (packLane w xs) w e = xs.getD e 0 % 2 ^ w := by
  have hlt : packNat w xs < 2 ^ 64 := Nat.lt_of_lt_of_le (packNat_lt w xs) (Nat.pow_le_pow_right (by omega) h)
  rw [elemOf, packLane, BitVec.toNat_ofNat, Nat.mod_eq_of_lt hlt, bitsOf_packNat]

theorem elemOf_packRange {w : Nat} {f : Nat → Nat} {e : Nat} (he : e < perLane w) :
    elemOf (packLane w ((List.range (perLane w)).map f)) w e = f e % 2 ^ w := by
  have hw : w * perLane w ≤ 64 := Nat.mul_div_le 64 w
  rw [elemOf_packLane (by simpa using hw)]
  simp [List.getD, he]

theorem elemOf_lane1 {w : Nat} {f : Nat → Nat} {x : Word} {e : Nat} (he : e < perLane w) : elemOf (lane1 w f x) w e = f (elemOf x w e) % 2 ^ w := by
  simp only [lane1, elems, List.map_map]
  exact elemOf_packRange he

theorem elemOf_lane2 {w : Nat} {f : Nat → Nat → Nat} {x y : Word} {e : Nat} (he : e < perLane w) :
    elemOf (lane2 w f x y) w e = f (elemOf x w e) (elemOf y w e) % 2 ^ w := elemOf_packRange he

theorem elemOf_lane3 {w : Nat} {f : Nat → Nat → Nat → Nat} {x y z : Word} {e : Nat} (he : e < perLane w) :
    elemOf (lane3 w f x y z) w e = f (elemOf x w e) (elemOf y w e) (elemOf z w e) % 2 ^ w := elemOf_packRange he

theorem elemOf_lt (x : Word) (w e : Nat) : elemOf x w e < 2 ^ w := Nat.mod_lt _ (Nat.two_pow_pos w)

theorem wrapTo_lt (w : Nat) (x : Int) : wrapTo w x < 2 ^ w := by
  have h1 : (0 : Int) < (2 ^ w : Nat) := by exact_mod_cast Nat.two_pow_pos w
  have h2 := Int.emod_lt_of_pos x h1
  have h3 := Int.emod_nonneg x (by omega : ((2 ^ w : Nat) : Int) ≠ 0)
  simp only [wrapTo]
  omega

/-- The width of an integer type. -/
theorem ewidth_int {t : Nat} (h : isInt t = true) : ewidth t = 8 ∨ ewidth t = 16 ∨ ewidth t = 32 ∨ ewidth t = 64 := by
  have h : t < 8 := by simpa [isInt] using h
  rcases t with _ | _ | _ | _ | _ | _ | _ | _ | t <;> first | omega | simp [ewidth]

/-- The width of an element type. -/
theorem ewidth_elem {t : Nat} (h : isElem t = true) : ewidth t = 8 ∨ ewidth t = 16 ∨ ewidth t = 32 ∨ ewidth t = 64 := by
  have h : t < 14 := by simpa [isElem] using h
  rcases t with _ | _ | _ | _ | _ | _ | _ | _ | _ | _ | _ | _ | _ | _ | t <;> first | omega | simp [ewidth]

theorem ofNat_wrapTo (x : Int) : BitVec.ofNat 64 (wrapTo 64 x) = BitVec.ofInt 64 x := by
  apply BitVec.eq_of_toNat_eq
  have h := wrapTo_lt 64 x
  rw [BitVec.toNat_ofNat, BitVec.toNat_ofInt, Nat.mod_eq_of_lt h]
  rfl

/-- What the fit of R85 leaves: the value clamped, or one congruent to it, as the type reads it. -/
theorem fitted_fit {t : Nat} (sat : Bool) (x : Int) (ht : isInt t = true) : Fitted t sat x (fit t sat x) := by
  have h : t < 8 := by simpa [isInt] using ht
  have hl : fit t sat x < 2 ^ ewidth t := by
    simp only [fit]
    split <;> exact wrapTo_lt _ _
  refine ⟨hl, ?_, ?_, ?_⟩ <;>
  · rcases t with _ | _ | _ | _ | _ | _ | _ | _ | t <;> cases sat <;>
      first
      | omega
      | (simp [fit, ival, iminOf, imaxOf, esigned, ewidth, asSigned, wrapTo] <;> (try split) <;> omega)

theorem ival_range {t : Nat} (ht : isInt t = true) (x : Nat) (hx : x < 2 ^ ewidth t) : iminOf t ≤ ival t x ∧ ival t x ≤ imaxOf t := by
  have h : t < 8 := by simpa [isInt] using ht
  rcases t with _ | _ | _ | _ | _ | _ | _ | _ | t <;>
    first
    | omega
    | (simp [ival, iminOf, imaxOf, esigned, ewidth, asSigned] at hx ⊢ <;> (try split) <;> omega)

theorem ival_inj {t : Nat} (ht : isInt t = true) {x y : Nat} (hx : x < 2 ^ ewidth t) (hy : y < 2 ^ ewidth t) : x = y ↔ ival t x = ival t y := by
  have h : t < 8 := by simpa [isInt] using ht
  rcases t with _ | _ | _ | _ | _ | _ | _ | _ | t <;>
    first
    | omega
    | (simp [ival, esigned, ewidth, asSigned] at hx hy ⊢ <;> (try split) <;> (try split) <;> omega)

/-- An integer in the range of its type, as a pattern. -/
theorem fitted_wrap {t : Nat} (ht : isInt t = true) {sat : Bool} {x : Int} (h1 : iminOf t ≤ x) (h2 : x ≤ imaxOf t) : Fitted t sat x (wrapTo (ewidth t) x) := by
  have h := fitted_fit sat x ht
  have e : fit t sat x = wrapTo (ewidth t) x := by
    cases sat
    · rfl
    · simp only [fit, if_true]; rw [Int.min_eq_right h2, Int.max_eq_right h1]
  rwa [e] at h

/-- The high half of a product fits (R85). -/
theorem fitted_high {t : Nat} (ht : isInt t = true) {sat : Bool} {x y : Int} (hx : iminOf t ≤ x ∧ x ≤ imaxOf t) (hy : iminOf t ≤ y ∧ y ≤ imaxOf t) :
    Fitted t sat (x * y / 2 ^ ewidth t) (wrapTo (ewidth t) (x * y / 2 ^ ewidth t)) := by
  have pos : (0 : Int) < 2 ^ ewidth t := by exact_mod_cast Nat.two_pow_pos _
  have h : t < 8 := by simpa [isInt] using ht
  have key : ∀ w : Nat, ewidth t = w → (iminOf t = 0 ∧ imaxOf t = 2 ^ w - 1 ∨ iminOf t = -(2 ^ w / 2) ∧ imaxOf t = 2 ^ w / 2 - 1 ∧ (2 : Int) ^ w = 2 * (2 ^ w / 2)) →
      iminOf t ≤ x * y / 2 ^ w ∧ x * y / 2 ^ w ≤ imaxOf t := by
    intro w hw hr
    have pos : (0 : Int) < 2 ^ w := by rw [← hw]; exact pos
    rcases hr with ⟨h1, h2⟩ | ⟨h1, h2, h3⟩
    · rw [h1, h2] at hx hy ⊢
      generalize (2 : Int) ^ w = m at *
      have a1 : 0 ≤ x * y := Int.mul_nonneg hx.1 hy.1
      have a2 : x * y ≤ x * m := Int.mul_le_mul_of_nonneg_left (by omega) hx.1
      have a3 : x * m < m * m := Int.mul_lt_mul_of_pos_right (by omega) pos
      refine ⟨Int.ediv_nonneg a1 (by omega), ?_⟩
      have : x * y / m < m := Int.ediv_lt_of_lt_mul pos (by omega)
      omega
    · rw [h1, h2] at hx hy ⊢
      generalize (2 : Int) ^ w / 2 = h at h1 h2 h3 hx hy
      have hp : 0 < h := by omega
      obtain ⟨n, rfl⟩ : ∃ n : Nat, h = n := ⟨h.toNat, by omega⟩
      have a0 : (x * y).natAbs ≤ n * n := by rw [Int.natAbs_mul]; exact Nat.mul_le_mul (by omega) (by omega)
      have a1 : ((n * n : Nat) : Int) = (n : Int) * n := by simp
      have a2 : (n : Int) * (2 * n) = 2 * ((n : Int) * n) := by rw [Int.mul_left_comm]
      have a3 : -(n : Int) * (2 * n) = -(2 * ((n : Int) * n)) := by rw [Int.neg_mul, a2]
      have a4 : 0 < (n : Int) * n := Int.mul_pos hp hp
      rw [h3]
      constructor
      · exact Int.le_ediv_of_mul_le (by omega) (by rw [a3]; omega)
      · have : x * y / (2 * n) < n := Int.ediv_lt_of_lt_mul (by omega) (by rw [a2]; omega)
        omega
  have hr := key (ewidth t) rfl (by
    rcases t with _ | _ | _ | _ | _ | _ | _ | _ | t <;> first | omega | simp [iminOf, imaxOf, esigned, ewidth])
  exact fitted_wrap ht hr.1 hr.2

namespace State

theorem needs_advance {s : State} (h : s.Live) (ok : Nat → Bool) (rounds : Bool) (h1 : ok s.etype = true) (h2 : rounds = true → s.round < 6) :
    s.advance.needs ok rounds = .ok () := by
  simp only [needs, etype_advance h, round_advance h, h1]
  cases rounds
  · rfl
  · have := h2 rfl
    simp only [Bool.not_true, Bool.true_and, Bool.false_or, decide_eq_true_eq]
    rw [if_neg (by omega)]

theorem fmode_advance {s : State} (h : s.Live) : s.advance.fmode = s.fmode := by
  have h1 : s.advance.subn = s.subn := by rw [subn, mode_advance h]; rfl
  have h2 : s.advance.nanprop = s.nanprop := by rw [nanprop, mode_advance h]; rfl
  simp only [fmode, etype_advance h, round_advance h, sat_advance h, h1, h2]

/-- Lanes without poison pass the check that an instruction makes on the lanes it reads. -/
theorem clean_ok {s : State} {u : Use} {ls : List Nat} (h : ∀ l ∈ ls, (s.vreg u.num).poisonOf l = none) : s.clean u ls = .ok () := by
  simp only [clean, poisonedLane_none h]

/-- A value in the active lanes of a v register, nothing else. -/
theorem Passes.mapsLanes {s : State} {i : Instr} {f : Form} {body : State → Eff State} {d : Reg} {fn : Nat → Word} (h : s.Passes f) (hc : s.onCore = true)
    (hb : body s.advance = .ok (s.advance.mapLanes d.toNat fn)) :
    ∃ t, s.issue i f body = .next t ∧ VGets s t d.toNat fn ∧ t.pc = s.pc + 4 ∧ Kept { v := [d.toNat] } s t :=
  h.writesV (u := s.advance) hc d.isLt (by rw [hb, mapLanes, lanes_advance h.live]) (Moves.refl _ _) rfl (by simp) (vreg_advance h.live _)

theorem filterMap_if {α β : Type} (p q : α → Bool) (g : α → β) : ∀ l : List α,
    (l.filter p).filterMap (fun x => if q x = true then none else some (g x)) = (l.filter fun x => p x && !q x).map g
  | [] => rfl
  | x :: l => by
    have ih := filterMap_if p q g l
    cases hp : p x <;> cases hq : q x <;> simp [hp, hq, ih]

/-- Positions of a v register replaced, lane by lane: the lanes that hold one of them. -/
theorem writeElems_eq (s : State) (d w : Nat) (ps : List (Nat × Nat)) :
    s.writeElems d w ps = s.writeV d (((List.range s.me.width).filter fun l => decide (l < 64) && ps.any fun p => decide (p.1 / perLane w = l)).map fun l =>
      (l, packLane w ((List.range (perLane w)).map fun e =>
        match (ps.filter fun p => p.1 / perLane w = l).find? (fun p => p.1 % perLane w = e) with
        | some p => p.2
        | none => elemOf (s.vlane d l) w e))) := by
  simp only [writeElems, lanesIn]
  rw [filterMap_if (fun l => (BitVec.ofNat 64 (2 ^ 64 - 1)).getLsbD l) (fun l => (ps.filter fun p => decide (p.1 / perLane w = l)).isEmpty)]
  congr 3
  funext l
  have h1 : (BitVec.ofNat 64 (2 ^ 64 - 1)).getLsbD l = decide (l < 64) := by
    rw [BitVec.getLsbD_ofNat, Nat.testBit_two_pow_sub_one]; simp
  rw [h1]
  congr 1
  induction ps with
  | nil => rfl
  | cons p ps ih =>
    by_cases h : p.1 / perLane w = l
    · simp [h]
    · simp only [List.filter_cons, h, decide_false, Bool.false_eq_true, if_false, ih, List.any_cons, Bool.false_or]

/-! ### Generators -/

theorem genElems_eq (sr : Bool) (f : BitVec 32 → Nat → Nat) : ∀ (n k : Nat) (g : BitVec 32),
    (genElems sr f ((List.range' k n)) g).1 = (List.range n).map (fun e => f (stepped sr (e + 1) g) (k + e)) ∧
      (genElems sr f ((List.range' k n)) g).2 = stepped sr n g
  | 0, k, g => by cases sr <;> exact ⟨rfl, rfl⟩
  | n + 1, k, g => by
    have h1 : ∀ m, stepped sr m (if sr = true then genStep g else g) = stepped sr (m + 1) g := by
      intro m
      cases sr
      · rfl
      · simp only [stepped, if_true]
        induction m with
        | zero => rfl
        | succ m ih => simp only [Nat.repeat] at ih ⊢; rw [ih]
    obtain ⟨h2, h3⟩ := genElems_eq sr f n (k + 1) (if sr = true then genStep g else g)
    simp only [List.range'_succ, genElems]
    constructor
    · rw [h2, List.range_succ_eq_map, List.map_cons, List.map_map]
      congr 1
      apply List.map_congr_left
      intro e _
      simp only [Function.comp, h1]
      rw [show k + 1 + e = k + (e + 1) by omega]
    · rw [h3, h1]

theorem genLane_eq (w : Nat) (sr : Bool) (f : BitVec 32 → Nat → Nat) (g : BitVec 32) :
    genLane w sr f g = (packLane w ((List.range (perLane w)).map fun e => f (stepped sr (e + 1) g) e), stepped sr (perLane w) g) := by
  have h := genElems_eq sr f (perLane w) 0 g
  simp only [genLane, List.range_eq_range']
  rw [h.1, h.2]
  simp [List.range_eq_range']

/-- An element-wise computation that may step the generators of the active lanes. -/
theorem Passes.mapsGen {s : State} {i : Instr} {f : Form} {body : State → Eff State} {d : Reg} {w : Nat} {F : Nat → BitVec 32 → Nat → Nat} (h : s.Passes f) (hc : s.onCore = true)
    (hb : body s.advance = .ok (s.advance.mapGen d.toNat w F)) :
    ∃ t y, s.issue i f body = .next t ∧ VGets s t d.toNat y ∧
      (∀ l ∈ s.lanes, ∀ e < 64 / w, elemOf (y l) w e = F l (stepped (decide (s.round = 5)) (e + 1) (s.gen l)) e % 2 ^ w) ∧
      Steps s t s.lanes (decide (s.round = 5)) (64 / w) ∧ t.pc = s.pc + 4 ∧ Kept { v := [d.toNat], gens := decide (s.round = 5) } s t := by
  have hl := h.live
  have ha := live_advance hl
  obtain ⟨g, b, hcur, hg⟩ := ha.slot ((onCore_advance s).trans hc)
  generalize hsr : decide (s.round = 5) = sr
  have hgen : ∀ l, s.advance.gen l = s.gen l := fun l => by simp only [gen, (me_advance hl).2]
  let y := fun l => packLane w ((List.range (perLane w)).map fun e => F l (stepped sr (e + 1) (s.gen l)) e)
  let gs := s.lanes.foldl (fun gs l => vmod gs l fun _ => stepped sr (perLane w) (s.gen l)) s.me.image.gens
  have hgs : ∀ l < 64, vget 0 gs l = if l ∈ s.lanes then stepped sr (perLane w) (s.gen l) else s.gen l := by
    have gen : ∀ (ls : List Nat) (v : Vector (BitVec 32) 64) (l : Nat), l < 64 →
        vget 0 (ls.foldl (fun gs l => vmod gs l fun _ => stepped sr (perLane w) (s.gen l)) v) l = if l ∈ ls then stepped sr (perLane w) (s.gen l) else vget 0 v l := by
      intro ls
      induction ls with
      | nil => intro v l _; simp
      | cons x ls ih =>
        intro v l hlt
        simp only [List.foldl_cons, ih _ l hlt, List.mem_cons]
        by_cases hm : l ∈ ls
        · simp [hm]
        · by_cases hx : l = x
          · subst hx; simp [hm, vget_vmod_same hlt]
          · simp only [hm, hx, or_self, if_false]
            exact vget_vmod_other hx
    exact gen s.lanes s.me.image.gens
  have hb' : body s.advance = .ok ((s.advance.writeV d.toNat (s.lanes.map fun l => (l, y l))).setGens gs) := by
    rw [hb]
    simp only [mapGen, lanes_advance hl, round_advance hl, hsr, genLane_eq, hgen, List.map_map, List.foldl_map, (me_advance hl).2]
    rfl
  have hm1 : Moves { v := [d.toNat], gens := sr } s.advance (s.advance.writeV d.toNat (s.lanes.map fun l => (l, y l))) := moves_modV hcur hg (by simp) _
  generalize hu : s.advance.writeV d.toNat (s.lanes.map fun l => (l, y l)) = u at hb' hm1
  have hcu : u.cur = .slot g b := hm1.agent.trans hcur
  have hgu : u.hasGroup g = true := (hm1.toKept.husk hcur hg).1
  have hgens : u.me.image.gens = s.me.image.gens := by
    rw [← (me_advance hl).2, me_slot hcu, me_slot hcur, ← hu]
    simp only [writeV, modV, curGrp, hcur, grp_modImage_same hg]
  have hm2 : Moves { v := [d.toNat], gens := sr } u (u.setGens gs) := moves_setGens hcu hgu gs (by
    intro h0
    have h0 : sr = false := h0
    rw [hgens]
    apply Vector.ext
    intro l hl64
    have := hgs l hl64
    simp only [vget, dif_pos hl64] at this
    rw [this]
    simp only [stepped, h0, Bool.false_eq_true, if_false, ite_self, gen, vget, dif_pos hl64])
  obtain ⟨t, k1, k2, k3, k4⟩ := h.moves (i := i) hb' (hm1.trans hm2)
  have hvt : t.vreg d.toNat = (s.vreg d.toNat).writeLanes (s.lanes.map fun l => (l, y l)) := by
    rw [k2.vregs _ (by simp)]
    have e : (u.setGens gs).vreg d.toNat = u.vreg d.toNat := by
      have hcs : (u.setGens gs).cur = .slot g b := by simp only [setGens, curGrp, hcu]; exact hcu
      simp only [vreg, me_slot hcs, me_slot hcu]
      simp only [setGens, curGrp, hcu, grp_modImage_same hgu]
    rw [e, ← hu, writeV, vreg_modV hcur hg d.isLt, vreg_advance hl]
  refine ⟨t, y, k1, ⟨by rw [hvt]; rfl, fun l hlt => ?_⟩, fun l _ e he => elemOf_packRange he, fun l hlt => ?_, ?_, k3⟩
  · have hlane : t.vlane d.toNat l = if l ∈ s.lanes then y l else s.vlane d.toNat l := by
      simp only [vlane, hvt, VReg.writeLanes, writeLanes_lane y _ _ l hlt]
    rw [hlane, hvt, writeLanes_poison]
    by_cases hin : l ∈ s.lanes <;> simp [hin]
  · have : t.me.image.gens = gs := by rw [k2.gens rfl, gens_setGens hcu hgu]
    simp only [gen, this]
    exact hgs l hlt
  · rw [k4]
    simp only [setGens, curGrp, hcu]
    rw [pc_modImage (f := fun im => { im with gens := gs }) hcu hgu (fun _ => rfl) (fun _ => rfl), ← hu, writeV, modV]
    simp only [curGrp, hcur]
    rw [pc_modImage (f := fun im => { im with v := vmod im.v d.toNat _ }) hcur hg (fun _ => rfl) (fun _ => rfl), pc_advance hl]

end State

end Sys2Proof.Machine
end

