-- ==== Sys2Proof/Laws/Memory.lean ====
section
/-! SUPPORT. Laws of the sorted lists behind memory, of reading and writing bytes, and the proof that every memory operation keeps the canonical form. -/

namespace Sys2Proof.Machine

open Sys2Proof

/-! ### Rising lists -/

theorem risingFrom_mono {lo lo' : Nat} {l : List Nat} (h : risingFrom lo l = true) (hl : lo' ≤ lo) : risingFrom lo' l = true := by
  cases l with
  | nil => rfl
  | cons a r => simp only [risingFrom, Bool.and_eq_true, decide_eq_true_eq] at *; exact ⟨by omega, h.2⟩

theorem rising_of_risingFrom {lo : Nat} {l : List Nat} (h : risingFrom lo l = true) : rising l = true := by
  cases l with
  | nil => rfl
  | cons a r => simp only [risingFrom, rising, Bool.and_eq_true] at *; exact h.2

theorem risingFrom_filter {p : Nat → Bool} : ∀ {l : List Nat} {lo : Nat}, risingFrom lo l = true → risingFrom lo (l.filter p) = true
  | [], _, _ => rfl
  | a :: r, lo, h => by
    simp only [risingFrom, Bool.and_eq_true, decide_eq_true_eq] at h
    have ih := risingFrom_filter (p := p) h.2
    by_cases hp : p a
    · simp only [List.filter_cons, hp, if_true, risingFrom, Bool.and_eq_true, decide_eq_true_eq]; exact ⟨h.1, ih⟩
    · simp only [List.filter_cons, hp]; exact risingFrom_mono ih (by omega)

theorem rising_filter {p : Nat → Bool} {l : List Nat} (h : rising l = true) : rising (l.filter p) = true := by
  cases l with
  | nil => rfl
  | cons a r =>
    have ih := risingFrom_filter (p := p) (show risingFrom a r = true from h)
    by_cases hp : p a
    · rw [List.filter_cons_of_pos hp]; exact ih
    · rw [List.filter_cons_of_neg hp]; exact rising_of_risingFrom ih

theorem risingFrom_setPut : ∀ {l : List Nat} {lo a : Nat}, risingFrom lo l = true → lo < a → risingFrom lo (setPut l a) = true
  | [], _, _, _, ha => by simp [setPut, risingFrom, ha]
  | k :: r, lo, a, h, ha => by
    simp only [risingFrom, Bool.and_eq_true, decide_eq_true_eq] at h
    simp only [setPut]
    split
    · next hk => simp [risingFrom, ha, hk, h.2]
    · split
      · simp [risingFrom, h.1, h.2]
      · next hk hne => simp only [risingFrom, Bool.and_eq_true, decide_eq_true_eq]; exact ⟨h.1, risingFrom_setPut h.2 (by omega)⟩

theorem rising_setPut {l : List Nat} {a : Nat} (h : rising l = true) : rising (setPut l a) = true := by
  cases l with
  | nil => rfl
  | cons k r =>
    simp only [setPut]
    split
    · next hk => simp only [rising, risingFrom, Bool.and_eq_true, decide_eq_true_eq]; exact ⟨hk, h⟩
    · split
      · exact h
      · next hk hne => exact risingFrom_setPut (show risingFrom k r = true from h) (by omega)

theorem rising_foldl_setPut : ∀ {xs l : List Nat}, rising l = true → rising (xs.foldl setPut l) = true
  | [], _, h => h
  | _ :: xs, _, h => rising_foldl_setPut (xs := xs) (rising_setPut h)

/-! ### Sorted lists of pairs -/

section
variable {α : Type} [DecidableEq α]

theorem risingFrom_assocPut {d b : α} : ∀ {l : List (Nat × α)} {lo a : Nat},
    risingFrom lo (l.map fun c => c.1) = true → lo < a → risingFrom lo ((assocPut d l a b).map fun c => c.1) = true
  | [], _, _, _, ha => by
    simp only [assocPut]
    split <;> simp [risingFrom, ha]
  | (k, v) :: r, lo, a, h, ha => by
    simp only [List.map_cons, risingFrom, Bool.and_eq_true, decide_eq_true_eq] at h
    simp only [assocPut]
    split
    · next hk => split <;> simp [risingFrom, h.1, h.2, ha, hk]
    · split
      · next hk =>
          subst hk
          split
          · exact risingFrom_mono h.2 (by omega)
          · simp [risingFrom, h.1, h.2]
      · next hk hne =>
          simp only [List.map_cons, risingFrom, Bool.and_eq_true, decide_eq_true_eq]
          exact ⟨h.1, risingFrom_assocPut h.2 (show k < a by omega)⟩

theorem rising_assocPut {d b : α} {l : List (Nat × α)} {a : Nat} (h : rising (l.map fun c => c.1) = true) :
    rising ((assocPut d l a b).map fun c => c.1) = true := by
  cases l with
  | nil =>
    simp only [assocPut]
    split <;> rfl
  | cons c r =>
    obtain ⟨k, v⟩ := c
    have h' : risingFrom k (r.map fun c => c.1) = true := h
    simp only [assocPut]
    split
    · next hk =>
        split
        · exact h
        · simp [rising, risingFrom, hk, h']
    · split
      · next hk =>
          subst hk
          split
          · exact rising_of_risingFrom h'
          · simp [rising, h']
      · next hk hne => exact risingFrom_assocPut h' (show k < a by omega)

/-- No pair is added but the one put, and that one only if its value is not the default. -/
theorem assocPut_all {d b : α} {p : Nat × α → Bool} {a : Nat} (hb : b ≠ d → p (a, b) = true) :
    ∀ {l : List (Nat × α)}, l.all p = true → (assocPut d l a b).all p = true
  | [], _ => by
    simp only [assocPut]
    split
    · rfl
    · next h => simp [hb h]
  | (k, v) :: r, h => by
    simp only [List.all_cons, Bool.and_eq_true] at h
    simp only [assocPut]
    split
    · split
      · simp [h.1, h.2]
      · next hd => simp only [List.all_cons, Bool.and_eq_true]; exact ⟨hb hd, h.1, h.2⟩
    · split
      · split
        · exact h.2
        · next hd => simp only [List.all_cons, Bool.and_eq_true]; exact ⟨hb hd, h.2⟩
      · simp only [List.all_cons, Bool.and_eq_true]; exact ⟨h.1, assocPut_all hb h.2⟩

omit [DecidableEq α] in
theorem assocGet_lt {d : α} : ∀ {l : List (Nat × α)} {a : Nat}, risingFrom a (l.map fun c => c.1) = true → assocGet d l a = d
  | [], _, _ => rfl
  | (k, v) :: r, a, h => by
    simp only [List.map_cons, risingFrom, Bool.and_eq_true, decide_eq_true_eq] at h
    simp only [assocGet]
    rw [if_neg (by omega)]
    exact assocGet_lt (risingFrom_mono h.2 (by omega))

theorem assocGet_put_same {d b : α} : ∀ {l : List (Nat × α)} {a : Nat},
    rising (l.map fun c => c.1) = true → assocGet d (assocPut d l a b) a = b
  | [], a, _ => by
    simp only [assocPut]
    split
    · next h => simp [assocGet, h]
    · simp [assocGet]
  | (k, v) :: r, a, h => by
    have h' : risingFrom k (r.map fun c => c.1) = true := h
    simp only [assocPut]
    split
    · next hk =>
        split
        · next hb =>
            simp only [assocGet]
            rw [if_neg (by omega), hb]
            exact assocGet_lt (risingFrom_mono h' (by omega))
        · simp [assocGet]
    · split
      · next hk =>
          subst hk
          split
          · next hb => rw [hb]; exact assocGet_lt h'
          · simp [assocGet]
      · next hk hne =>
          simp only [assocGet]
          rw [if_neg (by omega)]
          exact assocGet_put_same (rising_of_risingFrom h')

theorem assocGet_put_other {d b : α} : ∀ {l : List (Nat × α)} {a x : Nat}, x ≠ a → ∀ e : α, assocGet e (assocPut d l a b) x = assocGet e l x
  | [], a, x, hx, e => by
    simp only [assocPut]
    split
    · rfl
    · simp [assocGet, Ne.symm hx]
  | (k, v) :: r, a, x, hx, e => by
    simp only [assocPut]
    split
    · split
      · rfl
      · simp [assocGet, Ne.symm hx]
    · split
      · next hk =>
          subst hk
          split <;> simp [assocGet, Ne.symm hx]
      · simp only [assocGet, assocGet_put_other hx]

end

namespace Memory

/-! ### The canonical form -/

theorem wf_iff {m : Memory} : m.wf = true ↔
    rising (m.cells.map fun c => c.1) = true ∧ m.cells.all (fun c => c.2 != resetByte c.1) = true ∧
    rising (m.tags.map fun c => c.1) = true ∧ m.tags.all (fun c => c.2 != 0) = true ∧
    rising m.poisoned = true ∧ rising m.cairnPoison = true := by
  simp only [wf, Bool.and_eq_true, and_assoc]

theorem put_wf {m : Memory} {a : Nat} {b : Byte} (h : m.wf = true) : (m.put a b).wf = true := by
  rw [wf_iff] at *
  obtain ⟨h1, h2, h3, h4, h5, h6⟩ := h
  exact ⟨rising_assocPut h1, assocPut_all (fun hb => by simpa using hb) h2, h3, h4, h5, h6⟩

theorem putBytes_wf : ∀ {bs : List Byte} {m : Memory} {a : Nat}, m.wf = true → (m.putBytes a bs).wf = true
  | [], _, _, h => h
  | _ :: bs, _, _, h => putBytes_wf (bs := bs) (put_wf h)

theorem putAll_wf {ps : List (Nat × List Byte)} : ∀ {m : Memory}, m.wf = true → (m.putAll ps).wf = true := by
  induction ps with
  | nil => exact fun h => h
  | cons p ps ih => exact fun h => ih (putBytes_wf h)

theorem bump_wf {m : Memory} {a : Nat} (h : m.wf = true) : (m.bump a).wf = true := by
  rw [wf_iff] at *
  obtain ⟨h1, h2, h3, h4, h5, h6⟩ := h
  exact ⟨h1, h2, rising_assocPut h3, assocPut_all (fun hb => by simp at hb ⊢) h4, h5, h6⟩

theorem poisonLine_wf {m : Memory} {a : Nat} (h : m.wf = true) : (m.poisonLine a).wf = true := by
  rw [wf_iff] at *
  obtain ⟨h1, h2, h3, h4, h5, h6⟩ := h
  exact ⟨h1, h2, h3, h4, rising_setPut h5, h6⟩

theorem clearLine_wf {m : Memory} {a : Nat} (h : m.wf = true) : (m.clearLine a).wf = true := by
  rw [wf_iff] at *
  obtain ⟨h1, h2, h3, h4, h5, h6⟩ := h
  exact ⟨h1, h2, h3, h4, rising_filter h5, h6⟩

theorem touch_wf {ps : List (Nat × List Byte)} {c : Bool} {m : Memory} {l : Nat} (h : m.wf = true) : (touch ps c m l).wf = true := by
  simp only [touch]
  split
  · exact poisonLine_wf (bump_wf h)
  · split
    · exact clearLine_wf (bump_wf h)
    · exact bump_wf h

theorem foldl_touch_wf {ps : List (Nat × List Byte)} {c : Bool} : ∀ {ls : List Nat} {m : Memory}, m.wf = true → (ls.foldl (touch ps c) m).wf = true
  | [], _, h => h
  | _ :: ls, _, h => foldl_touch_wf (ls := ls) (touch_wf h)

/-- A store keeps the canonical form. -/
theorem store_wf {m : Memory} {ps : List (Nat × List Byte)} {c : Bool} (h : m.wf = true) : (m.store ps c).wf = true :=
  foldl_touch_wf (putAll_wf h)

theorem storeNat_wf {m : Memory} {a n x : Nat} (h : m.wf = true) : (m.storeNat a n x).wf = true := store_wf h

/-- Marks of cairn words taken away. -/
theorem filterCairn_wf {m : Memory} {p : Nat → Bool} (h : m.wf = true) : ({ m with cairnPoison := m.cairnPoison.filter p } : Memory).wf = true := by
  rw [wf_iff] at *
  obtain ⟨h1, h2, h3, h4, h5, h6⟩ := h
  exact ⟨h1, h2, h3, h4, h5, rising_filter h6⟩

/-- Marks of cairn words put. -/
theorem putCairn_wf {m : Memory} {xs : List Nat} (h : m.wf = true) : ({ m with cairnPoison := xs.foldl setPut m.cairnPoison } : Memory).wf = true := by
  rw [wf_iff] at *
  obtain ⟨h1, h2, h3, h4, h5, h6⟩ := h
  exact ⟨h1, h2, h3, h4, h5, rising_foldl_setPut h6⟩

theorem empty_wf : (⟨[], [], [], []⟩ : Memory).wf = true := rfl

/-! ### Reading what was written -/

/-- A byte that was put reads as it was put. -/
theorem byte_put_same {m : Memory} {a : Nat} {b : Byte} (h : m.wf = true) : (m.put a b).byte a = b :=
  assocGet_put_same (wf_iff.1 h).1

/-- Putting a byte leaves every other byte alone. -/
theorem byte_put_other {m : Memory} {a x : Nat} {b : Byte} (hx : x ≠ a) : (m.put a b).byte x = m.byte x :=
  assocGet_put_other hx _

/-- Writing bytes leaves every byte outside them alone. -/
theorem byte_putBytes_outside : ∀ {bs : List Byte} {m : Memory} {a x : Nat}, (x < a ∨ a + bs.length ≤ x) → (m.putBytes a bs).byte x = m.byte x
  | [], _, _, _, _ => rfl
  | b :: bs, m, a, x, h => by
    simp only [List.length_cons] at h
    rw [putBytes, byte_putBytes_outside (by omega), byte_put_other (by omega)]

/-- Byte `i` of the bytes written reads as it was written. -/
theorem byte_putBytes_inside : ∀ {bs : List Byte} {m : Memory} {a i : Nat}, m.wf = true → ∀ h : i < bs.length, (m.putBytes a bs).byte (a + i) = bs[i]
  | b :: bs, m, a, 0, hm, _ => by
    rw [putBytes, byte_putBytes_outside (by omega)]
    exact byte_put_same hm
  | b :: bs, m, a, i + 1, hm, h => by
    have ih := byte_putBytes_inside (bs := bs) (m := m.put a b) (a := a + 1) (i := i) (put_wf hm) (by simpa using h)
    rw [putBytes, show a + (i + 1) = a + 1 + i by omega, ih]
    rfl

@[simp] theorem byte_bump {m : Memory} {a x : Nat} : (m.bump a).byte x = m.byte x := rfl
@[simp] theorem byte_poisonLine {m : Memory} {a x : Nat} : (m.poisonLine a).byte x = m.byte x := rfl
@[simp] theorem byte_clearLine {m : Memory} {a x : Nat} : (m.clearLine a).byte x = m.byte x := rfl

theorem byte_touch {ps : List (Nat × List Byte)} {c : Bool} {m : Memory} {l x : Nat} : (touch ps c m l).byte x = m.byte x := by
  simp only [touch]
  split
  · rfl
  · split <;> rfl

theorem byte_foldl_touch {ps : List (Nat × List Byte)} {c : Bool} {x : Nat} : ∀ {ls : List Nat} {m : Memory}, (ls.foldl (touch ps c) m).byte x = m.byte x
  | [], _ => rfl
  | _ :: ls, _ => (byte_foldl_touch (ls := ls)).trans byte_touch

/-- A store changes the bytes that its pieces write and no others. -/
theorem byte_store {m : Memory} {ps : List (Nat × List Byte)} {c : Bool} {x : Nat} : (m.store ps c).byte x = (m.putAll ps).byte x := byte_foldl_touch

/-- A byte outside every piece is as before a store. -/
theorem byte_store_outside {ps : List (Nat × List Byte)} {c : Bool} {x : Nat} {m : Memory}
    (h : ∀ p ∈ ps, x < p.1 ∨ p.1 + p.2.length ≤ x) : (m.store ps c).byte x = m.byte x := by
  rw [byte_store]
  induction ps generalizing m with
  | nil => rfl
  | cons p ps ih =>
    have hp := h p (by simp)
    exact (ih (fun q hq => h q (by simp [hq]))).trans (byte_putBytes_outside hp)

/-- Byte `i` of a store of one piece reads as it was stored. -/
theorem byte_store_inside {m : Memory} {a i : Nat} {bs : List Byte} {c : Bool} (hm : m.wf = true) (h : i < bs.length) :
    (m.store [(a, bs)] c).byte (a + i) = bs[i] := by
  rw [byte_store]
  exact byte_putBytes_inside hm h

end Memory

end Sys2Proof.Machine
end

