-- ==== Sys2Proof/Laws/Traps.lean ====
section
/-! SUPPORT. Taking a trap: what a cause that goes to the handler does to the state (R324–R326). -/

namespace Sys2Proof.Machine

open Sys2Proof

/-! ### Little-endian numbers -/

theorem leBytes_length (n x : Nat) : (leBytes n x).length = n := by
  induction n generalizing x with
  | zero => rfl
  | succ n ih => simp [leBytes, ih]

theorem leNat_leBytes (n x : Nat) : leNat (leBytes n x) = x % 256 ^ n := by
  induction n generalizing x with
  | zero => simp [leBytes, leNat, Nat.mod_one]
  | succ n ih =>
    simp only [leBytes, leNat, ih, BitVec.toNat_ofNat]
    rw [show (256 : Nat) ^ (n + 1) = 256 * 256 ^ n from Nat.pow_succ', Nat.mod_mul]

/-- A number stored is the number read. -/
theorem Memory.nat_store {m : Memory} {a n x : Nat} {c : Bool} (h : m.wf = true) : (m.store [(a, leBytes n x)] c).nat a n = x % 256 ^ n := by
  have : (List.range n).map (fun i => (m.store [(a, leBytes n x)] c).byte (a + i)) = leBytes n x := by
    apply List.ext_getElem
    · simp [leBytes_length]
    · intro i h1 h2
      simp only [List.getElem_map, List.getElem_range]
      exact Memory.byte_store_inside h h2
  rw [Memory.nat, this, leNat_leBytes]

namespace State

theorem frameBits {s : State} {r : Raise} (hc : r.cause < 256) (hd : (s.grp r.grp).regions.length ≤ 8) :
    let f := s.frameOf r % 256 ^ 64
    let g := s.grp r.grp
    bitsOf f 0 8 = r.cause ∧ bitsOf f 8 1 = bit (!r.code && s.namesAway r.addr (s.colNum g.ctx g.col)) ∧ (r.async = false → bitsOf f 9 3 = 0) ∧
    bitsOf f 13 1 = bit (s.ctx g.ctx).expiry ∧ bitsOf f 14 1 = bit (g.image.slot (!r.slot)).isSome ∧ bitsOf f 16 1 = bit r.slot ∧
    bitsOf f 17 4 = g.regions.length ∧ bitsOf f 24 6 = r.lane % 64 ∧ bitsOf f 32 32 = r.pc.toNat % 2 ^ 32 ∧ bitsOf f 64 32 = r.insn % 2 ^ 32 ∧
    bitsOf f 96 18 = g.image.mode.toNat ∧ bitsOf f 114 5 = ccOf ((g.image.slot r.slot).getD Path.blank).flags ∧
    bitsOf f 128 64 = (r.addr.getD 0).toNat ∧ bitsOf f 192 64 = r.lanes.toNat ∧ bitsOf f 256 64 = r.detail % 2 ^ 64 ∧
    bitsOf f 320 64 = (vget SReg.zero g.image.s 62).val.toNat ∧ bitsOf f 384 64 = s.time % 2 ^ 64 := by
  intro f g
  have hb : ∀ b : Bool, bit b < 2 := by intro b; cases b <;> decide
  have h1 := hb (!r.code && s.namesAway r.addr (s.colNum g.ctx g.col))
  have h2 := hb r.async
  have h3 := hb (s.ctx g.ctx).expiry
  have h4 := hb (g.image.slot (!r.slot)).isSome
  have h5 := hb r.slot
  have h6 := g.image.mode.isLt
  have h7 : ccOf ((g.image.slot r.slot).getD Path.blank).flags < 32 := by
    have := fun b => hb b
    simp only [ccOf]
    have a1 := hb ((g.image.slot r.slot).getD Path.blank).flags.z
    have a2 := hb ((g.image.slot r.slot).getD Path.blank).flags.n
    have a3 := hb ((g.image.slot r.slot).getD Path.blank).flags.c
    have a4 := hb ((g.image.slot r.slot).getD Path.blank).flags.v
    have a5 := hb ((g.image.slot r.slot).getD Path.blank).flags.e
    omega
  have h8 := (r.addr.getD 0).isLt
  have h9 := r.lanes.isLt
  have h10 := (vget SReg.zero g.image.s 62).val.isLt
  have ha : r.async = false → bit r.async = 0 := fun h => by rw [h]; rfl
  simp only [f, frameOf, bitsOf]
  generalize bit (!r.code && s.namesAway r.addr (s.colNum g.ctx g.col)) = x1 at *
  generalize bit r.async = x2 at *
  generalize bit (s.ctx g.ctx).expiry = x3 at *
  generalize bit (g.image.slot (!r.slot)).isSome = x4 at *
  generalize bit r.slot = x5 at *
  generalize g.image.mode.toNat = x6 at *
  generalize ccOf ((g.image.slot r.slot).getD Path.blank).flags = x7 at *
  generalize (r.addr.getD 0).toNat = x8 at *
  generalize r.lanes.toNat = x9 at *
  generalize (vget SReg.zero g.image.s 62).val.toNat = x10 at *
  generalize g.regions.length = x11 at *
  generalize r.cause = x12 at *
  generalize r.pc.toNat = x13 at *
  generalize r.insn = x14 at *
  generalize r.detail = x15 at *
  generalize s.time = x16 at *
  generalize r.lane = x17 at *
  refine ⟨?_, ?_, fun h => ?_, ?_, ?_, ?_, ?_, ?_, ?_, ?_, ?_, ?_, ?_, ?_, ?_, ?_, ?_⟩
  case refine_3 => rw [ha h]; omega
  all_goals omega

/-- Where no late access satisfies `p`, performing those that do is nothing. -/
theorem settle_quiet {s : State} {p : Late → Bool} (h : s.noLate p = true) : s.settle p = s := by
  have e : (s.flight.filter fun f => match f.item with
      | .late l => p l
      | _ => false) = [] := by
    rw [List.filter_eq_nil_iff]
    intro f hf hp
    have := List.all_eq_true.1 h f hf
    cases hi : f.item <;> simp [hi] at hp this
    simp [this] at hp
  exact congrArg (List.foldl (fun s f => s.performLate f.id) s) e

theorem walkTable_congr {s t : State} (h1 : t.mem = s.mem) (h2 : t.ctxs = s.ctxs) (h3 : t.split = s.split) (c col off : Nat) :
    walkTable t c col off = walkTable s c col off := by
  cases s
  cases t
  simp only at h1 h2 h3
  subst h1 h2 h3
  rfl

/-- Touching a page changes the context's list of pages alone. -/
theorem touchAt_rest (s : State) (c col off : Nat) : s.touchAt c col off = { s with ctxs := (s.touchAt c col off).ctxs } := by
  simp only [touchAt]
  split <;> rfl

theorem touchAt_congr {s t : State} (h1 : t.mem = s.mem) (h2 : t.ctxs = s.ctxs) (h3 : t.split = s.split) (c col off : Nat) :
    (t.touchAt c col off).ctxs = (s.touchAt c col off).ctxs := by
  simp only [touchAt, walkTable_congr h1 h2 h3]
  split
  · simp only [touchPage, modCtx, h2]
  · exact h2

theorem walkNow_congr {s t : State} (h1 : t.mem = s.mem) (h2 : t.ctxs = s.ctxs) (h3 : t.split = s.split) (c col off kind : Nat) :
    walkNow t c col off kind = walkNow s c col off kind := by
  cases s
  cases t
  simp only at h1 h2 h3
  subst h1 h2 h3
  rfl

theorem namesAway_congr {s t : State} (h : t.dev = s.dev) (a : Option Word) (n : Nat) : t.namesAway a n = s.namesAway a n := by
  cases s
  cases t
  simp only at h
  subst h
  rfl

theorem ofCc_ccOf (f : Flags) : ofCc (ccOf f) = f := by
  obtain ⟨z, n, c, v, e⟩ := f
  cases z <;> cases n <;> cases c <;> cases v <;> cases e <;> rfl

theorem frameTrans_congr {s t : State} (h1 : t.mem = s.mem) (h2 : t.ctxs = s.ctxs) (h3 : t.split = s.split) (h4 : t.cols = s.cols) {x y : Group}
    (hx : y.ctx = x.ctx ∧ y.col = x.col ∧ y.core = x.core ∧ y.seg = x.seg ∧ y.frame = x.frame) (k : Nat) : t.frameTrans y k = s.frameTrans x k := by
  have hc : t.core x.col x.core = s.core x.col x.core := by simp only [core, col, h4]
  simp only [frameTrans, walkNow_congr h1 h2 h3, frameOff, hx, hc]

theorem noL1_l1Store (s : State) (c k : Nat) (ps : List (Nat × List Byte)) : (s.l1Store c k ps).cols.map Column.noL1 = s.cols.map Column.noL1 := by
  simp only [l1Store, modCore, modCol]
  apply List.ext_getElem
  · simp
  · intro i h1 h2
    simp only [List.getElem_map, List.getElem_modify]
    split
    · simp only [Column.noL1, vmod]
      split
      · congr 1
        apply Vector.ext
        intro j hj
        simp only [Vector.getElem_map, Vector.getElem_set]
        split
        · next h => subst h; rfl
        · rfl
      · rfl
    · rfl

/-- The group as a cause finds it at entry. -/
theorem enters_deliver {s : State} {r : Raise} {b : Bool} {h : Nat} (hh : s.Handles r.grp b h) (hs : r.slot = b) (ha : r.async = false)
    (hc : r.cause < 256) : s.Enters ((s.modGroup r.grp fun x => { x with walkFault := none }).deliver r) r.grp b h
      { cause := r.cause, detail := r.detail % 2 ^ 64, addr := r.addr.getD 0, remote := !r.code && s.namesAway r.addr (s.colNum (s.grp r.grp).ctx (s.grp r.grp).col),
        lane := r.lane % 64, lanes := r.lanes, insn := r.insn % 2 ^ 32, pc := r.pc } := by
  obtain ⟨agent, hg, hp, hb, hf, hq, hd, hm⟩ := hh
  subst hs
  generalize hgi : r.grp = gi at *
  have g1 : (s.modGroup gi fun x => { x with walkFault := none }).grp gi = { s.grp gi with walkFault := none } := grp_modGroup_same (f := fun x => { x with walkFault := none }) hg (fun _ => rfl)
  generalize hs1 : (s.modGroup gi fun x => { x with walkFault := none }) = s1 at *
  have hg1 : s1.hasGroup gi = true := by rw [← hs1]; exact (hasGroup_modGroup (f := fun x => { x with walkFault := none }) (fun _ => rfl)).trans hg
  generalize hs2 : (s1.noteCause (s.grp gi).launch r.cause).modGroup gi (fun x => { x with susp := .none, replay := none, waitFrom := none }) = s2
  have g2 : s2.grp gi = { s.grp gi with walkFault := none, susp := .none, replay := none, waitFrom := none } := by
    rw [← hs2]
    have hg' : (s1.noteCause (s.grp gi).launch r.cause).hasGroup gi = true := hg1
    refine (grp_modGroup_same (f := fun x => { x with susp := .none, replay := none, waitFrom := none }) hg' (fun _ => rfl)).trans ?_
    show ({ s1.grp gi with susp := .none, replay := none, waitFrom := none } : Group) = _
    rw [g1]
  have e1 : s1.deliver r = s2.enterTrap r := by
    simp only [deliver, hgi, g1, hp, Bool.false_eq_true, if_false, hs2]
  have m2 : s2.mem = s.mem := by rw [← hs2, ← hs1]; rfl
  have c2 : s2.ctxs = s.ctxs := by rw [← hs2, ← hs1]; rfl
  have p2 : s2.split = s.split := by rw [← hs2, ← hs1]; rfl
  have o2 : s2.cols = s.cols := by rw [← hs2, ← hs1]; rfl
  have d2 : s2.dev = s.dev := by rw [← hs2, ← hs1]; rfl
  have t2 : s2.time = s.time := by rw [← hs2, ← hs1]; rfl
  have y2 : s2.cycles = s.cycles := by rw [← hs2, ← hs1]; rfl
  have q2 : s2.flight = s.flight := by rw [← hs2, ← hs1]; rfl
  have f2 : s2.frameTrans (s2.grp gi) 1 = .ok h := by
    rw [frameTrans_congr m2 c2 p2 o2 (x := s.grp gi) (by rw [g2]; trivial)]
    simp only [frameHome] at hf
    split at hf
    · next e => rw [e]; simpa using hf
    · simp at hf
  have w2 : s2.writeFrame r h = ({ s2.touchAt (s.grp gi).ctx (s.grp gi).col (frameOff (s.grp gi)) with
      mem := s2.mem.store [(h, leBytes 64 (s2.frameOf r))] false } : State).l1Store (s.grp gi).col (s.grp gi).core [(h, leBytes 64 (s2.frameOf r))] := by
    have hn : s2.noLate (fun l => lateOf (s.grp gi).col (s.grp gi).core none l && meetPieces (latePieces l) [(h, 64)]) = true := by
      simp only [noLate, q2]; exact hq
    simp only [writeFrame, settleAt, hgi, g2, settle_quiet hn]
    generalize hv : s2.touchAt (s.grp gi).ctx (s.grp gi).col (frameOff (s.grp gi)) = v
    have hm : v.mem = s2.mem := by rw [← hv, touchAt_rest]
    show ({ s2.touchAt (s.grp gi).ctx (s.grp gi).col (frameOff (s.grp gi)) with mem := _ } : State).l1Store _ _ _ = _
    rw [hv, ← hm]
    exact congrArg (fun w : State => ({ v with mem := w.mem.store [(h, leBytes 64 (s2.frameOf r))] false } : State).l1Store
      (s.grp gi).col (s.grp gi).core [(h, leBytes 64 (s2.frameOf r))]) hv
  have e2 : s2.enterTrap r = (s2.writeFrame r h).modGroup gi (fun x => { x with
      privileged := true
      trapSlot := r.slot
      trapAt := s.cycles
      image := ({ x.image with
        s := vmod x.image.s 62 fun _ => ⟨BitVec.ofNat 64 (0xFFFF * 2 ^ 48 + frameOff x), true, none⟩
        mode := 0 }).modSlot r.slot fun p => { p with pc := x.trapbase, prog := .start } }) := by
    have hb2 : ¬ (s2.grp gi).trapbase = 0 := by rw [g2]; exact hb
    have hy : (s2.writeFrame r h).cycles = s.cycles := by rw [w2, touchAt_rest]; exact y2
    simp only [enterTrap, hgi, f2, if_neg hb2, hy]
  rw [e1, e2]
  have hfr : (s2.writeFrame r h).mem = s.mem.store [(h, leBytes 64 (s2.frameOf r))] false := by rw [w2, ← m2]; rfl
  generalize hfin : (s2.writeFrame r h).modGroup gi _ = fin
  have hmem : fin.mem = s.mem.store [(h, leBytes 64 (s2.frameOf r))] false := by rw [← hfin, ← hfr]; rfl
  have hn : fin.mem.nat h 64 = s2.frameOf r % 256 ^ 64 := by rw [hmem]; exact Memory.nat_store hm
  have hd2 : (s2.grp r.grp).regions.length ≤ 8 := by rw [hgi, g2]; exact hd
  have fb := frameBits (s := s2) (r := r) hc hd2
  simp only [hgi, g2] at fb
  have ectx : s2.ctx (s.grp gi).ctx = s.ctx (s.grp gi).ctx := by simp only [ctx, c2]
  have eaway : s2.namesAway r.addr (s2.colNum (s.grp gi).ctx (s.grp gi).col) = s.namesAway r.addr (s.colNum (s.grp gi).ctx (s.grp gi).col) := by
    have : s2.colNum (s.grp gi).ctx (s.grp gi).col = s.colNum (s.grp gi).ctx (s.grp gi).col := by simp only [colNum, part, ectx, p2]
    rw [this]
    exact namesAway_congr d2 _ _
  rw [ectx, eaway, t2] at fb
  obtain ⟨f1, f2, f3, f4, f5, f6, f7, f8, f9, f10, f11, f12, f13, f14, f15, f16, f17⟩ := fb
  have hcur := agent
  constructor
  · rw [hn]; exact f1
  · rw [hn]; exact f2
  · rw [hn]; exact f3 ha
  · rw [hn]; exact f4
  · rw [hn]; exact f5
  · rw [hn]; exact f6
  · rw [hn]; exact f7
  · rw [hn]; exact f8
  · rw [hn]; exact f9
  · rw [hn]; exact f10
  · rw [hn]; exact f11
  · rw [hn, f12]
    simp only [flags, hcur, myPath, me_slot hcur, curSlot]
    exact ofCc_ccOf _
  · rw [hn]; exact f13
  · rw [hn]; exact f14
  · rw [hn]; exact f15
  · rw [hn, f16]
    simp only [sval, sreg, hcur]
    rfl
  · rw [hn]; exact f17
  · intro a hx
    rw [hmem]
    exact Memory.byte_store_outside (by simpa [leBytes_length] using hx)
  · rw [← hfin]
    have hw : (s2.writeFrame r h).groups = s2.groups := by rw [w2, touchAt_rest]; rfl
    simp only [modGroup, hw]
    rw [← hs2, ← hs1]
    simp only [modGroup, noteCause, modLaunch, List.map_map]
    apply List.map_congr_left
    intro x _
    simp only [Function.comp]
    by_cases hx : x.id = gi
    · rw [if_pos hx, if_pos hx, if_pos hx, if_pos hx]
      rfl
    · simp only [hx, if_false]
  · rw [← hfin]
    have hw : (s2.writeFrame r h).launches = s2.launches := by rw [w2, touchAt_rest]; rfl
    refine hw.trans ?_
    rw [← hs2, ← hs1]
    rfl
  · rw [← hfin]
    show (s2.writeFrame r h).cols.map _ = _
    rw [w2, noL1_l1Store, touchAt_rest]
    exact congrArg _ o2
  · rw [← hfin]
    show (s2.writeFrame r h).ctxs = _
    rw [w2]
    exact touchAt_congr m2 c2 p2 _ _ _
  · rw [← hfin]
    have hw : ({ s2.writeFrame r h with mem := s.mem, ctxs := s.ctxs, groups := s.groups, launches := s.launches, cols := s.cols } : State) =
        { s2 with mem := s.mem, ctxs := s.ctxs, groups := s.groups, launches := s.launches, cols := s.cols } := by rw [w2, touchAt_rest]; rfl
    refine (congrArg (fun u : State => { u with groups := s.groups, held := s.held, issues := s.issues }) hw).trans ?_
    rw [← hs2, ← hs1]
    rfl

theorem enters_changed {s t : State} {g h : Nat} {b : Bool} {r : Cause} (e : s.Enters t g b h r) : s.Enters t.changed g b h r := by
  cases e
  constructor <;> assumption

/-- A cause for the handler, raised by an instruction of a group (R324–R326). -/
theorem enters_fail {s : State} {i : Instr} {f : Form} {t : Trap} {g h : Nat} {b : Bool} (hh : s.Handles g b h) (hc : t.cause < 256)
    (hn : t.cause ≠ 0xB0 ∧ t.cause ≠ 0xB1 ∧ t.cause ≠ 0xFF) (hd : t.detail < 2 ^ 64) (hl : t.lane < 64) :
    s.Enters (s.fail i f t) g b h
      { cause := t.cause, detail := t.detail, addr := t.addr.getD 0, remote := !t.code && s.namesAway t.addr (s.colNum (s.grp g).ctx (s.grp g).col),
        lane := t.lane, lanes := if f.guarded then s.active else s.slotMask, insn := insnWord i % 2 ^ 32, pc := if t.next then s.pc + 4 else s.pc } := by
  have e := enters_deliver (r := ⟨g, b, t.cause, t.detail, t.addr, t.lane, if f.guarded then s.active else s.slotMask, insnWord i,
    if t.next then s.pc + 4 else s.pc, false, t.code⟩) hh rfl rfl hc
  simp only [Nat.mod_eq_of_lt hd, Nat.mod_eq_of_lt hl] at e
  simp only [fail, hh.agent, hn.2.2, if_false, raise, hn.1, hn.2.1, decide_false, Bool.or_self, Bool.false_eq_true]
  exact enters_changed e

/-- A recovery cause of a group with no open region goes to the handler (R352). -/
theorem enters_fail_clean {s : State} {i : Instr} {f : Form} {t : Trap} {g h : Nat} {b : Bool} (hh : s.Handles g b h) (hr : (s.grp g).regions = [])
    (hc : t.cause < 256) (hn : t.cause ≠ 0xFF) (hd : t.detail < 2 ^ 64) (hl : t.lane < 64) :
    s.Enters (s.fail i f t) g b h
      { cause := t.cause, detail := t.detail, addr := t.addr.getD 0, remote := !t.code && s.namesAway t.addr (s.colNum (s.grp g).ctx (s.grp g).col),
        lane := t.lane, lanes := if f.guarded then s.active else s.slotMask, insn := insnWord i % 2 ^ 32, pc := if t.next then s.pc + 4 else s.pc } := by
  have e := enters_deliver (r := ⟨g, b, t.cause, t.detail, t.addr, t.lane, if f.guarded then s.active else s.slotMask, insnWord i,
    if t.next then s.pc + 4 else s.pc, false, t.code⟩) hh rfl rfl hc
  simp only [Nat.mod_eq_of_lt hd, Nat.mod_eq_of_lt hl] at e
  have g1 : (s.modGroup g fun x => { x with walkFault := none }).grp g = { s.grp g with walkFault := none } :=
    grp_modGroup_same (f := fun x => { x with walkFault := none }) hh.there (fun _ => rfl)
  simp only [fail, hh.agent, hn, raise, recover, g1, hh.plain, hr, Bool.false_eq_true, ite_self]
  exact enters_changed e

/-- A trap of the instruction's own effect. -/
theorem body_trap {s : State} {i : Instr} {f : Form} {body : State → Eff State} {t : Trap} {g h : Nat} {b : Bool} (hp : s.Passes f) (hh : s.Handles g b h)
    (hb : body s.advance = .error (.trap t)) (hc : t.cause < 256) (hn : t.cause ≠ 0xB0 ∧ t.cause ≠ 0xB1 ∧ t.cause ≠ 0xFF) (hd : t.detail < 2 ^ 64) (hl : t.lane < 64) :
    ∃ u, s.issue i f body = .next u ∧ s.Enters u g b h
      { cause := t.cause, detail := t.detail, addr := t.addr.getD 0, remote := !t.code && s.namesAway t.addr (s.colNum (s.grp g).ctx (s.grp g).col),
        lane := t.lane, lanes := if f.guarded then s.active else s.slotMask, insn := insnWord i % 2 ^ 32, pc := if t.next then s.pc + 4 else s.pc } :=
  ⟨_, issue_trap hp.ready hp.engine hp.priv hp.legal hp.good hb, enters_fail hh hc hn hd hl⟩

/-- A decode check. -/
theorem refused_trap {s : State} {i : Instr} {f : Form} {body : State → Eff State} {t : Trap} {g h : Nat} {b : Bool} (hr : s.Ready) (hh : s.Handles g b h)
    (hdc : s.decodeRefuses f = some t) (hc : t.cause < 256) (hn : t.cause ≠ 0xB0 ∧ t.cause ≠ 0xB1 ∧ t.cause ≠ 0xFF) (hd : t.detail < 2 ^ 64) (hl : t.lane < 64) :
    ∃ u, s.issue i f body = .next u ∧ s.Enters u g b h
      { cause := t.cause, detail := t.detail, addr := t.addr.getD 0, remote := !t.code && s.namesAway t.addr (s.colNum (s.grp g).ctx (s.grp g).col),
        lane := t.lane, lanes := if f.guarded then s.active else s.slotMask, insn := insnWord i % 2 ^ 32, pc := if t.next then s.pc + 4 else s.pc } :=
  ⟨_, issue_refused hr.issues hdc, enters_fail hh hc hn hd hl⟩

/-- An instruction that is held (R122): its agent waits at it with what it has done so far. -/
theorem holdAt_slot {s u : State} {g : Nat} {b : Bool} (hc : u.cur = .slot g b) (hl : u.Live) :
    (s.holdAt u).pc = s.pc ∧ (s.holdAt u).held.contains (.slot g b) = true ∧ Kept {} u (s.holdAt u) ∧ (s.holdAt u).prog = u.prog := by
  have m1 : Moves {} u (u.setPc s.pc) := moves_setPc hl _
  have prg : ∀ v w : State, v.cur = .slot g b → w.cur = .slot g b → (∀ x, (v.grp g).image.slot b = some x → ∃ y, (w.grp g).image.slot b = some y ∧ y.prog = x.prog) →
      ((v.grp g).image.slot b = none → (w.grp g).image.slot b = none) → w.prog = v.prog := by
    intro v w hv hw h1 h2
    simp only [prog, hv, hw, myPath, me_slot hv, me_slot hw, curSlot]
    cases h : (v.grp g).image.slot b with
    | none => rw [h2 h]
    | some x => obtain ⟨y, hy, e⟩ := h1 x h; rw [hy]; exact e
  have hgs : u.hasGroup g = true := by simp only [Live, hc] at hl; exact hl.1
  have hp1 : (u.setPc s.pc).prog = u.prog := by
    have hcs : (u.setPc s.pc).cur = .slot g b := m1.agent.trans hc
    have e : u.setPc s.pc = u.modGroup g fun x => { x with image := x.image.modSlot b fun p => { p with pc := s.pc } } := by
      simp only [setPc, hc, modMyPath_slot hc]
    refine prg u (u.setPc s.pc) hc hcs (fun x hx => ?_) (fun hx => ?_) <;>
      rw [e, grp_modGroup_same (f := fun x => { x with image := x.image.modSlot b fun p => { p with pc := s.pc } }) hgs (fun _ => rfl), Image.modSlot_slot, hx]
    · exact ⟨_, rfl, rfl⟩
    · rfl
  generalize hu : ({ (u.setPc s.pc) with held := if u.held.contains u.cur then u.held else u.cur :: u.held } : State) = w
  have hcw : w.cur = .slot g b := by rw [← hu]; exact m1.agent.trans hc
  have k1 : Kept {} u w := by
    refine m1.toKept.trans ?_
    rw [← hu]
    generalize u.setPc s.pc = v
    refine { Kept.refl {} v with world := ?_ }
    simp only [world]
    split <;> rfl
  have hlw : w.Live := by rw [← hu]; exact m1.live hl
  have hheld : w.held.contains (.slot g b) = true := by
    rw [← hu]
    show (if u.held.contains u.cur then u.held else u.cur :: u.held).contains (.slot g b) = true
    rw [hc]; split
    · assumption
    · simp
  have hpw : w.pc = s.pc := by
    have : w.pc = (u.setPc s.pc).pc := by rw [← hu]; rfl
    rw [this, pc_setPc hl]
  have hp2 : w.prog = u.prog := by
    have : w.prog = (u.setPc s.pc).prog := by rw [← hu]; rfl
    rw [this, hp1]
  have hgw : w.hasGroup g = true := by simp only [Live, hcw] at hlw; exact hlw.1
  have m2 : Moves {} w (w.modMyPath fun p => { p with waitFrom := some (p.waitFrom.getD w.cycles) }) := moves_modMyPath hcw hgw (fun _ => rfl) (fun _ => rfl) (fun _ _ => rfl)
  generalize hv : (w.modMyPath fun p => { p with waitFrom := some (p.waitFrom.getD w.cycles) }) = v at m2
  have hcv : v.cur = .slot g b := m2.agent.trans hcw
  have hgv : v.hasGroup g = true := by have := m2.live hlw; simp only [Live, hcv] at this; exact this.1
  have hsv : (v.grp g).image.slot b = ((w.grp g).image.slot b).map fun p => { p with waitFrom := some (p.waitFrom.getD w.cycles) } := by
    rw [← hv, modMyPath_slot hcw, grp_modGroup_same (f := fun x => { x with image := x.image.modSlot b fun p => { p with waitFrom := some (p.waitFrom.getD w.cycles) } }) hgw (fun _ => rfl), Image.modSlot_slot]
  have hpv : v.pc = w.pc := by
    rw [pc_slot hcv, pc_slot hcw, hsv]
    cases (w.grp g).image.slot b <;> rfl
  have hp3 : v.prog = w.prog := prg w v hcw hcv (fun x hx => by rw [hsv, hx]; exact ⟨_, rfl, rfl⟩) (fun hx => by rw [hsv, hx]; rfl)
  have hhv : v.held = w.held := by rw [← hv, modMyPath_slot hcw]; rfl
  have e : s.holdAt u = v ∨ ∃ W : Group → Option Nat, s.holdAt u = v.modGroup g fun y => { y with waitFrom := W y } := by
    unfold holdAt
    rw [hu]
    simp only [hcw]
    rw [hv]
    repeat' split
    · exact .inr ⟨_, rfl⟩
    · exact .inr ⟨_, rfl⟩
    · exact .inl rfl
  rcases e with e | ⟨W, e⟩ <;> rw [e]
  · exact ⟨hpv.trans hpw, by rw [hhv]; exact hheld, k1.trans m2.toKept, hp3.trans hp2⟩
  · have m3 : Moves {} v (v.modGroup g fun y => { y with waitFrom := W y }) :=
      Moves.of_modGroup hcv hgv (fun _ => rfl) (fun _ => rfl) { GroupKept.refl {} b _ with } rfl
    have hcm : (v.modGroup g fun y => { y with waitFrom := W y }).cur = .slot g b := hcv
    have hgm : (v.modGroup g fun y => { y with waitFrom := W y }).grp g = { v.grp g with waitFrom := W (v.grp g) } :=
      grp_modGroup_same (f := fun y => { y with waitFrom := W y }) hgv (fun _ => rfl)
    refine ⟨?_, ?_, (k1.trans m2.toKept).trans m3.toKept, ?_⟩
    · rw [← hpw, ← hpv, pc_slot hcv, pc_slot hcm, hgm]
    · show v.held.contains _ = true
      rw [hhv]; exact hheld
    · rw [← hp2, ← hp3]
      exact prg v _ hcv hcm (fun x hx => by rw [hgm]; exact ⟨x, hx, rfl⟩) (fun hx => by rw [hgm]; exact hx)

/-- One that is held before it has done anything. -/
theorem kept_pc_holdAt {s : State} {g : Nat} {b : Bool} (hc : s.cur = .slot g b) (hl : s.Live) :
    (s.holdAt s).pc = s.pc ∧ (s.holdAt s).held.contains (.slot g b) = true ∧ Kept {} s (s.holdAt s) :=
  have h := holdAt_slot (s := s) hc hl
  ⟨h.1, h.2.1, h.2.2.1⟩

end State

end Sys2Proof.Machine
end

