-- ==== Sys2Proof/Laws/Loads.lean ====
section
/-! SUPPORT. What loads read: bytes of numbers, lists that rise, the L1 cache as it fills. -/

namespace Sys2Proof.Machine

open Sys2Proof

theorem leNat_cons (b : Byte) (l : List Byte) : leNat (b :: l) = b.toNat + 256 * leNat l := rfl

theorem bitsOf_leNat : ∀ (l : List Byte) (i : Nat), i < l.length → bitsOf (leNat l) (8 * i) 8 = (l.getD i 0).toNat
  | [], i, h => by simp at h
  | b :: l, 0, _ => by
    have hb := b.isLt
    simp only [leNat_cons, bitsOf, List.getD, List.getElem?_cons_zero, Option.getD_some, Nat.mul_zero, Nat.pow_zero, Nat.div_one]
    omega
  | b :: l, i + 1, h => by
    have ih := bitsOf_leNat l i (by simpa using h)
    simp only [bitsOf, List.getD, List.getElem?_cons_succ] at ih ⊢
    rw [← ih, leNat_cons, show 8 * (i + 1) = 8 + 8 * i by omega, Nat.pow_add, ← Nat.div_div_eq_div_mul]
    have hb := b.isLt
    rw [show (b.toNat + 256 * leNat l) / 2 ^ 8 = leNat l by omega]

theorem leNat_lt : ∀ l : List Byte, leNat l < 2 ^ (8 * l.length)
  | [] => by simp [leNat]
  | b :: l => by
    have ih := leNat_lt l
    have hb := b.isLt
    rw [leNat_cons, List.length_cons, show 8 * (l.length + 1) = 8 + 8 * l.length by omega, Nat.pow_add]
    generalize 2 ^ (8 * l.length) = z at *
    omega

/-- Byte `i` of a list that reads pieces one after another. -/
theorem getD_pieces {f : Nat → Byte} : ∀ (ps : List (Nat × Nat)) (i : Nat), i < (ps.map (·.2)).sum →
    (ps.flatMap fun p => (List.range p.2).map fun j => f (p.1 + j)).getD i 0 = f (homeByte ps i)
  | [], i, h => by simp at h
  | p :: ps, i, h => by
    simp only [List.flatMap_cons, homeByte]
    by_cases hi : i < p.2
    · simp [List.getD, List.getElem?_append, hi]
    · have ih := getD_pieces (f := f) ps (i - p.2) (by simp only [List.map_cons, List.sum_cons] at h; omega)
      rw [if_neg hi, ← ih]
      simp only [List.getD, List.getElem?_append, List.length_map, List.length_range, hi, if_false]

theorem length_pieces {f : Nat → Byte} (ps : List (Nat × Nat)) :
    (ps.flatMap fun p => (List.range p.2).map fun j => f (p.1 + j)).length = (ps.map (·.2)).sum := by
  induction ps with
  | nil => rfl
  | cons p ps ih => simp [ih]

theorem mem_setPut {l : List Nat} {a x : Nat} : x ∈ setPut l a ↔ x = a ∨ x ∈ l := by
  induction l with
  | nil => simp [setPut]
  | cons k r ih =>
    simp only [setPut]
    split
    · simp
    · split
      · next h => subst h; simp
      · rw [List.mem_cons, ih, List.mem_cons, or_left_comm]

theorem mem_foldl_setPut {x : Nat} : ∀ {xs l : List Nat}, x ∈ xs.foldl setPut l ↔ x ∈ xs ∨ x ∈ l
  | [], l => by simp
  | a :: xs, l => by
    rw [List.foldl_cons, mem_foldl_setPut, mem_setPut, List.mem_cons, or_assoc, or_left_comm]

/-- The first of a list that rises lies below the others. -/
theorem risingFrom_lt {m z : Nat} {l : List Nat} (hl : risingFrom m l = true) (hz : z ∈ l) : m < z := by
  induction l generalizing m with
  | nil => simp at hz
  | cons k r ih =>
    simp only [risingFrom, Bool.and_eq_true, decide_eq_true_eq] at hl
    cases hz with
    | head => exact hl.1
    | tail _ hz => exact Nat.lt_trans hl.1 (ih hl.2 hz)

/-- Lists that rise strictly are equal where they have the same members. -/
theorem rising_ext {a b : List Nat} (ha : rising a = true) (hb : rising b = true) (h : ∀ x, x ∈ a ↔ x ∈ b) : a = b := by
  induction a generalizing b with
  | nil => exact (List.eq_nil_iff_forall_not_mem.2 fun x hx => List.not_mem_nil ((h x).2 hx)).symm
  | cons m a ih =>
    cases b with
    | nil => exact absurd ((h m).1 List.mem_cons_self) List.not_mem_nil
    | cons k b =>
      have low : ∀ {u w : Nat} {l : List Nat}, rising (u :: l) = true → w ∈ u :: l → u ≤ w := fun hl hw => by
        cases hw with
        | head => exact Nat.le_refl _
        | tail _ hw => exact Nat.le_of_lt (risingFrom_lt hl hw)
      have hmk : m = k := Nat.le_antisymm (low ha ((h k).2 List.mem_cons_self)) (low hb ((h m).1 List.mem_cons_self))
      subst hmk
      have tail : ∀ {l l' : List Nat}, rising (m :: l) = true → (∀ x, x ∈ m :: l → x ∈ m :: l') → ∀ x ∈ l, x ∈ l' := fun hl hs x hx =>
        (List.mem_cons.1 (hs x (List.mem_cons_of_mem _ hx))).resolve_left fun e => absurd (risingFrom_lt hl hx : m < x) (by omega)
      rw [ih (rising_of_risingFrom ha) (rising_of_risingFrom hb) fun x => ⟨tail ha (fun y => (h y).1) x, tail hb (fun y => (h y).2) x⟩]

theorem rising_range' (n : Nat) : ∀ k, rising (List.range' k n) = true := by
  have : ∀ n k m, m < k → risingFrom m (List.range' k n) = true := by
    intro n
    induction n with
    | zero => intro _ _ _; rfl
    | succ n ih => intro k m h; simp only [List.range'_succ, risingFrom, h, ih (k + 1) k (by omega), decide_true, Bool.and_self]
  intro k
  cases n with
  | zero => rfl
  | succ n => simp only [List.range'_succ, rising]; exact this n (k + 1) k (by omega)

theorem rising_lanes (s : State) : rising s.lanes = true := by
  rw [State.lanes, State.lanesIn, List.range_eq_range']
  exact rising_filter (rising_range' _ 0)

namespace State

/-! ### Reading through the L1 -/

/-- Lines that came into the L1 of a core from memory, and nothing else. -/
structure Filled (col core : Nat) (inv : Bool) (s u : State) : Prop where
  rest : { u with cols := s.cols } = s
  cols : u.cols.map Column.noL1 = s.cols.map Column.noL1
  lines : ∀ line l, l1Find (u.core col core) line inv = some l → l1Find (s.core col core) line inv = some l ∨ l = s.homeLine line inv

theorem Filled.refl (col core : Nat) (inv : Bool) (s : State) : Filled col core inv s s := ⟨rfl, rfl, fun _ _ h => .inl h⟩

theorem Filled.mem {col core : Nat} {inv : Bool} {s u : State} (h : Filled col core inv s u) : u.mem = s.mem := by
  have := congrArg State.mem h.rest
  exact this

theorem Filled.trans {col core : Nat} {inv : Bool} {s t u : State} (h : Filled col core inv s t) (k : Filled col core inv t u) : Filled col core inv s u := by
  refine ⟨?_, k.cols.trans h.cols, fun line l hl => ?_⟩
  · have h1 := h.rest
    rw [← k.rest] at h1
    exact h1
  · rcases k.lines line l hl with h1 | h1
    · exact h.lines line l h1
    · right; rw [h1, homeLine, h.mem]; rfl

theorem find_take {α : Type} (p : α → Bool) {n : Nat} {l : List α} {x : α} (h : (l.take n).find? p = some x) : l.find? p = some x := by
  rw [← List.take_append_drop n l, List.find?_append, h]; rfl

theorem noL1_modCore (s : State) (col core : Nat) (f : List L1Line → List L1Line) :
    (s.modCore col core fun k => { k with l1 := f k.l1 }).cols.map Column.noL1 = s.cols.map Column.noL1 := by
  simp only [modCore, modCol]
  apply List.ext_getElem
  · simp
  · intro i h1 h2
    simp only [List.getElem_map, List.getElem_modify]
    split
    · next hi =>
      simp only [Column.noL1, vmod]
      split
      · next hk =>
        have : ∀ v : Vector Core 4, (v.set core { v[core] with l1 := f v[core].l1 } hk).map (fun k : Core => { k with l1 := [] }) = v.map fun k => { k with l1 := [] } := by
          intro v
          apply Vector.ext
          intro j hj
          simp only [Vector.getElem_map, Vector.getElem_set]
          split
          · next e => subst e; rfl
          · rfl
        simp only [this]
      · rfl
    · rfl

theorem core_modCore {s : State} {c k : Nat} {f : Core → Core} : (s.modCore c k f).core c k = s.core c k ∨ (s.modCore c k f).core c k = f (s.core c k) := by
  simp only [core, modCore, modCol, col, List.getD, List.getElem?_modify]
  cases h : s.cols[c]? with
  | none => left; rfl
  | some x =>
    simp only [if_true, Option.getD_some, vmod, vget]
    split
    · right; simp
    · left; rfl

theorem filled_l1Fill (s : State) (col core line : Nat) (inv : Bool) : Filled col core inv s (s.l1Fill col core line inv) := by
  simp only [l1Fill, l1Put]
  split
  · exact .refl ..
  · refine ⟨rfl, noL1_modCore s col core (fun l => (s.homeLine line inv :: l).take Config.l1Lines), fun ln l hl => ?_⟩
    rcases core_modCore (s := s) (c := col) (k := core) (f := fun k => { k with l1 := (s.homeLine line inv :: k.l1).take Config.l1Lines }) with e | e
    · rw [e] at hl; exact .inl hl
    · rw [e] at hl
      have := find_take _ hl
      simp only [List.find?_cons] at this
      split at this
      · next hm =>
        right
        have hm : line = ln := by simp only [Bool.and_eq_true, decide_eq_true_eq] at hm; exact hm.1
        injection this with this
        rw [← this, hm]
      · exact .inl this

theorem filled_fold (col core : Nat) (inv : Bool) : ∀ (ls : List Nat) (u : State), Filled col core inv u (ls.foldl (fun s l => s.l1Fill col core l inv) u)
  | [], _ => .refl ..
  | l :: ls, u => (filled_l1Fill u col core l inv).trans (filled_fold col core inv ls _)

theorem sees_filled {col core : Nat} {inv : Bool} {s u : State} (h : Filled col core inv s u) (a : Nat) :
    u.l1Byte col core a inv = s.mem.byte a ∨ u.l1Byte col core a inv = s.l1Byte col core a inv := by
  simp only [l1Byte]
  cases hu : l1Find (u.core col core) (lineOf a) inv with
  | none => left; simp only [h.mem]
  | some l =>
    rcases h.lines _ _ hu with h1 | h1
    · right; simp only [h1]
    · left
      have h2 : lineOf a ≤ a := Nat.div_mul_le_self _ _
      have h3 : a - lineOf a < 128 := by have := Nat.lt_div_mul_add (a := a) (b := 128) (by omega); simp only [lineOf]; omega
      simp only [h1, homeLine, Memory.bytes, List.getD, List.getElem?_map, List.getElem?_range h3, Option.map_some, Option.getD_some]
      rw [Nat.add_sub_cancel' h2]

/-- What fills lines leaves the agent's own stores that are still to be performed as they were. -/
theorem Filled.flight {col core : Nat} {inv : Bool} {s u : State} (h : Filled col core inv s u) : u.flight = s.flight ∧ u.nextId = s.nextId := by
  have h1 := congrArg State.flight h.rest
  have h2 := congrArg State.nextId h.rest
  exact ⟨h1, h2⟩

theorem lateByte_congr {s u : State} (h : u.flight = s.flight) (col core : Nat) (thr : Option Nat) (n a : Nat) :
    u.lateByte col core thr n a = s.lateByte col core thr n a := by simp only [lateByte, h]

/-- A load sees the same where memory, caches and what is in progress are the same. -/
theorem SeesAt.congr {s u : State} {col core n : Nat} {inv : Bool} {a x : Nat} (h : u.SeesAt col core n inv a x) (hf : u.flight = s.flight) (hm : u.mem = s.mem)
    (hc : u.cols = s.cols) : s.SeesAt col core n inv a x := by
  have h1 : u.l1Byte col core a inv = s.l1Byte col core a inv := by simp only [l1Byte, State.core, State.col, hc, hm]
  simpa only [SeesAt, lateByte_congr hf, hm, h1] using h

theorem sees_coreByte {col core n : Nat} {inv : Bool} {s u : State} (h : Filled col core inv s u) (a : Nat) : s.SeesAt col core n inv a (u.coreByte col core n a inv).toNat := by
  simp only [SeesAt, coreByte, lateByte_congr h.flight.1]
  split
  · next e => simp only [e, Option.getD_some]
  · next e =>
    simp only [e, Option.getD_none]
    exact (sees_filled h a).imp (congrArg _) (congrArg _)

theorem poisoned_filled {col core : Nat} {inv : Bool} {s u : State} (h : Filled col core inv s u) (a : Nat) :
    u.l1Poisoned col core a inv = s.mem.isPoisoned a ∨ u.l1Poisoned col core a inv = s.l1Poisoned col core a inv := by
  simp only [l1Poisoned]
  cases hu : l1Find (u.core col core) (lineOf a) inv with
  | none => left; simp only [h.mem]
  | some l =>
    rcases h.lines _ _ hu with h1 | h1
    · right; simp only [h1]
    · left
      simp only [h1, homeLine, Memory.isPoisoned]
      congr 1
      simp [lineOf]

end State
end Sys2Proof.Machine
end

