-- ==== Sys2Proof/Laws/Gather.lean ====
section
/-! SUPPORT. What a load of several accesses brings: the pieces in their lanes and elements (R157, R159). -/

namespace Sys2Proof.Machine

open Sys2Proof

namespace State

theorem translateSpan_sum {s : State} {off n kind lane : Nat} {addr : Option Word} {ps : List (Nat × Nat)} (h : s.translateSpan off n kind addr lane = .ok ps) :
    (ps.map (·.2)).sum = n := by
  simp only [translateSpan, bind, Except.bind] at h
  split at h
  · cases h
  · split at h
    · cases h; simp
    · split at h
      · cases h
      · cases h; simp; omega

/-- What a read of pieces brings, by the bytes of the state before. -/
structure Brought (s : State) (col core : Nat) (inv : Bool) (ps : List (Nat × Nat)) (n val : Nat) (p : Option Poison) : Prop where
  lt : val < 2 ^ (8 * n)
  bytes : ∀ i < n, s.SeesAt col core s.nextId inv (homeByte ps i) (bitsOf val (8 * i) 8)
  mark : p = none ∨ p = some .line
  clean : (∀ i < n, s.mem.isPoisoned (homeByte ps i) = false ∧ s.l1Poisoned col core (homeByte ps i) inv = false) → p = none
  marked : (∃ i < n, s.mem.isPoisoned (homeByte ps i) = true ∧ s.l1Poisoned col core (homeByte ps i) inv = true) → p = some .line

theorem homeByte_mem : ∀ (ps : List (Nat × Nat)) (i : Nat), i < (ps.map (·.2)).sum → ∃ p ∈ ps, ∃ j < p.2, homeByte ps i = p.1 + j
  | [], i, h => by simp at h
  | p :: ps, i, h => by
    simp only [homeByte]
    by_cases hi : i < p.2
    · exact ⟨p, by simp, i, hi, by simp [hi]⟩
    · obtain ⟨q, h1, j, h2, h3⟩ := homeByte_mem ps (i - p.2) (by simp only [List.map_cons, List.sum_cons] at h; omega)
      exact ⟨q, by simp [h1], j, h2, by simp [hi, h3]⟩

theorem mem_homeByte : ∀ (ps : List (Nat × Nat)), ∀ p ∈ ps, ∀ j < p.2, ∃ i < (ps.map (·.2)).sum, homeByte ps i = p.1 + j
  | [], p, hp, _, _ => by simp at hp
  | q :: ps, p, hp, j, hj => by
    rcases List.mem_cons.1 hp with rfl | hp
    · exact ⟨j, by simp; omega, by simp [homeByte, hj]⟩
    · obtain ⟨i, h1, h2⟩ := mem_homeByte ps p hp j hj
      refine ⟨q.2 + i, by simp; omega, ?_⟩
      simp only [homeByte]
      rw [if_neg (by omega), Nat.add_sub_cancel_left, h2]

theorem mem_spanLines {a n x : Nat} : x ∈ Memory.spanLines a n ↔ ∃ j < n, x = lineOf (a + j) := by
  simp only [Memory.spanLines, lineOf]
  split
  · next h => subst h; simp
  · next h =>
    simp only [List.mem_map, List.mem_range]
    constructor
    · rintro ⟨i, hi, rfl⟩
      by_cases h0 : i = 0
      · exact ⟨0, by omega, by subst h0; simp⟩
      · refine ⟨(a / 128 + i) * 128 - a, by omega, ?_⟩
        omega
    · rintro ⟨j, hj, rfl⟩
      exact ⟨(a + j) / 128 - a / 128, by omega, by omega⟩

theorem mem_pieceLines {ps : List (Nat × Nat)} {x : Nat} : x ∈ pieceLines ps ↔ ∃ i < (ps.map (·.2)).sum, x = lineOf (homeByte ps i) := by
  simp only [pieceLines, mem_foldl_setPut, List.mem_flatMap, mem_spanLines, List.not_mem_nil, or_false]
  constructor
  · rintro ⟨p, hp, j, hj, rfl⟩
    obtain ⟨i, h1, h2⟩ := mem_homeByte ps p hp j hj
    exact ⟨i, h1, by rw [h2]⟩
  · rintro ⟨i, hi, rfl⟩
    obtain ⟨p, h1, j, h2, h3⟩ := homeByte_mem ps i hi
    exact ⟨p, h1, j, h2, by rw [h3]⟩

theorem lineOf_lineOf (a : Nat) : lineOf (lineOf a) = lineOf a := by simp [lineOf]

theorem isPoisoned_line (m : Memory) (a : Nat) : m.isPoisoned (lineOf a) = m.isPoisoned a := by simp only [Memory.isPoisoned, lineOf_lineOf]
theorem l1Poisoned_line (s : State) (col core a : Nat) (inv : Bool) : s.l1Poisoned col core (lineOf a) inv = s.l1Poisoned col core a inv := by
  simp only [l1Poisoned, lineOf_lineOf, isPoisoned_line]

theorem loadPieces_spec {s u : State} {col core n : Nat} {inv : Bool} {ps : List (Nat × Nat)} (h : Filled col core inv s u) (hn : (ps.map (·.2)).sum = n) :
    let r := u.loadPieces col core ps inv
    Filled col core inv s r.1 ∧ Brought s col core inv ps n (leNat r.2.1) (if r.2.2 then some .line else none) := by
  intro r
  have h1 : Filled col core inv s r.1 := h.trans (filled_fold col core inv _ u)
  have hb : r.2.1 = ps.flatMap fun p => (List.range p.2).map fun j => r.1.coreByte col core u.nextId (p.1 + j) inv := rfl
  have hlen : r.2.1.length = n := by rw [hb, length_pieces (f := fun a => r.1.coreByte col core u.nextId a inv), hn]
  refine ⟨h1, ⟨?_, fun i hi => ?_, ?_, fun hc => ?_, fun ⟨i, hi, hm1, hm2⟩ => ?_⟩⟩
  · rw [← hlen]; exact leNat_lt _
  · rw [bitsOf_leNat _ _ (by omega), hb, getD_pieces (f := fun a => r.1.coreByte col core u.nextId a inv) ps i (by omega)]
    rw [h.flight.2]
    exact sees_coreByte h1 _
  · by_cases hr : r.2.2 = true <;> simp [hr]
  · rw [if_neg]
    rw [Bool.not_eq_true]
    refine List.any_eq_false.2 fun x hx => ?_
    obtain ⟨i, hi, rfl⟩ := mem_pieceLines.1 hx
    rw [hn] at hi
    rw [l1Poisoned_line]
    show ¬ r.1.l1Poisoned col core (homeByte ps i) inv = true
    rcases poisoned_filled h1 (homeByte ps i) with e | e <;> rw [e]
    · simp [(hc i hi).1]
    · simp [(hc i hi).2]
  · rw [if_pos]
    refine List.any_eq_true.2 ⟨lineOf (homeByte ps i), mem_pieceLines.2 ⟨i, by omega, rfl⟩, ?_⟩
    rw [l1Poisoned_line]
    show r.1.l1Poisoned col core (homeByte ps i) inv = true
    rcases poisoned_filled h1 (homeByte ps i) with e | e <;> rw [e] <;> assumption

/-- Two lists that correspond, entry by entry. -/
inductive Both {α β : Type} (R : α → β → Prop) : List α → List β → Prop where
  | nil : Both R [] []
  | cons {x : α} {y : β} {xs : List α} {ys : List β} : R x y → Both R xs ys → Both R (x :: xs) (y :: ys)

/-- What each piece of a load is. -/
def PieceOf (s : State) (inv : Bool) (x : Req × List (Nat × Nat)) (p : Piece) : Prop :=
  p.lane = x.1.lane ∧ p.sub = x.1.sub ∧ p.size = x.1.size ∧ Brought s s.myCol s.myCore inv x.2 x.1.size p.val p.poison

theorem cur_filled {col core : Nat} {inv : Bool} {s u : State} (h : Filled col core inv s u) : u.cur = s.cur ∧ u.groups = s.groups := by
  have h1 := congrArg State.cur h.rest
  have h2 := congrArg State.groups h.rest
  exact ⟨h1, h2⟩

theorem agent_filled {col core : Nat} {inv : Bool} {s u : State} (h : Filled col core inv s u) (hc : s.onCore = true) : u.myCol = s.myCol ∧ u.myCore = s.myCore := by
  obtain ⟨h1, h2⟩ := cur_filled h
  simp only [onCore] at hc
  cases hs : s.cur with
  | slot g b => simp [myCol, myCore, h1, hs, grp, h2]
  | thread c t => simp [hs] at hc

theorem readAll_spec {s : State} {inv : Bool} (hc : s.onCore = true) : ∀ (xs : List (Req × List (Nat × Nat))) (u : State), Filled s.myCol s.myCore inv s u →
    (∀ x ∈ xs, (x.2.map (·.2)).sum = x.1.size) →
    Filled s.myCol s.myCore inv s (u.readAll inv xs).1 ∧ Both (PieceOf s inv) xs (u.readAll inv xs).2
  | [], u, h, _ => ⟨h, .nil⟩
  | x :: xs, u, h, hx => by
    obtain ⟨e1, e2⟩ := agent_filled h hc
    have h1 := loadPieces_spec (u := u) (ps := x.2) h (hx x (by simp))
    simp only [readAll, e1, e2]
    obtain ⟨h2, h3⟩ := readAll_spec hc xs _ h1.1 fun y hy => hx y (by simp [hy])
    exact ⟨h2, .cons ⟨rfl, rfl, rfl, h1.2⟩ h3⟩


section both
variable {α β : Type} {R : α → β → Prop} {xs : List α} {ys : List β}

theorem Both.map_eq {γ : Type} {f : α → γ} {g : β → γ} (hR : ∀ x y, R x y → f x = g y) (h : Both R xs ys) : xs.map f = ys.map g := by
  induction h with
  | nil => rfl
  | cons hd _ ih => rw [List.map_cons, List.map_cons, ih, hR _ _ hd]

theorem Both.filter {p : α → Bool} {q : β → Bool} (hR : ∀ x y, R x y → p x = q y) (h : Both R xs ys) : Both R (xs.filter p) (ys.filter q) := by
  induction h with
  | nil => exact .nil
  | @cons x y _ _ hd _ ih =>
    rw [List.filter_cons, List.filter_cons, ← hR _ _ hd]
    cases p x
    · exact ih
    · exact .cons hd ih

theorem Both.mono {S : α → β → Prop} (hR : ∀ x y, R x y → S x y) (h : Both R xs ys) : Both S xs ys := by
  induction h with
  | nil => exact .nil
  | cons hd _ ih => exact .cons (hR _ _ hd) ih

/-- Each entry of one list has its counterpart in the other. -/
theorem Both.partners (h : Both R xs ys) : (∀ y ∈ ys, ∃ x ∈ xs, R x y) ∧ ∀ x ∈ xs, ∃ y ∈ ys, R x y := by
  induction h with
  | nil => exact ⟨fun _ hm => absurd hm List.not_mem_nil, fun _ hm => absurd hm List.not_mem_nil⟩
  | cons hd _ ih =>
    refine ⟨List.forall_mem_cons.2 ⟨⟨_, List.mem_cons_self, hd⟩, fun z hz => ?_⟩, List.forall_mem_cons.2 ⟨⟨_, List.mem_cons_self, hd⟩, fun z hz => ?_⟩⟩
    · exact (ih.1 z hz).imp fun _ hw => ⟨List.mem_cons_of_mem _ hw.1, hw.2⟩
    · exact (ih.2 z hz).imp fun _ hw => ⟨List.mem_cons_of_mem _ hw.1, hw.2⟩

end both

/-- The fold that places sub-elements, of pieces that come in order. -/
theorem fold_pieces (s : Nat) : ∀ (ms : List Piece) (k z : Nat), Both (fun e (p : Piece) => p.sub = e ∧ p.size = s) (List.range' k ms.length) ms →
    ms.foldl (fun x p => x + p.val % 2 ^ (8 * p.size) * 2 ^ (8 * p.size * p.sub)) z = z + 2 ^ (8 * s * k) * packNat (8 * s) (ms.map (·.val))
  | [], k, z, _ => by simp [packNat]
  | m :: ms, k, z, h => by
    simp only [List.length_cons, List.range'_succ] at h
    cases h with
    | cons h1 h2 =>
      rw [List.foldl_cons, fold_pieces s ms (k + 1) _ h2, h1.1, h1.2, List.map_cons, packNat]
      rw [Nat.mul_add (8 * s), Nat.mul_one, Nat.pow_add, Nat.mul_add, Nat.mul_assoc (2 ^ (8 * s * k)), Nat.mul_comm (2 ^ (8 * s * k)) (m.val % 2 ^ (8 * s))]
      omega

theorem bitsOf_bitsOf {x a w i n : Nat} (h : i + n ≤ w) : bitsOf (bitsOf x a w) i n = bitsOf x (a + i) n := by
  simp only [bitsOf]
  apply Nat.eq_of_testBit_eq
  intro j
  simp only [Nat.testBit_mod_two_pow, Nat.testBit_div_two_pow]
  by_cases hj : j < n
  · simp [hj, show j + i < w by omega, show j + (a + i) = j + i + a by omega]
  · simp [hj]

/-- The poison of a gathered value is that of a line, and is there if one of its pieces has it. -/
theorem findSome_mark {α : Type} (f : α → Option Poison) (l : List α) (h : ∀ x ∈ l, f x = none ∨ f x = some .line) :
    (l.findSome? f = none ∨ l.findSome? f = some .line) ∧ ((∃ x ∈ l, f x = some .line) → l.findSome? f = some .line) := by
  have key : l.findSome? f = none ∨ l.findSome? f = some .line := by
    cases e : l.findSome? f with
    | none => exact .inl rfl
    | some p =>
      obtain ⟨x, hx, hp⟩ := List.exists_of_findSome?_eq_some e
      exact (h x hx).elim (fun hn => by simp [hn] at hp) fun hl => .inr (hp.symm.trans hl)
  refine ⟨key, fun hm => key.resolve_left fun hn => ?_⟩
  obtain ⟨x, hx, hl⟩ := hm
  simp [List.findSome?_eq_none_iff.1 hn x hx] at hl

/-- The pieces of one lane, of accesses that come lane by lane and element by element. -/
theorem filter_lane {n : Nat} {F : Nat → Nat → Req × List (Nat × Nat)} (hF : ∀ l e, (F l e).1.lane = l) (x : Nat) : ∀ (ls : List Nat), x ∈ ls → ls.Nodup →
    (ls.flatMap fun l => (List.range n).map (F l)).filter (fun y => decide (y.1.lane = x)) = (List.range n).map (F x)
  | [], h, _ => by simp at h
  | l :: ls, h, hd => by
    rw [List.flatMap_cons, List.filter_append]
    have hother : ∀ l', l' ≠ x → ((List.range n).map (F l')).filter (fun y => decide (y.1.lane = x)) = [] := by
      intro l' hl'
      rw [List.filter_eq_nil_iff]
      intro y hy
      obtain ⟨e, _, rfl⟩ := List.mem_map.1 hy
      simp [hF, hl']
    have hsame : ((List.range n).map (F x)).filter (fun y => decide (y.1.lane = x)) = (List.range n).map (F x) := by
      rw [List.filter_eq_self]
      intro y hy
      obtain ⟨e, _, rfl⟩ := List.mem_map.1 hy
      simp [hF]
    rw [List.nodup_cons] at hd
    by_cases hx : x = l
    · subst hx
      rw [hsame]
      have : (ls.flatMap fun l => (List.range n).map (F l)).filter (fun y => decide (y.1.lane = x)) = [] := by
        rw [List.filter_eq_nil_iff]
        intro y hy
        obtain ⟨l', h1, h2⟩ := List.mem_flatMap.1 hy
        obtain ⟨e, _, rfl⟩ := List.mem_map.1 h2
        simp only [hF, decide_eq_true_eq]
        rintro rfl
        exact hd.1 h1
      rw [this, List.append_nil]
    · rw [hother l fun e => hx e.symm, List.nil_append]
      exact filter_lane hF x ls ((List.mem_cons.1 h).resolve_left hx) hd.2


/-- The lanes of a load, of accesses that come lane by lane and element by element. -/
theorem gather_spec {s : State} {inv : Bool} {n size : Nat} {F : Nat → Nat → Req × List (Nat × Nat)} {ls : List Nat} {ps : List Piece}
    (hF : ∀ l e, (F l e).1.lane = l ∧ (F l e).1.sub = e ∧ (F l e).1.size = size) (hr : rising ls = true) (hd : ls.Nodup) (hn : 0 < n) (hs : size * n ≤ 8)
    (h : Both (PieceOf s inv) (ls.flatMap fun l => (List.range n).map (F l)) ps) :
    (gatherLanes ps).map (·.lane) = ls ∧
    ∀ y ∈ gatherLanes ps, y.lane ∈ ls ∧ (∀ e < n, ∀ i < size, s.Sees inv (homeByte (F y.lane e).2 i) (bitsOf y.val.toNat (8 * (size * e + i)) 8)) ∧
      s.Marked inv ((List.range n).flatMap fun e => (List.range size).map fun i => homeByte (F y.lane e).2 i) y.poison := by
  have hl : ps.map (·.lane) = ls.flatMap fun l => (List.range n).map fun _ => l := by
    rw [← Both.map_eq (f := fun x => x.1.lane) (fun x y h => h.1.symm) h, List.map_flatMap]
    congr 1
    funext l
    rw [List.map_map]
    exact List.map_congr_left fun e _ => (hF l e).1
  have hset : (ps.map (·.lane)).foldl setPut [] = ls := by
    refine rising_ext (rising_foldl_setPut rfl) hr fun x => ?_
    rw [mem_foldl_setPut, hl]
    simp only [List.mem_flatMap, List.mem_map, List.mem_range, List.not_mem_nil, or_false]
    exact ⟨fun ⟨l, h1, e, h2, h3⟩ => h3 ▸ h1, fun h => ⟨x, h, 0, hn, rfl⟩⟩
  refine ⟨by simp only [gatherLanes, hset, List.map_map]; exact List.map_id' _, fun y hy => ?_⟩
  simp only [gatherLanes, hset, List.mem_map] at hy
  obtain ⟨l, hl', rfl⟩ := hy
  refine ⟨hl', ?_⟩
  have hm := Both.filter (p := fun x => decide (x.1.lane = l)) (q := fun p : Piece => decide (p.lane = l)) (fun x y (h : PieceOf s inv x y) => by rw [h.1]) h
  rw [filter_lane (fun l e => (hF l e).1) l ls hl' hd] at hm
  generalize hmine : ps.filter (fun p => decide (p.lane = l)) = mine at hm
  have hlen : mine.length = n := by
    have := congrArg List.length (Both.map_eq (f := fun _ => ()) (g := fun _ => ()) (fun _ _ _ => rfl) hm)
    simpa using this.symm
  have hb : Both (fun e (p : Piece) => p.sub = e ∧ p.size = size ∧ Brought s s.myCol s.myCore inv (F l e).2 size p.val p.poison) (List.range n) mine := by
    have : ∀ (es : List Nat) (ms : List Piece), Both (PieceOf s inv) (es.map (F l)) ms →
        Both (fun e (p : Piece) => p.sub = e ∧ p.size = size ∧ Brought s s.myCol s.myCore inv (F l e).2 size p.val p.poison) es ms := by
      intro es
      induction es with
      | nil => intro ms h; cases h; exact .nil
      | cons e es ih =>
        intro ms h
        cases h with
        | cons h1 h2 => exact .cons ⟨h1.2.1.trans (hF l e).2.1, h1.2.2.1.trans (hF l e).2.2, (hF l e).2.2 ▸ h1.2.2.2⟩ (ih _ h2)
    exact this _ _ hm
  have hget : ∀ e < n, ∃ h : e < mine.length, Brought s s.myCol s.myCore inv (F l e).2 size mine[e].val mine[e].poison := by
    have : ∀ (es : List Nat) (ms : List Piece), Both (fun e (p : Piece) => p.sub = e ∧ p.size = size ∧ Brought s s.myCol s.myCore inv (F l e).2 size p.val p.poison) es ms →
        ∀ (k : Nat) (hk : k < es.length), ∃ h : k < ms.length, Brought s s.myCol s.myCore inv (F l es[k]).2 size ms[k].val ms[k].poison := by
      intro es ms h
      induction h with
      | nil => intro k hk; simp at hk
      | cons h1 _ ih =>
        intro k hk
        cases k with
        | zero => exact ⟨by simp, h1.2.2⟩
        | succ k =>
          obtain ⟨h3, h4⟩ := ih k (by simpa using hk)
          exact ⟨by simpa using h3, by simpa using h4⟩
    intro e he
    obtain ⟨h1, h2⟩ := this _ _ hb e (by simpa using he)
    exact ⟨h1, by simpa using h2⟩
  have hval : mine.foldl (fun x p => x + p.val % 2 ^ (8 * p.size) * 2 ^ (8 * p.size * p.sub)) 0 = packNat (8 * size) (mine.map (·.val)) := by
    rw [fold_pieces size mine 0 0 (by rw [hlen, ← List.range_eq_range']; exact Both.mono (fun _ _ h => ⟨h.1, h.2.1⟩) hb)]
    simp
  constructor
  · intro e he i hi
    obtain ⟨h1, h2⟩ := hget e he
    have hlt : packNat (8 * size) (mine.map (·.val)) < 2 ^ 64 := by
      have h3 := packNat_lt (8 * size) (mine.map (·.val))
      rw [List.length_map, hlen] at h3
      have h4 : 8 * size * n ≤ 64 := by rw [Nat.mul_assoc]; omega
      exact Nat.lt_of_lt_of_le h3 (Nat.pow_le_pow_right (by omega) h4)
    simp only [hval, BitVec.toNat_ofNat, Nat.mod_eq_of_lt hlt]
    rw [show 8 * (size * e + i) = 8 * size * e + 8 * i by rw [Nat.mul_add, Nat.mul_assoc], ← bitsOf_bitsOf (w := 8 * size) (by omega), bitsOf_packNat]
    have : (mine.map (·.val)).getD e 0 = mine[e].val := by simp [List.getD, h1]
    rw [this, Nat.mod_eq_of_lt h2.lt]
    exact h2.bytes i hi
  · have hmk := findSome_mark (fun p : Piece => p.poison) mine fun p hp => by
      obtain ⟨e, _, h3⟩ := hb.partners.1 p hp
      exact h3.2.2.mark
    refine ⟨hmk.1, fun hc => ?_, fun ⟨a, ha, h1, h2⟩ => ?_⟩
    · refine List.findSome?_eq_none_iff.2 fun p hp => ?_
      obtain ⟨e, he, h3⟩ := hb.partners.1 p hp
      refine h3.2.2.clean fun i hi => hc _ ?_
      exact List.mem_flatMap.2 ⟨e, he, List.mem_map.2 ⟨i, List.mem_range.2 hi, rfl⟩⟩
    · obtain ⟨e, he, h3⟩ := List.mem_flatMap.1 ha
      obtain ⟨i, hi, rfl⟩ := List.mem_map.1 h3
      obtain ⟨p, hp, h4⟩ := hb.partners.2 e he
      exact hmk.2 ⟨p, hp, h4.2.2.marked ⟨i, List.mem_range.1 hi, h1, h2⟩⟩

end State
end Sys2Proof.Machine
end

