-- ==== Sys2Proof/Laws/Paths.lean ====
section
/-! SUPPORT. The contexts of a group: what the moves of R129 do to them, and the bookkeeping of an issue that leaves its slot without a RUNNING context. -/

namespace Sys2Proof.Machine

open Sys2Proof

namespace State

theorem unpriv {s : State} {g : Nat} {b : Bool} (hc : s.cur = .slot g b) (hg : s.hasGroup g = true) (hp : (s.grp g).privileged = false) : s.advance.unprivileged = .ok () := by
  have : s.advance.me.privileged = false := by rw [me_slot ((cur_advance s).trans hc), grp_advance hc hg]; exact hp
  simp only [unprivileged, this, Bool.false_eq_true, if_false]

theorem slot_other_advance {s : State} {g : Nat} {b : Bool} (hc : s.cur = .slot g b) (hg : s.hasGroup g = true) :
    (s.advance.grp g).image.slot (!b) = (s.grp g).image.slot (!b) ∧ (s.advance.grp g).image.stack = (s.grp g).image.stack := by
  rw [grp_advance hc hg]
  cases b <;> exact ⟨rfl, rfl⟩

theorem others_slot {s : State} {g : Nat} {b : Bool} (hc : s.cur = .slot g b) : s.others = ((s.grp g).image.slot (!b)).toList ++ (s.grp g).image.stack := by
  simp only [others, hc]

theorem fillSlot_paths (im : Image) (b : Bool) : ((pathsOf (fillSlot im b)).map entering).Perm ((pathsOf im).map entering) := by
  have h := fillSlot_contexts im b
  have ho := fillSlot_other im b
  cases b with
  | false =>
    have ho' : (fillSlot im false).slotB = im.slotB := ho
    simp only [pathsOf, ho', List.map_append]
    simp only [Image.slot, List.map_append] at h
    have e : ∀ A B C : List Path, (A ++ B ++ C).Perm (B ++ (A ++ C)) := fun A B C => by
      rw [List.append_assoc]
      exact (List.perm_append_comm_assoc A B C)
    exact (e _ _ _).trans ((h.append_left _).trans (e _ _ _).symm)
  | true =>
    have ho' : (fillSlot im true).slotA = im.slotA := ho
    simp only [pathsOf, ho', List.map_append]
    simp only [Image.slot, List.map_append] at h
    rw [List.append_assoc, List.append_assoc]
    exact h.append_left _

theorem settle_paths (im : Image) : ((pathsOf (settlePaths im)).map entering).Perm ((pathsOf im).map entering) :=
  (fillSlot_paths _ _).trans (fillSlot_paths _ _)

theorem any_running_entering (l : List Path) : (l.map entering).any isRunning = l.any isRunning := by
  simp only [List.any_map]; rfl

theorem any_perm {l1 l2 : List Path} (h : l1.Perm l2) (p : Path → Bool) : l1.any p = l2.any p := by
  rw [Bool.eq_iff_iff]
  simp only [List.any_eq_true]
  exact ⟨fun ⟨x, hx, hp⟩ => ⟨x, h.mem_iff.1 hx, hp⟩, fun ⟨x, hx, hp⟩ => ⟨x, h.mem_iff.2 hx, hp⟩⟩

theorem settle_any_running (im : Image) : (pathsOf (settlePaths im)).any isRunning = (pathsOf im).any isRunning := by
  rw [← any_running_entering, any_perm (settle_paths im), any_running_entering]

theorem settleGroup_calm {s : State} {g : Nat} (hg : s.hasGroup g = true) (hp : (s.grp g).privileged = false) (h : (pathsOf (s.grp g).image).any isRunning = true) : s.settleGroup g = s.modImage g settlePaths := by
  simp only [settleGroup, hp, grp_modImage_same hg, settle_any_running, h, Bool.not_true, Bool.and_false, Bool.false_eq_true, if_false]

/-- The slot that the issue left without a RUNNING context takes one of the stack. -/
theorem fillSlot_takes {im : Image} {b : Bool} (h : ((im.slot b).map isRunning).getD false = false) (hs : im.stack.any isRunning = true) :
    ((fillSlot im b).slot b).map isRunning = some true := by
  have pop : ∀ l : List Path, l.any isRunning = true → ∃ p r, popRunning l = some (p, r) ∧ isRunning p = true := by
    intro l
    induction l with
    | nil => intro h; simp at h
    | cons x l ih =>
      intro h
      by_cases hx : isRunning x = true
      · exact ⟨x, l, by simp only [popRunning, hx, if_true], hx⟩
      · simp only [List.any_cons, hx, Bool.false_or] at h
        obtain ⟨p, r, h1, h2⟩ := ih h
        exact ⟨p, x :: r, by simp only [popRunning, hx, h1, Option.map_some]; simp, h2⟩
  have swap : ∀ (q : Path) (l : List Path), l.any isRunning = true → ∃ p r, swapRunning q l = some (p, r) ∧ isRunning p = true := by
    intro q l
    induction l with
    | nil => intro h; simp at h
    | cons x l ih =>
      intro h
      by_cases hx : isRunning x = true
      · exact ⟨x, q :: l, by simp only [swapRunning, hx, if_true], hx⟩
      · simp only [List.any_cons, hx, Bool.false_or] at h
        obtain ⟨p, r, h1, h2⟩ := ih h
        exact ⟨p, x :: r, by simp only [swapRunning, hx, h1, Option.map_some]; simp, h2⟩
  simp only [fillSlot]
  cases hsb : im.slot b with
  | none =>
    obtain ⟨p, r, h1, h2⟩ := pop _ hs
    simp only [h1, setSlot_slot_same, Option.map_some]
    exact congrArg some h2
  | some q =>
    have hq : isRunning q = false := by rw [hsb] at h; simpa using h
    obtain ⟨p, r, h1, h2⟩ := swap q _ hs
    simp only [hq, Bool.false_eq_true, if_false, h1, setSlot_slot_same, Option.map_some]
    exact congrArg some h2
/-! ### The bookkeeping of an issue, whatever becomes of its slot -/

theorem world_modGroup {s : State} {g : Nat} {b : Bool} {f : Group → Group} (hc : s.cur = .slot g b) (hid : ∀ x, (f x).id = x.id)
    (hh : ∀ x, (f x).husk = x.husk) : (s.modGroup g f).world = s.world := by
  rw [world_slot (s := s.modGroup g f) hc, world_slot hc, modGroup_modGroup (fun x => hid x)]
  rw [show (fun x => (f x).husk) = Group.husk from funext hh]

theorem world_changed (s : State) : s.changed.world = s.world := (kept_changed {} s).world

theorem world_settle {s : State} {g : Nat} {b : Bool} (hc : s.cur = .slot g b) : (s.modImage g settlePaths).world = s.world :=
  world_modGroup (f := fun x => { x with image := settlePaths x.image }) hc (fun _ => rfl) (fun x => by
    have h := settle_rest x.image
    simp only [Image.mk.injEq] at h
    simp only [Group.husk, h])

/-- The moves of R129 after an issue, where some context of the group still runs. -/
theorem settle_group {u : State} {g : Nat} {b : Bool} (hc : u.cur = .slot g b) (hg : u.hasGroup g = true) (hp : (u.grp g).privileged = false)
    (hr : (pathsOf (u.grp g).image).any isRunning = true) :
    ((u.settleGroup g).changed.grp g).image = settlePaths (u.grp g).image ∧ (u.settleGroup g).changed.world = u.world := by
  rw [settleGroup_calm hg hp hr]
  refine ⟨?_, ?_⟩
  · show ((u.modImage g settlePaths).grp g).image = _
    rw [grp_modImage_same hg]
  · rw [world_changed, world_settle hc]

/-- The moves of a slot's mark of issue. -/
theorem paths_modSlot (im : Image) (b : Bool) (f : Path → Path) (hf : ∀ p, entering (f p) = entering p) :
    (pathsOf (im.modSlot b f)).map entering = (pathsOf im).map entering := by
  have : ∀ o : Option Path, ((o.map f).toList).map entering = o.toList.map entering := fun o => by
    cases o with
    | none => rfl
    | some p => simp [hf]
  cases b <;> simp only [pathsOf, Image.modSlot, Image.setSlot, Image.slot, if_true, Bool.false_eq_true, if_false, List.map_append, this]

/-- What the record of an issue does to its group before the moves of R129. -/
theorem issued_group {u : State} {g : Nat} {b : Bool} (n k : Nat) (hc : u.cur = .slot g b) (hg : u.hasGroup g = true) :
    let v := (u.modMyPath (issuedPath n)).modGroup g (issuedGroup n k)
    v.cur = .slot g b ∧ v.hasGroup g = true ∧ (v.grp g).image = (u.grp g).image.modSlot b (issuedPath n) ∧ v.world = u.world ∧
      v.grp g = issuedGroup n k { u.grp g with image := (v.grp g).image } ∧ (∀ x, x ≠ g → v.grp x = u.grp x) ∧ { v with groups := u.groups } = u := by
  intro v
  have hv : v = (u.modGroup g fun x => { x with image := x.image.modSlot b (issuedPath n) }).modGroup g (issuedGroup n k) := by
    simp only [v, modMyPath_slot hc]
  have hg1 : (u.modGroup g fun x => { x with image := x.image.modSlot b (issuedPath n) }).hasGroup g = true :=
    (hasGroup_modGroup (f := fun x => { x with image := x.image.modSlot b (issuedPath n) }) fun _ => rfl).trans hg
  have hgv : v.grp g = issuedGroup n k { u.grp g with image := (u.grp g).image.modSlot b (issuedPath n) } := by
    rw [hv, grp_modGroup_same (f := issuedGroup n k) hg1 fun _ => rfl, grp_modGroup_same (f := fun x => { x with image := x.image.modSlot b (issuedPath n) }) hg fun _ => rfl]
  refine ⟨by rw [hv]; exact hc, by rw [hv]; exact (hasGroup_modGroup (f := issuedGroup n k) fun _ => rfl).trans hg1, ?_, ?_, ?_, ?_, by rw [hv]; rfl⟩
  · rw [hv, grp_modGroup_same (f := issuedGroup n k) hg1 fun _ => rfl, grp_modGroup_same (f := fun x => { x with image := x.image.modSlot b (issuedPath n) }) hg fun _ => rfl]
    rfl
  · rw [hv]
    have hcm : (u.modGroup g fun x => { x with image := x.image.modSlot b (issuedPath n) }).cur = .slot g b := hc
    rw [world_modGroup (f := issuedGroup n k) hcm (fun _ => rfl) (husk_issuedGroup n k)]
    exact world_modGroup (f := fun x => { x with image := x.image.modSlot b (issuedPath n) }) hc (fun _ => rfl) (fun x => by cases b <;> rfl)
  · rw [hgv]; rfl
  · intro x hk
    rw [hv, grp_modGroup_other (f := issuedGroup n k) hk fun _ => rfl, grp_modGroup_other (f := fun x => { x with image := x.image.modSlot b (issuedPath n) }) hk fun _ => rfl]

theorem vget_foldl_zero (l : List Nat) : ∀ (v : Vector JReg 4) (i : Nat), i < 4 →
    vget ⟨0, 0⟩ (l.foldl (fun js j => vmod js j fun _ => (⟨0, 0⟩ : JReg)) v) i = if i ∈ l then ⟨0, 0⟩ else vget ⟨0, 0⟩ v i := by
  induction l with
  | nil => intro v i _; simp
  | cons j l ih =>
    intro v i hi
    simp only [List.foldl_cons, ih _ i hi, List.mem_cons]
    by_cases hm : i ∈ l
    · simp [hm]
    · by_cases hj : i = j
      · subst hj
        simp [hm, vget_vmod_same hi]
      · simp only [hm, hj, or_self, if_false]
        exact vget_vmod_other hj

end State

end Sys2Proof.Machine
end

