-- ==== Sys2Proof/Laws/Accesses.lean ====
section
/-! SUPPORT. Accesses of a group to memory: what the advance of its program counter leaves of their checks and translations, and what a load of several accesses does (R31, R154, R309). -/

namespace Sys2Proof.Machine

open Sys2Proof

namespace State

section
variable {s : State} {g : Nat} {b : Bool}

theorem advance_slot (hc : s.cur = .slot g b) : s.advance = s.modGroup g fun x => { x with image := x.image.modSlot b fun p => { p with pc := s.pc + 4 } } := by
  simp only [advance, setPc, hc, modMyPath_slot hc]

theorem slot_of_core (h : s.ReadyCore) (hc : s.cur = .slot g b) : s.hasGroup g = true := by
  have := live_of_canIssue h.issues
  simp only [Live, hc] at this
  exact this.1

theorem agent_advance (hc : s.cur = .slot g b) (hg : s.hasGroup g = true) :
    s.advance.myCol = s.myCol ∧ s.advance.myCore = s.myCore ∧ s.advance.myCtx = s.myCtx ∧ s.advance.myTlb = s.myTlb ∧ s.advance.myColNum = s.myColNum ∧
    (∀ k, s.advance.wholeSpace k = s.wholeSpace k) ∧ (∀ p, s.advance.ptrHere p = s.ptrHere p) ∧ s.advance.myTeam = s.myTeam := by
  have hc' : s.advance.cur = .slot g b := (cur_advance s).trans hc
  have e := grp_advance hc hg
  have e1 : s.advance.ctxs = s.ctxs := adv_field hc _ fun _ => rfl
  have e2 : s.advance.split = s.split := adv_field hc _ fun _ => rfl
  have e3 : s.advance.cols = s.cols := adv_field hc _ fun _ => rfl
  have e4 : s.advance.dev = s.dev := adv_field hc _ fun _ => rfl
  have hcol : s.advance.myCol = s.myCol := by simp only [myCol, hc, hc', e]
  have hctx : s.advance.myCtx = s.myCtx := by simp only [myCtx, hc, hc', e]
  have hnum : s.advance.myColNum = s.myColNum := by simp only [myColNum, hcol, hctx, colNum, part, ctx, e1, e2]
  refine ⟨hcol, ?_, hctx, ?_, hnum, fun k => ?_, fun p => ?_, ?_⟩
  · simp only [myCore, hc, hc', e]
  · simp only [myTlb, hc, hc', e, core, col, e3]
  · simp only [wholeSpace, onCore, hc, hc', me_slot hc, me_slot hc', e]
  · simp only [ptrHere, hnum, e4]
  · simp only [myTeam, hc, hc', e]

theorem walkFault_advance (hc : s.cur = .slot g b) (hg : s.hasGroup g = true) : s.advance.myWalkFault = s.myWalkFault := by
  simp only [myWalkFault, hc, (cur_advance s).trans hc, grp_advance hc hg]

/-- A translation succeeds where no walk has delivered a fault for it and the TLB answers (R309, R314). -/
theorem translate_ok {off kind lane h : Nat} {addr : Option Word} :
    s.translate off kind addr lane = .ok h ↔ (s.myWalkFault.filter fun w => w.off = off) = none ∧ lookTlb s.myTlb s.myCtx s.myCol off kind = .ok h := by
  simp only [translate]
  split
  · next e => simp [e, pageTrap]
  · next e =>
    rw [e]
    split
    · next e' => simp [e']
    · next e' => simp [e', pageTrap]
    · next n1 n2 =>
      constructor
      · split <;> simp [hold]
      · intro ⟨_, e'⟩
        exact absurd e' (n1 _)

/-- Two states in which an agent's accesses come out the same: the agent stands in the same place, its pointers lead and its pages translate alike, and memory, teams and what is in progress are the same. -/
structure Alike (s v : State) : Prop where
  core : v.onCore = s.onCore
  place : v.myCol = s.myCol ∧ v.myCore = s.myCore ∧ v.myCtx = s.myCtx ∧ v.myTeam = s.myTeam
  tlb : v.myTlb = s.myTlb
  fault : v.myWalkFault = s.myWalkFault
  here : ∀ p, v.ptrHere p = s.ptrHere p
  whole : ∀ k, v.wholeSpace k = s.wholeSpace k
  seg : ∀ k, v.seg k = s.seg k
  teams : v.teams = s.teams
  mem : v.mem = s.mem
  flight : v.flight = s.flight

/-- Going on to the next instruction changes nothing that accesses depend on. -/
theorem alike_advance (hl : s.Live) (hc : s.cur = .slot g b) (hg : s.hasGroup g = true) : Alike s s.advance := by
  obtain ⟨h1, h2, h3, h4, _, h6, h7, h8⟩ := agent_advance hc hg
  exact ⟨onCore_advance s, ⟨h1, h2, h3, h8⟩, h4, walkFault_advance hc hg, h7, h6, seg_advance hl, adv_field hc _ fun _ => rfl, adv_field hc _ fun _ => rfl,
    adv_field hc _ fun _ => rfl⟩

theorem Alike.translate {v : State} (a : Alike s v) {off kind lane h : Nat} {addr : Option Word} (ht : s.translate off kind addr lane = .ok h) :
    v.translate off kind addr lane = .ok h := by
  rw [translate_ok] at ht ⊢
  rwa [a.fault, a.tlb, a.place.1, a.place.2.2.1]

theorem Alike.span {v : State} (a : Alike s v) {off n kind lane : Nat} {addr : Option Word} {ps : List (Nat × Nat)}
    (ht : s.translateSpan off n kind addr lane = .ok ps) : v.translateSpan off n kind addr lane = .ok ps := by
  simp only [translateSpan, bind, Except.bind] at ht ⊢
  cases h1 : s.translate off kind addr lane with
  | error e => rw [h1] at ht; cases ht
  | ok x =>
    rw [h1] at ht
    rw [a.translate h1]
    simp only at ht ⊢
    split at ht
    · next h => rw [if_pos h]; exact ht
    · next h =>
      rw [if_neg h]
      cases h2 : s.translate (off + (65536 - off % 65536)) kind addr lane with
      | error e => rw [h2] at ht; cases ht
      | ok y => rw [h2] at ht; rw [a.translate h2]; exact ht

theorem Alike.allowed {v : State} (a : Alike s v) {space kind align : Nat} {r : Req} (h : s.Allowed space kind align r) : v.Allowed space kind align r :=
  ⟨(a.here _).trans h.here, h.written, by rw [a.whole, a.seg]; exact h.limit, h.aligned⟩

theorem Alike.reaches {v : State} (a : Alike s v) {space kind align : Nat} {r : Req} {ps : List (Nat × Nat)} (h : s.Reaches space kind align r ps) :
    v.Reaches space kind align r ps := ⟨a.allowed h.toAllowed, by rw [a.whole, a.seg]; exact a.span h.homes⟩

theorem Alike.checkReqs {v : State} (a : Alike s v) (space kind align : Nat) (rs : List Req) : v.checkReqs space kind align rs = s.checkReqs space kind align rs := by
  simp only [State.checkReqs, a.here, a.whole, a.seg]

/-- A control object that can be read is read alike. -/
theorem Alike.scrObject {v : State} (a : Alike s v) {p : Word} {n al x : Nat} (ho : s.scrObject p n al = .ok x) : v.scrObject p n al = .ok x := by
  have ht : ∀ k, v.team k = s.team k := fun k => by simp only [team, a.teams]
  have hb : ∀ k c b, v.buf k c b = s.buf k c b := fun k c b => by simp only [buf, ht]
  have hl : ∀ t c y n, v.bufLines t c y n = s.bufLines t c y n := fun t c y n => by
    unfold State.bufLines State.bufAt
    rw [ht]
    simp only [hb]
  have h1 : ∀ t c y k, v.bufCheck t c y n k = s.bufCheck t c y n k := fun t c y k => by simp only [bufCheck, hl, hb]
  have h2 : ∀ t c y, v.bufHolds t c y n = s.bufHolds t c y n := fun t c y => by simp only [bufHolds, hl, hb]
  have h3 : ∀ y, v.scrComing y n = s.scrComing y n := fun y => by simp only [scrComing, a.core, a.flight, a.place]
  have h4 : ∀ t c y, v.scrPoisoned t c y n = s.scrPoisoned t c y n := fun t c y => by simp only [scrPoisoned, ht, a.mem]
  have h5 : ∀ t c y, v.scrNat t c y n = s.scrNat t c y n := fun t c y => by simp only [scrNat, scrBytes, scrByte, ht, a.mem]
  have h6 : ∀ r, v.scrAddr r = s.scrAddr r := fun r => by simp only [scrAddr, a.seg]
  simp only [State.scrObject, scrTaken, bind, Except.bind, a.checkReqs, h1, h2, h3, h4, h5, h6, a.place] at ho ⊢
  cases hk : s.checkReqs 0 0 al [⟨0, 0, p, ptrOff p, n⟩] with
  | error e => rw [hk] at ho; cases ho
  | ok u =>
    rw [hk] at ho
    simp only at ho ⊢
    split at ho
    · cases ho
    · split at ho
      · cases ho
      · next e2 =>
        rw [if_neg e2]
        split at ho
        · cases ho
        · next e3 => rw [if_neg e3]; exact ho

theorem reaches_advance (hr : s.ReadyCore) (hc : s.cur = .slot g b) {space kind align : Nat} {r : Req} {ps : List (Nat × Nat)} (h : s.Reaches space kind align r ps) :
    s.advance.Reaches space kind align r ps := (alike_advance (live_of_canIssue hr.issues) hc (slot_of_core hr hc)).reaches h

theorem checkReqs_ok {space kind align : Nat} {rs : List Req} (h : ∀ r ∈ rs, s.Allowed space kind align r) : s.checkReqs space kind align rs = .ok () := by
  have h1 : rs.find? (fun r => !s.ptrHere r.ptr) = none := List.find?_eq_none.2 fun r hr => by simp [(h r hr).here]
  have h2 : (space = 3 && kind ≠ 0 && !rs.isEmpty) = false := by
    cases rs with
    | nil => simp
    | cons r rs =>
      have := (h r (by simp)).written
      by_cases h3 : space = 3
      · simp [h3, this h3]
      · simp [h3]
  have h3 : (if s.wholeSpace space then none else rs.find? fun r => decide (segLimit (s.seg (segOf space)) < r.off + r.size)) = none := by
    split
    · rfl
    · next hw =>
      refine List.find?_eq_none.2 fun r hr => ?_
      rcases (h r hr).limit with h4 | h4
      · exact absurd h4 hw
      · simp; omega
  have h4 : rs.find? (fun r => r.off % align ≠ 0) = none := List.find?_eq_none.2 fun r hr => by simp [(h r hr).aligned]
  simp only [checkReqs, h1, h3, h4]
  rw [if_neg (by rw [h2]; simp)]

theorem homes_ok {space kind align : Nat} : ∀ {xs : List (Req × List (Nat × Nat))}, (∀ x ∈ xs, s.Reaches space kind align x.1 x.2) →
    s.homes space kind (xs.map (·.1)) = .ok (xs.map (·.2))
  | [], _ => rfl
  | x :: xs, h => by
    have h1 := (h x (by simp)).homes
    have h2 := homes_ok (xs := xs) fun y hy => h y (by simp [hy])
    simp only [List.map_cons, homes, bind, Except.bind, h1, h2]

theorem zip_maps {α β : Type} : ∀ xs : List (α × β), (xs.map (·.1)).zip (xs.map (·.2)) = xs
  | [] => rfl
  | x :: xs => by simp [zip_maps xs]
end


/-- An effect that changes the world beside the issuing group: `s'` is the state with that change made. -/
theorem Passes.worlds {m : May} {s s' u : State} {i : Instr} {f : Form} {body : State → Eff State} {g : Nat} {b : Bool} (ps : s.Passes f) (hc : s.cur = .slot g b)
    (hc' : s'.cur = .slot g b) (hgs : s'.groups = s.groups) (hb : body s.advance = .ok u) (hm : Moves m s'.advance u) :
    ∃ t, s.issue i f body = .next t ∧ t.pc = u.pc ∧ Kept m s' t ∧ Kept {} u t := by
  have hl' : s'.Live := by
    have := ps.live
    simp only [Live, hc] at this
    simp only [Live, hc', hasGroup, grp, hgs]
    exact this
  obtain ⟨t, k1, k2, k3⟩ := ps.next (i := i) hb (hm.live (live_advance hl'))
  exact ⟨t, k1, k3, ((moves_advance hl').toKept.trans hm.toKept).trans k2.weaken, k2⟩

/-- What a frame keeps beside registers. -/
theorem kept_fields {m : May} {s t : State} {g : Nat} {b : Bool} (h : Kept m s t) (hc : s.cur = .slot g b) :
    t.flight = s.flight ∧ t.cols = s.cols ∧ t.mem = s.mem ∧ t.nextId = s.nextId ∧ t.teams = s.teams := by
  have hw := h.world
  rw [world_slot hc, world_slot (h.agent.trans hc)] at hw
  have h1 := congrArg State.flight hw
  have h2 := congrArg State.cols hw
  have h3 := congrArg State.mem hw
  have h4 := congrArg State.nextId hw
  have h5 := congrArg State.teams hw
  exact ⟨h1, h2, h3, h4, h5⟩

theorem pc_congr {s s' : State} {g : Nat} {b : Bool} (hc : s.cur = .slot g b) (hc' : s'.cur = .slot g b) (hgs : s'.groups = s.groups) : s'.pc = s.pc := by
  rw [pc_slot hc, pc_slot hc', grp, grp, hgs]

/-- Whether accesses are performed later depends on memory, tables and what is in progress alone. -/
theorem clash_congr {s u : State} (h1 : u.mem = s.mem) (h2 : u.ctxs = s.ctxs) (h3 : u.split = s.split) (h4 : u.flight = s.flight) (col core : Nat) (thr : Option Nat)
    (n : Nat) (load : Bool) (ps : List (Nat × Nat)) : u.clash col core thr n load ps = s.clash col core thr n load ps := by
  simp only [clash, h4, reqPieces, walkTable_congr h1 h2 h3]

theorem defers_advance {s : State} {g : Nat} {b : Bool} (hc : s.cur = .slot g b) (hg : s.hasGroup g = true) (load : Bool) (ps : List (Nat × Nat)) :
    s.advance.defers load ps = s.defers load ps := by
  obtain ⟨h1, h2, _⟩ := agent_advance hc hg
  have e1 : s.advance.late = s.late := adv_field hc _ fun _ => rfl
  have e2 : s.advance.nextId = s.nextId := adv_field hc _ fun _ => rfl
  have e3 : s.advance.myThr = s.myThr := by simp only [myThr, cur_advance]
  simp only [defers, h1, h2, e1, e2, e3]
  rw [clash_congr (adv_field hc _ fun _ => rfl) (adv_field hc _ fun _ => rfl) (adv_field hc _ fun _ => rfl) (adv_field hc _ fun _ => rfl)]

/-- An effect that places one thing, empties what `E` empties, and changes no more than columns beside. -/
theorem Passes.places {m : May} {s : State} {i : Instr} {f : Form} {body : State → Eff State} {g : Nat} {b : Bool} {it : Item} {C : List Column} {E : State → State}
    (ps : s.Passes f) (hc : s.cur = .slot g b) (hE : ∀ u : State, u.cur = .slot g b → u.Live → Moves m u (E u) ∧ (E u).pc = u.pc)
    (hEc : ∀ fl n, ({ E { s.advance with cols := C } with flight := fl, nextId := n } : State) = E { s.advance with cols := C, flight := fl, nextId := n })
    (hb : body s.advance = .ok ({ E { s.advance with cols := C } with flight := s.flight ++ [⟨s.nextId, it⟩], nextId := s.nextId + 1 } : State)) :
    ∃ (t v : State), s.issue i f body = .next t ∧ t.pc = s.pc + 4 ∧ t.flight = s.flight ++ [⟨s.nextId, it⟩] ∧ t.cols = C ∧ v.cur = .slot g b ∧ v.Live ∧ Kept {} (E v) t ∧
      Kept m { s with flight := t.flight, nextId := s.nextId + 1, cols := t.cols } t := by
  let s' : State := { s with flight := s.flight ++ [⟨s.nextId, it⟩], nextId := s.nextId + 1, cols := C }
  have hc' : s'.cur = .slot g b := hc
  have hpc : s'.pc = s.pc := (pc_slot hc').trans (pc_slot hc).symm
  have hs' : s'.advance = ({ s.advance with cols := C, flight := s.flight ++ [⟨s.nextId, it⟩], nextId := s.nextId + 1 } : State) := by
    rw [advance_slot hc, advance_slot hc', hpc]
    rfl
  have hl' : s'.Live := by
    have := ps.live
    simp only [Live, hc] at this
    simp only [Live, hc']
    exact this
  have hla := live_advance hl'
  have hca := (cur_advance s').trans hc'
  obtain ⟨m1, p1⟩ := hE s'.advance hca hla
  have hbody : body s.advance = .ok (E s'.advance) := by rw [hb, hs', hEc]
  obtain ⟨t, k1, k2, k3⟩ := ps.next (i := i) hbody (m1.live hla)
  have k4 : Kept m s' t := ((moves_advance hl').toKept.trans m1.toKept).trans k2.weaken
  obtain ⟨w1, w2, _⟩ := kept_fields k4 hc'
  refine ⟨t, s'.advance, k1, by rw [k3, p1, pc_advance hl', hpc], w1, w2, hca, hla, k2, ?_⟩
  rw [w1, w2]
  exact k4

theorem curGrp_of {s : State} {g : Nat} {b : Bool} (hc : s.cur = .slot g b) : s.curGrp = g := by simp only [curGrp, hc]

theorem emptyV_moves {g : Nat} {b : Bool} {d : Reg} (u : State) (hc : u.cur = .slot g b) (hl : u.Live) : Moves { v := [d.toNat] } u (u.emptyV d.toNat) ∧ (u.emptyV d.toNat).pc = u.pc := by
  have hg : u.hasGroup g = true := by simp only [Live, hc] at hl; exact hl.1
  refine ⟨moves_modV hc hg (by simp) _, ?_⟩
  simp only [emptyV, modV, curGrp, hc]
  exact pc_modImage (f := fun im => { im with v := vmod im.v d.toNat _ }) hc hg (fun _ => rfl) (fun _ => rfl)

theorem emptyV_full {g : Nat} {b : Bool} {d : Reg} (u t : State) (hc : u.cur = .slot g b) (hl : u.Live) (hk : Kept {} (u.emptyV d.toNat) t) : (t.vreg d.toNat).full = false := by
  have hg : u.hasGroup g = true := by simp only [Live, hc] at hl; exact hl.1
  rw [hk.vregs _ (by simp), emptyV, vreg_modV hc hg d.isLt]

/-- The agent that an effect keeps acts in the same place. -/
theorem agent_kept {m : May} {u v : State} {g : Nat} {b : Bool} (h : Kept m u v) (hc : u.cur = .slot g b) (hg : u.hasGroup g = true) :
    v.myCol = u.myCol ∧ v.myCore = u.myCore ∧ v.myTeam = u.myTeam := by
  have hcv : v.cur = .slot g b := h.agent.trans hc
  have hh := (h.husk hc hg).2
  have h1 := congrArg Group.col hh
  have h2 := congrArg Group.core hh
  have h3 := congrArg Group.team hh
  simp only [myCol, myCore, myTeam, hc, hcv]
  exact ⟨h1, h2, h3⟩

/-- A load into a v register. -/
theorem loadV_spec {s : State} {g : Nat} {b : Bool} {i : Instr} {f : Form} {space align n size : Nat} {inv : Bool} {d : Reg} {body : State → Eff State}
    {F : Nat → Nat → Req × List (Nat × Nat)} (hr : s.ReadyCore) (hc : s.cur = .slot g b) (ps : s.Passes f) (hsp : space ≠ 0)
    (hF : ∀ l e, (F l e).1.lane = l ∧ (F l e).1.sub = e ∧ (F l e).1.size = size) (hn : 0 < n) (hs : size * n ≤ 8)
    (hR : ∀ l ∈ s.lanes, ∀ e < n, s.Reaches space 0 align (F l e).1 (F l e).2)
    (hb : body s.advance = s.advance.loadV i space align inv d (s.lanes.flatMap fun l => (List.range n).map fun e => (F l e).1)) :
    (s.lanes = [] → ∃ t, s.issue i f body = .next t ∧ t.pc = s.pc + 4 ∧ Kept {} s t) ∧
    (s.lanes ≠ [] → (s.defers true (zipPieces (s.lanes.flatMap fun l => (List.range n).map (F l))) = false → ∃ t ls, s.issue i f body = .next t ∧ t.pc = s.pc + 4 ∧
      t.flight = s.flight ++ [⟨s.nextId, .result (.vreg g d.toNat) ls 0 none true⟩] ∧ (t.vreg d.toNat).full = false ∧ ls.map (·.lane) = s.lanes ∧
      (∀ y ∈ ls, (∀ e < n, ∀ i < size, s.Sees inv (homeByte (F y.lane e).2 i) (bitsOf y.val.toNat (8 * (size * e + i)) 8)) ∧
        s.Marked inv ((List.range n).flatMap fun e => (List.range size).map fun i => homeByte (F y.lane e).2 i) y.poison) ∧
      t.cols.map Column.noL1 = s.cols.map Column.noL1 ∧ Kept { v := [d.toNat] } { s with flight := t.flight, nextId := s.nextId + 1, cols := t.cols } t) ∧
      (s.defers true (zipPieces (s.lanes.flatMap fun l => (List.range n).map (F l))) = true → ∃ t, s.issue i f body = .next t ∧ t.pc = s.pc + 4 ∧
        t.flight = s.flight ++ [⟨s.nextId, s.lateItem g (.load inv) (lateAccs (s.lanes.flatMap fun l => (List.range n).map (F l)) (fun _ => 0) fun _ => 0)
          (some (.vreg g d.toNat))⟩] ∧ (t.vreg d.toNat).full = false ∧
        Kept { v := [d.toNat] } { s with flight := t.flight, nextId := s.nextId + 1 } t)) := by
  have hg := slot_of_core hr hc
  have hca : s.advance.cur = .slot g b := (cur_advance s).trans hc
  have hga : s.advance.hasGroup g = true := (hasGroup_advance hc).trans hg
  let xs := s.lanes.flatMap fun l => (List.range n).map (F l)
  have hxs : (s.lanes.flatMap fun l => (List.range n).map fun e => (F l e).1) = xs.map (·.1) := by
    simp only [xs, List.map_flatMap, List.map_map]; rfl
  have hxR : ∀ x ∈ xs, s.Reaches space 0 align x.1 x.2 := by
    intro x hx
    obtain ⟨l, hl, h1⟩ := List.mem_flatMap.1 hx
    obtain ⟨e, he, rfl⟩ := List.mem_map.1 h1
    exact hR l hl e (List.mem_range.1 he)
  have hxR' : ∀ x ∈ xs, s.advance.Reaches space 0 align x.1 x.2 := fun x hx => reaches_advance hr hc (hxR x hx)
  have hck : s.advance.checkReqs space 0 align (xs.map (·.1)) = .ok () := checkReqs_ok fun r h => by
    obtain ⟨x, hx, rfl⟩ := List.mem_map.1 h
    exact (hxR' x hx).toAllowed
  rw [hxs] at hb
  constructor
  · intro he
    have : xs = [] := by simp [xs, he]
    refine ps.skips (i := i) ?_
    rw [hb]
    simp only [loadV, bind, Except.bind, hck]
    simp [this]
  · intro he
    have hne : (xs.map (·.1)).isEmpty = false := by
      cases hls : s.lanes with
      | nil => exact absurd hls he
      | cons l ls => cases n with
        | zero => omega
        | succ n => simp [xs, hls, List.range_succ_eq_map]
    obtain ⟨rd, hp⟩ := readAll_spec (s := s.advance) (inv := inv) ((onCore_advance s).trans hr.core) xs s.advance (.refl ..)
      fun x hx => translateSpan_sum (hxR' x hx).homes
    generalize hU : s.advance.readAll inv xs = U at rd hp
    obtain ⟨hm1, hm2, _⟩ := agent_advance hc hg
    have hsee : ∀ a, s.advance.l1Byte s.myCol s.myCore a inv = s.l1Byte s.myCol s.myCore a inv ∧ s.advance.l1Poisoned s.myCol s.myCore a inv = s.l1Poisoned s.myCol s.myCore a inv ∧ s.advance.mem = s.mem := by
      intro a
      have e3 : s.advance.cols = s.cols := adv_field hc _ fun _ => rfl
      have e4 : s.advance.mem = s.mem := adv_field hc _ fun _ => rfl
      simp only [l1Byte, l1Poisoned, core, col, e3, e4, and_self]
    have hp' : Both (PieceOf s inv) xs U.2 := Both.mono (fun x p h => ⟨h.1, h.2.1, h.2.2.1, by
      have := h.2.2.2
      rw [hm1, hm2] at this
      refine ⟨this.lt, fun i hi => ?_, this.mark, fun hcl => this.clean fun i hi => ?_, fun hmk => this.marked ?_⟩
      · have e1 : s.advance.nextId = s.nextId := adv_field hc _ fun _ => rfl
        exact (e1 ▸ this.bytes i hi).congr (adv_field hc _ fun _ => rfl) (hsee 0).2.2 (adv_field hc _ fun _ => rfl)
      · rw [(hsee _).2.1, (hsee 0).2.2]; exact hcl i hi
      · obtain ⟨i, hi, h1, h2⟩ := hmk
        exact ⟨i, hi, by rw [(hsee 0).2.2]; exact h1, by rw [(hsee _).2.1]; exact h2⟩⟩) hp
    have hd : s.lanes.Nodup := List.nodup_range.filter _
    obtain ⟨g1, g2⟩ := gather_spec (F := F) hF (rising_lanes s) hd hn hs hp'
    have hstrike : s.advance.strikeOf i = none := by
      have hk : einjKind s.advance.me = 0 := by
        rw [me_slot hca, grp_advance hc hg]
        have := hr.calm hr.core
        rw [me_slot hc] at this
        exact this
      simp [strikeOf, einjMatches, hk]
    obtain ⟨C, hC⟩ : ∃ C, U.1.cols = C := ⟨_, rfl⟩
    have hU1 : U.1 = { s.advance with cols := C } := by rw [← hC, ← rd.rest]
    have hd0 : s.advance.defers true (zipPieces xs) = s.defers true (zipPieces xs) := defers_advance hc hg _ _
    refine ⟨fun hdf => ?_, fun hdf => ?_⟩
    · have hbody : body s.advance = .ok ({ ({ s.advance with cols := C } : State).emptyV d.toNat with
          flight := s.flight ++ [⟨s.nextId, .result (.vreg g d.toNat) (gatherLanes U.2) 0 none true⟩], nextId := s.nextId + 1 } : State) := by
        have hu : (U.1.emptyV d.toNat).placeResult (.vreg g d.toNat) (gatherLanes U.2) none true = { ({ s.advance with cols := C } : State).emptyV d.toNat with
            flight := s.flight ++ [⟨s.nextId, .result (.vreg g d.toNat) (gatherLanes U.2) 0 none true⟩], nextId := s.nextId + 1 } := by
          rw [hU1]
          generalize hw : ({ s.advance with cols := C } : State).emptyV d.toNat = w
          have e1 : w.flight = s.flight := by rw [← hw]; exact adv_field hc State.flight fun _ => rfl
          have e2 : w.nextId = s.nextId := by rw [← hw]; exact adv_field hc State.nextId fun _ => rfl
          simp only [placeResult, strikeLanes, place, e1, e2]
        rw [← hu, hb, loadV]
        simp only [bind, Except.bind, hck, hne, Bool.false_eq_true, if_false, hsp]
        rw [homes_ok hxR']
        simp only [zip_maps, hU, hd0, show s.defers true (zipPieces xs) = false from hdf, Bool.false_eq_true, if_false, hstrike, destV, curGrp, hca]
      obtain ⟨t, v, k1, k2, k3, k4, k5, k6, k7, k8⟩ := ps.places (i := i) (C := C) (E := fun u => u.emptyV d.toNat) hc (emptyV_moves (d := d)) (fun _ _ => rfl) hbody
      refine ⟨t, gatherLanes U.2, k1, k2, k3, emptyV_full v t k5 k6 k7, g1, fun y hy => (g2 y hy).2, ?_, k8⟩
      rw [k4, ← hC]
      have := rd.cols
      have e3 : s.advance.cols = s.cols := adv_field hc _ fun _ => rfl
      rw [e3] at this
      exact this
    · have hbody : body s.advance = .ok ({ ({ s.advance with cols := s.cols } : State).emptyV d.toNat with
          flight := s.flight ++ [⟨s.nextId, s.lateItem g (.load inv) (lateAccs xs (fun _ => 0) fun _ => 0) (some (.vreg g d.toNat))⟩], nextId := s.nextId + 1 } : State) := by
        obtain ⟨m1, m2, m3⟩ := agent_kept (emptyV_moves (d := d) s.advance hca (live_advance (live_of_canIssue hr.issues))).1.toKept hca hga
        have hu : (s.advance.emptyV d.toNat).placeLate (.load inv) (lateAccs xs (fun _ => 0) fun _ => 0) (some (.vreg g d.toNat)) none =
            { ({ s.advance with cols := s.cols } : State).emptyV d.toNat with
              flight := s.flight ++ [⟨s.nextId, s.lateItem g (.load inv) (lateAccs xs (fun _ => 0) fun _ => 0) (some (.vreg g d.toNat))⟩], nextId := s.nextId + 1 } := by
          have e3 : ({ s.advance with cols := s.cols } : State) = s.advance := by
            rw [← show s.advance.cols = s.cols from adv_field hc _ fun _ => rfl]
          rw [e3]
          have e4 : (s.advance.emptyV d.toNat).cur = .slot g b := hca
          have e1 : (s.advance.emptyV d.toNat).flight = s.flight := adv_field hc State.flight fun _ => rfl
          have e2 : (s.advance.emptyV d.toNat).nextId = s.nextId := adv_field hc State.nextId fun _ => rfl
          simp only [placeLate, place, m1, m2, hm1, hm2, myThr, myGrp, e4, e1, e2, lateItem]
        rw [← hu, hb, loadV]
        simp only [bind, Except.bind, hck, hne, Bool.false_eq_true, if_false, hsp]
        rw [homes_ok hxR']
        simp only [zip_maps, hd0, show s.defers true (zipPieces xs) = true from hdf, if_true, hstrike, destV, curGrp, hca]
      obtain ⟨t, v, k1, k2, k3, k4, k5, k6, k7, k8⟩ := ps.places (i := i) (C := s.cols) (E := fun u => u.emptyV d.toNat) hc (emptyV_moves (d := d)) (fun _ _ => rfl) hbody
      refine ⟨t, k1, k2, k3, emptyV_full v t k5 k6 k7, ?_⟩
      rw [k4] at k8
      exact k8

end State

end Sys2Proof.Machine
end

