-- ==== Sys2Proof/Laws/Stores.lean ====
section
/-! SUPPORT. What stores of several accesses leave in memory: the last writer of each byte, the read-only bytes of queue descriptors, the L1 copies (R157, R159, R283, R156). -/

namespace Sys2Proof.Machine

open Sys2Proof

/-- Bytes put one after another. -/
def Memory.putL (m : Memory) (l : List (Nat × Byte)) : Memory := l.foldl (fun m q => m.put q.1 q.2) m

namespace Memory

theorem putL_wf : ∀ {l : List (Nat × Byte)} {m : Memory}, m.wf = true → (m.putL l).wf = true
  | [], _, h => h
  | q :: l, m, h => putL_wf (l := l) (m := m.put q.1 q.2) (put_wf h)

theorem putL_append (m : Memory) (a b : List (Nat × Byte)) : m.putL (a ++ b) = (m.putL a).putL b := by simp only [putL, List.foldl_append]

theorem byte_putL_other {x : Nat} : ∀ {l : List (Nat × Byte)} {m : Memory}, (∀ q ∈ l, q.1 ≠ x) → (m.putL l).byte x = m.byte x
  | [], _, _ => rfl
  | q :: l, m, h => by
    have : (m.putL (q :: l)) = (m.put q.1 q.2).putL l := rfl
    rw [this, byte_putL_other fun r hr => h r (by simp [hr]), byte_put_other fun e => h q (by simp) e.symm]

/-- A byte reads as its last writer left it. -/
theorem byte_putL_last {m : Memory} {a c : List (Nat × Byte)} {x : Nat} {b : Byte} (hm : m.wf = true) (h : ∀ q ∈ c, q.1 ≠ x) : (m.putL (a ++ (x, b) :: c)).byte x = b := by
  rw [putL_append]
  have : (m.putL a).putL ((x, b) :: c) = ((m.putL a).put x b).putL c := rfl
  rw [this, byte_putL_other h, byte_put_same (putL_wf hm)]

/-- The bytes of a piece with their addresses. -/
def flat (p : Nat × List Byte) : List (Nat × Byte) := (List.range p.2.length).map fun i => (p.1 + i, p.2.getD i 0)

theorem putBytes_flat : ∀ (bs : List Byte) (m : Memory) (a : Nat), m.putBytes a bs = m.putL ((List.range bs.length).map fun i => (a + i, bs.getD i 0))
  | [], _, _ => rfl
  | b :: bs, m, a => by
    rw [putBytes, putBytes_flat bs, List.length_cons, List.range_succ_eq_map, List.map_cons, List.map_map]
    have : (m.putL ((a + 0, (b :: bs).getD 0 0) :: ((List.range bs.length).map ((fun i => (a + i, (b :: bs).getD i 0)) ∘ Nat.succ)))) =
        (m.put a b).putL ((List.range bs.length).map ((fun i => (a + i, (b :: bs).getD i 0)) ∘ Nat.succ)) := rfl
    rw [this]
    congr 1
    apply List.map_congr_left
    intro i _
    simp [Nat.add_assoc, Nat.add_comm 1 i, List.getD]

theorem putAll_flat : ∀ (ps : List (Nat × List Byte)) (m : Memory), m.putAll ps = m.putL (ps.flatMap flat)
  | [], _ => rfl
  | p :: ps, m => by
    have h1 : m.putAll (p :: ps) = (m.putBytes p.1 p.2).putAll ps := rfl
    rw [h1, putAll_flat ps, putBytes_flat, List.flatMap_cons, putL_append]
    rfl

end Memory

namespace State

/-- The bytes of an access, cut over its pieces, lie at their homes. -/
theorem flat_cut : ∀ (ps : List (Nat × Nat)) (bs : List Byte), bs.length = (ps.map (·.2)).sum →
    (cutBytes ps bs).flatMap Memory.flat = (List.range bs.length).map fun i => (homeByte ps i, bs.getD i 0)
  | [], bs, h => by
    have : bs = [] := List.length_eq_zero_iff.1 (by simpa using h)
    subst this; rfl
  | p :: ps, bs, h => by
    simp only [List.map_cons, List.sum_cons] at h
    have hd : (bs.drop p.2).length = (ps.map (·.2)).sum := by rw [List.length_drop]; omega
    simp only [cutBytes, List.flatMap_cons, flat_cut ps _ hd, Memory.flat]
    have hl : (bs.take p.2).length = p.2 := by rw [List.length_take]; omega
    rw [hl, List.length_drop]
    apply List.ext_getElem
    · simp; omega
    · intro i h1 h2
      simp only [List.length_append, List.length_map, List.length_range] at h1
      by_cases hi : i < p.2
      · rw [List.getElem_append_left (by simpa using hi)]
        simp only [List.getElem_map, List.getElem_range, homeByte, hi, if_true, List.getD, List.getElem?_take_of_lt hi]
      · rw [List.getElem_append_right (by simpa using hi)]
        simp only [List.getElem_map, List.getElem_range, List.length_map, List.length_range, homeByte, hi, if_false, List.getD, List.getElem?_drop]
        rw [Nat.add_sub_cancel' (by omega)]

theorem noL1_fold (col core : Nat) (ps : List (Nat × List Byte)) (s : State) : (s.l1Store col core ps).cols.map Column.noL1 = s.cols.map Column.noL1 := noL1_l1Store s col core ps

/-- Putting the read-only bits of queue descriptors back changes those bits of the bytes it looks at, and keeps the form of memory (R283). -/
theorem keepRo_fold (s : State) (old : Memory) (x : Nat) : ∀ (l : List Nat) (m : Memory), m.wf = true →
    let r := l.foldl (fun m a =>
      if s.roByte a then m.put a (old.byte a)
      else if s.roHalf a then m.put a (BitVec.ofNat 8 ((m.byte a).toNat % 16 + (old.byte a).toNat / 16 * 16))
      else m) m
    r.wf = true ∧ r.byte x = if x ∈ l then (if s.roByte x then old.byte x
      else if s.roHalf x then BitVec.ofNat 8 ((m.byte x).toNat % 16 + (old.byte x).toNat / 16 * 16) else m.byte x) else m.byte x := by
  intro l
  induction l with
  | nil => intro m hm; exact ⟨hm, by simp⟩
  | cons a l ih =>
    intro m hm
    simp only [List.foldl_cons, List.mem_cons]
    by_cases h1 : s.roByte a = true
    · obtain ⟨k1, k2⟩ := ih (m.put a (old.byte a)) (Memory.put_wf hm)
      simp only [h1, if_true]
      refine ⟨k1, k2.trans ?_⟩
      by_cases hx : x = a
      · subst hx
        simp [h1, Memory.byte_put_same hm]
      · simp only [hx, false_or, Memory.byte_put_other hx]
    · by_cases h2 : s.roHalf a = true
      · obtain ⟨k1, k2⟩ := ih (m.put a (BitVec.ofNat 8 ((m.byte a).toNat % 16 + (old.byte a).toNat / 16 * 16))) (Memory.put_wf hm)
        simp only [h1, Bool.false_eq_true, if_false, h2, if_true]
        refine ⟨k1, k2.trans ?_⟩
        by_cases hx : x = a
        · subst hx
          have e : ((m.byte x).toNat % 16 + (old.byte x).toNat / 16 * 16) % 256 % 16 = (m.byte x).toNat % 16 := by omega
          simp only [h1, h2, Bool.false_eq_true, if_false, if_true, true_or, Memory.byte_put_same hm, BitVec.toNat_ofNat, Nat.reducePow, e, ite_self]
        · simp only [hx, false_or, Memory.byte_put_other hx]
      · obtain ⟨k1, k2⟩ := ih m hm
        simp only [h1, h2, Bool.false_eq_true, if_false]
        refine ⟨k1, k2.trans ?_⟩
        by_cases hx : x = a
        · subst hx
          simp only [h1, h2, Bool.false_eq_true, if_false, ite_self]
        · simp only [hx, false_or]

/-- The bytes that a store's read-only check looks at are those it writes. -/
theorem mem_spans {ps : List (Nat × List Byte)} {x : Nat} :
    x ∈ ((ps.map fun p => (p.1, p.2.length)).flatMap fun p => (List.range p.2).map fun i => p.1 + i) ↔ ∃ q ∈ ps.flatMap Memory.flat, q.1 = x := by
  simp only [List.mem_flatMap, List.mem_map, List.mem_range, Memory.flat]
  constructor
  · rintro ⟨_, ⟨p, hp, rfl⟩, i, hi, rfl⟩
    exact ⟨_, ⟨p, hp, i, hi, rfl⟩, rfl⟩
  · rintro ⟨_, ⟨p, hp, i, hi, rfl⟩, rfl⟩
    exact ⟨_, ⟨p, hp, rfl⟩, i, hi, rfl⟩

/-- What a store at homes leaves of each byte. -/
theorem byte_storeHome {s : State} {ps : List (Nat × List Byte)} {c : Bool} (hm : s.mem.wf = true) (x : Nat) :
    (s.storeHome ps c).mem.byte x = if (∃ q ∈ ps.flatMap Memory.flat, q.1 = x) then (if s.roByte x then s.mem.byte x
      else if s.roHalf x then BitVec.ofNat 8 (((s.mem.store ps c).byte x).toNat % 16 + (s.mem.byte x).toNat / 16 * 16) else (s.mem.store ps c).byte x)
      else (s.mem.store ps c).byte x := by
  have h := (keepRo_fold s s.mem x ((ps.map fun p => (p.1, p.2.length)).flatMap fun p => (List.range p.2).map fun i => p.1 + i) (s.mem.store ps c)
    (Memory.store_wf hm)).2
  simp only [storeHome, keepRo]
  refine h.trans ?_
  simp only [mem_spans]

theorem storeHome_wf {s : State} {ps : List (Nat × List Byte)} {c : Bool} (hm : s.mem.wf = true) : (s.storeHome ps c).mem.wf = true :=
  (keepRo_fold s s.mem 0 _ (s.mem.store ps c) (Memory.store_wf hm)).1

theorem byte_storeHome_other {s : State} {ps : List (Nat × List Byte)} {c : Bool} {x : Nat} (hm : s.mem.wf = true)
    (h : (∀ q ∈ ps.flatMap Memory.flat, q.1 ≠ x) ∨ s.roByte x = true) : (s.storeHome ps c).mem.byte x = s.mem.byte x := by
  rw [byte_storeHome hm]
  by_cases hx : ∃ q ∈ ps.flatMap Memory.flat, q.1 = x
  · have hr : s.roByte x = true := h.resolve_left fun h => hx.elim fun q hq => h q hq.1 hq.2
    rw [if_pos hx, if_pos hr]
  · rw [if_neg hx, Memory.byte_store, Memory.putAll_flat]
    exact Memory.byte_putL_other fun q hq e => hx ⟨q, hq, e⟩

/-- The byte that its last writer leaves: of the byte above `LOG2SZ` the low half (Table 17-1). -/
theorem byte_storeHome_last {s : State} {ps : List (Nat × List Byte)} {c : Bool} {x : Nat} {b : Byte} {as cs : List (Nat × Byte)} (hm : s.mem.wf = true)
    (hr : s.roByte x = false) (hp : ps.flatMap Memory.flat = as ++ (x, b) :: cs) (h : ∀ q ∈ cs, q.1 ≠ x) :
    ((s.storeHome ps c).mem.byte x).toNat = if s.roHalf x = true then b.toNat % 16 + (s.mem.byte x).toNat / 16 * 16 else b.toNat := by
  have hb : (s.mem.store ps c).byte x = b := by rw [Memory.byte_store, Memory.putAll_flat, hp, Memory.byte_putL_last hm h]
  rw [byte_storeHome hm, if_pos ⟨(x, b), by rw [hp]; simp, rfl⟩, hr, hb]
  simp only [Bool.false_eq_true, if_false]
  split
  · have := (s.mem.byte x).isLt
    rw [BitVec.toNat_ofNat]
    omega
  · rfl

/-- A list split at a member, where what follows stands in a relation to it. -/
theorem pairwise_split {α : Type} {R : α → α → Prop} {l : List α} (h : l.Pairwise R) {x : α} (hx : x ∈ l) : ∃ a c, l = a ++ x :: c ∧ ∀ y ∈ c, R x y := by
  obtain ⟨a, c, rfl⟩ := List.append_of_mem hx
  exact ⟨a, c, rfl, fun y hy => (List.pairwise_cons.1 (List.pairwise_append.1 h).2.1).1 y hy⟩

theorem byte_leBytes : ∀ (n x i : Nat), i < n → ((leBytes n x).getD i 0).toNat = bitsOf x (8 * i) 8
  | 0, _, _, h => by omega
  | n + 1, x, 0, _ => by simp [leBytes, List.getD, bitsOf]
  | n + 1, x, i + 1, h => by
    have ih := byte_leBytes n (x / 256) i (by omega)
    simp only [leBytes, List.getD, List.getElem?_cons_succ] at ih ⊢
    rw [ih, bitsOf, bitsOf, Nat.div_div_eq_div_mul, show 8 * (i + 1) = 8 + 8 * i by omega, Nat.pow_add]

theorem mem_linesOf {P : List (Nat × List Byte)} {z : Nat} : z ∈ Memory.linesOf P ↔ ∃ q ∈ P.flatMap Memory.flat, z = lineOf q.1 := by
  simp only [Memory.linesOf, mem_foldl_setPut, List.mem_flatMap, mem_spanLines, List.not_mem_nil, or_false, Memory.flat, List.mem_map, List.mem_range]
  constructor
  · rintro ⟨p, hp, j, hj, rfl⟩
    exact ⟨_, ⟨p, hp, j, hj, rfl⟩, rfl⟩
  · rintro ⟨q, ⟨p, hp, j, hj, rfl⟩, rfl⟩
    exact ⟨p, hp, j, hj, rfl⟩

theorem flatMap_eq {α β : Type} {f g : α → List β} : ∀ {l : List α}, (∀ x ∈ l, f x = g x) → l.flatMap f = l.flatMap g
  | [], _ => rfl
  | x :: l, h => by rw [List.flatMap_cons, List.flatMap_cons, h x (by simp), flatMap_eq fun y hy => h y (by simp [hy])]

/-- The rule of R350 for one group. -/
def sealG (lines : List Nat) (y : Group) : Group := match y.regions with
  | [] => y
  | r :: _ => if (lines.all fun z => r.undo.any fun v => decide (v.line = z)) = true then y
    else { y with regions := y.regions.map fun r => if r.idem then r else { r with sealed := true } }

theorem sealStore_eq (s : State) (g : Nat) (lines : List Nat) : s.sealStore g lines = s.modGroup g (sealG lines) := by
  simp only [sealStore]
  congr 1
  funext x
  simp only [sealG]
  cases h : x.regions with
  | nil => rfl
  | cons r rs => simp only

theorem sealG_id (lines : List Nat) (x : Group) : (sealG lines x).id = x.id ∧ (sealG lines x).image = x.image ∧ (sealG lines x).privileged = x.privileged := by
  simp only [sealG]
  repeat' split
  all_goals trivial

/-- A store of a group at homes. -/
theorem storeGroup_spec {s : State} {g : Nat} {b : Bool} {i : Instr} {f : Form} {body : State → Eff State} {P : List (Nat × List Byte)} (ps : s.Passes f) (hr : s.ReadyCore)
    (hc : s.cur = .slot g b) (hb : body s.advance = .ok (s.advance.storeGroup P)) :
    ∃ t, s.issue i f body = .next t ∧ t.pc = s.pc + 4 ∧ t.mem = (s.storeHome P false).mem ∧ t.cols.map Column.noL1 = s.cols.map Column.noL1 ∧
      Kept {} (let u := s.advance.modGroup g (sealG (Memory.linesOf P)); { u with mem := t.mem, cols := t.cols }) t := by
  have hg := slot_of_core hr hc
  have hl := live_of_canIssue hr.issues
  have hca : s.advance.cur = .slot g b := (cur_advance s).trans hc
  let v : State := (s.advance.storeHome P false).l1Store s.advance.myCol s.advance.myCore P
  have hcv : v.cur = .slot g b := hca
  have hgv : v.groups = s.advance.groups := rfl
  have hlv : v.Live := by
    have := live_advance hl
    simp only [Live, hca] at this
    simp only [Live, hcv, hasGroup, grp, hgv]
    exact this
  have hu : s.advance.storeGroup P = v.modGroup g (sealG (Memory.linesOf P)) := by
    have : s.advance.storeGroup P = v.sealStore v.curGrp (Memory.linesOf P) := rfl
    rw [this, sealStore_eq, curGrp, hcv]
  obtain ⟨h1, h2⟩ := live_modGroup (f := sealG (Memory.linesOf P)) hcv hlv (fun x => (sealG_id _ x).1) (fun x => by rw [(sealG_id _ x).2.1]) (fun x => (sealG_id _ x).2.2)
  obtain ⟨t, k1, k2, k3⟩ := ps.next (i := i) (hb.trans (congrArg Except.ok hu)) h1
  have hcu : (v.modGroup g (sealG (Memory.linesOf P))).cur = .slot g b := hcv
  obtain ⟨w1, w2, w3, _⟩ := kept_fields k2 hcu
  have e4 : s.advance.mem = s.mem := adv_field hc _ fun _ => rfl
  have e3 : s.advance.cols = s.cols := adv_field hc _ fun _ => rfl
  have e5 : s.advance.record = s.record := adv_field hc _ fun _ => rfl
  have hmem : v.mem = (s.storeHome P false).mem := by
    show (s.advance.storeHome P false).mem = _
    simp only [storeHome, keepRo, roByte, roHalf, e4, e5]
    rfl
  refine ⟨t, k1, ?_, ?_, ?_, ?_⟩
  · rw [k3, h2, pc_congr hca hcv hgv, pc_advance hl]
  · rw [w3]; exact hmem
  · rw [w2]
    show (((s.advance.storeHome P false).l1Store s.advance.myCol s.advance.myCore P).cols).map Column.noL1 = _
    rw [noL1_l1Store]
    show s.advance.cols.map Column.noL1 = _
    rw [e3]
  · have : (let u := s.advance.modGroup g (sealG (Memory.linesOf P)); { u with mem := t.mem, cols := t.cols }) = v.modGroup g (sealG (Memory.linesOf P)) := by
      rw [w2, w3]; rfl
    rw [this]; exact k2

/-- A store of a group whose accesses are performed later: it seals at once (R264, R350). -/
theorem storeLater_spec {s : State} {g : Nat} {b : Bool} {i : Instr} {f : Form} {body : State → Eff State} {xs : List (Req × List (Nat × Nat))} {data : Req → Nat} {P : List (Nat × List Byte)}
    (ps : s.Passes f) (hr : s.ReadyCore) (hc : s.cur = .slot g b)
    (hb : body s.advance = .ok ((s.advance.placeLate .store (lateAccs xs data fun _ => 0) none none).sealStore s.advance.curGrp (Memory.linesOf P))) :
    ∃ t, s.issue i f body = .next t ∧ t.pc = s.pc + 4 ∧ t.flight = s.flight ++ [⟨s.nextId, s.lateItem g .store (lateAccs xs data fun _ => 0) none⟩] ∧
      Kept {} (let u := s.advance.modGroup g (sealG (Memory.linesOf P)); { u with flight := t.flight, nextId := s.nextId + 1 }) t := by
  have hg := slot_of_core hr hc
  have hca : s.advance.cur = .slot g b := (cur_advance s).trans hc
  obtain ⟨m1, m2, _⟩ := agent_advance hc hg
  have e1 : s.advance.flight = s.flight := adv_field hc _ fun _ => rfl
  have e2 : s.advance.nextId = s.nextId := adv_field hc _ fun _ => rfl
  let v : State := { s.advance with flight := s.flight ++ [⟨s.nextId, s.lateItem g .store (lateAccs xs data fun _ => 0) none⟩], nextId := s.nextId + 1 }
  have hv : s.advance.placeLate .store (lateAccs xs data fun _ => 0) none none = v := by
    simp only [placeLate, place, m1, m2, e1, e2, myThr, myGrp, hca, v, lateItem]
  have hgv : v.groups = s.advance.groups := rfl
  have hcv : v.cur = .slot g b := hca
  have hlv : v.Live := by
    have := live_advance (live_of_canIssue hr.issues)
    simp only [Live, hca] at this
    simp only [Live, hcv, hasGroup, grp, hgv]
    exact this
  obtain ⟨h1, h2⟩ := live_modGroup (f := sealG (Memory.linesOf P)) hcv hlv (fun x => (sealG_id _ x).1) (fun x => by rw [(sealG_id _ x).2.1]) (fun x => (sealG_id _ x).2.2)
  rw [hv, sealStore_eq, curGrp_of hca] at hb
  obtain ⟨t, k1, k2, k3⟩ := ps.next (i := i) hb h1
  have hcu : (v.modGroup g (sealG (Memory.linesOf P))).cur = .slot g b := hcv
  obtain ⟨w1, _⟩ := kept_fields k2 hcu
  refine ⟨t, k1, by rw [k3, h2, pc_congr hca hcv hgv, pc_advance (live_of_canIssue hr.issues)], w1, ?_⟩
  rw [w1]
  exact k2

theorem storeV_spec {s : State} {g : Nat} {b : Bool} {i : Instr} {f : Form} {space align n size : Nat} {body : State → Eff State} {lanes : Word}
    {F : Nat → Nat → Req × List (Nat × Nat)} {D : Nat → Nat → Nat} {data : Req → Nat} {ls : List Nat} (hr : s.ReadyCore) (hc : s.cur = .slot g b) (ps : s.Passes f) (hsp : space ≠ 0)
    (hm : s.mem.wf = true) (hF : ∀ l e, (F l e).1.size = size) (hD : ∀ l e, data (F l e).1 = D l e) (hn : 0 < n) (hls : ls.Pairwise (· < ·))
    (hR : ∀ l ∈ ls, ∀ e < n, s.Reaches space 1 align (F l e).1 (F l e).2)
    (hb : body s.advance = s.advance.storeV i space align (ls.flatMap fun l => (List.range n).map fun e => (F l e).1) data lanes) :
    let stored := fun (l e i y : Nat) => l ∈ ls ∧ e < n ∧ i < size ∧ y = homeByte (F l e).2 i
    let later := fun (l e i l' e' i' : Nat) => l < l' ∨ (l = l' ∧ (e < e' ∨ (e = e' ∧ i < i')))
    let xs := ls.flatMap fun l => (List.range n).map (F l)
    (ls = [] → ∃ t, s.issue i f body = .next t ∧ t.pc = s.pc + 4 ∧ Kept {} s t) ∧
    (ls ≠ [] → ∃ (t : State) (lines : List Nat), s.issue i f body = .next t ∧ t.pc = s.pc + 4 ∧ (∀ z, z ∈ lines ↔ ∃ l e i y, stored l e i y ∧ z = lineOf y) ∧
      (s.defers false (zipPieces xs) = false →
      (∀ l e i y, stored l e i y → s.roByte y = false → (∀ l' e' i', stored l' e' i' y → ¬ later l e i l' e' i') →
        (t.mem.byte y).toNat = let z := bitsOf (D l e) (8 * i) 8
          if s.roHalf y = true then z % 16 + (s.mem.byte y).toNat / 16 * 16 else z) ∧
      (∀ y, (∀ l e i, ¬ stored l e i y) ∨ s.roByte y = true → t.mem.byte y = s.mem.byte y) ∧
      t.cols.map Column.noL1 = s.cols.map Column.noL1 ∧
      Kept {} (let u := s.advance.modGroup g (sealG lines); { u with mem := t.mem, cols := t.cols }) t) ∧
      (s.defers false (zipPieces xs) = true → t.flight = s.flight ++ [⟨s.nextId, s.lateItem g .store (lateAccs xs data fun _ => 0) none⟩] ∧
        Kept {} (let u := s.advance.modGroup g (sealG lines); { u with flight := t.flight, nextId := s.nextId + 1 }) t)) := by
  intro stored later xs
  have hg := slot_of_core hr hc
  have hxs : (ls.flatMap fun l => (List.range n).map fun e => (F l e).1) = xs.map (·.1) := by
    simp only [xs, List.map_flatMap, List.map_map]; rfl
  have hxR' : ∀ x ∈ xs, s.advance.Reaches space 1 align x.1 x.2 ∧ x.1.size = size := by
    intro x hx
    obtain ⟨l, hl, h1⟩ := List.mem_flatMap.1 hx
    obtain ⟨e, he, rfl⟩ := List.mem_map.1 h1
    exact ⟨reaches_advance hr hc (hR l hl e (List.mem_range.1 he)), hF l e⟩
  have hck : s.advance.checkReqs space 1 align (xs.map (·.1)) = .ok () := checkReqs_ok fun r h => by
    obtain ⟨x, hx, rfl⟩ := List.mem_map.1 h
    exact (hxR' x hx).1.toAllowed
  rw [hxs] at hb
  constructor
  · intro he
    have : xs = [] := by simp [xs, he]
    refine ps.skips (i := i) ?_
    rw [hb]
    simp only [storeV, bind, Except.bind, hck]
    simp [this]
  · intro he
    have hne : (xs.map (·.1)).isEmpty = false := by
      cases h : ls with
      | nil => exact absurd h he
      | cons l ls => cases n with
        | zero => omega
        | succ n => simp [xs, h, List.range_succ_eq_map]
    let P := xs.flatMap fun x => cutBytes x.2 (leBytes x.1.size (data x.1))
    have hd0 : s.advance.defers false (zipPieces xs) = s.defers false (zipPieces xs) := defers_advance hc hg _ _
    have hbody : body s.advance = .ok (s.advance.storeOrLate xs data) := by
      rw [hb, storeV]
      simp only [bind, Except.bind, hck, hne, Bool.false_eq_true, if_false, hsp]
      rw [homes_ok fun x hx => (hxR' x hx).1]
      simp only [zip_maps]
    let T := ls.flatMap fun l => (List.range n).flatMap fun e => (List.range size).map fun i => (l, e, i)
    let Q : Nat × Nat × Nat → Nat × Byte := fun t => (homeByte (F t.1 t.2.1).2 t.2.2, (leBytes size (D t.1 t.2.1)).getD t.2.2 0)
    have hflat : P.flatMap Memory.flat = T.map Q := by
      simp only [P, xs, T, List.flatMap_assoc, List.map_flatMap, List.flatMap_map, List.map_map]
      apply flatMap_eq
      intro l hl
      apply flatMap_eq
      intro e he
      have h1 := (hxR' (F l e) (List.mem_flatMap.2 ⟨l, hl, List.mem_map.2 ⟨e, he, rfl⟩⟩)).1.homes
      rw [flat_cut, leBytes_length]
      · rw [hF, hD]; rfl
      · rw [leBytes_length, translateSpan_sum h1]
    have hT : ∀ t, t ∈ T ↔ stored t.1 t.2.1 t.2.2 (Q t).1 := by
      intro ⟨l, e, i⟩
      simp only [T, List.mem_flatMap, List.mem_map, List.mem_range, Prod.mk.injEq]
      exact ⟨fun ⟨l', h1, e', h2, i', h3, h4, h5, h6⟩ => by subst h4 h5 h6; exact ⟨h1, h2, h3, rfl⟩, fun ⟨h1, h2, h3, _⟩ => ⟨l, h1, e, h2, i, h3, rfl, rfl, rfl⟩⟩
    have hpw : T.Pairwise fun a c => later a.1 a.2.1 a.2.2 c.1 c.2.1 c.2.2 := by
      simp only [T]
      rw [List.pairwise_flatMap]
      refine ⟨fun l _ => ?_, hls.imp fun {l l'} h x hx y hy => ?_⟩
      · rw [List.pairwise_flatMap]
        refine ⟨fun e _ => ?_, List.pairwise_lt_range.imp fun {e e'} h x hx y hy => ?_⟩
        · rw [List.pairwise_map]
          exact List.pairwise_lt_range.imp fun h => .inr ⟨rfl, .inr ⟨rfl, h⟩⟩
        · obtain ⟨_, _, rfl⟩ := List.mem_map.1 hx
          obtain ⟨_, _, rfl⟩ := List.mem_map.1 hy
          exact .inr ⟨rfl, .inl h⟩
      · obtain ⟨_, _, hx⟩ := List.mem_flatMap.1 hx
        obtain ⟨_, _, rfl⟩ := List.mem_map.1 hx
        obtain ⟨_, _, hy⟩ := List.mem_flatMap.1 hy
        obtain ⟨_, _, rfl⟩ := List.mem_map.1 hy
        exact .inl h
    have hlines : ∀ z, z ∈ Memory.linesOf P ↔ ∃ l e i y, stored l e i y ∧ z = lineOf y := by
      intro z
      rw [mem_linesOf, hflat]
      constructor
      · rintro ⟨q, hq, rfl⟩
        obtain ⟨c, hcT, rfl⟩ := List.mem_map.1 hq
        exact ⟨c.1, c.2.1, c.2.2, _, (hT c).1 hcT, rfl⟩
      · rintro ⟨l, e, i, y, hst, rfl⟩
        exact ⟨Q (l, e, i), List.mem_map.2 ⟨_, (hT _).2 ⟨hst.1, hst.2.1, hst.2.2.1, rfl⟩, rfl⟩, by rw [hst.2.2.2]⟩
    cases hdf : s.defers false (zipPieces xs) with
    | true =>
      simp only [storeOrLate, hd0, hdf, if_true] at hbody
      obtain ⟨t, k1, k2, k3, k4⟩ := storeLater_spec (i := i) ps hr hc hbody
      exact ⟨t, Memory.linesOf P, k1, k2, hlines, fun h => Bool.noConfusion h, fun _ => ⟨k3, k4⟩⟩
    | false =>
    simp only [storeOrLate, hd0, hdf, Bool.false_eq_true, if_false] at hbody
    obtain ⟨t, k1, k2, k3, k4, k5⟩ := storeGroup_spec (i := i) ps hr hc hbody
    refine ⟨t, Memory.linesOf P, k1, k2, hlines, fun _ => ⟨fun l e j y hst hro hlast => ?_, fun y hy => ?_, k4, k5⟩, fun h => Bool.noConfusion h⟩
    · have hin : (l, e, j) ∈ T := (hT _).2 (by obtain ⟨a1, a2, a3, a4⟩ := hst; exact ⟨a1, a2, a3, rfl⟩)
      obtain ⟨A, C, hAC, hC⟩ := pairwise_split hpw hin
      have hy : y = (Q (l, e, j)).1 := hst.2.2.2
      have hb8 : ((Q (l, e, j)).2).toNat = bitsOf (D l e) (8 * j) 8 := byte_leBytes size _ j hst.2.2.1
      rw [k3, byte_storeHome_last (as := A.map Q) (cs := C.map Q) (x := y) (b := (Q (l, e, j)).2) hm hro (by rw [hflat, hAC, List.map_append, List.map_cons, hy]), hb8]
      intro q hq
      obtain ⟨c, hcC, rfl⟩ := List.mem_map.1 hq
      intro e'
      exact hlast c.1 c.2.1 c.2.2 (e' ▸ (hT c).1 (by rw [hAC]; simp [hcC])) (hC c hcC)
    · rw [k3]
      refine byte_storeHome_other hm (hy.imp_left fun h q hq e => ?_)
      rw [hflat] at hq
      obtain ⟨c, hcT, rfl⟩ := List.mem_map.1 hq
      exact h c.1 c.2.1 c.2.2 (e ▸ (hT c).1 hcT)

end State

end Sys2Proof.Machine
end

