-- ==== Sys2Proof/Laws/Requests.lean ====
section
/-! SUPPORT. Instructions that send a request to a scratchpad controller, and destinations that wait for their results (R45, R145). -/

namespace Sys2Proof.Machine

open Sys2Proof

namespace State

/-- A request to the scratchpad controller, with what the instruction does to its destination (R145). -/
theorem scrIssue_spec {s : State} {g : Nat} {b : Bool} {i : Instr} {f : Form} {body : State → Eff State} {m : May} {op : ScrOp} {rs : List Req} {data cmp : Req → Nat}
    {dst : Option Dest} {lanes : Word} {waits : Bool} {E : State → State} {em : State → Prop} (ps : s.Passes f) (hr : s.ReadyCore) (hc : s.cur = .slot g b)
    (hE : ∀ u : State, u.cur = .slot g b → u.Live → Moves m u (E u) ∧ (E u).pc = u.pc)
    (hEm : ∀ u t : State, u.cur = .slot g b → u.Live → Kept {} (E u) t → em t)
    (hEc : ∀ (u : State) (F : Group → Group) (fl : List Flight) (n : Nat), u.cur = .slot g b → (∀ x, (F x).image = x.image ∧ (F x).id = x.id) → (∀ x (im : Image), F { x with image := im } = { F x with image := im }) →
      ({ (E u).modGroup g F with flight := fl, nextId := n } : State) = E { u.modGroup g F with flight := fl, nextId := n })
    (hb : body s.advance = .ok ((E s.advance).scrIssue i op (s.advance.accsOf rs data cmp) dst lanes waits)) :
    ∃ t, s.issue i f body = .next t ∧ t.pc = s.pc + 4 ∧ em t ∧
      Kept m (let u := s.advance.modGroup g fun y => if waits = true then { y with susp := .arrival s.nextId } else y
        { u with nextId := s.nextId + 1, flight := s.flight ++ [⟨s.nextId, .scr {
            col := s.myCol, core := s.myCore, team := s.myTeam, op := op, dst := dst, waiting := false, got := [], grp := some (g, b), thr := none, pc := s.pc,
            insn := insnWord i, lanes := lanes, strike := none, einj := (s.grp g).einj
            accs := rs.map fun r => ⟨r.lane, r.sub, segBase (s.seg 0) + r.off, r.size, data r, cmp r, withOff r.ptr r.off⟩ }⟩] }) t := by
  have hl := live_of_canIssue hr.issues
  have hg := slot_of_core hr hc
  have hca : s.advance.cur = .slot g b := (cur_advance s).trans hc
  have hga : s.advance.hasGroup g = true := (hasGroup_advance hc).trans hg
  have hla := live_advance hl
  obtain ⟨m1, m2, m3, m4, m5, m6, m7, m8⟩ := agent_advance hc hg
  obtain ⟨hm, hp⟩ := hE s.advance hca hla
  have hce : (E s.advance).cur = .slot g b := hm.agent.trans hca
  obtain ⟨hge, hke⟩ := hm.toKept.husk hca hga
  obtain ⟨f1, f2, f3, f4, f5⟩ := kept_fields hm.toKept hca
  have e6 : s.advance.flight = s.flight := adv_field hc _ fun _ => rfl
  have e7 : s.advance.nextId = s.nextId := adv_field hc _ fun _ => rfl
  have hgrp : ∀ {α : Type} (π : Group → α), (∀ x : Group, π x.husk = π x) → π ((E s.advance).grp g) = π (s.grp g) := by
    intro α π h
    rw [← h, hke, ((kept_advance hl).husk hc hg).2, h]
  have q1 : (E s.advance).myCol = s.myCol := by simp only [myCol, hce, hc]; exact hgrp (·.col) fun _ => rfl
  have q2 : (E s.advance).myCore = s.myCore := by simp only [myCore, hce, hc]; exact hgrp (·.core) fun _ => rfl
  have q3 : (E s.advance).myTeam = s.myTeam := by simp only [myTeam, hce, hc]; exact hgrp (·.team) fun _ => rfl
  have q4 : (E s.advance).me.einj = (s.grp g).einj := by rw [me_slot hce]; exact hgrp (·.einj) fun _ => rfl
  have q5 : einjKind (E s.advance).me = 0 := by
    rw [me_slot hce]
    have := hr.calm hr.core
    rw [me_slot hc] at this
    rw [← this]
    exact hgrp einjKind fun _ => rfl
  have q6 : (E s.advance).strikeOf i = none := by simp [strikeOf, einjMatches, q5]
  have q7 : (E s.advance).herePc = s.pc := by
    simp only [herePc, hp, pc_advance hl]
    exact BitVec.add_sub_cancel _ _
  have q8 : s.advance.accsOf rs data cmp = rs.map fun r => ⟨r.lane, r.sub, segBase (s.seg 0) + r.off, r.size, data r, cmp r, withOff r.ptr r.off⟩ := by
    simp only [accsOf, scrAddr, seg_advance hl]
  let fl := s.flight ++ [⟨s.nextId, .scr {
            col := s.myCol, core := s.myCore, team := s.myTeam, op := op, dst := dst, waiting := false, got := [], grp := some (g, b), thr := none, pc := s.pc,
            insn := insnWord i, lanes := lanes, strike := none, einj := (s.grp g).einj
            accs := rs.map fun r => ⟨r.lane, r.sub, segBase (s.seg 0) + r.off, r.size, data r, cmp r, withOff r.ptr r.off⟩ }⟩]
  let F : Group → Group := fun y => if waits = true then { y with susp := .arrival s.nextId } else y
  have hF : ∀ x, (F x).image = x.image ∧ (F x).id = x.id := fun x => by simp only [F]; split <;> trivial
  have hFp : ∀ x, (F x).privileged = x.privileged := fun x => by simp only [F]; split <;> rfl
  have hF2 : ∀ x (im : Image), F { x with image := im } = { F x with image := im } := fun x im => by simp only [F]; split <;> rfl
  let Y : State := { s.advance.modGroup g F with flight := fl, nextId := s.nextId + 1 }
  have hcY : Y.cur = .slot g b := hca
  have hYl : Y.Live ∧ Y.pc = s.pc + 4 := by
    obtain ⟨h1, h2⟩ := live_modGroup (f := F) hca hla (fun x => (hF x).2) (fun x => by rw [(hF x).1]) hFp
    have hgs : Y.groups = (s.advance.modGroup g F).groups := rfl
    refine ⟨?_, ?_⟩
    · have h3 : (s.advance.modGroup g F).cur = .slot g b := hca
      simp only [Live, h3] at h1
      simp only [Live, hcY, hasGroup, grp, hgs]
      exact h1
    · rw [pc_congr (s := s.advance.modGroup g F) hca hcY hgs, h2, pc_advance hl]
  have hu : (E s.advance).scrIssue i op (s.advance.accsOf rs data cmp) dst lanes waits = E Y := by
    have h1 : (E s.advance).scrIssue i op (s.advance.accsOf rs data cmp) dst lanes waits = { (E s.advance).modGroup g F with flight := fl, nextId := s.nextId + 1 } := by
      have hid : (E s.advance).nextId = s.nextId := f4.trans e7
      have hfl : (E s.advance).flight = s.flight := f1.trans e6
      simp only [scrIssue, q1, q2, q3, q4, q6, q7, q8, hce, hid, place, hfl]
      cases waits with
      | true => simp only [if_true, mySusp, hce, modGroup, F, fl]
      | false =>
        have : (E s.advance).modGroup g F = E s.advance := by
          simp only [modGroup, F, Bool.false_eq_true, if_false, ite_self, List.map_id']
        rw [this]
        simp only [Bool.false_eq_true, if_false, fl, hce]
    rw [h1, hEc s.advance F fl (s.nextId + 1) hca hF hF2]
  obtain ⟨n1, n2⟩ := hE Y hcY hYl.1
  obtain ⟨t, k1, k2, k3⟩ := ps.next (i := i) (hb.trans (congrArg Except.ok hu)) (n1.live hYl.1)
  exact ⟨t, k1, by rw [k3, n2, hYl.2], hEm Y t hcY hYl.1 k2, n1.toKept.trans k2.weaken⟩

theorem sreg_slot {s : State} {g : Nat} {b : Bool} (hc : s.cur = .slot g b) (r : Nat) : s.sreg r = if r = 0 then SReg.zero else vget SReg.zero (s.grp g).image.s r := by
  simp only [sreg, hc]

theorem putS_slot {s : State} {g : Nat} {b : Bool} (hc : s.cur = .slot g b) (r : Nat) (x : SReg) :
    s.putS r x = if r = 0 then s else s.modImage g fun im => { im with s := vmod im.s r fun _ => x } := by
  simp only [putS, hc]

theorem modGroup_comm {u : State} {g : Nat} {F : Group → Group} {h : Image → Image} (hF : ∀ x, (F x).image = x.image ∧ (F x).id = x.id)
    (hF2 : ∀ x (im : Image), F { x with image := im } = { F x with image := im }) (fl : List Flight) (n : Nat) :
    ({ (u.modImage g h).modGroup g F with flight := fl, nextId := n } : State) = ({ u.modGroup g F with flight := fl, nextId := n } : State).modImage g h := by
  have e : (u.modImage g h).modGroup g F = (u.modGroup g F).modImage g h := by
    rw [modImage, modImage, modGroup_modGroup (f := fun x : Group => { x with image := h x.image }) (fun _ => rfl), modGroup_modGroup (fun x => (hF x).2)]
    congr 1
    funext x
    rw [hF2, (hF x).1]
  have := congrArg State.groups e
  simp only [modImage, modGroup] at this ⊢
  rw [this]

theorem emptyV_comm {g : Nat} {b : Bool} {d : Reg} (u : State) (F : Group → Group) (fl : List Flight) (n : Nat) (hc : u.cur = .slot g b) (hF : ∀ x, (F x).image = x.image ∧ (F x).id = x.id)
    (hF2 : ∀ x (im : Image), F { x with image := im } = { F x with image := im }) :
      ({ (u.emptyV d.toNat).modGroup g F with flight := fl, nextId := n } : State) = ({ u.modGroup g F with flight := fl, nextId := n } : State).emptyV d.toNat := by
  have h1 : ({ u.modGroup g F with flight := fl, nextId := n } : State).curGrp = g := by
    exact curGrp_of (b := b) hc
  simp only [emptyV, modV]
  rw [h1, show u.curGrp = g by simp only [curGrp, hc]]
  exact modGroup_comm hF hF2 fl n

theorem emptyS_moves {g : Nat} {b : Bool} {d : Reg} (u : State) (_ : u.cur = .slot g b) (hl : u.Live) : Moves { s := [d.toNat] } u (u.emptyS d.toNat) ∧ (u.emptyS d.toNat).pc = u.pc :=
  ⟨moves_emptyS hl (by simp), pc_putS _ _ hl⟩

theorem emptyS_full {g : Nat} {b : Bool} {d : Reg} (u t : State) (hc : u.cur = .slot g b) (hl : u.Live) (hk : Kept {} (u.emptyS d.toNat) t) : d.toNat = 0 ∨ (t.sreg d.toNat).full = false := by
  by_cases h0 : d.toNat = 0
  · exact .inl h0
  · right
    rw [hk.sregs _ (by simp), emptyS, sreg_putS hl (by simp only [inFile, onCore, hc, if_true]; exact d.isLt), if_neg h0]

theorem emptyS_comm {g : Nat} {b : Bool} {d : Reg} (u : State) (F : Group → Group) (fl : List Flight) (n : Nat) (hc : u.cur = .slot g b) (hF : ∀ x, (F x).image = x.image ∧ (F x).id = x.id)
    (hF2 : ∀ x (im : Image), F { x with image := im } = { F x with image := im }) :
      ({ (u.emptyS d.toNat).modGroup g F with flight := fl, nextId := n } : State) = ({ u.modGroup g F with flight := fl, nextId := n } : State).emptyS d.toNat := by
  have hc1 : ({ u.modGroup g F with flight := fl, nextId := n } : State).cur = .slot g b := hc
  have hs : ({ u.modGroup g F with flight := fl, nextId := n } : State).sreg d.toNat = u.sreg d.toNat := by
    rw [sreg_slot hc1, sreg_slot hc]
    split
    · rfl
    · have : ({ u.modGroup g F with flight := fl, nextId := n } : State).grp g = (u.modGroup g F).grp g := rfl
      rw [this]
      by_cases hg : u.hasGroup g = true
      · rw [grp_modGroup_same hg fun x => (hF x).2, (hF _).1]
      · have h1 : (u.modGroup g F).grp g = u.grp g := by
          have hnone : ∀ x ∈ u.groups, x.id ≠ g := fun x hx e => hg (by simp only [hasGroup, List.any_eq_true]; exact ⟨x, hx, by simp [e]⟩)
          have : (u.modGroup g F).groups = u.groups := by
            simp only [modGroup]
            rw [List.map_congr_left (g := id) (fun x hx => by simp [hnone x hx]), List.map_id]
          simp only [grp, this]
        rw [h1]
  simp only [emptyS, hs]
  rw [putS_slot hc1, putS_slot hc]
  split
  · rfl
  · exact modGroup_comm hF hF2 fl n

theorem id_moves {g : Nat} {b : Bool} (u : State) (_ : u.cur = .slot g b) (_ : u.Live) : Moves {} u (id u) ∧ (id u).pc = u.pc := ⟨.refl _ _, rfl⟩

end State

end Sys2Proof.Machine
end

