-- ==== Sys2Proof/Laws/Atoms.lean ====
section
/-! SUPPORT. The lanes of an `atom` at their homes, one after another (R163). -/

namespace Sys2Proof.Machine

open Sys2Proof

namespace State

theorem nat_lt (m : Memory) (a n : Nat) : m.nat a n < 2 ^ (8 * n) := by
  have := leNat_lt ((List.range n).map fun i => m.byte (a + i))
  simpa [Memory.nat] using this

theorem sealG_sealG (l1 l2 : List Nat) (y : Group) : sealG l2 (sealG l1 y) = sealG (l1 ++ l2) y := by
  simp only [sealG]
  cases hr : y.regions with
  | nil => simp only [hr]
  | cons r rs =>
    simp only
    by_cases h1 : (l1.all fun z => r.undo.any fun v => decide (v.line = z)) = true
    · simp only [h1, if_true, hr, List.all_append, Bool.true_and]
    · rw [if_neg h1]
      have hm : (r :: rs).map (fun r : Region => if r.idem then r else { r with sealed := true }) =
          (if r.idem then r else { r with sealed := true }) :: rs.map (fun r : Region => if r.idem then r else { r with sealed := true }) := rfl
      have hu : (if r.idem then r else { r with sealed := true } : Region).undo = r.undo := by split <;> rfl
      simp only [hm, hu, List.all_append]
      rw [if_neg (c := (((l1.all _) && _) = true)) (by simp [h1])]
      split
      · rfl
      · simp only [List.map_cons, List.map_map]
        have : ∀ r : Region, (if (if r.idem then r else { r with sealed := true } : Region).idem then (if r.idem then r else { r with sealed := true } : Region)
            else { (if r.idem then r else { r with sealed := true } : Region) with sealed := true }) = (if r.idem then r else { r with sealed := true }) := by
          intro r; cases hi : r.idem <;> simp [hi]
        simp only [this]
        congr 2
        apply List.map_congr_left
        intro r _
        exact this r

theorem gather_single : ∀ {ps : List Piece}, rising (ps.map (·.lane)) = true → (∀ p ∈ ps, p.sub = 0 ∧ p.size = 8 ∧ p.val < 2 ^ 64) →
    gatherLanes ps = ps.map fun p => ⟨p.lane, BitVec.ofNat 64 p.val, p.poison⟩ := by
  intro ps hr hp
  have hset : (ps.map (·.lane)).foldl setPut [] = ps.map (·.lane) := rising_ext (rising_foldl_setPut rfl) hr fun x => by
    rw [mem_foldl_setPut]; simp
  simp only [gatherLanes, hset, List.map_map]
  apply List.map_congr_left
  intro p hpm
  have hf : ps.filter (fun q => decide (q.lane = p.lane)) = [p] := by
    have nd : ∀ {l : List Nat}, rising l = true → l.Pairwise (· < ·) := by
      intro l
      have aux : ∀ {l : List Nat} {m : Nat}, risingFrom m l = true → (∀ x ∈ l, m < x) ∧ l.Pairwise (· < ·) := by
        intro l
        induction l with
        | nil => intro m _; exact ⟨fun x h => by simp at h, .nil⟩
        | cons a l ih =>
          intro m h
          simp only [risingFrom, Bool.and_eq_true, decide_eq_true_eq] at h
          obtain ⟨h1, h2⟩ := ih h.2
          refine ⟨fun x hx => ?_, List.pairwise_cons.2 ⟨h1, h2⟩⟩
          rcases List.mem_cons.1 hx with rfl | hx
          · exact h.1
          · have := h1 x hx; omega
      cases l with
      | nil => intro _; exact .nil
      | cons a l => intro h; obtain ⟨h1, h2⟩ := aux (l := l) h; exact List.pairwise_cons.2 ⟨h1, h2⟩
    have hpw := List.pairwise_map.1 (nd hr)
    obtain ⟨a, c, rfl⟩ := List.append_of_mem hpm
    rw [List.pairwise_append, List.pairwise_cons] at hpw
    rw [List.filter_append, List.filter_cons, if_pos (by simp), List.filter_eq_nil_iff.2, List.filter_eq_nil_iff.2]
    · rfl
    · intro q hq; have := hpw.2.1.1 q hq; simp; omega
    · intro q hq; have := hpw.2.2 q hq p (by simp); simp; omega
  obtain ⟨h1, h2, h3⟩ := hp p hpm
  simp only [Function.comp, hf, List.foldl_cons, List.foldl_nil, List.findSome?_cons, List.findSome?_nil, h1, h2]
  congr 1
  · have h5 : p.val % 18446744073709551616 = p.val := Nat.mod_eq_of_lt h3
    simp [h5]
  · cases p.poison <;> rfl

theorem atomAll_spec {n op : Nat} {signed : Bool} {w : Nat} {data cmp : Nat → Nat} {H : Nat → Nat} (hw : w / 8 = n) (hn : 0 < n) : ∀ (ls : List Nat) (u : State) (F : Nat → Req), (∀ l, (F l).lane = l) →
    u.mem.wf = true → ∃ (M : Nat → Memory) (lines : List Nat), M 0 = u.mem ∧
      let xs := ls.map fun l => (F l, [(H l, n)])
      let U := u.atomAll op w signed data cmp xs
      U.2.length = ls.length ∧ U.1.mem = M ls.length ∧ U.1.mem.wf = true ∧
      (∀ k l p, ls[k]? = some l → U.2[k]? = some p →
        let old := (M k).nat (H l) n
        (∀ z, (z < H l ∨ H l + n ≤ z ∨ u.roByte z = true) → (M (k + 1)).byte z = (M k).byte z) ∧
        (∀ i < n, u.roByte (H l + i) = false → ((M (k + 1)).byte (H l + i)).toNat = let z := bitsOf (atomNew op w signed old (data l) (cmp l)) (8 * i) 8
          if u.roHalf (H l + i) = true then z % 16 + ((M k).byte (H l + i)).toNat / 16 * 16 else z) ∧
        p = ⟨l, 0, 8, old, if (M k).isPoisoned (H l) = true then some .line else none⟩) ∧
      (∀ z, z ∈ lines ↔ ∃ l ∈ ls, ∃ i < n, z = lineOf (H l + i)) ∧ U.1.cols.map Column.noL1 = u.cols.map Column.noL1 ∧
      U.1 = { u.modGroup u.curGrp (sealG lines) with mem := U.1.mem, cols := U.1.cols }
  | [], u, F, _, hm => by
    refine ⟨fun _ => u.mem, [], rfl, rfl, rfl, hm, fun k l p h => by simp at h, fun z => by simp, rfl, ?_⟩
    have : sealG [] = id := by
      funext y; simp only [sealG]; split <;> rfl
    simp only [List.map_nil, atomAll, this, modGroup, id, ite_self, List.map_id']
  | l :: ls, u, F, hF, hm => by
    let old := u.mem.nat (H l) n
    let P : List (Nat × List Byte) := [(H l, leBytes n (atomNew op w signed old (data l) (cmp l)))]
    let v := u.storeGroup P
    have hflat : P.flatMap Memory.flat = (List.range n).map fun i => (H l + i, (leBytes n (atomNew op w signed old (data l) (cmp l))).getD i 0) := by
      simp only [P, List.flatMap_cons, List.flatMap_nil, List.append_nil, Memory.flat, leBytes_length]
    have hvm : v.mem = (u.storeHome P false).mem := by
      show ((u.storeHome P false).l1Store u.myCol u.myCore P |>.sealStore _ _).mem = _
      rw [sealStore_eq]; rfl
    have hvw : v.mem.wf = true := by
      rw [hvm]
      exact storeHome_wf hm
    have hv : v = { u.modGroup u.curGrp (sealG (Memory.linesOf P)) with mem := v.mem, cols := v.cols } := by
      have : v = ((u.storeHome P false).l1Store u.myCol u.myCore P).modGroup u.curGrp (sealG (Memory.linesOf P)) := by
        show State.sealStore _ _ _ = _
        rw [sealStore_eq]; rfl
      rw [this]; rfl
    have hvc : v.cur = u.cur := by rw [hv]; rfl
    have hvr : v.record = u.record := by rw [hv]; rfl
    have hvcols : v.cols.map Column.noL1 = u.cols.map Column.noL1 := by
      have : v.cols = ((u.storeHome P false).l1Store u.myCol u.myCore P).cols := by
        show (State.sealStore _ _ _).cols = _
        rw [sealStore_eq]; rfl
      rw [this, noL1_l1Store]; rfl
    obtain ⟨M, lines, h0, h1, h2, h3, h4, h5, h6, h7⟩ := atomAll_spec hw hn ls v F hF hvw
    let M' : Nat → Memory := fun k => match k with | 0 => u.mem | k + 1 => M k
    have hU : u.atomAll op w signed data cmp ((l :: ls).map fun l => (F l, [(H l, n)])) =
        ((v.atomAll op w signed data cmp (ls.map fun l => (F l, [(H l, n)]))).1,
          ⟨l, 0, 8, old, if u.mem.isPoisoned (H l) then some .line else none⟩ :: (v.atomAll op w signed data cmp (ls.map fun l => (F l, [(H l, n)]))).2) := by
      simp only [List.map_cons, atomAll, List.head?_cons, Option.map_some, Option.getD_some, hw, hF]
      rfl
    have hro : ∀ z, v.roByte z = u.roByte z := fun z => by simp only [roByte, hvr]
    have hrh : ∀ z, v.roHalf z = u.roHalf z := fun z => by simp only [roHalf, hvr]
    refine ⟨M', Memory.linesOf P ++ lines, rfl, ?_⟩
    intro xs U
    have hU' : U = ((v.atomAll op w signed data cmp (ls.map fun l => (F l, [(H l, n)]))).1,
          ⟨l, 0, 8, old, if u.mem.isPoisoned (H l) then some .line else none⟩ :: (v.atomAll op w signed data cmp (ls.map fun l => (F l, [(H l, n)]))).2) := hU
    rw [hU']
    refine ⟨by simp [h1], h2, h3, fun k x p hk hp => ?_, fun z => ?_, h6.trans hvcols, ?_⟩
    · cases k with
      | zero =>
        simp only [List.getElem?_cons_zero, Option.some.injEq] at hk hp
        subst hk
        refine ⟨fun z hz => ?_, fun i hi hr => ?_, hp.symm⟩
        · show (M 0).byte z = u.mem.byte z
          rw [h0, hvm]
          refine byte_storeHome_other hm ?_
          rcases hz with hz | hz | hz
          · left; intro q hq e; rw [hflat] at hq; obtain ⟨i, hi, rfl⟩ := List.mem_map.1 hq; simp only at e; omega
          · left; intro q hq e; rw [hflat] at hq; obtain ⟨i, hi, rfl⟩ := List.mem_map.1 hq; simp only [List.mem_range] at hi e; omega
          · exact .inr hz
        · show ((M 0).byte (H l + i)).toNat = _
          obtain ⟨A, C, hAC, hC⟩ := pairwise_split (List.pairwise_lt_range (n := n)) (List.mem_range.2 hi)
          rw [h0, hvm, byte_storeHome_last (as := A.map _) (cs := C.map _) (x := H l + i) (b := (leBytes n (atomNew op w signed old (data l) (cmp l))).getD i 0) hm hr (by rw [hflat, hAC, List.map_append, List.map_cons])]
          · rw [byte_leBytes n _ i hi]
          · intro q hq
            obtain ⟨c, hc, rfl⟩ := List.mem_map.1 hq
            have := hC c hc
            simp only; omega
      | succ k =>
        simp only [List.getElem?_cons_succ] at hk hp
        have := h4 k x p hk hp
        simp only [hro, hrh] at this
        exact this
    · simp only [List.mem_append, h5, mem_linesOf, hflat, List.mem_map, List.mem_range, List.mem_cons, exists_eq_or_imp]
      constructor
      · rintro (⟨q, ⟨i, hi, rfl⟩, rfl⟩ | h)
        · exact .inl ⟨i, hi, rfl⟩
        · exact .inr h
      · rintro (⟨i, hi, rfl⟩ | h)
        · exact .inl ⟨_, ⟨i, hi, rfl⟩, rfl⟩
        · exact .inr h
    · have h7' := h7
      show (v.atomAll op w signed data cmp (ls.map fun l => (F l, [(H l, n)]))).1 = _
      rw [h7]
      have hcg : v.curGrp = u.curGrp := by simp only [curGrp, hvc]
      have : v.modGroup v.curGrp (sealG lines) = { u.modGroup u.curGrp (sealG (Memory.linesOf P ++ lines)) with mem := v.mem, cols := v.cols } := by
        rw [hcg, hv]
        have e : (u.modGroup u.curGrp (sealG (Memory.linesOf P))).modGroup u.curGrp (sealG lines) = u.modGroup u.curGrp (sealG (Memory.linesOf P ++ lines)) := by
          rw [modGroup_modGroup (fun x => (sealG_id _ x).1)]
          congr 1; funext y; exact sealG_sealG _ _ y
        have := congrArg State.groups e
        simp only [modGroup] at this ⊢
        rw [this]
      rw [this]

theorem atomNew_eq {t : Nat} (ht : 4 ≤ t ∧ t < 8) {op old x z : Nat} (ho : op < 10) (h8 : op ≠ 8) (h1 : old < 2 ^ ewidth t) (h2 : x < 2 ^ ewidth t) :
    atomNew op (ewidth t) (esigned t) old x z = [(old + x) % 2 ^ ewidth t, if ival t old ≤ ival t x then old else x, if ival t old ≤ ival t x then x else old, old &&& x,
      old ||| x, old ^^^ x, x, if old = z then x else old, 0, if x ≤ old then 0 else old + 1].getD op 0 := by
  have hle : ival t old ≤ ival t x ↔ ¬ ((if esigned t = true then decide (asSigned (ewidth t) x < asSigned (ewidth t) old) else decide (x < old)) = true) := by
    simp only [ival]
    cases esigned t
    · simp [Nat.mod_eq_of_lt h1, Nat.mod_eq_of_lt h2]
    · simp
  have hlt : ((if esigned t = true then decide (asSigned (ewidth t) old < asSigned (ewidth t) x) else decide (old < x)) = true) → ival t old ≤ ival t x := by
    simp only [ival]
    cases esigned t
    · simp [Nat.mod_eq_of_lt h1, Nat.mod_eq_of_lt h2]; omega
    · simp; omega
  have hgt : ¬ ((if esigned t = true then decide (asSigned (ewidth t) old < asSigned (ewidth t) x) else decide (old < x)) = true) → ival t old ≤ ival t x → x = old := by
    intro h3 h4
    have hi : isInt t = true := by simp [isInt]; omega
    refine (ival_inj hi h2 h1).2 ?_
    simp only [ival] at h4 ⊢
    cases hs : esigned t
    · simp [hs, Nat.mod_eq_of_lt h1, Nat.mod_eq_of_lt h2] at h3 h4 ⊢; omega
    · simp [hs] at h3 h4 ⊢; omega
  rcases op with _ | _ | _ | _ | _ | _ | _ | _ | _ | _ | op
  · rfl
  · simp only [atomNew, List.getD, List.getElem?_cons_succ, List.getElem?_cons_zero, Option.getD_some]
    by_cases h : ival t old ≤ ival t x
    · rw [if_pos h, if_neg (hle.1 h)]
    · rw [if_neg h, if_pos (Classical.byContradiction fun hn => h (hle.2 hn))]
  · simp only [atomNew, List.getD, List.getElem?_cons_succ, List.getElem?_cons_zero, Option.getD_some]
    by_cases h : ival t old ≤ ival t x
    · rw [if_pos h]
      by_cases h3 : (if esigned t = true then decide (asSigned (ewidth t) old < asSigned (ewidth t) x) else decide (old < x)) = true
      · rw [if_pos h3]
      · rw [if_neg h3]; exact (hgt h3 h).symm
    · rw [if_neg h, if_neg fun h3 => h (hlt h3)]
  · rfl
  · rfl
  · rfl
  · rfl
  · rfl
  · omega
  · simp only [atomNew, List.getD, List.getElem?_cons_succ, List.getElem?_cons_zero, Option.getD_some]
    split
    · rfl
    · rw [Nat.mod_eq_of_lt (by omega)]
  · omega

end State

end Sys2Proof.Machine
end

