-- ==== Sys2Proof/Laws/Does.lean ====
section
/-! SUPPORT. Instructions whose effect lies beside the registers of their group: they complete, or they wait (R122). -/

namespace Sys2Proof.Machine

open Sys2Proof

/-- The word of a barrier that `bar.init` leaves (Table 9-1). -/
theorem Bar.init_nat (q : Bar) (c : Nat) : (q.init c).toNat = c + c * 2 ^ 32 + (if c = 0 then 2 else 1) * 2 ^ 64 + (if c = 0 then 1 else 0) * 2 ^ 66 +
    q.kind * 2 ^ 67 + q.scope * 2 ^ 68 + (q.gen + 1) % 256 * 2 ^ 104 := by
  have h : (q.init c).errf = 0 := rfl
  unfold Bar.toNat
  rw [h, Nat.zero_mul, Nat.add_zero]
  unfold Bar.init
  exact rfl

theorem Bar.errf_ofNat (r : Nat) : (Bar.ofNat r).errf = bitsOf r 96 5 := by
  have hb : ∀ k, bit (decide (bitsOf r k 1 = 1)) = r / 2 ^ k % 2 := fun k => by
    have h : bitsOf r k 1 = r / 2 ^ k % 2 := rfl
    rw [h]
    rcases Nat.mod_two_eq_zero_or_one (r / 2 ^ k) with e | e <;> rw [e] <;> rfl
  have hd : ∀ k, r / 2 ^ (96 + k) = r / 2 ^ 96 / 2 ^ k := fun k => by rw [Nat.pow_add, Nat.div_div_eq_div_mul]
  have e : (Bar.ofNat r).errf = r / 2 ^ (96 + 4) % 2 * 16 + r / 2 ^ (96 + 3) % 2 * 8 + r / 2 ^ (96 + 2) % 2 * 4 + r / 2 ^ (96 + 1) % 2 * 2 + r / 2 ^ 96 % 2 := by
    rw [← hb, ← hb, ← hb, ← hb, ← hb]; rfl
  rw [e, hd, hd, hd, hd]
  show _ = r / 2 ^ 96 % 2 ^ 5
  generalize r / 2 ^ 96 = q
  omega

namespace State

/-- An event that ends with a change. -/
theorem brings_changed {s u : State} {i : Instr} (h : exec i s = .next u.changed) : s.Brings i u := ⟨_, h, rfl⟩

/-- The issuing slot of a state that an instruction has worked on holds the context it held after going on, in a group as privileged as before. -/
structure SameSlot (s u : State) (g : Nat) (b : Bool) : Prop where
  agent : u.cur = .slot g b
  there : u.hasGroup g = true
  path : (u.grp g).image.slot b = (s.grp g).image.slot b
  level : (u.grp g).privileged = (s.grp g).privileged

theorem SameSlot.refl {s : State} {g : Nat} {b : Bool} (hc : s.cur = .slot g b) (hg : s.hasGroup g = true) : SameSlot s s g b := ⟨hc, hg, rfl, rfl⟩

theorem SameSlot.live {s u : State} {g : Nat} {b : Bool} (h : SameSlot s u g b) (hc : s.cur = .slot g b) (hl : s.Live) : u.Live := by
  simp only [Live, hc] at hl
  simp only [Live, h.agent]
  exact ⟨h.there, (Group.goesOn_congr h.level (by rw [h.path])).trans hl.2⟩

theorem SameSlot.pc {s u : State} {g : Nat} {b : Bool} (h : SameSlot s u g b) (hc : s.cur = .slot g b) : u.pc = s.pc := by
  rw [pc_slot h.agent, pc_slot hc, h.path]

/-- A change of the issuing group that leaves its slots alone. -/
theorem SameSlot.modGroup {s u : State} {g : Nat} {b : Bool} {F : Group → Group} (h : SameSlot s u g b) (hid : ∀ x, (F x).id = x.id)
    (hs : ∀ x, (F x).image.slot b = x.image.slot b) (hp : ∀ x, (F x).privileged = x.privileged := by exact fun _ => rfl) : SameSlot s (u.modGroup g F) g b :=
  ⟨h.agent, by rw [hasGroup_modGroup hid]; exact h.there, by rw [grp_modGroup_same h.there hid, hs, h.path], by
    rw [grp_modGroup_same h.there hid, hp, h.level]⟩

/-- A change beside the groups. -/
theorem SameSlot.beside {s u v : State} {g : Nat} {b : Bool} (h : SameSlot s u g b) (hc : v.cur = u.cur) (hg : v.groups = u.groups) : SameSlot s v g b :=
  ⟨hc.trans h.agent, by simp only [hasGroup, hg]; exact h.there, by simp only [grp, hg]; exact h.path, by simp only [grp, hg]; exact h.level⟩

/-- What going on changes of any group: its image. -/
theorem grp_advance_any {s : State} {g : Nat} {b : Bool} (hc : s.cur = .slot g b) (k : Nat) : ∃ im, s.advance.grp k = { s.grp k with image := im } := by
  rw [advance_slot hc]
  by_cases hg : s.hasGroup g = true
  · by_cases hk : k = g
    · subst hk
      exact ⟨_, grp_modGroup_same (f := fun x => { x with image := x.image.modSlot b fun p => { p with pc := s.pc + 4 } }) hg (fun _ => rfl)⟩
    · exact ⟨_, grp_modGroup_other (f := fun x => { x with image := x.image.modSlot b fun p => { p with pc := s.pc + 4 } }) hk (fun _ => rfl)⟩
  · refine ⟨(s.grp k).image, ?_⟩
    have h : ∀ x ∈ s.groups, x.id ≠ g := fun x hx e => hg (List.any_eq_true.2 ⟨x, hx, by simp [e]⟩)
    have : s.modGroup g (fun x => { x with image := x.image.modSlot b fun p => { p with pc := s.pc + 4 } }) = s := by
      have e : (s.groups.map fun x => if x.id = g then { x with image := x.image.modSlot b fun p => { p with pc := s.pc + 4 } } else x) = s.groups := by
        conv => rhs; rw [← List.map_id s.groups]
        exact List.map_congr_left fun x hx => by rw [if_neg (h x hx)]; rfl
      simp only [State.modGroup, e]
    rw [this]

/-- A byte of the scratchpad of a resident team. -/
theorem scrNat_resident {s : State} {t core a n : Nat} (h : (s.team t).resident = true) : s.scrNat t core a n = s.mem.nat (scrHome (s.team t).col core a) n := by
  simp only [scrNat, scrBytes, scrByte, h, if_true, Memory.nat]
  congr 1
  refine List.map_congr_left fun i _ => ?_
  simp only [scrHome, Nat.add_assoc]

theorem scrStore_resident {s : State} {t core : Nat} {ps : List (Nat × List Byte)} {c : Bool} (h : (s.team t).resident = true) :
    s.scrStore t core ps c = { s with mem := s.mem.store (ps.map fun p => (scrHome (s.team t).col core p.1, p.2)) c } := by
  simp only [scrStore, h, if_true]

/-- An instruction that goes on. -/
theorem Passes.does {s u : State} {i : Instr} {f : Form} {body : State → Eff State} {g : Nat} {b : Bool} (h : s.Passes f) (hc : s.cur = .slot g b)
    (hb : body s.advance = .ok u) (hu : SameSlot s.advance u g b) : ∃ t, s.issue i f body = .next t ∧ t.pc = s.pc + 4 ∧ Kept {} u t := by
  have hca := (cur_advance s).trans hc
  have hla := live_advance h.live
  obtain ⟨t, h3, h4, h5⟩ := h.next (i := i) hb (hu.live hca hla)
  exact ⟨t, h3, by rw [h5, hu.pc hca, pc_advance h.live], h4⟩

/-- An instruction that holds its slot. -/
theorem Passes.waits {s u : State} {i : Instr} {f : Form} {body : State → Eff State} {g : Nat} {b : Bool} (h : s.Passes f) (hc : s.cur = .slot g b)
    (hb : body s.advance = .error (.hold u)) (hcu : u.cur = .slot g b) (hl : u.Live) :
    ∃ t, s.issue i f body = .next t ∧ t.pc = s.pc ∧ t.held.contains s.cur = true ∧ Kept {} u t ∧ t.prog = u.prog := by
  obtain ⟨h1, h2, h3, h4⟩ := holdAt_slot (s := s) hcu hl
  refine ⟨_, ?_, h1, by rw [hc]; exact h2, h3, h4⟩
  simp only [issue, h.ready.issues, if_true, decodeRefuses_none h.engine h.priv h.legal h.good, issueRefuses_none h.good, h.ready.fresh, hb, stopped']

/-- The context of the issuing slot after it has gone on. -/
theorem path_advance {s : State} {g : Nat} {b : Bool} (hc : s.cur = .slot g b) (hg : s.hasGroup g = true) :
    (s.advance.grp g).image.slot b = ((s.grp g).image.slot b).map fun p => { p with pc := s.pc + 4 } := by
  rw [advance_slot hc, grp_modGroup_same (f := fun x => { x with image := x.image.modSlot b fun p => { p with pc := s.pc + 4 } }) hg (fun _ => rfl), Image.modSlot_slot]

theorem prog_slot {s : State} {g : Nat} {b : Bool} (hc : s.cur = .slot g b) : s.prog = (((s.grp g).image.slot b).getD Path.blank).prog := by
  simp only [prog, hc, myPath, me_slot hc, curSlot]

theorem flags_slot {s : State} {g : Nat} {b : Bool} (hc : s.cur = .slot g b) : s.flags = (((s.grp g).image.slot b).getD Path.blank).flags := by
  simp only [flags, hc, myPath, me_slot hc, curSlot]

theorem prog_advance {s : State} {g : Nat} {b : Bool} (hc : s.cur = .slot g b) (hg : s.hasGroup g = true) : s.advance.prog = s.prog := by
  rw [prog_slot hc, prog_slot ((cur_advance s).trans hc), path_advance hc hg]
  cases (s.grp g).image.slot b <;> rfl

theorem SameSlot.flags {s u : State} {g : Nat} {b : Bool} (h : SameSlot s u g b) (hc : s.cur = .slot g b) : u.flags = s.flags := by
  rw [flags_slot h.agent, flags_slot hc, h.path]

theorem SameSlot.emptyS {s u : State} {g : Nat} {b : Bool} (h : SameSlot s u g b) (r : Nat) : SameSlot s (u.emptyS r) g b := by
  simp only [State.emptyS, putS, h.agent]
  split
  · exact h
  · exact h.modGroup (fun _ => rfl) (fun _ => rfl)

theorem strikeOf_calm {s : State} {i : Instr} (h : s.onCore = true → einjKind s.me = 0) : s.strikeOf i = none := by
  simp only [strikeOf, einjMatches]
  by_cases hc : s.onCore = true
  · simp [h hc]
  · simp [hc]

/-- An instruction that goes on and writes flags. -/
theorem Passes.doesFlags {s u : State} {i : Instr} {f : Form} {body : State → Eff State} {g : Nat} {b : Bool} {x : Flags} (h : s.Passes f) (hc : s.cur = .slot g b)
    (hb : body s.advance = .ok (u.setFlags x)) (hu : SameSlot s.advance u g b) : ∃ t, s.issue i f body = .next t ∧ t.pc = s.pc + 4 ∧ Kept {} (u.setFlags x) t := by
  have hca := (cur_advance s).trans hc
  have hlu := hu.live hca (live_advance h.live)
  obtain ⟨t, h3, h4, h5⟩ := h.next (i := i) hb ((moves_setFlags (m := { flags := true }) hlu rfl x).live hlu)
  exact ⟨t, h3, by rw [h5, pc_setFlags x hlu, hu.pc hca, pc_advance h.live], h4⟩

/-- The same, of an instruction whose meaning issues. -/
theorem Passes.doesOf {s u : State} {i : Instr} {f : Form} {body : State → Eff State} {g : Nat} {b : Bool} (he : exec i s = s.issue i f body) (h : s.Passes f)
    (hc : s.cur = .slot g b) (hb : body s.advance = .ok u) (hu : SameSlot s.advance u g b) : s.Does i u := by
  obtain ⟨t, h1, h2⟩ := h.does hc (i := i) hb hu
  exact ⟨t, he.trans h1, h2⟩

theorem Passes.doesFlagsOf {s u : State} {i : Instr} {f : Form} {body : State → Eff State} {g : Nat} {b : Bool} {x : Flags} (he : exec i s = s.issue i f body) (h : s.Passes f)
    (hc : s.cur = .slot g b) (hb : body s.advance = .ok (u.setFlags x)) (hu : SameSlot s.advance u g b) : s.Does i (u.setFlags x) := by
  obtain ⟨t, h1, h2⟩ := h.doesFlags hc (i := i) hb hu
  exact ⟨t, he.trans h1, h2⟩

theorem Passes.waitsOf {s u : State} {i : Instr} {f : Form} {body : State → Eff State} {g : Nat} {b : Bool} (he : exec i s = s.issue i f body) (h : s.Passes f)
    (hc : s.cur = .slot g b) (hb : body s.advance = .error (.hold u)) (hcu : u.cur = .slot g b) (hl : u.Live) : s.Waits i := by
  obtain ⟨t, h1, h2, h3, -⟩ := h.waits hc (i := i) hb hcu hl
  exact ⟨t, he.trans h1, h2, h3⟩

/-- A trap of the instruction's own effect, of one whose meaning issues. -/
theorem Passes.trapsOf {s : State} {i : Instr} {f : Form} {body : State → Eff State} {t : Trap} {g h : Nat} {b : Bool} (he : exec i s = s.issue i f body) (hp : s.Passes f)
    (hh : s.Handles g b h) (hb : body s.advance = .error (.trap t)) (hc : t.cause < 256 ∧ t.cause ≠ 0xB0 ∧ t.cause ≠ 0xB1 ∧ t.cause ≠ 0xFF) (hd : t.detail < 2 ^ 64) (hl : t.lane < 64) :
    ∃ u, exec i s = .next u ∧ s.Enters u g b h
      { cause := t.cause, detail := t.detail, addr := t.addr.getD 0, remote := !t.code && s.namesAway t.addr (s.colNum (s.grp g).ctx (s.grp g).col),
        lane := t.lane, lanes := if f.guarded then s.active else s.slotMask, insn := insnWord i % 2 ^ 32, pc := if t.next then s.pc + 4 else s.pc } := by
  obtain ⟨u, h1, h2⟩ := body_trap (i := i) hp hh hb hc.1 hc.2 hd hl
  exact ⟨u, he.trans h1, h2⟩

/-- The bookkeeping of what an instruction waits for is no effect. -/
theorem kept_setProg {s : State} {g : Nat} {b : Bool} (hc : s.cur = .slot g b) (hl : s.Live) (p : Prog) : Moves {} s (s.setProg p) ∧ (s.setProg p).pc = s.pc ∧ (s.setProg p).prog = p := by
  have hg : s.hasGroup g = true := by simp only [Live, hc] at hl; exact hl.1
  have e : s.setProg p = s.modMyPath fun x => { x with prog := p } := by simp only [setProg, hc]
  have hc' : (s.setProg p).cur = .slot g b := by rw [e, modMyPath_slot hc]; exact hc
  have hp : ((s.setProg p).grp g).image.slot b = ((s.grp g).image.slot b).map fun x => { x with prog := p } := by
    rw [e, modMyPath_slot hc, grp_modGroup_same (f := fun x => { x with image := x.image.modSlot b fun x => { x with prog := p } }) hg (fun _ => rfl), Image.modSlot_slot]
  refine ⟨by rw [e]; exact moves_modMyPath hc hg (fun _ => rfl) (fun _ => rfl) (fun _ _ => rfl), ?_, ?_⟩
  · rw [pc_slot hc, pc_slot hc', hp]
    cases (s.grp g).image.slot b <;> rfl
  · rw [prog_slot hc', hp]
    simp only [Live, hc] at hl
    cases h : (s.grp g).image.slot b with
    | none => simp [Group.goesOn, h] at hl
    | some x => rfl

/-- A state whose issuing instruction waits: the parts of it that matter to its agent. -/
theorem setProg_slot {s : State} {g : Nat} {b : Bool} (hc : s.cur = .slot g b) (hg : s.hasGroup g = true) (p : Prog) :
    s.setProg p = (s.modGroup g fun y => { y with image := y.image.modSlot b fun q => { q with prog := p } }) ∧
    (s.setProg p).grp g = { s.grp g with image := (s.grp g).image.modSlot b fun q => { q with prog := p } } ∧ (s.setProg p).hasGroup g = true ∧
    (s.setProg p).canIssue = s.canIssue := by
  have e : s.setProg p = s.modGroup g fun y => { y with image := y.image.modSlot b fun q => { q with prog := p } } := by
    simp only [setProg, hc, modMyPath_slot hc]
  have hid : ∀ x : Group, ({ x with image := x.image.modSlot b fun q => { q with prog := p } } : Group).id = x.id := fun _ => rfl
  have hgr : (s.setProg p).grp g = { s.grp g with image := (s.grp g).image.modSlot b fun q => { q with prog := p } } := by
    rw [e]; exact grp_modGroup_same hg hid
  have hh : (s.setProg p).hasGroup g = s.hasGroup g := by rw [e]; exact hasGroup_modGroup hid
  refine ⟨e, hgr, hh.trans hg, ?_⟩
  have hc' : (s.setProg p).cur = .slot g b := by rw [e]; exact hc
  have h1 : ((((s.grp g).image.modSlot b fun q => { q with prog := p }).slot b).map fun q => (s.grp g).privileged || isRunning q) =
      ((s.grp g).image.slot b).map fun q => (s.grp g).privileged || isRunning q := by
    rw [Image.modSlot_slot]; cases (s.grp g).image.slot b <;> rfl
  have h2 : (s.setProg p).cols = s.cols ∧ (s.setProg p).dies = s.dies ∧ (s.setProg p).teams = s.teams ∧ (s.setProg p).launches = s.launches ∧ (s.setProg p).ctxs = s.ctxs := by
    rw [e]; exact ⟨rfl, rfl, rfl, rfl, rfl⟩
  obtain ⟨h3, h4, h5, h6, h7⟩ := h2
  have h8 : ∀ c, (s.setProg p).preempting c = s.preempting c := fun c => by
    have hb : (s.setProg p).heldBack c = s.heldBack c := by
      simp only [heldBack, h5, launch, h6]
      congr 1
      rw [e]
      simp only [State.modGroup, List.any_map]
      congr 1
      funext x
      simp only [Function.comp_apply]
      split <;> rfl
    simp only [preempting, hb, ctx, h7]
    rfl
  have h9 : ∀ c, (s.setProg p).expiryBars c = s.expiryBars c := fun c => by
    have hy : (s.setProg p).cycles = s.cycles := by rw [e]; rfl
    simp only [expiryBars, h8, ctx, h7, hy]
    rfl
  have h10 : ∀ c x, (s.setProg p).fetchOn c x = s.fetchOn c x := fun c x => by simp only [fetchOn, col, h3]
  simp only [canIssue, hc, hc', slotReady, hgr, hh, h1, stretched, dieOf, col, h3, h4, team, h5, ridgeLaunch, launch, h6, ctxRuns, ctx, h7, h9, h10]
  rfl

/-- An instruction that goes on after it has waited. -/
theorem resumes {s u : State} {i : Instr} {f : Form} {body : State → Eff State} (hi : s.canIssue = true) (hd : s.decodeRefuses f = none) (hp : s.prog ≠ .start)
    (hk : s.onCore = true → einjKind s.me = 0) (hf : f.leaves = false) (hb : body s.advance = .ok u) (hl : u.Live) :
    ∃ t, s.issue i f body = .next t ∧ Kept {} u t ∧ t.pc = u.pc := by
  refine ⟨s.retire i f u, ?_, kept_retire hl hf (injectAt_calm hk), pc_retire hl hf (injectAt_calm hk)⟩
  simp only [issue, hi, if_true, hd, if_neg hp, hb]

end State

end Sys2Proof.Machine
end

