-- ==== Sys2Proof/Laws/Sending.lean ====
section
/-! SUPPORT. What sending requests does and leaves alone (R260, R365). -/

namespace Sys2Proof.Machine

open Sys2Proof

namespace State

/-- Sending changes nothing but the things in progress and what goes out. -/
theorem sendOne_rest (s : State) (f : Flight) : (s.sendOne f).groups = s.groups ∧ (s.sendOne f).cols = s.cols ∧ (s.sendOne f).mem = s.mem ∧ (s.sendOne f).time = s.time := by
  simp only [sendOne, emit]
  repeat' split
  all_goals refine ⟨?_, ?_, ?_, ?_⟩ <;> rfl

/-- A request that leaves the device is kept with the port that carries it; all else of the step is what goes out. -/
theorem emit_flight (s : State) (id : Nat) (r : Remote) : (s.emit id r).flight = (s.setItem id (.remote { r with via := s.portFor r })).flight := by
  simp only [emit]
  repeat' split
  all_goals rfl

/-- What sending does to the things in progress: a request that was free to go is marked sent, with the port that carries it. -/
theorem sendOne_flight (s : State) (f : Flight) : (s.sendOne f).flight = s.flight ∨
    ∃ (r : Remote) (p : Option Nat), f.item = .remote r ∧ r.release = none ∧
      (s.sendOne f).flight = (s.setItem f.id (.remote { r with sent := true, sentAt := s.time, via := p })).flight := by
  simp only [sendOne]
  split
  · next r hr =>
    split
    · exact .inl rfl
    · next hn =>
      have hrel : r.release = none := by
        cases h : r.release with
        | none => rfl
        | some _ => simp [h] at hn
      split
      · exact .inr ⟨r, _, hr, hrel, emit_flight _ _ _⟩
      · exact .inr ⟨r, r.via, hr, hrel, rfl⟩
  · exact .inl rfl

/-- The same of sending all. -/
theorem sendFold (l : List Flight) : ∀ s : State, (l.foldl sendOne s).groups = s.groups ∧ (l.foldl sendOne s).cols = s.cols ∧ (l.foldl sendOne s).mem = s.mem := by
  induction l with
  | nil => intro s; exact ⟨rfl, rfl, rfl⟩
  | cons f l ih =>
    intro s
    obtain ⟨h1, h2, h3⟩ := ih (s.sendOne f)
    obtain ⟨k1, k2, k3, -⟩ := sendOne_rest s f
    exact ⟨h1.trans k1, h2.trans k2, h3.trans k3⟩

/-- Sending makes no request wait for a release. -/
theorem sendFold_release (rel : Nat) (l : List Flight) : ∀ s : State, (∀ f ∈ s.flight, ∀ r, f.item = .remote r → r.release ≠ some rel) →
    ∀ f ∈ (l.foldl sendOne s).flight, ∀ r, f.item = .remote r → r.release ≠ some rel := by
  induction l with
  | nil => intro s h; exact h
  | cons f l ih =>
    intro s h
    refine ih (s.sendOne f) ?_
    rcases sendOne_flight s f with e | ⟨r, _, hr, hn, e⟩
    · rw [e]; exact h
    · rw [e]
      intro x hx q hq
      simp only [State.setItem, List.mem_map] at hx
      obtain ⟨y, hy, rfl⟩ := hx
      split at hq
      · simp only [Item.remote.injEq] at hq
        rw [← hq]; show r.release ≠ _; rw [hn]; simp
      · exact h y hy q hq

/-- Sending places nothing. -/
theorem sendFold_item (id : Nat) (l : List Flight) : ∀ s : State, s.item id = none → (l.foldl sendOne s).item id = none := by
  induction l with
  | nil => intro s h; exact h
  | cons f l ih =>
    intro s h
    refine ih (s.sendOne f) ?_
    rcases sendOne_flight s f with e | ⟨r, _, hr, hn, e⟩
    · simp only [State.item, e]; exact h
    · simp only [State.item, e, State.setItem, Option.map_eq_none_iff, List.find?_eq_none] at h ⊢
      intro x hx
      obtain ⟨y, hy, rfl⟩ := List.mem_map.1 hx
      have := h y hy
      split
      · next e' => simp only [decide_eq_true_eq] at this ⊢; rw [← e']; exact this
      · exact this

end State

end Sys2Proof.Machine
end

