-- ==== Sys2Proof/Laws/Threads.lean ====
section
/-! SUPPORT. Instructions of a stream thread: going on, completing, waiting, faulting (R186, R187, R208). -/

namespace Sys2Proof.Machine

open Sys2Proof

namespace State

variable {s u : State} {c t : Nat}

theorem pc_thread (hc : s.cur = .thread c t) : s.pc = (s.thread c t).pc := by simp only [pc, hc]

theorem advance_thread (hc : s.cur = .thread c t) : s.advance = s.modThread c t fun h => { h with pc := s.pc + 4 } := by
  simp only [advance, setPc, hc]

/-- A state that an instruction of a stream thread has worked on: the thread is there, with the program counter it had. -/
structure SameThread (s u : State) (c t : Nat) : Prop where
  agent : u.cur = .thread c t
  there : c < u.cols.length ∧ t < 16
  pc : (u.thread c t).pc = (s.thread c t).pc

theorem SameThread.refl (hc : s.cur = .thread c t) (hl : s.Live) : SameThread s s c t := ⟨hc, by simpa only [Live, hc] using hl, rfl⟩

theorem SameThread.live (h : SameThread s u c t) : u.Live := by
  simp only [Live, h.agent]; exact h.there

theorem SameThread.modThread (h : SameThread s u c t) {F : Thread → Thread} (hF : ∀ x, (F x).pc = x.pc) : SameThread s (u.modThread c t F) c t :=
  ⟨h.agent, by simp only [State.modThread, State.modCol, List.length_modify]; exact h.there, by rw [thread_modThread_same h.there.1 h.there.2, hF, h.pc]⟩

theorem SameThread.beside (h : SameThread s u c t) {v : State} (hc : v.cur = u.cur) (hg : v.cols = u.cols) : SameThread s v c t :=
  ⟨hc.trans h.agent, by rw [hg]; exact h.there, by simp only [thread, col, hg]; exact h.pc⟩

/-- An instruction of a stream thread that goes on. -/
theorem Passes.doesT {i : Instr} {f : Form} {body : State → Eff State} (he : exec i s = s.issue i f body) (h : s.Passes f) (hc : s.cur = .thread c t)
    (hb : body s.advance = .ok u) (hu : SameThread s.advance u c t) : s.Does i u := by
  obtain ⟨v, h3, h4, h5⟩ := h.next (i := i) hb hu.live
  refine ⟨v, he.trans h3, ?_, h4⟩
  rw [h5, pc_thread hu.agent, hu.pc, ← pc_thread ((cur_advance s).trans hc), pc_advance h.live]

/-- What the thread holds after going on. -/
theorem thread_advance (hc : s.cur = .thread c t) (hl : s.Live) : s.advance.thread c t = { s.thread c t with pc := s.pc + 4 } := by
  have h : c < s.cols.length ∧ t < 16 := by simpa only [Live, hc] using hl
  rw [advance_thread hc, thread_modThread_same h.1 h.2]

/-- What going on leaves of the rest. -/
theorem rest_advance (hc : s.cur = .thread c t) : s.advance.mem = s.mem ∧ s.advance.flight = s.flight ∧ s.advance.nextId = s.nextId ∧ s.advance.teams = s.teams ∧
    s.advance.groups = s.groups ∧ s.advance.ctxs = s.ctxs ∧ s.advance.split = s.split ∧ s.advance.dev = s.dev ∧ s.advance.record = s.record := by
  rw [advance_thread hc]
  exact ⟨rfl, rfl, rfl, rfl, rfl, rfl, rfl, rfl, rfl⟩

/-- A field of columns that does not lie in threads. -/
theorem col_modThread {α : Type} (π : Column → α) (hπ : ∀ (x : Column) v, π { x with threads := v } = π x) (f : Thread → Thread) (k : Nat) :
    π ((s.modThread c t f).col k) = π (s.col k) := by
  simp only [State.modThread, State.modCol, State.col, List.getD_eq_getElem?_getD, List.getElem?_modify]
  by_cases hk : c = k
  · subst hk
    cases s.cols[c]? with
    | none => rfl
    | some x => simp [hπ]
  · simp [hk]

/-- What an agent's accesses depend on, after a thread has gone on. -/
theorem agent_advanceT (hc : s.cur = .thread c t) (hl : s.Live) :
    s.advance.myCol = s.myCol ∧ s.advance.myCore = s.myCore ∧ s.advance.myCtx = s.myCtx ∧ s.advance.myTlb = s.myTlb ∧ s.advance.myColNum = s.myColNum ∧
    (∀ k, s.advance.wholeSpace k = s.wholeSpace k) ∧ (∀ p, s.advance.ptrHere p = s.ptrHere p) ∧ s.advance.myTeam = s.myTeam ∧ s.advance.segs = s.segs := by
  have hc' : s.advance.cur = .thread c t := (cur_advance s).trans hc
  have e := thread_advance hc hl
  obtain ⟨-, -, -, -, -, e1, e2, e4, -⟩ := rest_advance hc
  have hcol : s.advance.myCol = s.myCol := by simp only [myCol, hc, hc']
  have hctx : s.advance.myCtx = s.myCtx := by simp only [myCtx, hc, hc', e]
  have hnum : s.advance.myColNum = s.myColNum := by simp only [myColNum, hcol, hctx, colNum, part, ctx, e1, e2]
  refine ⟨hcol, ?_, hctx, ?_, hnum, fun k => ?_, fun p => ?_, ?_, ?_⟩
  · simp only [myCore, hc, hc', e]
  · simp only [myTlb, hc, hc']
    rw [advance_thread hc]
    exact col_modThread (·.tlb) (fun _ _ => rfl) _ _
  · simp only [wholeSpace, onCore, hc, hc', Bool.false_and]
  · simp only [ptrHere, hnum, e4]
  · simp only [myTeam, hc, hc', e]
  · simp only [segs, hc, hc', e]

theorem alike_advanceT (hc : s.cur = .thread c t) (hl : s.Live) : Alike s s.advance := by
  obtain ⟨h1, h2, h3, h4, _, h6, h7, h8, h9⟩ := agent_advanceT hc hl
  obtain ⟨e1, e2, _, e4, _⟩ := rest_advance hc
  exact ⟨onCore_advance s, ⟨h1, h2, h3, h8⟩, h4, by simp only [myWalkFault, hc, (cur_advance s).trans hc, thread_advance hc hl], h7, h6,
    fun k => by simp only [seg, h9], e4, e1, e2⟩

theorem reaches_advanceT (hc : s.cur = .thread c t) (hl : s.Live) {space kind align : Nat} {r : Req} {ps : List (Nat × Nat)} (h : s.Reaches space kind align r ps) :
    s.advance.Reaches space kind align r ps := (alike_advanceT hc hl).reaches h

/-- An instruction of a stream thread whose own effect faults (R208). -/
theorem Passes.faultsT {i : Instr} {f : Form} {body : State → Eff State} {r : Trap} (he : exec i s = s.issue i f body) (h : s.Passes f) (hc : s.cur = .thread c t)
    (hb : body s.advance = .error (.trap r)) (h1 : r.cause ≠ 0xB1 ∧ r.cause ≠ 0xFF) (h2 : r.next = false) :
    exec i s = .next ((s.modThread c t fun y => { y with walkFault := none }).streamFault c t r.cause r.detail r.addr s.pc (insnWord i) s.nextId).changed := by
  rw [he, issue_trap h.ready h.engine h.priv h.legal h.good hb]
  simp only [fail, hc, h1.1, h1.2, h2, Bool.false_eq_true, if_false, decide_false, Bool.or_self]
  rfl

/-- An instruction of a stream thread that waits. -/
theorem Passes.waitsT {i : Instr} {f : Form} {body : State → Eff State} (he : exec i s = s.issue i f body) (h : s.Passes f) (hc : s.cur = .thread c t)
    (hb : body s.advance = .error (.hold u)) (hu : u.cur = .thread c t) (hl : u.Live) : s.Waits i := by
  refine ⟨s.holdAt u, ?_, ?_, ?_⟩
  · rw [he]
    simp only [issue, h.ready.issues, if_true, decodeRefuses_none h.engine h.priv h.legal h.good, issueRefuses_none h.good, h.ready.fresh, hb, stopped']
  · have hs : (u.setPc s.pc).cur = .thread c t := by simp only [setPc, hu]; exact hu
    simp only [holdAt, hs]
    exact (pc_thread (s := u.setPc s.pc) hs).symm.trans (pc_setPc hl s.pc)
  · have hs : (u.setPc s.pc).cur = .thread c t := by simp only [setPc, hu]; exact hu
    simp only [holdAt, hs, hc, hu]
    split
    · assumption
    · simp

end State

end Sys2Proof.Machine
end

