-- ==== Sys2Proof/Tests/Slice0.lean ====
section
/-! SUPPORT. Tests of the model: words decoded, ill-formed instructions refused, values that the spec's own tables and examples give, and states that meet the hypotheses of the statements. -/

open Sys2Proof Sys2Proof.Machine Sys2Proof.Machine.State

namespace Sys2Proof.Tests

-- The kernel evaluates one theorem at a time.
set_option Elab.async false

/-! ### Well-formedness -/

/-- One ill-formed instruction for each check of `wellFormed`, which refuses it. -/
theorem test_ill_formed_refused : ∀ i ∈ [Instr.bc 10 0, .bk 3 0 0, .segld 1 7, .ssel 1 2 3 10, .vcmpk 1 2 3 8, .vred 1 2 6, .vscan 1 2 6, .vfcmpk 1 2 3 8,
    .vcvt 1 2 0 14, .vldi 1 2 0 0, .vldi 1 2 3 0, .atom 1 2 3 0 10, .atom 1 2 3 1 8, .atom 1 2 3 2 8, .rld 1 2 4, .rst 1 2 4, .rred 1 2 5, .rredColl 1 2 5,
    .ratom 1 2 3 0 10, .ratom 1 2 3 0 7, .ratom 1 2 3 0 8, .phase 0 0, .bufSet 1 1 0, .rgnPres 1 3 0, .taddr 1 2 5 0 0, .tgath 1 2 3 5, .tscat 1 2 3 5,
    .tred 1 2 3, .tloop 0 0], wellFormed i = false := by decide

/-- The largest values that the same checks let through. -/
theorem test_well_formed_accepted : ∀ i ∈ [Instr.bc 9 0, .bk 2 0 0, .segld 1 6, .ssel 1 2 3 9, .vcmpk 1 2 3 7, .vred 1 2 5, .vscan 1 2 5, .vfcmpk 1 2 3 7,
    .vcvt 1 2 0 13, .vldi 1 2 1 0, .vldi 1 2 2 0, .atom 1 2 3 0 8, .atom 1 2 3 1 9, .rld 1 2 3, .rst 1 2 3, .rred 1 2 4, .rredColl 1 2 4, .ratom 1 2 3 0 9,
    .phase 1 0, .bufSet 1 0 0, .bufSet 0 3 0, .rgnPres 1 2 0, .taddr 1 2 4 0 0, .tgath 1 2 3 4, .tscat 1 2 3 4, .tred 1 2 2, .tloop 1 0],
    wellFormed i = true := by decide

/-! ### Decoding -/

/-- Words of the control instructions, each written out from its row of the opcode tables (Tables 3-14 to 3-24). -/
theorem test_decode_control : ∀ p ∈ [
    (0x01000000, Instr.nop), (0x0202C0F1, Instr.br 180465), (0x0326C0F1, Instr.bc 9 180465),
    (0x04AEC0F1, Instr.bk 2 11 180465), (0x0502C0F1, Instr.call 180465), (0x06012000, Instr.ret 18),
    (0x07012000, Instr.jmp 18), (0x082EC0F1, Instr.split 11 180465), (0x09152000, Instr.jarm 5 18),
    (0x0A140000, Instr.join 5), (0x0B000000, Instr.exit)],
    decode (BitVec.ofNat 32 p.1) = .ok p.2 := by decide

/-- Words of the system instructions, each written out from its row of the opcode tables (Tables 3-14 to 3-24). -/
theorem test_decode_system : ∀ p ∈ [
    (0x1002C0F1, Instr.setmode 180465), (0x11140A35, Instr.rdsr 5 2613), (0x12012A35, Instr.wrsr 18 2613),
    (0x13140000, Instr.rdtime 5), (0x14000033, Instr.trap 51), (0x15012000, Instr.sint 18),
    (0x16000000, Instr.eret), (0x17012006, Instr.segld 18 6), (0x18000A35, Instr.dbgbrk 2613)],
    decode (BitVec.ofNat 32 p.1) = .ok p.2 := by decide

/-- Words of the scalar instructions, each written out from its row of the opcode tables (Tables 3-14 to 3-24). -/
theorem test_decode_scalar : ∀ p ∈ [
    (0x20152A00, Instr.sadd 5 18 40), (0x21152A00, Instr.ssub 5 18 40), (0x22152A00, Instr.smul 5 18 40),
    (0x23152A00, Instr.smulh 5 18 40), (0x24152A00, Instr.sdiv 5 18 40), (0x25152A00, Instr.srem 5 18 40),
    (0x26152A00, Instr.sand 5 18 40), (0x27152A00, Instr.sor 5 18 40), (0x28152A00, Instr.sxor 5 18 40),
    (0x29152A00, Instr.sshl 5 18 40), (0x2A152A00, Instr.sshr 5 18 40), (0x2B152A00, Instr.ssra 5 18 40),
    (0x2C152A00, Instr.smin 5 18 40), (0x2D152A00, Instr.smax 5 18 40), (0x2E012A00, Instr.scmp 18 40),
    (0x2F152A09, Instr.ssel 5 18 40 9)],
    decode (BitVec.ofNat 32 p.1) = .ok p.2 := by decide

/-- Words of the immediate instructions, each written out from its row of the opcode tables (Tables 3-14 to 3-24). -/
theorem test_decode_immediate : ∀ p ∈ [
    (0x30152A35, Instr.saddi 5 18 2613), (0x31152A35, Instr.sandi 5 18 2613), (0x32152A35, Instr.sori 5 18 2613),
    (0x33152A35, Instr.sxori 5 18 2613), (0x3415202B, Instr.sshli 5 18 43), (0x3515202B, Instr.sshri 5 18 43),
    (0x3615202B, Instr.ssrai 5 18 43), (0x37012A35, Instr.scmpi 18 2613), (0x3816C0F1, Instr.sli 5 180465),
    (0x3916C0F1, Instr.slhi 5 180465)],
    decode (BitVec.ofNat 32 p.1) = .ok p.2 := by decide

/-- Words of the mask instructions, each written out from its row of the opcode tables (Tables 3-14 to 3-24). -/
theorem test_decode_mask : ∀ p ∈ [
    (0x40152A00, Instr.kand 5 18 40), (0x41152A00, Instr.kor 5 18 40), (0x42152A00, Instr.kxor 5 18 40),
    (0x43152A00, Instr.kandn 5 18 40), (0x44152000, Instr.ksmov 5 18), (0x45152000, Instr.skmov 5 18),
    (0x46152000, Instr.kpop 5 18), (0x47152000, Instr.kfirst 5 18), (0x48012A00, Instr.ktest 18 40),
    (0x49152A05, Instr.vcmpk 5 18 40 5), (0x4A152A00, Instr.vshuf 5 18 40), (0x4B152A00, Instr.vbcast 5 18 40),
    (0x4C152A33, Instr.vtbl 5 18 40 51), (0x4D152005, Instr.vred 5 18 5), (0x4E152004, Instr.vscan 5 18 4),
    (0x4F152A00, Instr.slane 5 18 40)],
    decode (BitVec.ofNat 32 p.1) = .ok p.2 := by decide

/-- Words of the vector integer instructions, each written out from its row of the opcode tables (Tables 3-14 to 3-24). -/
theorem test_decode_vector_integer : ∀ p ∈ [
    (0x50152A00, Instr.vadd 5 18 40), (0x51152A00, Instr.vsub 5 18 40), (0x52152A00, Instr.vmul 5 18 40),
    (0x53152A00, Instr.vmulh 5 18 40), (0x54152A33, Instr.vmad 5 18 40 51), (0x55152A00, Instr.vmin 5 18 40),
    (0x56152A00, Instr.vmax 5 18 40), (0x57152000, Instr.vabs 5 18), (0x58152000, Instr.vneg 5 18),
    (0x59152A00, Instr.vand 5 18 40), (0x5A152A00, Instr.vor 5 18 40), (0x5B152A00, Instr.vxor 5 18 40),
    (0x5C152A00, Instr.vshl 5 18 40), (0x5D152A00, Instr.vshr 5 18 40), (0x5E152A00, Instr.vsra 5 18 40),
    (0x5F152000, Instr.vpopc 5 18), (0x60152000, Instr.vclz 5 18), (0x61152A33, Instr.vsel 5 18 40 51),
    (0x62152A35, Instr.vaddi 5 18 2613), (0x63152000, Instr.vbcs 5 18), (0x64140000, Instr.vlid 5)],
    decode (BitVec.ofNat 32 p.1) = .ok p.2 := by decide

/-- Words of the vector float instructions, each written out from its row of the opcode tables (Tables 3-14 to 3-24). -/
theorem test_decode_vector_float : ∀ p ∈ [
    (0x70152A00, Instr.vfadd 5 18 40), (0x71152A00, Instr.vfsub 5 18 40), (0x72152A00, Instr.vfmul 5 18 40),
    (0x73152A33, Instr.vfma 5 18 40 51), (0x74152A00, Instr.vfmin 5 18 40), (0x75152A00, Instr.vfmax 5 18 40),
    (0x76152000, Instr.vfabs 5 18), (0x77152000, Instr.vfneg 5 18), (0x78152A06, Instr.vfcmpk 5 18 40 6),
    (0x79152000, Instr.vrcp 5 18), (0x7A152000, Instr.vrsq 5 18), (0x7B152000, Instr.vexp2 5 18),
    (0x7C152000, Instr.vlog2 5 18), (0x7D152000, Instr.vtanh 5 18), (0x7E152059, Instr.vcvt 5 18 5 9),
    (0x7F152A00, Instr.vscl 5 18 40), (0x80152000, Instr.vfrnd 5 18), (0x81152A33, Instr.vqnt 5 18 40 51),
    (0x82152A33, Instr.vdqnt 5 18 40 51)],
    decode (BitVec.ofNat 32 p.1) = .ok p.2 := by decide

/-- Words of the memory instructions, each written out from its row of the opcode tables (Tables 3-14 to 3-24). -/
theorem test_decode_memory : ∀ p ∈ [
    (0x90152AD3, Instr.vld 5 18 2 723), (0x91152AD3, Instr.vst 5 18 2 723), (0x92152A2B, Instr.vldx 5 18 40 2 11),
    (0x93152A2B, Instr.vstx 5 18 40 2 11), (0x94152AD3, Instr.sld 5 18 2 723), (0x95152AD3, Instr.sst 5 18 2 723),
    (0x96152AD3, Instr.vldi 5 18 2 723), (0x97152A08, Instr.atom 5 18 40 0 8), (0x98152002, Instr.rld 5 18 2),
    (0x99152003, Instr.rst 5 18 3), (0x9A152003, Instr.rred 5 18 3), (0x9A152024, Instr.rredColl 5 18 4),
    (0x9B152A29, Instr.ratom 5 18 40 1 9), (0x9C152A20, Instr.rcas 5 18 40 1), (0x9D012003, Instr.xsend 18 3),
    (0x9E140003, Instr.xrecv 5 3), (0x9F152AF3, Instr.xperm 5 18 43 51), (0xA000000A, Instr.phase 2 2),
    (0xA10005A3, Instr.fenceq 1443)],
    decode (BitVec.ofNat 32 p.1) = .ok p.2 := by decide

/-- Words of the barrier instructions, each written out from its row of the opcode tables (Tables 3-14 to 3-24). -/
theorem test_decode_barrier : ∀ p ∈ [
    (0xB0012A35, Instr.barInit 18 2613), (0xB1012A35, Instr.barArr 18 2613), (0xB2040A35, Instr.barWait 1 2613),
    (0xB3140A35, Instr.barTest 5 2613), (0xB4012A35, Instr.barExp 18 2613), (0xB5000048, Instr.bufSet 1 0 8),
    (0xB6140008, Instr.bufGet 5 8), (0xB70D2A35, Instr.stk 3 18 2613)],
    decode (BitVec.ofNat 32 p.1) = .ok p.2 := by decide

/-- Words of the matrix instructions, each written out from its row of the opcode tables (Tables 3-14 to 3-24). -/
theorem test_decode_matrix : ∀ p ∈ [
    (0xC0012000, Instr.mxGang 18), (0xC1012A02, Instr.mxLdb 18 40 2), (0xC2152A00, Instr.mxMm 5 18 40),
    (0xC3140000, Instr.mxZero 5), (0xC4152A00, Instr.mxEpi 5 18 40), (0xC5152000, Instr.mxAcv 5 18),
    (0xC6152000, Instr.mxVac 5 18), (0xC7152A00, Instr.mxCsum 5 18 40)],
    decode (BitVec.ofNat 32 p.1) = .ok p.2 := by decide

/-- Words of the region instructions, each written out from its row of the opcode tables (Tables 3-14 to 3-24). -/
theorem test_decode_region : ∀ p ∈ [
    (0xD0152000, Instr.csacc 5 18), (0xD1140000, Instr.csclr 5), (0xD2012A33, Instr.cschk 18 40 51),
    (0xD3152001, Instr.csmov 5 18 1), (0xD4000001, Instr.rgnBeg 1), (0xD5012AD3, Instr.rgnPres 18 2 723),
    (0xD6000000, Instr.rgnEnd), (0xD7000000, Instr.rgnAbt)],
    decode (BitVec.ofNat 32 p.1) = .ok p.2 := by decide

/-- Words of the stream instructions, each written out from its row of the opcode tables (Tables 3-14 to 3-24). -/
theorem test_decode_stream : ∀ p ∈ [
    (0xE0152AD3, Instr.tlrec 5 18 2 723), (0xE1152942, Instr.taddr 5 18 4 5 2), (0xE2142000, Instr.tcopy 5 2),
    (0xE3142043, Instr.tgath 5 2 1 3), (0xE4142042, Instr.tscat 5 2 1 2), (0xE5142A00, Instr.tmcast 5 2 40),
    (0xE6142002, Instr.tred 5 2 2), (0xE7000A35, Instr.tarr 2613), (0xE7040000, Instr.tarrNone),
    (0xE8040A35, Instr.twait 1 2613), (0xE8080000, Instr.twaitDrain), (0xE9CEC0F1, Instr.tloop 51 180465),
    (0xEA000000, Instr.texit)],
    decode (BitVec.ofNat 32 p.1) = .ok p.2 := by decide

/-- The words that the chapters spell out beside their assembly: R47, R80, R81, R82, R128, R130, R131, R157, R173, R176, R177, R181, R190, R215, R328. -/
theorem test_decode_examples : ∀ p ∈ [
    (0x10000040, Instr.setmode 0x40), (0x2F105182, Instr.ssel 4 5 6 2), (0x3808FFFF, Instr.sli 2 0xFFFF), (0x32082100, Instr.sori 2 2 0x100),
    (0x08100003, Instr.split 4 3), (0x09043000, Instr.jarm 1 3), (0x0A000000, Instr.join 0), (0x90042400, Instr.vld 1 2 1 0), (0x62041001, Instr.vaddi 1 1 1),
    (0x91042420, Instr.vst 1 2 1 0x20), (0x50081040, Instr.vadd 2 1 1), (0xB0005000, Instr.barInit 5 0), (0xB1000000, Instr.barArr 0 0),
    (0xB2040000, Instr.barWait 1 0), (0xB4006000, Instr.barExp 6 0), (0xB3240000, Instr.barTest 9 0), (0x9D005002, Instr.xsend 5 2), (0x9E1C0002, Instr.xrecv 7 2),
    (0x9F081002, Instr.xperm 2 1 0 2), (0x9F081061, Instr.xperm 2 1 1 0x21), (0x9F08103F, Instr.xperm 2 1 0 0x3F), (0xB7006000, Instr.stk 0 6 0),
    (0xE90FFFFB, Instr.tloop 3 (-5)), (0xEA000000, Instr.texit), (0x16000000, Instr.eret)], decode (BitVec.ofNat 32 p.1) = .ok p.2 := by decide

/-- R54, Table 3-26: the zero word, opcodes that no table assigns, reserved bits and reserved values. -/
theorem test_decode_rejects : ∀ p ∈ [(0x00000000, Reject.zeroWord), (0x00000001, .illegalOpcode), (0x0C000000, .illegalOpcode), (0x19000000, .illegalOpcode),
    (0x3A000000, .illegalOpcode), (0x65000000, .illegalOpcode), (0x83000000, .illegalOpcode), (0xA2000000, .illegalOpcode), (0xFF000000, .illegalOpcode),
    (0x01000001, .reservedField), (0x20000001, .reservedField), (0x0328FFFF, .reservedField), (0x49000008, .reservedField), (0xB2080000, .reservedField),
    (0xE90C0000 - 0xC0000, .reservedField)], decode (BitVec.ofNat 32 p.1) = .reject p.2 := by decide

/-- The decoder reads the bytes of a word as memory holds them. -/
theorem test_decode_bytes : decodeBytes [0x40, 0x10, 0x08, 0x50, 0xAA] = some (.ok (.vadd 2 1 1), [0xAA]) := by decide

/-- The encoder gives the words of the same examples. -/
theorem test_encode : ([Instr.setmode 0x40, .ssel 4 5 6 2, .tloop 3 (-5), .xperm 2 1 1 0x21, .barWait 1 0].map encode =
    [some 0x10000040, some 0x2F105182, some 0xE90FFFFB, some 0x9F081061, some 0xB2040000]) := by decide

/-! ### States that meet the hypotheses of the statements

Every state is the placed group (16 lanes, 64 v and 64 s registers, all full and zero) or the placed stream thread with a few registers set. -/

/-- The placed group is about to issue in slot A, changed by `F`. -/
def demo (F : Group → Group) : State := ({ State.reset.withFetchWord 32 0x01000000 with cur := .slot 0 false } : State).modGroup 0 F

/-- The placed stream thread is about to issue, changed by `F`. -/
def onThread (F : Thread → Thread) : State := ({ State.reset.withFetchWord 32 0xE8080000 with cur := .thread 0 0 } : State).modThread 0 0 F

def setS (r : Nat) (x : Word) (g : Group) : Group := { g with image := { g.image with s := vmod g.image.s r fun _ => ⟨x, true, none⟩ } }

def setV (r : Nat) (f : Nat → Word) (g : Group) : Group :=
  { g with image := { g.image with v := vmod g.image.v r fun _ => ⟨Vector.ofFn fun l : Fin 64 => f l.val, true, []⟩ } }

def setMode (m : BitVec 18) (g : Group) : Group := { g with image := { g.image with mode := m } }

/-- The group has a handler, at CODE offset 0x100. -/
def handler (g : Group) : Group := { g with trapbase := 0x100 }

/-- A pointer to an offset of the agent's own column. -/
def near (off : Nat) : Word := BitVec.ofNat 64 (0xFFFF * 2 ^ 48 + off)

/-- The s register that an instruction leaves, where it answers a next state. -/
def givesS (i : Instr) (s : State) (r : Nat) : Option Word := match exec i s with
  | .next t => some (t.sreg r).val
  | _ => none

/-- The lane of a v register that an instruction leaves, where it answers a next state. -/
def givesV (i : Instr) (s : State) (r l : Nat) : Option Word := match exec i s with
  | .next t => some ((t.vreg r).lanes.toArray.getD l 0)
  | _ => none

theorem readyCore {s : State} (h : s.canIssue = true ∧ s.prog = .start ∧ einjKind s.me = 0 ∧ s.onCore = true) : s.ReadyCore := ⟨⟨h.1, h.2.1, fun _ => h.2.2.1⟩, h.2.2.2⟩

theorem readyStream {s : State} (h : s.canIssue = true ∧ s.prog = .start ∧ s.onCore = false) : s.ReadyStream :=
  ⟨⟨h.1, h.2.1, fun c => absurd (h.2.2 ▸ c) Bool.false_ne_true⟩, h.2.2⟩

theorem sdst {s : State} {r : Nat} (h : (if s.onCore = true then r < s.me.sregs ∨ r = 62 ∨ r = 63 else r < 32) ∧ (s.sreg r).full = true) : s.SDst r := h

theorem ssrc {s : State} {r : Nat} (h : (if s.onCore = true then r < s.me.sregs ∨ r = 62 ∨ r = 63 else r < 32) ∧ (s.sreg r).full = true ∧ (s.sreg r).poison = none) :
    s.SSrc r := h

theorem vdst {s : State} {r : Nat} (h : r < s.me.vregs ∧ (s.vreg r).full = true) : s.VDst r := h

theorem vsrc {s : State} {r : Nat} (h : (r < s.me.vregs ∧ (s.vreg r).full = true) ∧ ∀ l ∈ s.lanes, (s.vreg r).poisonOf l = none) : s.VSrc r := h

theorem vall {s : State} {r : Nat} (h : (r < s.me.vregs ∧ (s.vreg r).full = true) ∧ ∀ l < s.me.width, (s.vreg r).poisonOf l = none) : s.VAll r := h

theorem handles {s : State} {g : Nat} {b : Bool} {x : Nat} (h : s.cur = .slot g b ∧ s.hasGroup g = true ∧ (s.grp g).privileged = false ∧ (s.grp g).trapbase ≠ 0 ∧
    s.frameHome (s.grp g) = some x ∧ s.noLate (fun l => lateOf (s.grp g).col (s.grp g).core none l && meetPieces (latePieces l) [(x, 64)]) = true ∧
    (s.grp g).regions.length ≤ 8 ∧ s.mem.wf = true) : s.Handles g b x :=
  ⟨h.1, h.2.1, h.2.2.1, h.2.2.2.1, h.2.2.2.2.1, h.2.2.2.2.2.1, h.2.2.2.2.2.2.1, h.2.2.2.2.2.2.2⟩

theorem allowed {s : State} {space kind align : Nat} {r : Req} (h : s.ptrHere r.ptr = true ∧ (space = 3 → kind = 0) ∧
    (s.wholeSpace space = true ∨ r.off + r.size ≤ segLimit (s.seg (segOf space))) ∧ r.off % align = 0) : s.Allowed space kind align r := ⟨h.1, h.2.1, h.2.2.1, h.2.2.2⟩

/-- The conditions of `Reaches`, as a proposition that can be decided. -/
abbrev CanReach (s : State) (space kind align : Nat) (r : Req) (ps : List (Nat × Nat)) : Prop :=
  (s.ptrHere r.ptr = true ∧ (space = 3 → kind = 0) ∧ (s.wholeSpace space = true ∨ r.off + r.size ≤ segLimit (s.seg (segOf space))) ∧ r.off % align = 0) ∧
    (s.translateSpan ((if s.wholeSpace space then 0 else segBase (s.seg (segOf space))) + r.off) r.size kind (withOff r.ptr r.off) r.lane).toOption = some ps

theorem reaches {s : State} {space kind align : Nat} {r : Req} {ps : List (Nat × Nat)} (h : CanReach s space kind align r ps) : s.Reaches space kind align r ps := by
  refine ⟨allowed h.1, ?_⟩
  have k := h.2
  revert k
  cases s.translateSpan ((if s.wholeSpace space then 0 else segBase (s.seg (segOf space))) + r.off) r.size kind (withOff r.ptr r.off) r.lane with
  | ok x => simp [Except.toOption]
  | error e => simp [Except.toOption]

/-! ### Scalar and control -/

/-- s3 = 20, s4 = −3, s5 = 0x1000, s9 = 2. -/
def scalars : State := demo fun g => handler (setS 3 20 (setS 4 (-3) (setS 5 0x1000 (setS 9 2 g))))

theorem test_witness_ScalarResults : scalars.ReadyCore ∧ scalars.SDst 6 ∧ scalars.SDst 0 ∧ scalars.SSrc 3 ∧ scalars.SSrc 4 ∧ scalars.sval 4 ≠ 0 := by
  refine ⟨readyCore ?_, sdst ?_, sdst ?_, ssrc ?_, ssrc ?_, ?_⟩ <;> decide +kernel

/-- The quotient of 20 and −3 rounds toward zero, the remainder has the sign of the dividend (R78); 20 · −3 has the high half −1. -/
theorem test_scalar_arithmetic : [Instr.sdiv 6 3 4, .srem 6 3 4, .srem 6 4 3, .smulh 6 3 4, .sshl 6 3 9, .ssra 6 4 9].map (fun i => givesS i scalars 6) =
    [some (-6), some 2, some (-3), some (-1), some 80, some (-1)] := by decide +kernel

theorem test_witness_ScalarImmediates : scalars.ReadyCore ∧ scalars.SDst 3 ∧ scalars.SSrc 3 ∧ scalars.SSrc 0 := by
  refine ⟨readyCore ?_, sdst ?_, ssrc ?_, ssrc ?_⟩ <;> decide +kernel

/-- A negative immediate is sign-extended by `saddi` and `sli`; `slhi` shifts 18 bits in (Table 5-4). -/
theorem test_scalar_immediates : [Instr.saddi 6 3 (-1), .sli 6 (-2), .sshri 6 4 63].map (fun i => givesS i scalars 6) = [some 19, some (-2), some 1] ∧
    givesS (.slhi 3 7) scalars 3 = some 0x500007 := by decide +kernel

theorem test_witness_ScalarCompares : scalars.ReadyCore ∧ scalars.SSrc 3 ∧ scalars.SSrc 4 ∧ scalars.SDst 6 ∧ (conditions38 scalars.flags)[0]? = some false ∧
    (conditions38 scalars.flags)[9]? = some true := by
  refine ⟨readyCore ?_, ssrc ?_, ssrc ?_, sdst ?_, ?_⟩ <;> decide +kernel

theorem test_witness_Branches : scalars.ReadyCore ∧ scalars.CodeTarget (scalars.pc + 4) ∧ scalars.CodeTarget 0xFFFC ∧ ¬ scalars.CodeTarget 0x10000 ∧
    (conditions38 scalars.flags)[1]? = some true ∧ scalars.SDst 63 ∧ scalars.SSrc 5 ∧ scalars.CodeTarget (scalars.sval 5) ∧
    scalars.kreg 0 &&& scalars.slotMask = scalars.slotMask := by
  refine ⟨readyCore (by decide +kernel), ?_, ?_, ?_, by decide +kernel, sdst (by decide +kernel), ssrc (by decide +kernel), ?_, by decide +kernel⟩ <;>
    unfold CodeTarget <;> decide +kernel

/-- A privileged group. -/
def privileged : State := demo fun g => { setS 3 (near 0) (handler g) with privileged := true }

theorem test_witness_SpecialRegisterReads_and_Writes : privileged.ReadyCore ∧ privileged.SSrc 3 ∧ privileged.SDst 3 ∧ privileged.me.privileged = true := by
  refine ⟨readyCore ?_, ssrc ?_, sdst ?_, ?_⟩ <;> decide +kernel

/-- The width, the device number, segment register 4 and the kick count of the placed group (Table 3-9). -/
theorem test_rdsr : [Instr.rdsr 6 0x008, .rdsr 6 0x00D, .rdsr 6 0x024, .rdsr 6 0x040].map (fun i => givesS i scalars 6) =
    [some 16, some 0, some (BitVec.ofNat 64 (0x7F0 * 2 ^ 29 + 512)), some 0] := by decide +kernel

/-- The stream thread with s3 = 0x1F. -/
def streaming : State := onThread fun h => { h with s := vmod h.s 3 fun _ => ⟨0x1F, true, none⟩ }

theorem test_witness_StreamSpecialRegisters : streaming.Ready ∧ streaming.cur = .thread 0 0 ∧ (streaming.thread 0 0).kick = some placedKick ∧ streaming.SDst 6 ∧ streaming.SSrc 3 := by
  refine ⟨(readyStream ?_).toReady, ?_, ?_, sdst ?_, ssrc ?_⟩ <;> decide +kernel

/-! ### Traps -/

theorem test_witness_SoftwareTraps : scalars.ReadyCore ∧ scalars.Handles 0 false 0x400FF0400 ∧ (scalars.ctx (scalars.grp 0).ctx).debug = false :=
  ⟨readyCore (by decide +kernel), handles (by decide +kernel), by decide +kernel⟩

/-- s3 = 0x1002 is misaligned, s4 = 0x10000 is the CODE limit; 32 s registers are declared. -/
def faulting : State := demo fun g => { setS 3 0x1002 (setS 4 0x10000 (handler g)) with sregs := 32 }

theorem test_witness_ScalarFaults : faulting.ReadyCore ∧ faulting.Handles 0 false 0x400FF0400 ∧ faulting.SDst 6 ∧ faulting.SSrc 3 ∧ faulting.SSrc 4 ∧
    (faulting.SSrc 0 ∧ faulting.sval 0 = 0) ∧ (faulting.sval 3).toNat % 4 ≠ 0 ∧
    ((faulting.sval 4).toNat % 4 = 0 ∧ segLimit (faulting.seg 4) ≤ (faulting.sval 4).toNat) ∧
    (let target := faulting.pc + 4 + BitVec.ofInt 64 (4 * (-2 : BitVec 18).toInt)
     target.toNat % 4 = 0 ∧ segLimit (faulting.seg 4) ≤ target.toNat) ∧ (faulting.grp 0).sregs ≤ 32 ∧ (faulting.grp 0).sregs ≤ 61 := by
  refine ⟨readyCore ?_, handles ?_, sdst ?_, ssrc ?_, ssrc ?_, ⟨ssrc ?_, ?_⟩, ?_⟩ <;> decide +kernel

/-- s3 is empty and its first source traps, s4 is poisoned; the second source waits unless the mode's bit 1 of `SRCPOL` asks for a trap. -/
def sources (m : BitVec 18) : State := demo fun g => setMode m { handler g with image := { g.image with
  s := vmod (vmod g.image.s 3 fun _ => ⟨0, false, none⟩) 4 fun _ => ⟨0, true, some .line⟩ } }

theorem test_witness_EmptyAndPoisonedSources :
    ((sources 0).sreg 3).full = false ∧ (sources 0).srcpol 1 = false ∧ (sources 0x3FFFF).srcpol 1 = true ∧
    (((sources 0).sreg 4).full = true ∧ ((sources 0).sreg 4).poison = some .line ∧ ((sources 0).grp 0).regions = []) ∧
    (sources 0).ReadyCore ∧ (sources 0).Handles 0 false 0x400FF0400 ∧ (sources 0).SDst 6 ∧ (sources 0).SSrc 5 ∧ (sources 0).SHas 3 ∧ (sources 0).SHas 4 := by
  refine ⟨?_, ?_, ?_, ?_, readyCore ?_, handles ?_, sdst ?_, ssrc ?_, by unfold SHas; decide +kernel, by unfold SHas; decide +kernel⟩ <;> decide +kernel

/-- A handler whose frame names CODE offset 0. -/
theorem test_witness_TrapReturn : privileged.ReadyCore ∧ (privileged.grp 0).privileged = true ∧
    privileged.frameTrans (privileged.grp 0) 0 = .ok 0x400FF0400 ∧
    privileged.noLate (fun l => lateOf (privileged.grp 0).col (privileged.grp 0).core none l && meetPieces (latePieces l) [(0x400FF0400, 64)]) = true ∧
    isRunning privileged.myPath = true ∧
    privileged.mem.anyPoisoned 0x400FF0400 64 = false ∧ privileged.CodeTarget (BitVec.ofNat 64 (bitsOf (privileged.mem.nat 0x400FF0400 64) 32 32)) ∧
    bitsOf (privileged.mem.nat 0x400FF0400 64) 16 1 = bit false := by
  refine ⟨readyCore ?_, ?_, ?_, ?_, ?_, ?_, by unfold CodeTarget; decide +kernel, ?_⟩ <;> decide +kernel

/-- A segment of the whole scratchpad in s3; s4 names queue 3 and s5 the management core; the context is debugged. -/
def system : State := { demo fun g => { setS 3 (segOfUnits 0 6144) (setS 4 3 (setS 5 0x700000100 g)) with privileged := true } with
  ctxs := [{ placedContext with debug := true }] }

theorem test_witness_SystemEffects : system.ReadyCore ∧ system.SSrc 3 ∧ system.SSrc 4 ∧ system.SSrc 5 ∧ (system.grp 0).privileged = true ∧
    segBase (system.sval 3) + segLimit (system.sval 3) = 768 * 1024 ∧ (system.ctx (system.grp 0).ctx).debug = true ∧
    (system.sval 5).getLsbD 8 = true ∧ (system.sval 4).getLsbD 8 = false := by
  refine ⟨readyCore ?_, ssrc ?_, ssrc ?_, ssrc ?_, ?_⟩ <;> decide +kernel

theorem test_witness_NestedFaults : privileged.ReadyCore ∧ privileged.cur = .slot 0 false ∧ (privileged.grp 0).privileged = true :=
  ⟨readyCore (by decide +kernel), by decide +kernel, by decide +kernel⟩

/-! ### Divergence -/

/-- k1 names no live lane, k2 four of them, k3 all; join register 1 expects the four lanes. -/
def diverging : State := demo fun g => { g with image := { g.image with
  k := vmod (vmod (vmod g.image.k 1 fun _ => 0) 2 fun _ => 0xF) 3 fun _ => 0xFFFF
  j := vmod (vmod g.image.j 1 fun _ => ⟨0xFFFF, 0⟩) 2 fun _ => ⟨0x1FFFF, 0⟩ } }

/-- Slot B and the stack hold contexts as well, the one of slot B running or parked. -/
def diverged (running : Bool) : State := diverging.modImage 0 fun im => { im with
  slotB := some { placedPath with mask := 0x10000, parked := if running then none else some 1 }
  stack := [{ placedPath with mask := 0x20000, parked := if running then none else some 1 }] }

theorem test_witness_Splits : diverging.ReadyCore ∧ diverging.cur = .slot 0 false ∧ (diverging.grp 0).privileged = false ∧
    diverging.kreg 1 &&& diverging.slotMask = 0 ∧ diverging.kreg 3 &&& diverging.slotMask = diverging.slotMask ∧
    (diverging.kreg 2 &&& diverging.slotMask ≠ 0 ∧ diverging.kreg 2 &&& diverging.slotMask ≠ diverging.slotMask) ∧
    diverging.CodeTarget (diverging.pc + 4) ∧ ((diverging.grp 0).image.slot true).isNone = true ∧
    (((diverged true).grp 0).image.slot true).isNone = false ∧ ((diverged true).grp 0).image.stack.length < 32 := by
  refine ⟨readyCore ?_, ?_, ?_, ?_, ?_, ?_, by unfold CodeTarget; decide +kernel, ?_⟩ <;> decide +kernel

theorem test_witness_JoinArms : diverging.ReadyCore ∧ (diverging.grp 0).privileged = false ∧ (diverged false).ReadyCore ∧ ((diverged false).grp 0).privileged = false := by
  refine ⟨readyCore ?_, ?_, readyCore ?_, ?_⟩ <;> decide +kernel

/-- `jarm` of the four lanes of k2, and of k1, which names none (R130). -/
theorem test_jarm : (match exec (.jarm 1 2) diverging with
    | .next t => some (vget (⟨0, 0⟩ : JReg) t.me.image.j 1)
    | _ => none) = some ⟨0xF, 0⟩ := by decide +kernel

/-- A join that completes, one that parks while another context runs, one after which none runs. -/
theorem test_witness_Joins :
    (let r := fun (s : State) (d : Nat) => (vget ⟨0, 0⟩ (s.grp 0).image.j d).expected &&& ~~~((vget ⟨0, 0⟩ (s.grp 0).image.j d).arrived ||| s.slotMask)
     r diverging 1 = 0 ∧ (r (diverged true) 2 ≠ 0 ∧ (diverged true).others.any isRunning = true) ∧
     r (diverged false) 2 ≠ 0 ∧ (diverged false).others.any isRunning = false ∧ ((diverged false).grp 0).image.joinTrap = false) ∧
    diverging.ReadyCore ∧ (diverged true).ReadyCore ∧ (diverged false).ReadyCore := by
  refine ⟨?_, readyCore ?_, readyCore ?_, readyCore ?_⟩ <;> decide +kernel

theorem test_witness_Exits : diverging.ReadyCore ∧ (diverging.grp 0).privileged = false ∧ diverging.others = [] ∧
    (diverged true).ReadyCore ∧ (diverged true).others.any (fun p => decide (p.mask ≠ 0)) = true ∧ (diverged true).others.all isRunning = true := by
  refine ⟨readyCore ?_, ?_, ?_, readyCore ?_, ?_⟩ <;> decide +kernel

/-- Slot B is parked at join register 1, whose last awaited lanes are those that exit. -/
def completing : State := (demo fun g => { g with image := { g.image with j := vmod g.image.j 1 fun _ => ⟨0x1FFFF, 0x10000⟩ } }).modImage 0 fun im => { im with
  slotB := some { placedPath with mask := 0x10000, parked := some 1 } }

theorem test_witness_Exits_joins : completing.ReadyCore ∧ (completing.grp 0).privileged = false ∧
    (let m := completing.slotMask
     let r := fun (e : Nat) => vget ⟨0, 0⟩ (completing.grp 0).image.j e
     let joins := fun (e : Nat) => decide ((completing.others.any fun p => decide (p.parked = some e)) = true ∧
       (r e).expected &&& ~~~m &&& ~~~((r e).arrived &&& ~~~m) = 0)
     (∀ e < 4, joins e = true ↔ e = 1) ∧ (r 1).arrived &&& ~~~m ≠ 0 ∧ completing.others.map (·.parked) = [some 1]) :=
  ⟨readyCore (by decide +kernel), by decide +kernel, by decide +kernel⟩


/-! ### Masks, lanes and vectors -/

/-- v1 holds the expert numbers of the ballot of chapter 6, v2 the lane numbers, v3 ones; k1 = 0x8005; s3 = 11, s8 = 0x14, s9 names a table of eight registers. -/
def vectors (m : BitVec 18) : State := demo fun g => setMode m (setS 3 11 (setS 8 0x14 (setS 9 0xFF08
  (setV 1 (fun l => BitVec.ofNat 64 ([2, 0, 2, 1, 3, 2, 0, 0, 1, 2, 3, 3, 2, 1, 0, 2].getD l 0)) (setV 2 (fun l => BitVec.ofNat 64 l) (setV 3 (fun _ => 1)
    (handler { g with image := { g.image with k := vmod g.image.k 1 fun _ => 0x8005 } })))))))

theorem test_witness_MaskOperations : (vectors 0).ReadyCore ∧ (vectors 0).SSrc 3 ∧ (vectors 0).SDst 5 ∧
    (∀ i < 0, ((vectors 0).kreg 1).getLsbD i = false) ∧ ((vectors 0).kreg 1).getLsbD 0 = true ∧ ∀ i < 64, ((vectors 0).kreg 2).getLsbD i = false := by
  refine ⟨readyCore ?_, ssrc ?_, sdst ?_, ?_⟩ <;> decide +kernel

/-- `kpop` and `kfirst` of k1 = 0x8005, and `kfirst` of an empty mask (Table 6-1). -/
theorem test_mask_counts : [Instr.kpop 5 1, .kfirst 5 1, .kfirst 5 2, .skmov 5 1].map (fun i => givesS i (vectors 0) 5) = [some 3, some 0, some 64, some 0x8005] := by decide +kernel

/-- An integer compare under `ETYPE` int64 and a float compare under f32. -/
theorem test_witness_LaneCompares : (vectors 0x60).ReadyCore ∧ (vectors 0x60).VSrc 1 ∧ (vectors 0x60).VSrc 2 ∧ isInt (vectors 0x60).etype = true ∧
    (vectors 0xA0).ReadyCore ∧ (vectors 0xA0).VSrc 1 ∧ (vectors 0xA0).VSrc 2 ∧ isFloat (vectors 0xA0).etype = true := by
  refine ⟨readyCore ?_, vsrc ?_, vsrc ?_, ?_, readyCore ?_, vsrc ?_, vsrc ?_, ?_⟩ <;> decide +kernel

theorem test_witness_VectorIntegers : (vectors 0x2060).ReadyCore ∧ (vectors 0x2060).VDst 5 ∧ (vectors 0x2060).VSrc 1 ∧ (vectors 0x2060).VSrc 2 ∧ (vectors 0x2060).VSrc 3 ∧
    (vectors 0x2060).SSrc 3 ∧ isInt (vectors 0x2060).etype = true ∧ isElem (vectors 0x2060).etype = true := by
  refine ⟨readyCore ?_, vdst ?_, vsrc ?_, vsrc ?_, vsrc ?_, ssrc ?_, ?_⟩ <;> decide +kernel

/-- Bytes 0x7F and 0x80 of int8: their sum with themselves wraps, and saturates under `SAT` (R85). -/
theorem test_vadd_wraps_and_saturates : [0x0, 0x2000].map (fun m => givesV (.vadd 5 4 4) (demo fun g => setMode m (setV 4 (fun _ => 0x807F) g)) 5 0) =
    [some 0x00FE, some 0x807F] := by decide +kernel

theorem test_witness_VectorBitwise : (vectors 0).ReadyCore ∧ (vectors 0).VDst 5 ∧ (vectors 0).VSrc 1 ∧ (vectors 0).VSrc 2 := by
  refine ⟨readyCore ?_, vdst ?_, vsrc ?_, vsrc ?_⟩ <;> decide +kernel

theorem test_witness_CrossLane : (vectors 0x60).ReadyCore ∧ isElem (vectors 0x60).etype = true ∧ (vectors 0x60).VDst 5 ∧ (∀ k < 8, (vectors 0x60).VAll (1 + k)) ∧ (vectors 0x60).VSrc 2 ∧
    (vectors 0x60).SSrc 8 ∧ (vectors 0x60).SSrc 9 ∧ (vectors 0x60).SDst 5 ∧
    (let i := ((vectors 0x60).sval 8).toNat
     ¬ (i / 8 < (vectors 0x60).me.width ∧ i % 8 < 64 / ewidth (vectors 0x60).etype)) ∧
    (let i := ((vectors 0x60).sval 5).toNat
     i / 8 < (vectors 0x60).me.width ∧ i % 8 < 64 / ewidth (vectors 0x60).etype ∧ i < 512) ∧
    (let x := ((vectors 0x60).sval 9).toNat
     1 ≤ x % 16 ∧ x % 16 ≤ 8 ∧ x / 16 % 16 = 0 ∧ x / 2 ^ 16 = 0) := by
  refine ⟨readyCore ?_, ?_, vdst ?_, by unfold VAll VDst; decide +kernel, vsrc ?_, ssrc ?_, ssrc ?_, sdst ?_, ?_⟩ <;> decide +kernel

/-- `vscan` of ones under the mask of lanes 0, 2 and 15 counts them (chapter 6), and `vred` gives the sum. -/
theorem test_vred_vscan : givesS (.vred 5 3 0) (vectors 0x61) 5 = some 3 ∧ [0, 1, 2, 15].map (givesV (.vscan 5 3 0) (vectors 0x61) 5) = [some 1, some 0, some 2, some 3] := by decide +kernel

/-- Addition of int64, and of f32 under stochastic rounding. -/
theorem test_witness_ReductionsAndScans : (vectors 0x60).ReadyCore ∧ (vectors 0x60).VSrc 3 ∧ (vectors 0x60).etype < 12 ∧ (vectors 0x60).me.width * (64 / ewidth (vectors 0x60).etype) = 2 ^ 4 ∧
    (vectors 0x60).SDst 5 ∧ (vectors 0x60).VDst 5 ∧ (vectors 0x5A0).ReadyCore ∧ (vectors 0x5A0).VSrc 3 ∧ (vectors 0x5A0).etype = 10 ∧ (vectors 0x5A0).round = 5 ∧
    (vectors 0x5A0).me.width * (64 / ewidth (vectors 0x5A0).etype) = 2 ^ 5 := by
  refine ⟨readyCore ?_, vsrc ?_, ?_, ?_, sdst ?_, vdst ?_, readyCore ?_, vsrc ?_, ?_⟩ <;> decide +kernel

/-- f32 under stochastic rounding, and f64 under RNE, which only the arithmetic takes. -/
theorem test_witness_FloatOperations : (vectors 0x5A0).ReadyCore ∧ (vectors 0x5A0).VDst 5 ∧ (vectors 0x5A0).VSrc 1 ∧ (vectors 0x5A0).VSrc 2 ∧ (vectors 0x5A0).VSrc 3 ∧ (vectors 0x5A0).SSrc 3 ∧
    ((vectors 0x5A0).round < 6 ∧ isArith (vectors 0x5A0).etype = true ∧ isShort (vectors 0x5A0).etype = true) ∧
    isArith (vectors 0xB0).etype = true ∧ isShort (vectors 0xB0).etype = false := by
  refine ⟨readyCore ?_, vdst ?_, vsrc ?_, vsrc ?_, vsrc ?_, ssrc ?_, ?_⟩ <;> decide +kernel

/-- f16 3.0 scaled by 2^−25 gives 2^−23; by 2^62 infinity, or 65,504 under `SAT` (R97). f16 2.5, −2.5 and −0.4 round to 2.0, −2.0 and −0 (R98). -/
theorem test_vscl_vfrnd : [(0x80, -25), (0x80, 2 ^ 62), (0x2080, 2 ^ 62)].map (fun (p : BitVec 18 × Int) =>
      givesV (.vscl 5 4 3) (demo fun g => setMode p.1 (setS 3 (BitVec.ofInt 64 p.2) (setV 4 (fun _ => 0x4200) g))) 5 0) = [some 0x0002, some 0x7C00, some 0x7BFF] ∧
    givesV (.vfrnd 5 4) (demo fun g => setMode 0x80 (setV 4 (fun _ => 0xB666C1004100) g)) 5 0 = some 0x8000C0004000 := by decide +kernel

theorem test_witness_FloatSelection : (vectors 0xA0).ReadyCore ∧ (vectors 0xA0).VDst 5 ∧ (vectors 0xA0).VSrc 1 ∧ (vectors 0xA0).VSrc 2 ∧ isFloat (vectors 0xA0).etype = true ∧
    isFloat (vectors 0xD0).etype = true := by
  refine ⟨readyCore ?_, vdst ?_, vsrc ?_, vsrc ?_, ?_⟩ <;> decide +kernel

/-- The last part of a narrowing from f32 to e4m3 (factor 4). -/
theorem test_witness_Conversions : (vectors 0xA0).ReadyCore ∧ (vectors 0xA0).VDst 5 ∧ (vectors 0xA0).VAll 1 ∧ (vectors 0xA0).me.width = 16 ∧ isElem (vectors 0xA0).etype = true ∧
    (vectors 0xA0).round < 6 ∧ 3 < max (ewidth (vectors 0xA0).etype) (ewidth 12) / min (ewidth (vectors 0xA0).etype) (ewidth 12) := by
  refine ⟨readyCore ?_, vdst ?_, vall ?_, ?_⟩ <;> decide +kernel

/-- Table 4-9: f32 300.0 and 500.0 to e4m3 under RNE and under RUP, 500.0 under `SAT` and RTZ, the small values under RNE, and the output flush. -/
theorem test_vcvt_e4m3 : [((0xA0 : BitVec 18), (0x43FA000043960000 : Word), (0x7F79 : Word)), (0x2A0, 0x43960000, 0x7A), (0x20A0, 0x43FA0000, 0x7E), (0x1A0, 0x43FA0000, 0x7E), (0xA0, 0x43E80000, 0x7E),
    (0xA0, 0xBA6BEDFABA83126F, 0x8081), (0xA0, 0x3AC49BA6, 0x01), (0x10A0, 0x3AC49BA6, 0x00)].all (fun p =>
      givesV (.vcvt 5 1 0 12) (demo fun g => setMode p.1 (setV 1 (fun l => if l = 0 then p.2.1 else 0) g)) 5 0 == some p.2.2) = true := by decide +kernel

/-- The example of chapter 5: one block of 32 positions of f32. -/
def quantised : State := demo fun g => setMode 0xA0 (setS 8 0x14 (setV 1 (fun l => [0x4040000044600000, 0x3DCCCCCDBF800000].getD l 0) g))

theorem test_witness_Quantisation : quantised.ReadyCore ∧ isShort quantised.etype = true ∧ quantised.round < 6 ∧ quantised.SSrc 8 ∧ quantised.me.width = 16 ∧
    (let q : QDesc := ⟨4, 32, false⟩
     3 ≤ q.efmt ∧ q.efmt ≤ 11 ∧ q.blen = 32 ∧ q.blen ≤ quantised.me.width * (64 / ewidth quantised.etype) ∧ (quantised.sval 8).toNat = q.efmt + 16 * 1 + 64 * bit q.nearest) ∧
    quantised.VDst 6 ∧ quantised.VDst 7 ∧ quantised.VSrc 1 ∧ quantised.VAll 1 ∧ quantised.VAll 2 ∧
    ∀ l ∈ quantised.lanes, ∀ e < 2, bitsOf (quantised.stream 2) (8 * ((l * 2 + e) / 32)) 8 < 128 := by
  refine ⟨readyCore ?_, ?_, ?_, ssrc ?_, ?_, ?_, vdst ?_, vdst ?_, vsrc ?_, vall ?_, vall ?_, ?_⟩ <;> decide +kernel

/-- Its codes 0x7E, 0x3C, 0xB0, 0x15 and its scale 0x40. -/
theorem test_vqnt : givesV (.vqnt 6 1 7 8) quantised 6 0 = some 0x15B03C7E ∧ givesV (.vqnt 6 1 7 8) quantised 7 0 = some 0x40 := by decide +kernel

/-! ### Memory -/

/-- s3 points to TAL offset 0x1000, s4 to 8 below its limit, s5 one past it, s6 to another column; v4 holds pointers, v5 indices; int64. -/
def accessing (F : Group → Group) : State := demo fun g => F (setMode 0x60 (setS 3 (near 0x1000) (setS 4 (near 0xFFFFF8) (setS 5 (near 0x1000000) (setS 6 (BitVec.ofNat 64 (0x3FF * 2 ^ 54 + 2 ^ 48))
  (setV 1 (fun l => BitVec.ofNat 64 (l + 1)) (setV 4 (fun l => near (0x1000 + 8 * l)) (setV 5 (fun l => BitVec.ofNat 64 l) (handler g)))))))))

/-- The same, where the schedule has its accesses performed later. -/
def later : State := { accessing id with late := true }

theorem test_witness_later : later.ReadyCore ∧ isElem later.etype = true ∧ later.VDst 6 ∧ later.SDst 9 ∧ later.SSrc 3 ∧ later.SSrc 4 ∧ later.VSrc 1 ∧ later.VSrc 4 ∧ later.VSrc 5 ∧
    later.lanes ≠ [] ∧ later.mem.wf = true ∧ later.defers true [(0x400FFFFF8, 8)] = true ∧ later.defers false [(0x400FFFFF8, 8)] = true ∧
    later.Reaches 1 0 8 ⟨0, 0, near 0xFFFFF8, (ptrOff (near 0xFFFFF8) + 8 * 0) % 2 ^ 48, 8⟩ [(0x400FFFFF8, 8)] ∧
    later.Reaches 1 1 8 ⟨0, 0, near 0xFFFFF8, (ptrOff (near 0xFFFFF8) + 8 * 0) % 2 ^ 48, 8⟩ [(0x400FFFFF8, 8)] ∧
    (∀ l ∈ later.lanes, ∀ kind ∈ [0, 1, 2], later.Reaches 1 kind 8 ⟨l, 0, near (0x1000 + 8 * l), (0x1000 + 8 * l) % 2 ^ 48, 8⟩ [(0x400001000 + 8 * l, 8)]) := by
  refine ⟨readyCore ?_, ?_, vdst ?_, sdst ?_, ssrc ?_, ssrc ?_, vsrc ?_, vsrc ?_, vsrc ?_, ?_, ?_, ?_, ?_, reaches ?_, reaches ?_,
    fun l h k j => reaches ((show ∀ l ∈ later.lanes, ∀ kind ∈ [0, 1, 2], CanReach later 1 kind 8 ⟨l, 0, near (0x1000 + 8 * l),
    (0x1000 + 8 * l) % 2 ^ 48, 8⟩ [(0x400001000 + 8 * l, 8)] by decide +kernel) l h k j)⟩ <;> decide +kernel

/-- Lines and indices of a vector load of TAL, with all lanes active and with none. -/
theorem test_witness_VectorLoads : (accessing id).ReadyCore ∧ isElem (accessing id).etype = true ∧ (accessing id).VDst 6 ∧ (accessing id).SSrc 3 ∧ (accessing id).VSrc 5 ∧
    (∀ l ∈ (accessing id).lanes, ∀ e < 1, (accessing id).Reaches 1 0 8 ⟨l, e, near 0x1000, (0x1000 + 8 * l) % 2 ^ 48, 8⟩ [(0x400001000 + 8 * l, 8)]) ∧
    (accessing id).lanes ≠ [] ∧ (accessing id).defers true ((accessing id).lanes.map fun l => (0x400001000 + 8 * l, 8)) = false ∧ (accessing (setMode 0x62)).lanes = [] := by
  refine ⟨readyCore ?_, ?_, vdst ?_, ssrc ?_, vsrc ?_, fun l h e k => reaches ((show ∀ l ∈ (accessing id).lanes, ∀ e < 1,
    CanReach (accessing id) 1 0 8 ⟨l, e, near 0x1000, (0x1000 + 8 * l) % 2 ^ 48, 8⟩ [(0x400001000 + 8 * l, 8)] by decide +kernel) l h e k), ?_⟩ <;> decide +kernel

/-- The last word below the limit of TAL. -/
theorem test_witness_ScalarLoads : (accessing id).ReadyCore ∧ (accessing id).SDst 9 ∧ (accessing id).SSrc 4 ∧
    (accessing id).Reaches 1 0 8 ⟨0, 0, near 0xFFFFF8, (ptrOff (near 0xFFFFF8) + 8 * 0) % 2 ^ 48, 8⟩ [(0x400FFFFF8, 8)] ∧ (accessing id).defers true [(0x400FFFFF8, 8)] = false := by
  refine ⟨readyCore ?_, sdst ?_, ssrc ?_, reaches ?_, ?_⟩ <;> decide +kernel

theorem test_witness_Stores : (accessing id).ReadyCore ∧ (accessing id).SSrc 3 ∧ (accessing id).SSrc 4 ∧ (accessing id).VSrc 1 ∧ (accessing id).VSrc 5 ∧ (accessing id).mem.wf = true ∧
    (accessing id).defers false ((accessing id).lanes.map fun l => (0x400001000 + 8 * l, 8)) = false ∧
    (accessing id).Reaches 1 1 8 ⟨0, 0, near 0xFFFFF8, (ptrOff (near 0xFFFFF8) + 8 * 0) % 2 ^ 48, 8⟩ [(0x400FFFFF8, 8)] ∧
    (∀ l ∈ (accessing id).lanes, ∀ e < 1, (accessing id).Reaches 1 1 8 ⟨l, e, near 0x1000, (0x1000 + 8 * l) % 2 ^ 48, 8⟩ [(0x400001000 + 8 * l, 8)]) := by
  refine ⟨readyCore ?_, ssrc ?_, ssrc ?_, vsrc ?_, vsrc ?_, ?_, ?_, reaches ?_, fun l h e k => reaches ((show ∀ l ∈ (accessing id).lanes, ∀ e < 1,
    CanReach (accessing id) 1 1 8 ⟨l, e, near 0x1000, (0x1000 + 8 * l) % 2 ^ 48, 8⟩ [(0x400001000 + 8 * l, 8)] by decide +kernel) l h e k)⟩ <;> decide +kernel

/-- A store reaches its home at once: lane 1 of `vst`. -/
theorem test_vst : (match exec (.vst 1 3 1 0) (accessing id) with
    | .next t => some (t.mem.nat 0x400001008 8)
    | _ => none) = some 2 := by decide +kernel

theorem test_witness_Atomics : (accessing id).ReadyCore ∧ (accessing id).VSrc 1 ∧ (accessing id).VSrc 5 ∧ (accessing id).VSrc 4 ∧ (accessing id).mem.wf = true ∧ (accessing id).etype = 6 ∧
    (∀ l ∈ (accessing id).lanes, (accessing id).Reaches 1 2 8 ⟨l, 0, near (0x1000 + 8 * l), ptrOff (near (0x1000 + 8 * l)), 8⟩ [(0x400001000 + 8 * l, 8)]) ∧ (accessing (setMode 0x62)).lanes = [] := by
  refine ⟨readyCore ?_, vsrc ?_, vsrc ?_, vsrc ?_, ?_, ?_, fun l h => reaches ((show ∀ l ∈ (accessing id).lanes, CanReach (accessing id) 1 2 8 ⟨l, 0,
    near (0x1000 + 8 * l), ptrOff (near (0x1000 + 8 * l)), 8⟩ [(0x400001000 + 8 * l, 8)] by decide +kernel) l h), ?_⟩ <;> decide +kernel

/-- A state whose core translates the first 2 MiB of TAL by a leaf without `W`, and s7 is not aligned. -/
def refused : State := (accessing (setS 7 (near 0x1001))).modCore 0 0 fun k => { k with tlb := [⟨0, 0, 2 ^ 21, BitVec.ofNat 64 (2 ^ 53 + 2 ^ 52 + 1)⟩] }

/-- The walk for the page of TAL offset 0x1000 has brought PAGE_NOT_PRESENT. -/
def awaited : State := accessing fun g => { g with walkFault := some ⟨segBase (vget 0 g.seg 1) + 0x1000, 0x60, 5⟩ }

/-- One access for each check: another column, a write of ARG, one byte past the limit, an odd offset, a page that may not be written. -/
theorem test_witness_AccessFaults : refused.ReadyCore ∧ refused.Handles 0 false 0x400FF0400 ∧ refused.SSrc 1 ∧ refused.SSrc 3 ∧ refused.SSrc 5 ∧ refused.SSrc 6 ∧ refused.SSrc 7 ∧
    (refused.VSrc 1 ∧ refused.VSrc 4 ∧ refused.VSrc 5 ∧ refused.VDst 2 ∧ 4 ≤ refused.etype ∧ refused.etype < 8) ∧
    refused.ptrHere (refused.sval 6) = false ∧ (∀ r ∈ [1, 3, 5, 7], refused.ptrHere (refused.sval r) = true) ∧
    segLimit (refused.seg 1) < ptrOff (refused.sval 5) + 8 ∧ (ptrOff (refused.sval 7) + 8 ≤ segLimit (refused.seg 1) ∧ ptrOff (refused.sval 7) % 8 ≠ 0) ∧
    (ptrOff (refused.sval 3) % 8 = 0 ∧ ptrOff (refused.sval 3) + 8 ≤ segLimit (refused.seg 1) ∧
      lookTlb refused.myTlb refused.myCtx refused.myCol (segBase (refused.seg 1) + 0x1000) 1 = .refused 0x61 (2 ^ 53 + 2 ^ 52 + 1)) ∧
    refused.myWalkFault = none ∧ awaited.ReadyCore ∧ awaited.Handles 0 false 0x400FF0400 ∧ awaited.SSrc 3 ∧ awaited.SDst 9 ∧
    awaited.myWalkFault = some ⟨segBase (awaited.seg 1) + 0x1000, 0x60, 5⟩ := by
  refine ⟨readyCore ?_, handles ?_, ssrc ?_, ssrc ?_, ssrc ?_, ssrc ?_, ssrc ?_, ⟨vsrc ?_, vsrc ?_, vsrc ?_, vdst ?_, ?_⟩, ?_, ?_, ?_, ?_, ?_, ?_,
    readyCore ?_, handles ?_, ssrc ?_, sdst ?_, ?_⟩ <;> decide +kernel

/-- The last word of the scratchpad, and the lines from 0x1000. -/
theorem test_witness_ScratchAccesses : (accessing id).ReadyCore ∧ isElem (accessing id).etype = true ∧ (accessing id).lanes ≠ [] ∧ (accessing id).VDst 6 ∧ (accessing id).VSrc 1 ∧
    (accessing id).VSrc 4 ∧ (accessing id).VSrc 5 ∧ (accessing id).SSrc 3 ∧ (accessing id).SDst 9 ∧
    (∀ l ∈ (accessing id).lanes, (accessing id).Allowed 0 2 8 ⟨l, 0, near 0x1000, (0x1000 + 8 * l) % 2 ^ 48, 8⟩) ∧
    (accessing id).Allowed 0 1 8 ⟨0, 0, near 0xFFF8, (ptrOff (near 0xFFF8) + 8 * 0) % 2 ^ 48, 8⟩ := by
  refine ⟨readyCore ?_, ?_, ?_, vdst ?_, vsrc ?_, vsrc ?_, vsrc ?_, ssrc ?_, sdst ?_, fun l h => allowed ((show ∀ l ∈ (accessing id).lanes,
    (accessing id).ptrHere (near 0x1000) = true ∧ (0 = 3 → 2 = 0) ∧ ((accessing id).wholeSpace 0 = true ∨ (0x1000 + 8 * l) % 2 ^ 48 + 8 ≤ segLimit ((accessing id).seg (segOf 0))) ∧ (0x1000 + 8 * l) % 2 ^ 48 % 8 = 0 by decide +kernel) l h),
    allowed ?_⟩ <;> decide +kernel

/-! ### Arrivals, barriers -/

/-- One thing in progress, number 7. -/
def pending (i : Item) : State := { accessing id with flight := [⟨7, i⟩], nextId := 8 }

/-- A request of the group's slot A. -/
def request (op : ScrOp) (accs : List Acc) : ScrReq :=
  { col := 0, core := 0, team := 0, op := op, accs := accs, dst := some (.sreg 0 9), waiting := false, got := [], grp := some (0, false), thr := none, pc := 0, insn := 0, lanes := 1, strike := none, einj := 0 }

/-- Buffer 0 of the placed team lies at byte 0x2000, four lines, in a state with a list of full bits. -/
def buffered (i : Item) (st : BufState) (bits : List Bool) : State :=
  { pending i with teams := [{ placedTeam with bufs := [⟨true, 64, 4, st, bits, none, none, false⟩ :: List.replicate 15 Buffer.blank] }] }

def word1000 : Acc := ⟨0, 0, 0x1000, 8, 5, 0, near 0x1000⟩
def word2080 : Acc := ⟨0, 0, 0x2080, 8, 5, 0, near 0x2080⟩

/-- A load, a store and an atomic outside every buffer. -/
theorem test_witness_Arrivals_plain : (∀ op ∈ [ScrOp.load, .store, .atom 0 true], (pending (.scr (request op [word1000]))).item 7 = some (.scr (request op [word1000])) ∧
      (pending (.scr (request op [word1000]))).bufLines 0 0 0x1000 8 = [] ∧ (pending (.scr (request op [word1000]))).earlier 7 (onItsWay 0) = false ∧
      (pending (.scr (request op [word1000]))).coreBefore 7 (request op [word1000]) = false) ∧
    (pending (.scr { request (.atom 0 true) [word1000] with waiting := true })).item 7 = some (.scr { request (.atom 0 true) [word1000] with waiting := true }) ∧
    ((pending (.scr (request .load []))).team 0).resident = true := by decide +kernel

/-- In line 1 of the buffer: a load that waits, a store to EMPTY, a load of EMPTY that faults, a store to DRAINING that faults; `buf.set` and `buf.get` of the buffer. -/
theorem test_witness_Arrivals_buffered :
    (let s := fun (op : ScrOp) (st : BufState) => buffered (.scr (request op [word2080])) st [true, false, false, false]
     (∀ p ∈ [(ScrOp.load, BufState.filling), (.store, .empty), (.store, .full), (.load, .empty), (.store, .draining), (.atom 1 false, .filling), (.bufGet 0, .full), (.bufSet false 0 0, .empty)],
      (s p.1 p.2).item 7 = some (.scr (request p.1 [word2080])) ∧ (s p.1 p.2).bufLines 0 0 0x2080 8 = [(0, 1)] ∧ ((s p.1 p.2).buf 0 0 0).st = p.2 ∧
      ((s p.1 p.2).buf 0 0 0).isFull 1 = false ∧ ((s p.1 p.2).buf 0 0 0).declared = true)) := by decide +kernel

theorem test_witness_Arrivals_results : (pending (.result (.vreg 0 5) [⟨0, 1, none⟩, ⟨15, 2, some .line⟩] 0 none true)).item 7 =
      some (.result (.vreg 0 5) [⟨0, 1, none⟩, ⟨15, 2, some .line⟩] 0 none true) ∧
    (pending (.result (.sreg 0 0) [] 3 none true)).item 7 = some (.result (.sreg 0 0) [] 3 none true) ∧
    (pending (.result (.thread 0 0 31) [] 3 none true)).item 7 = some (.result (.thread 0 0 31) [] 3 none true) := by decide +kernel

/-- A late load, a late atomic and a late store of one word of TAL; the step that performs the store. -/
def lateAt (op : LateOp) (d : Option Dest) : Late := { col := 0, core := 0, thr := none, grp := 0, op := op, accs := [⟨0, 0, 8, [(0x400001000, 8)], 7, 0⟩], dst := d, strike := none }

theorem test_witness_Arrivals_late : (∀ l ∈ [lateAt (.load false) (some (.vreg 0 5)), lateAt (.atom 0 64 false) (some (.sreg 0 9)), lateAt .store none],
      (pending (.late l)).item 7 = some (.late l) ∧ (pending (.late l)).latePerforms 7 l = true ∧ (pending (.late l)).mem.wf = true) ∧
    (let s : State := { pending (.late (lateAt .store none)) with schedule := [.perform 7] }
     s.running = true ∧ s.item 7 = some (.late (lateAt .store none)) ∧ s.latePerforms 7 (lateAt .store none) = true ∧ s.mem.wf = true) := by decide +kernel

/-- Barrier 1 ARMED with 5 of 5 to come, barrier 2 COMPLETE with parity 1, barrier 3 in ERROR, barrier 4 with `SCOPE` 3 in STATE 1; the others are UNINIT. s3 = 5, s4 = 2^32 − 1. -/
def barriers : State :=
  let put := fun (m : Memory) (p : Nat × Nat) => m.putBytes (scrHome 0 0 (16 * p.1)) (leBytes 16 p.2)
  let s := accessing fun g => setS 3 5 (setS 4 0xFFFFFFFF g)
  { s with mem := [(1, 5 + 5 * 2 ^ 32 + 2 ^ 64), (2, 5 * 2 ^ 32 + 2 * 2 ^ 64 + 2 ^ 66), (3, 3 * 2 ^ 64 + 2 ^ 97), (4, 5 + 2 ^ 64 + 3 * 2 ^ 68)].foldl put s.mem }

def barrier (i : Nat) : Bar := Bar.ofNat (barriers.mem.nat (scrHome 0 0 (16 * i)) 16)

theorem test_witness_BarriersAndPhases : barriers.ReadyCore ∧ barriers.Handles 0 false 0x400FF0400 ∧ barriers.SSrc 3 ∧ barriers.SSrc 4 ∧ barriers.SDst 9 ∧
    (4095 * 16 + 16 ≤ segLimit (barriers.seg 0)) ∧ (((barriers.core 0 0).phase.opened).length < 3 ∧
      [(barrier 1).st, (barrier 1).remain, (barrier 1).parity, (barrier 2).st, (barrier 2).expect, (barrier 2).parity, (barrier 3).st, (barrier 0).st] = [1, 5, 0, 2, 5, 1, 3, 0] ∧
      (∀ i < 4, (barrier i).scope ≠ 3 ∧ (barrier i).reserved = false) ∧ (barrier 4).st = 1 ∧ (barrier 4).scope = 3) ∧
    barriers.fencePending 0x7FF barriers.nextId = false ∧
    (let s := barriers.modCore 0 0 fun k => { k with phase := { k.phase with opened := [1, 2, 3] } }
     s.canIssue = true ∧ s.prog = .start ∧ einjKind s.me = 0 ∧ s.onCore = true ∧ 3 ≤ (s.core 0 0).phase.opened.length) := by
  refine ⟨readyCore ?_, handles ?_, ssrc ?_, ssrc ?_, sdst ?_, ?_⟩ <;> decide +kernel

/-- `bar.arr` of barrier 3, which is in ERROR, traps BAR_ERROR (0x84) with its flags (R170). -/
theorem test_bar_error_traps : (match exec (.barArr 3 3) barriers with
    | .next t => some (bitsOf (t.mem.nat 0x400FF0400 64) 0 8, bitsOf (t.mem.nat 0x400FF0400 64) 256 64)
    | _ => none) = some (0x84, 3 + 2 * 2 ^ 16) := by decide +kernel

/-- `bar.test` shows barrier 4, whose `SCOPE` is 3, as UNINIT (R167). -/
theorem test_bar_test_uninit : (match exec (.barTest 9 4) barriers with
    | .next t => (t.item barriers.nextId).map fun i => match i with
      | .result _ _ x _ _ => (x.toNat / 2 ^ 35 % 4, x.toNat / 2 ^ 38 % 4)
      | _ => (9, 9)
    | _ => none) = some (0, 3) := by decide +kernel

/-- Count-downs of barrier 1 by less, by all and by more than remains, an error event, and the end of a release. -/
theorem test_witness_BarrierEvents :
    (∀ n ∈ [1, 5, 6], ({ barriers with flight := [⟨7, .countdown ⟨0, 0, 16, 0⟩ n none none⟩] } : State).item 7 = some (.countdown ⟨0, 0, 16, 0⟩ n none none) ∧
      ({ barriers with flight := [⟨7, .countdown ⟨0, 0, 16, 0⟩ n none none⟩] } : State).earlier 7 (sameCount ⟨0, 0, 16, 0⟩ none) = false) ∧
    (let src : CountSrc := ⟨0, 0, 5, 0x100, 0⟩
     let s := ({ barriers with flight := [⟨7, .countdown ⟨0, 0, 0, 0⟩ 1 (some src) none⟩] } : State).modThread 0 0 fun h => { h with kick := some placedKick, bars := [⟨0, 0, 0, 0⟩] }
     s.item 7 = some (.countdown ⟨0, 0, 0, 0⟩ 1 (some src) none) ∧ s.earlier 7 (sameCount ⟨0, 0, 0, 0⟩ (some src)) = false ∧ (barrier 0).st = 0 ∧
     (s.thread 0 0).kick.isSome = true ∧ (s.thread 0 0).bars.contains ⟨0, 0, 0, 0⟩ = true) ∧
    (barriers.team 0).resident = true ∧ scrHome (barriers.team 0).col 0 16 = scrHome 0 0 16 ∧
    ({ barriers with flight := [⟨7, .barError ⟨0, 0, 16, 0⟩ 4⟩] } : State).item 7 = some (.barError ⟨0, 0, 16, 0⟩ 4) ∧
    (let s := ({ barriers with flight := [⟨7, .release 0 0 false 1⟩] } : State).modCore 0 0 fun k => { k with phase := { k.phase with opened := [7] } }
     s.item 7 = some (.release 0 0 false 1) ∧ (s.phaseOf 0 0 false).opened.head? = some 7 ∧ s.earlier 7 (State.storeOf 0 0 false 1) = false) := by decide +kernel

/-! ### Streams -/

/-- A layout record: sixteen f32 in TAL from an offset on. -/
def rec16 (off : Nat) : BitVec 512 := BitVec.ofNat 512 ((near off).toNat + 10 * 2 ^ 64 + 2 ^ 72 + 2 ^ 89 + 16 * 2 ^ 128 + 4 * 2 ^ 288)

def slot16 (off : Nat) : RecSlot := { RecSlot.invalid with valid := true, record := rec16 off, shp := #v[16, 1, 1, 1, 1] }

/-- Record slots 0 and 1 hold windows at 0x2000 and 0x3000, the others are invalid; s3 points to a record, s4 = 1; barrier 1 is ARMED, barrier 3 in ERROR. -/
def moving : State :=
  let s := onThread fun h => { h with
    recs := vmod (vmod h.recs 0 fun _ => slot16 0x2000) 1 fun _ => slot16 0x3000
    s := vmod (vmod h.s 3 fun _ => ⟨near 0x1000, true, none⟩) 4 fun _ => ⟨1, true, none⟩ }
  let put := fun (m : Memory) (p : Nat × Nat) => m.putBytes (scrHome 0 0 (16 * p.1)) (leBytes 16 p.2)
  { s with mem := [(1, 5 + 5 * 2 ^ 32 + 2 ^ 64), (3, 3 * 2 ^ 64 + 2 ^ 97)].foldl put (s.mem.putBytes 0x400001000 (leBytes 64 (rec16 0x2000).toNat)) }

/-- Loads, stores and records of TAL and of the scratchpad, two records, barriers of every state, the loop's first and last round. -/
theorem test_witness_StreamInstructions : moving.ReadyStream ∧ moving.cur = .thread 0 0 ∧ (moving.thread 0 0).kick = some placedKick ∧ moving.SDst 9 ∧ moving.SSrc 3 ∧ moving.SSrc 4 ∧
    moving.Reaches 1 0 8 ⟨0, 0, near 0x1000, 0x1000, 8⟩ [(0x400001000, 8)] ∧ moving.Reaches 1 1 8 ⟨0, 0, near 0x1000, 0x1000, 8⟩ [(0x400001000, 8)] ∧
    moving.Reaches 1 0 64 ⟨0, 0, near 0x1000, 0x1000, 64⟩ [(0x400001000, 64)] ∧ moving.Allowed 0 0 64 ⟨0, 0, near 0x1000, 0x1000, 64⟩ ∧
    (∀ e < 64, moving.mem.isPoisoned (0x400001000 + e) = false) ∧ (moving.scrObject (withOff (near 0x1000) 0x1000) 64 64).toOption = some 0 ∧
    (LRec.bad (BitVec.ofNat 512 (moving.mem.nat 0x400001000 64)) = false ∧ LRec.bad 0 = true) ∧
    ((vget RecSlot.invalid (moving.thread 0 0).recs 0).valid = true ∧ (vget RecSlot.invalid (moving.thread 0 0).recs 2).valid = false) ∧
    (4095 * 16 + 16 ≤ segLimit (moving.seg 0) ∧ (moving.barRead 0 0 0).uninit = true ∧ [(moving.barRead 0 0 16).st, (moving.barRead 0 0 16).parity, (moving.barRead 0 0 48).st] = [1, 0, 3]) ∧
    (moving.sval 4 - 1 = 0 ∧ moving.sval 3 - 1 ≠ 0) ∧ moving.CodeTarget (moving.pc + 4) ∧
    (moving.defers true [(0x400001000, 8)] = false ∧ moving.defers false [(0x400001000, 8)] = false ∧ ({ moving with late := true } : State).defers true [(0x400001000, 8)] = true ∧
      ({ moving with late := true } : State).canIssue = true) := by
  refine ⟨readyStream ?_, ?_, ?_, sdst ?_, ssrc ?_, ssrc ?_, reaches ?_, reaches ?_, reaches ?_, allowed ?_, ?_, ?_, ?_, ?_, ?_, ?_,
    by unfold CodeTarget; decide +kernel, ?_⟩ <;> decide +kernel

/-- `taddr` gives the address of the window's first element, and adds to its origin first where it is asked to (R206). -/
theorem test_taddr : [Instr.taddr 9 0 0 0 3, .taddr 9 4 0 0 1].map (fun i => givesS i moving 9) =
    [some (BitVec.ofNat 64 (0x3FF * 2 ^ 54 + 0x2000)), some (BitVec.ofNat 64 (0x3FF * 2 ^ 54 + 0x2004))] := by decide +kernel

/-- Program 0 of the CODE segment, an argument block whose control word is 0; and no active lane. -/
theorem test_witness_KickIssue : (accessing id).ReadyCore ∧ (accessing id).lanes.head? = some 0 ∧ (accessing id).SSrc 3 ∧ (accessing id).Allowed 0 0 128 ⟨0, 0, near 0x1000, ptrOff (near 0x1000), 128⟩ ∧
    ((accessing id).scrBlock (near 0x1000) 128 128).toOption = some 0 ∧ 8 ≤ segLimit ((accessing id).seg 4) ∧
    ((accessing id).translate (segBase ((accessing id).seg 4)) 3 none 0).toOption = some 0x400FE0000 ∧ 0 < (accessing id).mem.nat 0x400FE0000 4 ∧
    ((accessing id).translate (segBase ((accessing id).seg 4) + 4) 3 none 0).toOption = some 0x400FE0004 ∧ (accessing id).mem.nat 0x400FE0004 4 = 0 ∧
    (accessing id).kicksHeld 0 0 < 8 ∧ ((accessing id).core 0 0).phase.opened.length < 3 ∧ (accessing (setMode 0x62)).lanes = [] ∧ (accessing (setMode 0x62)).SDst 3 ∧ (accessing id).Handles 0 false 0x400FF0400 := by
  refine ⟨readyCore ?_, ?_, ssrc ?_, allowed ?_, ?_, ?_, ?_, ?_, ?_, ?_, ?_, ?_, ?_, sdst ?_, handles ?_⟩ <;> decide +kernel

/-- A kick on its way that fills buffer 0 and counts on a barrier. -/
def kicking (st : BufState) (bar : Option BarBind) : State :=
  { barriers with
    flight := [⟨7, .kick { placedKick with fill := 1, bar := bar } 0 false 0 0 1 0⟩]
    teams := [{ placedTeam with bufs := [⟨true, 64, 4, st, List.replicate 4 false, none, none, false⟩ :: List.replicate 15 Buffer.blank] }] }

/-- An index past the segment, a barrier that is UNINIT, a buffer that is not EMPTY, and a kick whose transitions are all made. -/
theorem test_witness_TransitionPoints :
    (let k := fun (bar : Option BarBind) => ({ placedKick with fill := 1, bar := bar } : Kick)
     (kicking .empty (some ⟨0, 0, 16, 0⟩)).item 7 = some (.kick (k (some ⟨0, 0, 16, 0⟩)) 0 false 0 0 1 0)) ∧ (kicking .empty none).earlier 7 (onItsWay 0) = false ∧
    ((kicking .empty none).barRead 0 0 0).uninit = true ∧ ((kicking .empty none).barRead 0 0 16).uninit = false ∧ segLimit (vget 0 placedKick.seg 0) = 65536 ∧
    bitsIn 1 = [0] ∧ ((kicking .empty none).buf 0 0 0).declared = true ∧ ((kicking .empty none).buf 0 0 0).st = .empty ∧ ((kicking .full none).buf 0 0 0).st = .full := by decide +kernel

/-- A kick waits in core 0's queue; thread 0 is FREE. -/
def queued : State := (barriers.modCol 0 fun c => { c with threads := Vector.replicate 16 Thread.reset }).modCore 0 0 fun k => { k with kicks := [{ placedKick with release := 99 }] }

theorem test_witness_StreamThreads : queued.candidate 0 0 = some { placedKick with release := 99 } ∧ (∀ e < 4, e ≠ 0 → queued.candidate 0 e = none) ∧ (queued.thread 0 0).st = .free ∧
    0 < queued.cols.length ∧
    (let s := moving.modThread 0 0 fun h => { h with st := .exiting }
     (s.thread 0 0).kick = some placedKick ∧ (s.thread 0 0).st = .exiting ∧ (∀ f ∈ s.flight, xferOf 0 0 f.item = false) ∧ s.noLate (lateOf 0 0 (some 0)) = true ∧ s.buffersOf 0 0 = []) ∧
    (let r : SRegion := ⟨Thread.reset.s, Flags.clear, 8, Thread.reset.recs, none, false, false, 0, 0⟩
     let s := moving.modThread 0 0 fun h => { h with st := .rolling 0xB0 ⟨0xB0, 0, none, 0x100, 0, 5⟩, regions := [r] }
     (s.thread 0 0).st = .rolling 0xB0 ⟨0xB0, 0, none, 0x100, 0, 5⟩ ∧ (s.thread 0 0).regions = [r]) ∧
    (let r : ScrReq := { request .store [word1000] with grp := none, thr := some 0, dst := none }
     let s := ({ moving with flight := [⟨7, .scr r⟩] } : State)
     s.item 7 = some (.scr r) ∧ s.bufLines 0 0 0x1000 8 = [] ∧ (s.team 0).resident = true) := by
  refine ⟨?_, ?_, ?_, ?_, ?_, ?_, ?_⟩ <;> decide +kernel

/-- A transfer of slot 1 to slot 0 that has been issued. -/
def copying (done : Bool) : Xfer :=
  { col := 0, thr := 0, kick := 0, pc := 0, insn := 0, kind := .copy, dst := slot16 0x3000, src := slot16 0x2000, idx := RecSlot.invalid, bar := none, done := done, granted := [],
    counted := 0, recv := none, sent := false, got := [], walkOff := 0, walkFault := none, waitsOn := [], broken := [] }

def transferring (done : Bool) : State := { moving with flight := [⟨7, .xfer (copying done)⟩] }

/-- The issue of transfers with two valid slots and with an invalid one, a ninth transfer's wait; the copy of sixteen elements; a multicast line outside every buffer and in one. -/
theorem test_witness_Transfers : moving.ReadyStream ∧ (moving.flight.filter fun f => xferOf 0 0 f.item).length < 8 ∧ (slot16 0x2000).lrec.esize = 4 ∧ countOf (slot16 0x2000).shape = 16 ∧
    moving.ptrBad (slot16 0x2000).lrec.base = false ∧ (slot16 0x2000).lrec.space = 1 ∧
    (8 ≤ (({ moving with flight := (List.range 8).map fun k => ⟨k, .xfer (copying false)⟩ } : State).flight.filter fun f => xferOf 0 0 f.item).length) ∧
    (transferring false).item 7 = some (.xfer (copying false)) ∧ (transferring false).earlier 7 (xferOf 0 0) = false ∧ ((transferring false).thread 0 0).st = .active ∧
    (∀ c ∈ (transferring false).cols, ∀ w ∈ c.walks, Waiter.item 7 ∉ w.waiters) ∧ (transferring false).mem.wf = true ∧
    ((∀ f ∈ (transferring false).flight, partOf 7 f.item = false) ∧ ((transferring false).thread 0 0).frameWait = none ∧ ((transferring false).thread 0 0).kick = some placedKick ∧
      (transferring false).granted 0 0 = true ∧ (transferring true).item 7 = some (.xfer (copying true))) ∧
    (∀ e < 16, (slot16 0x2000).lrec.inBounds (coordsOf (slot16 0x2000).origin (slot16 0x2000).shape e) = true ∧
      (transferring false).reach (copying false) placedKick (slot16 0x2000).lrec 0 (coordsOf (slot16 0x2000).origin (slot16 0x2000).shape e) = .home (0x400002000 + 4 * e) ∧
      (transferring false).reach (copying false) placedKick (slot16 0x3000).lrec 1 (coordsOf (slot16 0x3000).origin (slot16 0x3000).shape e) = .home (0x400003000 + 4 * e)) ∧
    (∀ e < 16, ∀ i < 4, (transferring false).roByte (0x400003000 + 4 * e + i) = false) ∧
    (let s := { buffered (.mcline 3 0 0 0x2080 [(0x2080, [1])] true 1) .empty (List.replicate 4 false) with
       flight := [⟨3, .xfer { copying false with kind := .multicast 1 }⟩, ⟨7, .mcline 3 0 0 0x2080 [(0x2080, [1])] true 1⟩] }
     s.item 7 = some (.mcline 3 0 0 0x2080 [(0x2080, [1])] true 1) ∧ s.item 3 = some (.xfer { copying false with kind := .multicast 1 }) ∧ s.bufAt 0 0 0x2080 = some (0, 1) ∧ (s.buf 0 0 0).st = .empty ∧ s.bufAt 0 0 0x1000 = none) := by
  refine ⟨readyStream (by decide +kernel), ?_, ?_, ?_, ?_, ?_, ?_, ?_, ?_, ?_, ?_, ?_, ?_, ?_, ?_, ?_⟩ <;> decide +kernel

/-! ### The machine -/

/-- What the next step of the placed group comes to. -/
def stepping : State := ({ scalars.tick with schedule := [], cur := .slot 0 false } : State)

theorem test_witness_StepRuns : scalars.running = true ∧ scalars.schedule = [.issue (.slot 0 false)] ∧ ({ scalars.tick with schedule := [] } : State).isTurn (.slot 0 false) = true ∧
    ({ stepping with late := true } : State).canIssue = true ∧
    (let s : State := { scalars with schedule := [] }
     s.flight = [] ∧ firstEvent s.tick s.tick.dueEvents = none ∧ s.tick.agentChoice = some (.slot 0 false)) ∧ stepping.canIssue = true ∧ stepping.haltsHere = false ∧ stepping.boundaryCause = none ∧
    stepping.pc.toNat < segLimit (stepping.seg 4) ∧ (stepping.translate (segBase (stepping.seg 4) + stepping.pc.toNat) 3 (withOff stepping.pc stepping.pc.toNat) 0).toOption = some 0x400FE0000 ∧
    (match decode (BitVec.ofNat 32 (scalars.mem.nat 0x400FE0000 4)) with
      | .ok i => decide (i = .nop)
      | .reject _ => false) = true := by
  refine ⟨?_, ?_, ?_, ?_, ?_, ?_, ?_, ?_, ?_, ?_, ?_⟩ <;> decide +kernel

/-- A placed instruction is the one that the next step runs: `sli s5, 7`. -/
theorem test_step_runs_the_placed_word : (match step (State.reset.withFetchWord 32 0x38140007) with
    | .next t => some ((t.sreg 5).val, t.pc)
    | _ => none) = some (7, 4) := by decide +kernel

theorem test_witness_StepKeepsMemory : scalars.mem.wf = true ∧ (match step scalars with
    | .next _ => true
    | _ => false) = true := by decide +kernel

theorem test_witness_DecodeEncode : wellFormed (.tloop 3 (-5)) = true ∧ encode (.tloop 3 (-5)) = some 0xE90FFFFB := by decide

/-- The device with every port up and its member number set; port 0 has submitted a command. -/
def online : State := { accessing id with ports := List.replicate 22 .up, devSet := true, submitted := [0] }

/-- Two records in flash, the higher `SEQNO` first or second. -/
def flashed (a b : Nat) (p : Power) : State := { online with
  flash := [{ defaultRecord with header := BitVec.ofNat 512 (defaultRecord.header.toNat + a * 2 ^ 64) }, { defaultRecord with header := BitVec.ofNat 512 (defaultRecord.header.toNat + b * 2 ^ 64), signed := false }]
  power := p }

theorem test_witness_PowerAndReset : (flashed 2 1 .off).power = .off ∧ (flashed 2 1 .on).portCarries 0 = true ∧ (flashed 2 1 .on).boot = .ready ∧
    (flashed 2 1 .on).submitted.head? = some 0 ∧ (flashed 2 1 .on).flash.map recSeqno = [3, 2] ∧ (flashed 1 2 .on).flash.map recSeqno = [2, 3] ∧
    (let r := defaultRecord
     r.signed = true ∧ recReserved r = false ∧ recMagic r = 0x4B5A0C0F ∧ (∀ p < 34, recColState r p ≠ 3) ∧ 64 ≤ recLength r ∧
      recTrimOff r + recTrimLen r ≤ recLength r ∧ recTrainOff r + recTrainLen r ≤ recLength r ∧ recLength r ≤ recSigOff r ∧
      ((List.range 34).filter fun p => recColState r p = 0).length = 32 ∧ recQtabPa r = Config.qtabPa) := by
  refine ⟨?_, ?_, ?_, ?_, ?_, ?_, ?_⟩ <;> decide +kernel

/-- A power-on whose steps pass leaves thirty-two columns, and one whose key fails stays in reset at step 4 (R387). -/
theorem test_power_on : [true, false].map (fun k => match exec (.powerOn ⟨k, [], false⟩) (flashed 2 1 .off) with
    | .next t => (t.cols.length, decide (t.boot = .ready), decide (t.boot = .stays 4 1))
    | _ => (99, false, false)) = [(32, true, false), (0, false, true)] := by decide +kernel

theorem test_witness_DeviceCommands : online.portCarries 0 = true ∧ online.portCarries 1 = true ∧ online.submitted.head? = some 0 ∧ online.flight = [] ∧
    (∀ c ∈ online.cols, ∀ k ∈ c.keys, k.armed = false) ∧ (flashed 2 1 .on).submitted.head? = some 0 ∧ (flashed 2 1 .on).flash.length = 2 ∧
    (let s : State := { online with flight := [⟨7, .quote 0 5⟩], schedule := [.perform 7] }
     s.running = true ∧ s.item 7 = some (.quote 0 5) ∧ s.earlier 7 State.isQuote = false) ∧
    ({ online with ctxs := [] } : State).ctxs = [] ∧ (online.ports.getD 2 .down ≠ .down ∧ online.ports.getD 2 .down ≠ .isolated) ∧ online.ctxs ≠ [] := by decide +kernel

/-- A member number is accepted while no context exists, and refused beside one (R361). -/
theorem test_member_number : [{ online with ctxs := [] }, online].map (fun s => match exec (.memberNumber 0 5) s with
    | .next t => t.dev
    | _ => 99) = [5, 0] := by decide +kernel

/-- A read of this device that lane 0 of the group made; its answer, and whether it was sent. -/
def asking (a : Option (Word × Option Poison × Bool)) (dev : Option Nat) : Remote :=
  { kind := .read, why := .lane 0 0 (some 5), ctx := 0, launch := 0, col := 0, core := 0, dev := dev, host := none, tcol := 0, off := 0x1000, size := 8, data := 0, cmp := 0, op := 0, signed := false, poison := false,
    bytes := [], sentAt := 0, backoff := 0, sent := true, waiting := false, release := none, via := dev.map fun _ => 2, answer := a }

/-- A hot die, a leaf that is VALID, one that is QUARANTINED, one that is SCRUBBING; a line of TAL; ports that train and carry. -/
def hardware (st : Nat) : State := { online with
  dies := [⟨true, true, true⟩, ⟨false, false, false⟩], overPower := true, mem := online.mem.putBytes 0x400100000 (leBytes 8 (st * 2 ^ 53 + 2 ^ 52 + 0x3000000)),
  ports := List.replicate 21 .up ++ [.training], ctxs := [{ placedContext with pages := [8 * 0x400100000 + 4] }] }

theorem test_witness_DeviceEvents : ((hardware 1).dies.getD 0 ⟨false, false, false⟩).hot = true ∧ (hardware 1).overPower = true ∧ (hardware 1).droopEn = true ∧ 0 < (hardware 1).cols.length ∧
    ((hardware 1).ports.getD 21 .down = .training ∧ (hardware 1).ports.getD 20 .down = .up) ∧
    ([1, 3, 4].map fun st => bitsOf ((hardware st).mem.nat 0x400100000 8) 53 3) = [1, 3, 4] ∧ bitsOf ((hardware 3).mem.nat 0x400100000 8) 52 1 = 1 ∧
    (0x400200000 / 128 * 128 < 2 ^ 42 ∧ (hardware 1).scrOwner 0x400200000 = none) ∧ (∀ c ∈ (hardware 3).ctxs, c.st ≠ .killed) ∧
    ((hardware 4).ctxs.flatMap fun c => c.pages).findSome? (fun p => if p / 8 = 0x400100000 then some (p % 8) else none) = some 4 ∧ (hardware 4).mem.wf = true ∧
    (let home := physHome (0x400100000 / 2 ^ 35) (bitsOf ((hardware 4).mem.nat 0x400100000 8) 50 2) (bitsOf ((hardware 4).mem.nat 0x400100000 8) 8 40 * 256)
     0x400100008 ≤ home ∨ home + 2 ^ levelShift 4 ≤ 0x400100000) ∧ ((hardware 1).ctx 0).st = .active ∧ (∀ c ∈ (hardware 1).cols, ∀ k ∈ c.keys, k.armed = false) ∧
    (let r : Remote := { asking none (some 9) with kind := .write, why := .lane 0 0 none }
     let s : State := { hardware 1 with flight := [⟨7, .remote r⟩] }
     s.item 7 = some (.remote r) ∧ r.via = some 2 ∧ s.ports.getD 2 .down = .up) ∧ (hardware 1).scrOwner (scrHome 0 0 0x1000) = some (0, 0) := by
  refine ⟨?_, ?_, ?_, ?_, ?_, ?_, ?_, ?_, ?_, ?_, ?_, ?_, ?_, ?_, ?_, ?_⟩ <;> decide +kernel

theorem test_witness_HostAccesses : online.portCarries 0 = true ∧ online.boot = .ready ∧ online.physSpan 0x400001000 128 = true ∧ online.colDead (0x400001000 / 2 ^ 35) = false ∧
    online.mem.wf = true ∧ online.cols.length ≤ 32 ∧ online.physSpan (2 ^ 40) 8 = false ∧ online.sems.getD 7 1 = 0 ∧ (online.mails.getD 0 ⟨[], none⟩).command.length = 256 ∧
    online.submitted.head? = some 0 ∧ ({ online with boot := .stays 4 1 } : State).portCarries 0 = true ∧
    (({ online with qps := [⟨9, 0x400001000, 0, 0⟩] } : State).qps.map (·.qp) = [9] ∧ online.portCarries 18 = true) := by decide +kernel

/-- The top word of the TAL of column 31 lies in the aperture, the byte after it does not (R362). -/
theorem test_aperture_bounds : online.physSpan (31 * 2 ^ 35 + 0x40FFFFFF8) 8 = true ∧ online.physSpan (31 * 2 ^ 35 + 0x40FFFFFF8) 9 = false := by decide +kernel

/-! ### Links -/

def asked (r : Remote) : State := { pending (.remote r) with devSet := true, flight := [⟨5, .gather (.vreg 0 9) 1 [] none⟩, ⟨7, .remote r⟩] }

/-- Pointers that `rld` takes, one with column 40 and one that is not aligned, which it does not; answers of this device, and a member that is asked. -/
theorem test_witness_RemoteRequests : (accessing id).ReadyCore ∧ (accessing id).VDst 9 ∧ (accessing id).VSrc 1 ∧ (accessing id).VSrc 4 ∧ (accessing id).VSrc 5 ∧ (accessing id).Handles 0 false 0x400FF0400 ∧
    (∀ l ∈ (accessing id).lanes, (accessing id).ptrBad ((accessing id).vlane 4 l) = false ∧ ptrOff ((accessing id).vlane 4 l) % 8 = 0) ∧
    (let bad := accessing (setV 4 fun l => if l = 3 then BitVec.ofNat 64 (40 * 2 ^ 48) else near 8)
     bad.lanes = [0, 1, 2] ++ 3 :: List.range' 4 12 ∧ (∀ y ∈ [0, 1, 2], bad.ptrBad (bad.vlane 4 y) = false) ∧ bad.ptrBad (bad.vlane 4 3) = true) ∧
    ptrOff ((accessing (setV 4 fun _ => near 0x1001)).vlane 4 0) % 8 ≠ 0 ∧ (4 ≤ (accessing id).etype ∧ (accessing id).etype < 8) ∧ ((accessing id).core 0 0).phase.opened.length < 3 ∧
    (∀ p ∈ [(some ((5 : Word), (none : Option Poison), true), (none : Option Nat)), (some (0, some (.denied 0x61), false), none), (some (0, some .dead, false), none), (none, some 9)],
      (asked (asking p.1 p.2)).item 7 = some (.remote (asking p.1 p.2)) ∧ ((asked (asking p.1 p.2)).drop 7).item 5 = some (.gather (.vreg 0 9) 1 [] none)) ∧
    ((asking none (some 9)).via.isSome = true ∧ (asked { asking none (some 9) with waiting := true }).earlierInStream 7 { asking none (some 9) with waiting := true } (fun y => !y.sent || y.waiting) = false) := by
  refine ⟨readyCore ?_, vdst ?_, vsrc ?_, vsrc ?_, vsrc ?_, handles ?_, ?_⟩ <;> decide +kernel

/-- A request of this device on a page of TAL that allows `RMT`, and one of member 9 by its pod context; the page table entry of the cairn refuses both. -/
def target (off : Nat) : State :=
  { (asked { asking none none with off := off }).modCol 0 fun c => { c with tlb := placedTlb } with devSet := true, ports := List.replicate 22 .up, ctxs := [{ placedContext with record := placedContext.record + BitVec.ofNat 512 (6 * 2 ^ 128) }] }

/-- The request as it reaches its home, and one like it of member 9. -/
def reaching : Brixel := (target 0x1000).brixelOf 7 (asking none none)

def foreign : Brixel := { reaching with ext := true, src := 9, pod := 6, id := 3 }

theorem test_witness_RequestsAtTheirTarget : (target 0x1000).mem.wf = true ∧ (target 0x1000).item 7 = some (.remote (asking none none)) ∧ (target 0x1000).itemWalks 7 = false ∧
    (target 0x1000).earlierInStream 7 (asking none none) (fun y => y.answer.isNone) = false ∧ (target 0x1000).meets 0 0 0x1000 0 = .home 0x400001000 ∧
    (target 0x1000).meets 0 0 0x1000000 0 = .refused 0x61 ∧ (target 0x1000).meets 0 0 0x2000000 0 = .miss ∧ 8 ≤ 65536 - 0x1000 % 65536 ∧
    ((target 0x1000).podContext 6 = some 0 ∧ 0 < (target 0x1000).ncol 0 ∧ (target 0x1000).isLost 9 = false ∧ (target 0x1000).podContext 7 = none) ∧
    ((target 0x1000).stoppedAt 0 = false ∧ (target 0x1000).behindOwn 7 (asking none none) = false ∧ reaching.ext = false ∧ reaching.id = 7 ∧ reaching.bytes = [] ∧
      (∀ f ∈ (target 0x1000).flight, f.item ≠ .brixel .read foreign) ∧ (target 0x1000).podPort ≠ none ∧ (target 0x1000).colDead 0 = false ∧ (target 0x1000).passes 9 6 0 3 = false ∧
      ({ target 0x1000 with turned := [⟨9, 6, 0, 2, 0⟩] } : State).passes 9 6 0 3 = true) := by
  refine ⟨?_, ?_, ?_, ?_, ?_, ?_, ?_, ?_, ?_, ?_⟩ <;> decide +kernel

/-- A route of one entry that is delivered in buffer 0 of column 0, and a key that awaits contributor 0. -/
def route (act : Nat) : BitVec 32 := BitVec.ofNat 32 (act * 2 ^ 14)

def collective (act : Nat) : Frame := { ext := false, src := 0, id := 0, pod := 0, tag := 3, chunk := 0, rop := 0, bitmap := 1, entries := [route act], payload := List.replicate 16 1, poison := false }

def awaitedKey : Key :=
  { key := ⟨0, 3, 0⟩, armed := true, expect := 3, team := 0, grp := 0, bar := some ⟨0, 0, 16, 0⟩, since := 0, tmo := 2000, rop := some 0, arrived := 2, acc := List.replicate 16 1, accPoison := false, entries := [],
    armedAt := 0 }

/-- A descriptor in the scratchpad at 0x1000: key 3, one entry, both contributors, barrier 1. -/
def reducing (act : Nat) : State :=
  let s := { barriers.modCol 0 fun c => { c with keys := [awaitedKey] } with flight := [⟨7, .frame 0 (collective act)⟩], nextId := 8 }
  let s := { s with mem := s.mem.putBytes (scrHome 0 0 0x1000) (leBytes 64 (3 + 1 * 2 ^ 40 + 3 * 2 ^ 64 + 1 * 2 ^ 144 + (0x3FF * 2 ^ 22 + 2 * 2 ^ 14) * 2 ^ 256)) }
  s.modGroup 0 (setV 6 fun _ => near 0x1000)

theorem test_witness_Collectives : (reducing 1).ReadyCore ∧ (reducing 1).VSrc 1 ∧ (reducing 1).VDst 6 ∧ (reducing 1).lanes.head? = some 0 ∧ ((reducing 1).vreg 6).poisonOf 0 = none ∧
    (reducing 1).Allowed 0 0 64 ⟨0, 0, near 0x1000, ptrOff (near 0x1000), 64⟩ ∧
    ((reducing 1).scrBlock (near 0x1000) 64 64).toOption = some (3 + 1 * 2 ^ 40 + 3 * 2 ^ 64 + 1 * 2 ^ 144 + (0x3FF * 2 ^ 22 + 2 * 2 ^ 14) * 2 ^ 256) ∧ ((reducing 1).barRead 0 0 16).uninit = false ∧
    (∀ a ∈ [0, 1, 2], (reducing a).item 7 = some (.frame 0 (collective a)) ∧ bv (route a) 14 3 = a) ∧ ((reducing 1).col 0).keys.find? (fun z => decide (z.key = ⟨0, 3, 0⟩)) = some awaitedKey ∧
    awaitedKey.arrived &&& 1 = 0 ∧ awaitedKey.arrived ||| 1 = awaitedKey.expect ∧ (let s : State := { reducing 1 with time := 2000000 }
      awaitedKey.since + 1000 * awaitedKey.tmo ≤ s.time ∧ awaitedKey.since + 2000000 ≤ s.time) ∧
    ((reducing 1).stoppedAt 0 = false ∧ (reducing 1).colDead 0 = false ∧ ((reducing 1).col 0).keys.length < 64 ∧ (reducing 1).cols = ((reducing 1).drop 7).cols ∧
      (let s := { target 0x1000 with flight := [] }
       s.podPort ≠ none ∧ s.isLost 9 = false ∧ s.devSet = true ∧ s.podContext 6 = some 0 ∧ 0 < s.ncol 0 ∧ (s.part 0).1 + 0 = 0 ∧ s.passes 9 6 0 4 = false ∧ s.dev = 0)) := by
  refine ⟨readyCore ?_, vsrc ?_, vdst ?_, ?_, ?_, allowed ?_, ?_⟩ <;> decide +kernel

/-! ### Channels and exchange sets -/

/-- The placed team is producer and consumer of channel 0, with two slots; set 1 has columns 0 and 1. -/
def exchanging (slots : List ChanSlot) (fl : List Flight) : State :=
  { accessing id with
    teams := [{ placedTeam with chans := [{ slots := slots, start := 32, slotsz := 0, ccol := 0, ctid := 0, ptid := 0, cgids := 1, pgids := 1, pcols := 1, nextGrant := 0, nextClaim := 0 }], xsets := [0, 3] ++ List.replicate 62 0 }]
    flight := fl, nextId := 9 }

def vector (from_ : Nat) : PermVec := ⟨0, 0, 0, 1, 1, 1, from_, List.replicate 16 4⟩

/-- A slot that is granted, one that is full, none; a grant, a message and a vector on their way; exchange with column 1 and with a column outside the set. -/
theorem test_witness_Exchange : (exchanging [.reserved 0, .full] []).ReadyCore ∧ (exchanging [.reserved 0, .full] []).Handles 0 false 0x400FF0400 ∧ (exchanging [.reserved 0, .full] []).VAll 1 ∧
    (exchanging [.reserved 0, .full] []).VDst 9 ∧
    (let x := (exchanging [.reserved 0, .full] []).grp 0
     let ch := ((exchanging [.reserved 0, .full] []).team 0).chans.getD 0 noChannel
     bitsOf ch.pcols ((exchanging [.reserved 0, .full] []).colNum x.ctx x.col) 1 = 1 ∧ ch.ptid = x.tid ∧ bitsOf ch.pgids x.gid 1 = 1 ∧ bitsOf ch.cgids x.gid 1 = 1 ∧ ch.ccol = 0 ∧ x.st ≠ .exited ∧
       ch.slots[0]? = some (.reserved (2 * 0 + bit false)) ∧ ch.slots[1]? = some .full) ∧
    (exchanging [.reserved 0, .full] []).colDead 0 = false ∧ ((exchanging [.full] []).team 0).chans.map (fun c => c.slots[c.nextClaim]?) = [some .full] ∧
    (let s := exchanging [.free, .free] [⟨7, .grant 0 0 0 false⟩]
     s.flight = [] ++ ⟨7, .grant 0 0 0 false⟩ :: [] ∧ (((s.team 0).chans.getD 0 noChannel).slots)[0]? = some .free) ∧
    (exchanging [.full] [⟨7, .chan 0 0 0 [1]⟩]).item 7 = some (.chan 0 0 0 [1]) ∧
    ((List.range 32).filter fun n => bitsOf ((placedTeam.xsets.set 1 3).getD 1 0) n 1 = 1) = [0, 1] ∧
    (let s := exchanging [] [⟨7, .perm (vector 1) 0⟩]
     s.item 7 = some (.perm (vector 1) 0) ∧ (s.groups.find? fun z => z.launch = 0 && z.col = 0 && z.tid = 0 && z.gid = 0).isSome = true ∧ (s.core 0 0).perms.length < 4) := by
  refine ⟨readyCore ?_, handles ?_, vall ?_, vdst ?_, ?_⟩ <;> decide +kernel

/-! ### The matrix gang -/

/-- INT8 by INT8 with wrapping accumulation, one row, 64 columns; an epilogue of one row of 64 int32; a tile of one row and 64 columns. -/
def block8 : Nat := 8 + 8 * 2 ^ 8 + 1 * 2 ^ 18
def epilogue : Nat := 1 + 64 * 2 ^ 16 + 2 ^ 34 + 4 * 2 ^ 40 + 64 * 2 ^ 64 + 256 * 2 ^ 96

/-- s3 names the block, s4 the epilogue, s5 A, s6 B, s7 a tile, s9 the last aligned cairn offset; B is resident. -/
def ganging : State :=
  let s := demo fun g => handler (setMode 0x40 (setS 3 (near 0x1000) (setS 4 (near 0x1040) (setS 5 (near 0x2000) (setS 6 (near 0x4000) (setS 7 (BitVec.ofNat 64 (1 + 64 * 2 ^ 16 + 64 * 2 ^ 32)) (setS 9 0xF000
    (setS 10 (near 0x3000) g))))))))
  let s := s.modCore 0 0 fun k => { k with resident := some ⟨0, false, 0, 8, 32, false, 64, List.replicate (256 * 64) 0, [], [], [], []⟩ }
  { s with mem := (s.mem.putBytes (scrHome 0 0 0x1000) (leBytes 32 block8)).putBytes (scrHome 0 0 0x1040) (leBytes 64 epilogue), nextId := 8 }

theorem test_witness_MatrixInstructions : ganging.ReadyCore ∧ ganging.Handles 0 false 0x400FF0400 ∧ (ganging.SSrc 0 ∧ ganging.SSrc 3 ∧ ganging.SSrc 4 ∧ ganging.SSrc 5 ∧ ganging.SSrc 6 ∧ ganging.SSrc 7 ∧ ganging.SSrc 9 ∧ ganging.SSrc 10) ∧
    ganging.VDst 1 ∧ ganging.VSrc 1 ∧ ganging.atLatch (ganging.grp 0) = false ∧
    ((ganging.scrObject (near 0x1000) 32 32).toOption = some block8 ∧ fbBad (BitVec.ofNat 256 block8) (some (nEff 8 0 false / 64)) = none ∧ fbBad (BitVec.ofNat 256 block8) none = none ∧
      codebookFmt 8 = false ∧ isScaled 8 = false ∧ fbSparse (BitVec.ofNat 256 block8) = false) ∧
    (ganging.residentNow 0 0).map (fun r => (r.team, r.bfmt, r.blen, r.sparse, r.pair)) = some (0, 8, 32, false, false) ∧
    (ganging.Allowed 0 0 8 ⟨0, 0, near 0x4000, 0x4000, kLog 0 false * 64⟩ ∧ ganging.bufCheck 0 0 0x4000 (kLog 0 false * 64) .load = none ∧ ganging.bufHolds 0 0 0x4000 (kLog 0 false * 64) = false ∧ ganging.scrComing 0x4000 (kLog 0 false * 64) = false) ∧
    (ganging.Allowed 0 0 8 ⟨0, 0, near 0x2000, 0x2000, kLog 0 false⟩ ∧ ganging.bufCheck 0 0 0x2000 (kLog 0 false) .load = none ∧ ganging.bufHolds 0 0 0x2000 (kLog 0 false) = false ∧ ganging.scrComing 0x2000 (kLog 0 false) = false) ∧
    (0xF000 % 64 = 0 ∧ 0xF000 + 4096 ≤ segLimit (ganging.seg 3) ∧ 4 * nEff 8 0 false ≤ segLimit (ganging.seg 3)) ∧
    (ganging.translate (256 * 65536) 2 none 0).toOption = some (cairnHome 0 0) ∧ segBase (ganging.seg 3) / 65536 = 256 ∧ (segBase (ganging.seg 3) + 65535) / 65536 = 256 ∧
    (ganging.scrObject (near 0x1040) 64 64).toOption = some epilogue ∧ epiBad (BitVec.ofNat 512 epilogue) = none ∧ ganging.Allowed 0 1 1 ⟨0, 0, near 0x3000, 0x3000, 256⟩ ∧
    ganging.bufCheck 0 0 0x3000 256 .store = none ∧ ganging.foldPending 0 0 ganging.nextId = false := by
  refine ⟨readyCore ?_, handles ?_, ⟨ssrc ?_, ssrc ?_, ssrc ?_, ssrc ?_, ssrc ?_, ssrc ?_, ssrc ?_, ssrc ?_⟩, vdst ?_, vsrc ?_, ?_, ?_, ?_,
    ⟨allowed ?_, ?_⟩, ⟨allowed ?_, ?_⟩, ?_, ?_, ?_, ?_, ?_, ?_, allowed ?_, ?_⟩ <;> decide +kernel

/-- A gang of two in a team of one group faults GANG_FAULT (0x90); `mx.zero` one word past the segment CAIRN_RANGE (0x94) (R227, R234). -/
theorem test_matrix_faults : [(Instr.mxGang 3, (3 : Word)), (.mxZero 3, 0xF040)].map (fun p => match exec p.1 (ganging.modGroup 0 (setS 3 p.2)) with
    | .next t => bitsOf (t.mem.nat 0x400FF0400 64) 0 8
    | _ => 0) = [0x90, 0x94] := by decide +kernel

/-- One operation alone in the queue, with cairn page 256. -/
def performing (k : MxKind) : MxOp := { col := 0, core := 0, team := 0, grp := 0, cmap := ⟨0x1000000, [(256, cairnHome 0 0)]⟩, kind := k }

def inQueue (k : MxKind) : State := { ganging with flight := [⟨7, .mx (performing k)⟩] }

/-- Its B and its block as `mx.ldb` records them. -/
def record8 : Residency := ⟨0, false, 0, 8, 32, false, 64, [], [], [], [], []⟩

def source8 : ASource := ⟨0, [0x2000], [], 256, []⟩

def block8w : BitVec 256 := BitVec.ofNat 256 block8

theorem test_witness_MatrixQueue : ((inQueue (.zero 0)).mem.wf = true ∧ (inQueue (.zero 0)).item 7 = some (.mx (performing (.zero 0))) ∧
      (∀ f ∈ (inQueue (.zero 0)).flight, f.id < 7 → False) ∧ (∀ f ∈ (inQueue (.zero 0)).flight, (inQueue (.zero 0)).queueRow 0 0 f.item = false)) ∧
    ((inQueue (.zero 0)).mem.cairnPoison = [] ∧ ∀ o < 8, (inQueue (.zero 0)).mem.isPoisoned ((inQueue (.zero 0)).cairnAt 0 (performing (.zero 0)).cmap (4 * o)) = false) ∧
    ((inQueue (.ldb record8 ⟨0, block8w, 0x4000, 0⟩)).item 7 = some (.mx (performing (.ldb record8 ⟨0, block8w, 0x4000, 0⟩))) ∧
      record8.bfmt = fbB block8w ∧ record8.blen = fbLen block8w ∧ record8.sparse = fbSparse block8w ∧ record8.ncols = fbCols block8w ∧ fbBad block8w (some (nEff record8.bfmt record8.arr record8.pair / 64)) = none) ∧
    (((inQueue (.joint block8w [⟨0, 0, 0, ⟨0x1000000, [(256, cairnHome 0 0)]⟩, source8⟩])).core 0 0).resident.isSome = true ∧
      (∀ n < 64, 2 ^ 42 ≤ ganging.cairnAt 0 ⟨0x1000000, [(256, cairnHome 0 0)]⟩ (0 + 4 * n)) ∧ (ganging.team 0).col < 32 ∧ source8.core < 4 ∧ (∀ y ∈ source8.rows ++ source8.scales, y + 2 * source8.klog ≤ 2 ^ 20) ∧
      source8.klog % 8 = 0 ∧ source8.klog % fbLen block8w = 0 ∧ 0 < fbLen block8w) ∧
    (let r : Row := ⟨5, 0, 0, 0, 0, [(0x2000, [1, 2])], none, 2⟩
     let s : State := { ganging with flight := [⟨7, .row r⟩] }
     s.item 7 = some (.row r) ∧ (∀ f ∈ s.flight, f.id < 7 → False) ∧ ganging.bufCheck 0 0 0x2000 2 .store = none) ∧
    (let a : Arrival := ⟨0, false, 3, 0, 0, ⟨0, [], [], 0, []⟩, 0, ⟨0, []⟩, 0, 0, 0, 1⟩
     let s := (ganging.modCore 0 0 fun k => { k with latches := [a] })
     (s.core 0 0).latches ++ (s.core 0 0).latches = [] ++ a :: [a] ∧ (s.grp 0).out = false ∧ (s.grp 0).swapwait ≠ 0 ∧ (s.grp 0).swapwait.toNat ≤ ({ s with cycles := 16384 } : State).cycles - a.at_) ∧
    (intCode 8 = true ∧ intCode 11 = true) ∧ ((Epi.of 0).qnt = false ∧ (Epi.of 0).eround ≠ 5) := by
  refine ⟨?_, ?_, ?_, ?_, ?_, ?_, ?_, ?_⟩ <;> decide +kernel

/-- A product of a row of 2 and a column of 3: 256 * 6 = 0x600 (R232). -/
theorem test_joint : outputWord 1 8 0 (rowBlocks 8 32 [] (List.replicate 256 2) []) (colBlocks 8 32 256 [] ((List.range 256).map fun k => (k, 3)) []) = 0x600 := by decide +kernel

/-- `mx.acv` of a lane whose words hold 5 and 0 (R237). -/
theorem test_acv : (match exec (.mxAcvPerform 7) { inQueue (.acv 0 (.vreg 0 9) [0] none) with mem := ganging.mem.putBytes (cairnHome 0 0) [5] } with
    | .next t => t.item 7
    | _ => none) = some (.result (.vreg 0 9) [⟨0, 5, none⟩] 0 none true) := by decide +kernel

/-! ### Regions -/

/-- A group with one open region that preserves a line; a second one that is sealed. -/
def inRegion (sealed : Bool) (retry : Nat) : State := accessing fun g => { g with regions := [⟨g.image, [⟨0x400001000, List.replicate 128 7, false⟩], sealed, false, retry, 0⟩] }

theorem test_witness_Regions : (inRegion false 0).ReadyCore ∧ (accessing id).ReadyCore ∧ (accessing id).Handles 0 false 0x400FF0400 ∧ (inRegion false 0).VSrc 1 ∧ (inRegion false 0).SSrc 3 ∧ (inRegion false 0).SSrc 0 ∧
    (inRegion false 0).SDst 9 ∧ isElem (inRegion false 0).etype = true ∧ (∀ f ∈ (inRegion false 0).flight, f.id < (inRegion false 0).nextId → foldInto 0 7 f.item = false) ∧
    ((inRegion false 0).grp 0).privileged = false ∧ ((inRegion false 0).grp 0).regions.length = 1 ∧ ((accessing id).grp 0).regions = [] ∧
    ((∀ r < 64, (vget VReg.zero ((accessing id).grp 0).image.v r).full = true) ∧ ∀ r < 64, (vget SReg.zero ((accessing id).grp 0).image.s r).full = true) ∧
    ((inRegion false 0).grp 0).regions.map (fun r => (r.sealed, r.retry, (r.undo.map (·.line)))) = [(false, 0, [0x400001000])] ∧
    ((inRegion true 2).grp 0).regions.map (fun r => (r.sealed, r.retry)) = [(true, 2)] ∧ (inRegion false 0).mem.wf = true ∧ (0x400001000 % 128 = 0 ∧ (List.replicate 128 (7 : Byte)).length = 128) ∧
    (inRegion false 0).Reaches 1 0 128 ⟨0, 0, near 0x1000, ptrOff (near 0x1000) + 128 * 0, 128⟩ [(0x400001000, 128)] ∧
    (unpack .f64 false 0 = .fin false 0 (-1074) ∧ ((inRegion false 0).sval 0).toNat = 0) ∧
    ((∀ k < 128, (inRegion false 0).roByte (0x400001000 + k) = false ∧ (inRegion false 0).roHalf (0x400001000 + k) = false) ∧ (inRegion false 0).noLate (lateOf ((inRegion false 0).grp 0).col ((inRegion false 0).grp 0).core none) = true ∧
      (inRegion false 0).clash 0 0 none (inRegion false 0).nextId false [(0x400001000, 128)] = false) ∧
    ((inRegion false 0).scrComing 0x1000 128 = false ∧ (inRegion false 0).bufHolds 0 0 0x1000 128 = false ∧ (inRegion false 0).bufCheck 0 0 0x1000 128 .load = none ∧
      (inRegion false 0).Allowed 0 0 128 ⟨0, 0, near 0x1000, 0x1000, 128⟩) ∧
    moving.ReadyStream ∧ (moving.thread 0 0).regions.length < 2 := by
  refine ⟨readyCore ?_, readyCore ?_, handles ?_, vsrc ?_, ssrc ?_, ssrc ?_, sdst ?_, ?_, ?_, ?_, ?_, ?_, ?_, ?_, ?_, ?_, ?_, reaches ?_, ?_, ?_, ⟨?_,
    ?_, ?_, allowed ?_⟩, readyStream ?_, ?_⟩ <;> decide +kernel

/-- `rgn.abt` puts the preserved line back and counts the retry (R351). -/
theorem test_rgn_abt : (match exec .rgnAbt (inRegion false 0) with
    | .next t => some (t.mem.nat 0x400001000 2, (t.grp 0).regions.map (·.retry), (t.grp 0).rollbacks, (t.grp 0).lastCause)
    | _ => none) = some (0x0707, [1], 1, 0xFF) := by decide +kernel

/-! ### Pages, queues, contexts -/

/-- One walk of column 0 for a page of TAL, and one for an offset that no entry maps. -/
def walking (off : Nat) (st : WalkState) : State :=
  online.modCol 0 fun c => { c with walks := [{ fid := 3, ctx := 0, off := off, kind := 0, remote := none, st := st, waiters := [.slot 0], time := 0 }] }

/-- An entry through which the shootdown of context 0's first page removes its translations, and one of another context. -/
def cached : State := online.modCol 0 fun c => { c with tlb := [⟨0, 0, 65536, 0⟩, ⟨1, 0, 65536, 0⟩] }

theorem test_witness_Pages : ((walking 0x1000 .walking).col 0).walks.map (fun w => (w.fid, w.st)) = [(3, .walking)] ∧
    walkTable (walking 0x1000 .walking) 0 0 0x1000 = .leaf (talLeaf 0) 3 0x40E003000 ∧ pteState (talLeaf 0) = 1 ∧
    (match walkTable (walking 0x2000000 .walking) 0 0 0x2000000 with
      | .absent _ _ _ bad => !bad
      | _ => false) = true ∧
    (((walking 0 .walking).col 0).ring.length < 64 ∧ ((walking 0 .walking).grp 0).privileged = false ∧ ((walking 0 .walking).grp 0).frameWait = none ∧ ∀ g ∈ (walking 0 .walking).groups, g.frameWait = none) ∧
    ((walking 0 .walking).portCarries 0 = true ∧ (walking 0 .walking).submitted.head? = some 0) ∧
    (let s := walking 0 (.absent 0 3 false true)
     (s.col 0).walks.map (fun w => w.st) = [.absent 0 3 false true]) ∧
    (bv (online.ctx 0).record 448 64 + 8 * online.colNum 0 0 = 0x40E000000 ∧ online.mem.isPoisoned 0x40E000000 = false ∧ malformed 0 (online.mem.nat 0x40E000000 8) = false) ∧
    ((online.ctx 0).st = .active ∧ 0 < online.ncol 0 ∧ online.noLate (fun l => decide (l.col ∈ [0].map (online.colOf 0))) = true) ∧
    (match exec (.shootdown 0 (BitVec.ofNat 256 (2 ^ 80 + 2 ^ 112 + 0x400001000 * 2 ^ 192))) cached with
      | .next t => ((t.col 0).tlb.map fun e => e.ctx, t.flight.map fun f => f.item, t.mem.nat 0x400001000 8)
      | _ => ([], [], 0)) = ([1], [.shootdown 0 0 0 1 0x400001000 [(0, 65536), (0, 2097152)]], 1) ∧
    ({ online with flight := [⟨7, .shootdown 0 0 0 1 0x400001000 [(0, 65536)]⟩] } : State).usesGone 0 0 7 [(0, 65536)] = false ∧ pteLeaf (online.mem.nat 0x40E003000 8) = true := by
  refine ⟨?_, ?_, ?_, ?_, ?_, ?_, ?_, ?_, ?_, ?_, ?_, ?_⟩ <;> decide +kernel

/-- Queue 3 is enabled and IDLE for context 0, with its ring and status words in TAL of column 0; slot 0 reads READY or FREE. -/
def queueing (word : Nat) : State :=
  { online with
    mem := online.mem.putBytes 0x400201000 (leBytes 8 word)
    queues := online.queues.set 3 { Queue.reset with st := .idle, ctx := 0, ringPa := 0x400200000, statPa := 0x400201000, wake := true } }

/-- A launch that waits for its dependences, one whose teams are all placed, one that drains; a column that takes one more team. -/
def launching (st : LState) (grid placed : Nat) : State :=
  { queueing 0 with launches := [{ placedLaunch with queue := 3, st := st, grid := [grid], placed := [placed], imaged := true, bufs := [List.replicate 16 Buffer.blank], chans := [[]], xsets := [List.replicate 64 0] }], nextId := 50 }

/-- The position that the distributor takes exists where some end of a gap fits. -/
def fitsAt (cap size : Nat) (used : List (Nat × Nat)) (a : Nat) : Bool := decide (a + size ≤ cap) && used.all fun u => apart a size u.1 u.2

theorem allocates {n cap size : Nat} {used : List (Nat × Nat)} (k : Nat) (h : k < cap / 8192 + 1)
    (hf : (fitsAt cap size used (k * 8192) && (k * 8192 = 0 || !fitsAt cap size used (k * 8192 - 8192) || !fitsAt cap size used (k * 8192 + 8192))) = true) :
    (allocate n cap size used).isSome = true := by
  have hm : k * 8192 ∈ ((List.range (cap / 8192 + 1)).map (· * 8192)).filter fun a => fitsAt cap size used a && (a = 0 || !fitsAt cap size used (a - 8192) || !fitsAt cap size used (a + 8192)) :=
    List.mem_filter.mpr ⟨List.mem_map.mpr ⟨k, List.mem_range.mpr h, rfl⟩, hf⟩
  exact Option.isSome_iff_exists.mpr ⟨_, List.getElem?_eq_getElem (Nat.mod_lt _ (List.length_pos_of_mem hm))⟩

theorem rooms {s : State} {l : Launch} {col core : Nat} (h : (((coresAt l core).any fun k => decide (Config.groupsPerCore < s.groupsOn col k + l.ngroups)) = false) ∧
      (allocate (2 * s.nextId) Config.scrBytes l.scrb ((s.holders col (coresAt l core)).map fun t => (t.scrBase, t.scrBytes))).isSome = true ∧
      (allocate (2 * s.nextId + 1) Config.cairnBytes l.cairnEach ((s.holders col (coresAt l core)).map cairnRange)).isSome = true) : (s.roomAt l col core).isSome = true := by
  obtain ⟨h0, h1, h2⟩ := h
  obtain ⟨a, ha⟩ := Option.isSome_iff_exists.mp h1
  obtain ⟨c, hc⟩ := Option.isSome_iff_exists.mp h2
  simp [roomAt, h0, ha, hc]
/-- Its lowest core has room for a second team, whatever the allocation. -/
def roomy : State := launching .running 2 1

theorem test_witness_QueuesAndLaunches : ((queueing 1).canExamine 3 = true ∧ (queueing 1).served 3 = true ∧ ((queueing 1).queue 3).wake = true ∧ (queueing 1).queueStruck 3 = false) ∧
    (decide ((queueing 1).mem.nat 0x400201000 8 % 256 = 1) = true ∧ decide ((queueing 0).mem.nat 0x400201000 8 % 256 = 1) = false) ∧
    ((launching .waitingDeps 1 0).launch 0).st = .waitingDeps ∧ (roomy.mayPlace (roomy.launch 0) = true ∧ roomy.power = .on ∧
      (roomy.launch 0).placed.getD 0 0 < (roomy.launch 0).grid.getD 0 0 ∧ (roomy.col 0).dead = false ∧ roomy.imageStruck (roomy.launch 0) = false) ∧
    (((roomy.launch 0).coop = false ∧ (roomy.launch 0).ridge = false) ∧ roomy.placesFor (roomy.launch 0) 0 = [] ++ 0 :: [1, 2, 3] ∧ roomy.keptBack (roomy.launch 0) 0 [0] = false) ∧ (roomy.roomAt (roomy.launch 0) 0 0).isSome = true ∧
    ((roomy.writeImages (roomy.launch 0)).isSome = true ∧ ∀ t ∈ roomy.teams, t.id ≠ roomy.nextId) ∧
    (let s := { launching .draining 1 1 with groups := [{ placedGroup with st := .exited }], teams := [{ placedTeam with ended := true }] }
     (s.launch 0).st = .draining ∧ s.ranOut 0 = true ∧ s.released 0 = true) ∧
    (((launching .failing 1 1).launch 0).st = .failing ∧ ((launching .failing 1 1).launch 0).id = 0 ∧ (launching .failing 1 1).released 0 = true) ∧
    (online.portCarries 0 = true ∧ online.submitted.head? = some 0 ∧ (online.queue 3).st = .disabled ∧ ((queueing 1).queue 3).st ≠ .disabled) := by
  refine ⟨?_, ?_, ?_, ?_, ?_, rooms ⟨by decide +kernel, allocates 8 (by decide +kernel) (by decide +kernel), allocates 8 (by decide +kernel) (by decide +kernel)⟩, ?_, ?_, ?_, ?_⟩ <;> decide +kernel

/-- The record of the placed context, for context number 5. -/
def record5 : BitVec 512 := placedContext.record + 5

/-- The placed team as a swap or a pre-emption has left it, with its scratchpad saved. -/
def away : Team := { placedTeam with resident := false, saved := [List.replicate placedTeam.scrBytes 0] }

theorem test_witness_Contexts : (online.portCarries 0 = true ∧ online.submitted.head? = some 0 ∧ (online.ctx 5).st = .unused) ∧
    (bv record5 322 30 = 0 ∧ bv record5 256 16 = 0 ∧ bv record5 148 12 = 0 ∧ bv record5 6 122 = 0 ∧ bv record5 272 48 % 65536 = 0 ∧ bv record5 352 32 ≠ 0 ∧ bv record5 320 2 < online.split.length ∧
      bv record5 0 6 = 5 ∧ bv record5 128 20 = 0) ∧
    ((online.ctx 0).st = .active ∧ (online.ctx 0).expiry = false ∧ bv (online.ctx 0).record 192 32 ≠ 0 ∧ online.hasGroup 0 = true ∧ (online.grp 0).st ≠ .exited ∧ (online.grp 0).halted = false) ∧
    (let y := { placedLaunch with id := 9, ctx := 1, queue := 3, st := .admitting, admitted := true, grid := [1], placed := [0] }
     let s : State := { online with
       launches := online.launches ++ [y]
       ctxs := [{ placedContext with held := 2 ^ 42 }, { placedContext with num := 1 }]
       teams := [0, 1, 2, 3].map fun k => { placedTeam with id := k, core := k } }
     y ∈ s.launches ∧ s.wantsCores y (s.heldCores 0) = true ∧ bv (s.ctx 0).record 192 32 * 1000 ≤ (s.ctx 0).held) ∧
    (let s := { online with ctxs := [{ placedContext with expiry := true }], groups := [{ placedGroup with out := true }] }
     s.canPreempt 0 = true) ∧
    (let s := { online with ctxs := [{ placedContext with st := .preempted }], groups := [{ placedGroup with out := true }], teams := [away] }
     s.power = .on ∧ s.awayTeams 0 ≠ [] ∧ (s.restoreAll (s.awayTeams 0)).isSome = true) ∧
    (let s := { online with ctxs := [{ placedContext with st := .killed }] }
     (s.ctx 0).st = .killed ∧ s.flight = []) ∧
    (let s := { online with teams := [{ away with swapped := true }] }
     (s.team 0).swapped = true ∧ (s.team 0).ended = false ∧ s.roomBack (s.team 0) = true ∧ s.preempting (s.team 0).ctx = false ∧ (∃ y ∈ s.groups, y.team = (s.team 0).id ∧ s.groupGoesOn y = true) ∧
       (s.team 0).saved.length = 1 ∧ (∀ b ∈ (s.team 0).saved, b.length = (s.team 0).scrBytes) ∧ (s.team 0).scrBase + (s.team 0).scrBytes ≤ 2 ^ 20 ∧ (cairnRange (s.team 0)).1 + (cairnRange (s.team 0)).2 ≤ 2 ^ 23) ∧
    (let g : Group := { placedGroup with waitFrom := some 0, swapwait := 1, image := { placedGroup.image with slotA := some { Path.blank with waitFrom := some 0 } } }
     let s := { online with groups := [g], held := [.slot 0 false], cycles := 2 ^ 35 }
     s.hasGroup 0 = true ∧ s.stateWaiting g = true ∧ 2 ^ 34 ≤ s.waitedFor g) ∧
    (let g : Group := { placedGroup with trapAt := 0, privileged := true }
     let s := { online with groups := [g], ctxs := [{ placedContext with expiry := true }], cycles := 65536 }
     (s.team 0).resident = true ∧ s.preempting 0 = true ∧ s.ridgeLaunch 0 = false ∧ max g.trapAt (s.ctx 0).expiryAt + 65536 ≤ s.cycles) := by
  refine ⟨?_, ?_, ?_, ?_, ?_, ?_, ?_, ?_, ?_, ?_⟩ <;> decide +kernel

/-- The create command of that record is accepted, and one with a bit of a reserved field set is refused (R271). -/
theorem test_context_create : [record5, record5 + 64].map (fun r => match exec (.contextCreate 0 5 r) online with
    | .next t => (t.ctxs.length, t.outbox)
    | _ => (0, [])) = [(2, [.status 0 true]), (1, [.status 0 false])] := by decide +kernel

end Sys2Proof.Tests
end

section
/-! SUPPORT. Every step keeps the canonical form of memory (O45). `State.Canon` says that a state's memory has it. Each function of the machine that answers a state has one law below, under the name `Canon.<function>`: from a state that is `Canon` it leaves one that is. A proof is the chain of the laws of the functions that the definition calls, in the order of the calls, with one branch for each branch of the definition. -/

namespace Sys2Proof.Machine

open Sys2Proof

/-! ### Operations on memory -/

namespace Memory

theorem foldl_wf {α : Type} {f : Memory → α → Memory} (hf : ∀ m x, m.wf = true → (f m x).wf = true) {l : List α} {m : Memory} (h : m.wf = true) :
    (l.foldl f m).wf = true :=
  List.foldlRecOn l f h fun m hm x _ => hf m x hm

/-- Marks of lines taken away. -/
theorem filterPoisoned_wf {m : Memory} {p : Nat → Bool} (h : m.wf = true) : ({ m with poisoned := m.poisoned.filter p } : Memory).wf = true := by
  rw [wf_iff] at *
  obtain ⟨h1, h2, h3, h4, h5, h6⟩ := h
  exact ⟨h1, h2, h3, h4, rising_filter h5, h6⟩

/-- Marks of lines put. -/
theorem putPoisoned_wf {m : Memory} {xs : List Nat} (h : m.wf = true) : ({ m with poisoned := xs.foldl setPut m.poisoned } : Memory).wf = true := by
  rw [wf_iff] at *
  obtain ⟨h1, h2, h3, h4, h5, h6⟩ := h
  exact ⟨h1, h2, h3, h4, rising_foldl_setPut h5, h6⟩

/-- Bytes taken away. -/
theorem filterCells_wf {m : Memory} {p : Nat → Bool} (h : m.wf = true) : ({ m with cells := m.cells.filter fun c => p c.1 } : Memory).wf = true := by
  rw [wf_iff] at *
  obtain ⟨h1, h2, h3, h4, h5, h6⟩ := h
  refine ⟨?_, ?_, h3, h4, h5, h6⟩
  · rw [show (fun c : Host.Cell => p c.1) = p ∘ (fun c => c.1) from rfl, ← List.filter_map]
    exact rising_filter h1
  · rw [List.all_eq_true] at *
    exact fun c hc => h2 c ((List.mem_filter.mp hc).1)

/-- A cairn word written (R245). -/
theorem putCairnWord_wf {m : Memory} {a x : Nat} (h : m.wf = true) : (m.putCairn a x).wf = true := bump_wf (putBytes_wf h)

theorem markCairn_wf {m : Memory} {a : Nat} (h : m.wf = true) : (m.markCairn a).wf = true := putCairn_wf (xs := [a]) h

end Memory

namespace State

theorem keepRo_wf {s : State} {old : Memory} {ps : List (Nat × Nat)} {m : Memory} (h : m.wf = true) : (s.keepRo old ps m).wf = true :=
  (keepRo_fold s old 0 _ m h).1

theorem putBack_wf {m : Memory} {a : Nat} {bs : List Byte} (h : m.wf = true) : (putBack a bs m).wf = true :=
  Memory.filterPoisoned_wf (Memory.store_wf h)

theorem bootMemory_wf {r : ConfigRecord} : (bootMemory r).wf = true := by
  unfold bootMemory
  dsimp only
  split
  · exact Memory.empty_wf
  · exact Memory.foldl_wf (fun _ _ h => Memory.put_wf h) (Memory.foldl_wf (fun _ _ h => Memory.put_wf h) Memory.empty_wf)

theorem zeroPage_wf {s : State} {leaf e l : Nat} (h : s.mem.wf = true) : (s.zeroPage leaf e l).wf = true :=
  Memory.foldl_wf (fun _ _ hm => Memory.bump_wf hm)
    (Memory.filterCairn_wf (Memory.filterPoisoned_wf (Memory.filterCells_wf (p := fun a => !s.inPage leaf e l a) h)))

end State

/-! ### What has canonical memory -/

/-- The memory of the state is in canonical form. -/
def State.Canon (s : State) : Prop := s.mem.wf = true

/-- What an instruction that stops leaves has canonical memory. -/
def Stop.Canon : Stop → Prop
  | .trap _ => True
  | .trapIn s _ | .hold s | .gone s => s.Canon

/-- An effect answers what satisfies `P`, or stops with canonical memory. -/
def EffCanon {α : Type} (P : α → Prop) : Eff α → Prop
  | .ok a => P a
  | .error st => st.Canon

/-- If there is an answer, it satisfies `P`. -/
def OptCanon {α : Type} (P : α → Prop) : Option α → Prop
  | some a => P a
  | none => True

/-- If there is a next state, its memory is canonical. -/
def OutCanon : Out' → Prop
  | .next t => t.Canon
  | _ => True

def Fetched.Canon : Fetched → Prop
  | .stop st => st.Canon
  | _ => True

def State.Served.Canon : State.Served → Prop
  | .done t _ _ => t.Canon
  | _ => True

def State.Arrived.Canon : State.Arrived → Prop
  | .at_ _ t _ | .gone t => t.Canon
  | .nowhere => True

/-! ### Using an answer that a match has met -/

theorem EffCanon.ok {α : Type} {P : α → Prop} {x : Eff α} {a : α} (h : EffCanon P x) (e : x = .ok a) : P a := by subst e; exact h
theorem EffCanon.error {α : Type} {P : α → Prop} {x : Eff α} {st : Stop} (h : EffCanon P x) (e : x = .error st) : st.Canon := by subst e; exact h
theorem OptCanon.some {α : Type} {P : α → Prop} {x : Option α} {a : α} (h : OptCanon P x) (e : x = some a) : P a := by subst e; exact h
theorem OutCanon.next {x : Out'} {t : State} (h : OutCanon x) (e : x = .next t) : t.Canon := by subst e; exact h
theorem Fetched.Canon.stop {x : Fetched} {st : Stop} (h : x.Canon) (e : x = .stop st) : st.Canon := by subst e; exact h
theorem State.Served.Canon.done {x : State.Served} {t v b} (h : x.Canon) (e : x = .done t v b) : t.Canon := by subst e; exact h
theorem State.Arrived.Canon.at_ {x : State.Arrived} {c t b} (h : x.Canon) (e : x = .at_ c t b) : t.Canon := by subst e; exact h
theorem State.Arrived.Canon.gone {x : State.Arrived} {t} (h : x.Canon) (e : x = .gone t) : t.Canon := by subst e; exact h

/-! ### Sequences, maps and folds -/

theorem EffCanon.bind {α β : Type} {Q : α → Prop} {P : β → Prop} {x : Eff α} {f : α → Eff β} (hx : EffCanon Q x) (hf : ∀ a, Q a → EffCanon P (f a)) :
    EffCanon P (x >>= f) := by
  cases x with
  | ok a => exact hf a hx
  | error st => exact hx

theorem EffCanon.map {α β : Type} {Q : α → Prop} {P : β → Prop} {x : Eff α} {f : α → β} (hx : EffCanon Q x) (hf : ∀ a, Q a → P (f a)) :
    EffCanon P (x.map f) := by
  cases x with
  | ok a => exact hf a hx
  | error st => exact hx

theorem EffCanon.mapM {α β : Type} {f : α → Eff β} (hf : ∀ a, EffCanon (fun _ => True) (f a)) {l : List α} :
    EffCanon (fun _ => True) (l.mapM f) := by
  induction l with
  | nil => exact trivial
  | cons a l ih => rw [List.mapM_cons]; exact (hf a).bind fun _ _ => ih.bind fun _ _ => trivial

theorem EffCanon.forM {α : Type} {f : α → Eff Unit} (hf : ∀ a, EffCanon (fun _ => True) (f a)) {l : List α} :
    EffCanon (fun _ => True) (l.forM f) := by
  induction l with
  | nil => exact trivial
  | cons a l ih => exact (hf a).bind fun _ _ => ih

theorem OptCanon.bind {α β : Type} {P : β → Prop} {x : Option α} {f : α → Option β} (hf : ∀ a, OptCanon P (f a)) : OptCanon P (x.bind f) := by
  cases x with
  | some a => exact hf a
  | none => exact trivial

theorem OptCanon.map {α β : Type} {P : β → Prop} {x : Option α} {f : α → β} (hf : ∀ a, P (f a)) : OptCanon P (x.map f) := by
  cases x with
  | some a => exact hf a
  | none => exact trivial

theorem OptCanon.getD {α : Type} {P : α → Prop} {x : Option α} {d : α} (hx : OptCanon P x) (hd : P d) : P (x.getD d) := by
  cases x with
  | some a => exact hx
  | none => exact hd

theorem OptCanon.foldlM {α : Type} {f : State → α → Option State} (hf : ∀ s a, s.Canon → OptCanon State.Canon (f s a)) {l : List α} {s : State}
    (h : s.Canon) : OptCanon State.Canon (l.foldlM f s) := by
  induction l generalizing s with
  | nil => exact h
  | cons a l ih =>
    rw [List.foldlM_cons]
    cases e : f s a with
    | none => exact trivial
    | some t => exact ih ((hf s a h).some e)

namespace State

theorem Canon.foldl {α : Type} {f : State → α → State} (hf : ∀ s x, s.Canon → (f s x).Canon) {l : List α} {s : State} (h : s.Canon) :
    (l.foldl f s).Canon :=
  List.foldlRecOn l f h fun s hs x _ => hf s x hs

/-- An update of fields other than memory. -/
theorem Canon.update {s t : State} (h : s.Canon) (e : t.mem = s.mem) : t.Canon := by
  rw [Canon, e]; exact h

/-- One store, whatever other fields are updated with it. -/
theorem Canon.stored {s t : State} {ps : List (Nat × List Byte)} {c : Bool} (h : s.Canon) (e : t.mem = s.mem.store ps c) : t.Canon := by
  rw [Canon, e]; exact Memory.store_wf h

theorem Canon.storedNat {s t : State} {a n x : Nat} (h : s.Canon) (e : t.mem = s.mem.storeNat a n x) : t.Canon := h.stored e

section
variable {s t old : State}

/-! ### Machine/Lookup -/

theorem Canon.modCol {c f} (h : s.Canon) : (s.modCol c f).Canon := h
theorem Canon.modCore {c k f} (h : s.Canon) : (s.modCore c k f).Canon := h.modCol
theorem Canon.modThread {c t f} (h : s.Canon) : (s.modThread c t f).Canon := h.modCol
theorem Canon.modGroup {g f} (h : s.Canon) : (s.modGroup g f).Canon := h
theorem Canon.modImage {g f} (h : s.Canon) : (s.modImage g f).Canon := h.modGroup
theorem Canon.modTeam {t f} (h : s.Canon) : (s.modTeam t f).Canon := h
theorem Canon.modLaunch {l f} (h : s.Canon) : (s.modLaunch l f).Canon := h
theorem Canon.modCtx {n f} (h : s.Canon) : (s.modCtx n f).Canon := h
theorem Canon.modQueue {q f} (h : s.Canon) : (s.modQueue q f).Canon := h

theorem Canon.setQueue {q f} (h : s.Canon) : (s.setQueue q f).Canon := by
  unfold State.setQueue
  exact h.modQueue.stored (by dsimp only)

theorem Canon.place {i} (h : s.Canon) : (s.place i).Canon := h
theorem Canon.drop {id} (h : s.Canon) : (s.drop id).Canon := h
theorem Canon.setItem {id i} (h : s.Canon) : (s.setItem id i).Canon := h
theorem Canon.out {o} (h : s.Canon) : (s.out o).Canon := h
theorem Canon.respond {port ok} (h : s.Canon) : (s.respond port ok).Canon := (h.update (by dsimp only)).out

/-! ### Machine/Pages -/

theorem Canon.refreshRing {col} (h : s.Canon) : (refreshRing s col).Canon := h.modCol

theorem Canon.startWalk {col ctx off kind remote w} (h : s.Canon) : OptCanon Canon (startWalk s col ctx off kind remote w) := by
  unfold Machine.startWalk
  dsimp only
  split
  · exact h.modCol.refreshRing
  · exact OptCanon.map fun _ => h.modCol

/-! ### Machine/Agent -/

theorem Canon.modMe {f} (h : s.Canon) : (s.modMe f).Canon := h.modGroup

theorem Canon.modMyThread {f} (h : s.Canon) : (s.modMyThread f).Canon := by
  unfold State.modMyThread
  split
  · exact h.modThread
  · exact h

theorem Canon.modMyPath {f} (h : s.Canon) : (s.modMyPath f).Canon := h.modMe

theorem Canon.awaits {a} (h : s.Canon) : (s.awaits a).Canon := by
  unfold State.awaits
  split
  · exact h.modMyPath
  · exact h

theorem Canon.setPc {x} (h : s.Canon) : (s.setPc x).Canon := by
  unfold State.setPc
  split
  · exact h.modMyPath
  · exact h.modThread

theorem Canon.setFlags {f} (h : s.Canon) : (s.setFlags f).Canon := by
  unfold State.setFlags
  split
  · exact h.modMyPath
  · exact h.modThread

theorem Canon.setE {e} (h : s.Canon) : (s.setE e).Canon := h.setFlags

theorem Canon.setProg {p} (h : s.Canon) : (s.setProg p).Canon := by
  unfold State.setProg
  split
  · exact h.modMyPath
  · exact h.modThread

theorem Canon.putS {r x} (h : s.Canon) : (s.putS r x).Canon := by
  unfold State.putS
  split
  · exact h
  split
  · exact h.modImage
  · exact h.modThread

theorem Canon.writeS {r x} (h : s.Canon) : (s.writeS r x).Canon := h.putS
theorem Canon.emptyS {r} (h : s.Canon) : (s.emptyS r).Canon := h.putS
theorem Canon.modV {r f} (h : s.Canon) : (s.modV r f).Canon := h.modImage
theorem Canon.emptyV {r} (h : s.Canon) : (s.emptyV r).Canon := h.modV
theorem Canon.writeK {r x} (h : s.Canon) : (s.writeK r x).Canon := h.modImage
theorem Canon.writeV {r ls} (h : s.Canon) : (s.writeV r ls).Canon := h.modV

/-! ### Machine/Scratch -/

theorem Canon.scrStore {t core ps carries} (h : s.Canon) : (s.scrStore t core ps carries).Canon := by
  unfold State.scrStore
  dsimp only
  split
  · exact h.stored (by dsimp only)
  · exact h.modTeam

theorem Canon.modBuf {t core b f} (h : s.Canon) : (s.modBuf t core b f).Canon := h.modTeam
theorem Canon.bufFill {t core a n} (h : s.Canon) : (s.bufFill t core a n).Canon := Canon.foldl (fun _ _ hu => hu.modBuf) h
theorem Canon.wakeLoads {t core} (h : s.Canon) : (s.wakeLoads t core).Canon := h

theorem Canon.scrWrite {t core ps carries} (h : s.Canon) : (s.scrWrite t core ps carries).Canon :=
  Canon.wakeLoads (Canon.foldl (fun _ _ hu => hu.bufFill) h.scrStore)

theorem Canon.barWrite {t core a b} (h : s.Canon) : (s.barWrite t core a b).Canon := h.scrStore

theorem Canon.barCount {x n} (h : s.Canon) : (s.barCount x n).1.Canon := by
  unfold State.barCount
  dsimp only
  split
  · exact h
  split
  · exact h
  exact h.barWrite

theorem Canon.barFail {x flag} (h : s.Canon) : (s.barFail x flag).Canon := by
  unfold State.barFail
  dsimp only
  split
  · exact h
  · exact h.barWrite

/-! ### Machine/Homes -/

theorem Canon.storeHome {ps carries} (h : s.Canon) : (s.storeHome ps carries).Canon := storeHome_wf h
theorem Canon.l1Store {col core ps} (h : s.Canon) : (s.l1Store col core ps).Canon := h.modCore
theorem Canon.l1Put {col core line inv} (h : s.Canon) : (s.l1Put col core line inv).Canon := h.modCore

theorem Canon.l1Fill {col core line inv} (h : s.Canon) : (s.l1Fill col core line inv).Canon := by
  unfold State.l1Fill
  split
  · exact h
  · exact h.l1Put

theorem Canon.loadAt {col core bound ps inv} (h : s.Canon) : (s.loadAt col core bound ps inv).1.Canon := by
  unfold State.loadAt
  dsimp only
  exact Canon.foldl (fun _ _ ht => ht.l1Fill) h

theorem Canon.loadPieces {col core ps inv} (h : s.Canon) : (s.loadPieces col core ps inv).1.Canon := h.loadAt

theorem Canon.atomHomes {col core op w signed l} (h : s.Canon) : (s.atomHomes col core op w signed l).1.Canon := by
  induction l generalizing s with
  | nil => exact h
  | cons a l ih => exact ih h.storeHome.l1Store

theorem Canon.lateReads {l bound inv as} (h : s.Canon) : (s.lateReads l bound inv as).1.Canon := by
  induction as generalizing s with
  | nil => exact h
  | cons a as ih =>
    unfold State.lateReads
    split
    · exact ih h
    · exact ih h.loadAt

theorem Canon.lateResult {id l ps} (h : s.Canon) : (s.lateResult id l ps).Canon := by
  unfold State.lateResult
  split
  · exact h.setItem
  · exact h.drop

theorem Canon.performLate {id} (h : s.Canon) : (s.performLate id).Canon := by
  unfold State.performLate
  dsimp only
  split
  · repeat' split
    · exact h.drop.storeHome
    · exact h.drop.storeHome.l1Store
    · exact h.lateReads.lateResult
    · exact h.atomHomes.lateResult
  · exact h

theorem Canon.settle {p} (h : s.Canon) : (s.settle p).Canon := Canon.foldl (fun _ _ ht => ht.performLate) h

/-! ### Machine/Ops -/

theorem Canon.modPhases {f} (h : s.Canon) : (s.modPhases f).Canon := by
  unfold State.modPhases
  split
  · exact h.modCore
  · exact h.modThread

theorem Canon.openRelease {scope} (h : s.Canon) : OptCanon Canon (s.openRelease scope) := by
  unfold State.openRelease
  dsimp only
  split
  · trivial
  · exact h.modPhases.place

theorem Canon.dropLines (h : s.Canon) : s.dropLines.Canon := by
  unfold State.dropLines
  split
  · exact h.modCore
  · exact h

theorem Canon.acquireFrom {bound e} (h : s.Canon) : EffCanon Canon (s.acquireFrom bound e) := by
  unfold State.acquireFrom
  split
  · exact h.setProg.awaits
  · exact h.dropLines

theorem Canon.acquireE {e} (h : s.Canon) : EffCanon Canon (s.acquireE e) := by
  unfold State.acquireE
  split <;> exact h.acquireFrom.map fun _ ht => ht.setE

theorem Canon.sealAll (h : s.Canon) : s.sealAll.Canon := by
  unfold State.sealAll
  split
  · exact h.modGroup
  · exact h.modThread

theorem Canon.sealStore {g lines} (h : s.Canon) : (s.sealStore g lines).Canon := h.modGroup
theorem Canon.sealThreadStore {c t} (h : s.Canon) : (s.sealThreadStore c t).Canon := h.modThread

theorem Canon.writeStatus {q t status detail} (h : s.Canon) : (s.writeStatus q t status detail).Canon := by
  unfold State.writeStatus
  exact h.storedNat (by dsimp only)

theorem Canon.faultCtx {c} (h : s.Canon) : (s.faultCtx c).Canon := h.modCtx

theorem Canon.errQueue {q t code} (h : s.Canon) : (s.errQueue q t code).Canon := by
  unfold State.errQueue
  dsimp only
  repeat' split
  · exact h
  · exact h.faultCtx
  · exact h.setQueue.faultCtx

theorem Canon.settleQueue {q} (h : s.Canon) : (s.settleQueue q).Canon := by
  unfold State.settleQueue
  dsimp only
  split
  · exact h
  · split <;> exact h.setQueue

theorem Canon.stopLaunch {l} (h : s.Canon) : (s.stopLaunch l).Canon := by
  unfold State.stopLaunch
  exact h.settle.update (by dsimp only)

theorem Canon.finishFailed {l} (h : s.Canon) : (s.finishFailed l).Canon := by
  unfold State.finishFailed
  dsimp only
  split
  · exact h.modLaunch.writeStatus.errQueue.settleQueue
  · exact h

theorem Canon.failLaunch {l cause} (h : s.Canon) : (s.failLaunch l cause).Canon := by
  unfold State.failLaunch
  dsimp only
  split
  · exact h
  · exact h.stopLaunch.modLaunch.faultCtx.finishFailed

theorem Canon.setPage {leaf st} (h : s.Canon) : (s.setPage leaf st).Canon := by
  unfold State.setPage
  exact h.storedNat (by dsimp only)

theorem Canon.quarantine {leaf} (h : s.Canon) : (s.quarantine leaf).Canon := by
  unfold State.quarantine
  dsimp only
  split
  · exact h.setPage
  · exact h

theorem Canon.touchPage {ctx leaf} (h : s.Canon) : (s.touchPage ctx leaf).Canon := h.modCtx

theorem Canon.touchAt {ctx col off} (h : s.Canon) : (s.touchAt ctx col off).Canon := by
  unfold State.touchAt
  split
  · exact h.touchPage
  · exact h

theorem Canon.killCtx {c} (h : s.Canon) : (s.killCtx c).Canon := by
  unfold State.killCtx
  dsimp only
  split
  · exact h
  · refine Canon.foldl (fun _ _ ht => ht.finishFailed) (Canon.modCtx (Canon.foldl (fun _ _ ht => ht.quarantine) (Canon.update ?_ (by dsimp only))))
    exact Canon.foldl (fun _ _ ht => ht.setQueue) (Canon.foldl (fun _ _ ht => ht.stopLaunch.modLaunch) h)

theorem Canon.noteCause {l cause} (h : s.Canon) : (s.noteCause l cause).Canon := h.modLaunch
theorem Canon.settleAt {col core ps} (h : s.Canon) : (s.settleAt col core ps).Canon := h.settle
theorem Canon.writeFrame {r a} (h : s.Canon) : (s.writeFrame r a).Canon := (h.settleAt.touchAt.stored (by dsimp only)).l1Store
theorem Canon.stopGroup {g} (h : s.Canon) : (s.stopGroup g).Canon := h.modGroup.faultCtx

theorem Canon.awaitFrame {r} (h : s.Canon) : (s.awaitFrame r).Canon := by
  unfold State.awaitFrame
  dsimp only
  split
  · next e => exact (h.startWalk.some e).modGroup
  · exact h.modGroup

theorem Canon.enterTrap {r} (h : s.Canon) : (s.enterTrap r).Canon := by
  unfold State.enterTrap
  dsimp only
  repeat' split
  · exact h.awaitFrame
  · exact h.killCtx
  · exact h.stopGroup
  · exact h.stopGroup
  · exact h.writeFrame.stopGroup
  · exact h.writeFrame.modGroup

theorem Canon.nestedFault {r} (h : s.Canon) : (s.nestedFault r).Canon := by
  unfold State.nestedFault
  exact h.stopGroup.update (by dsimp only)

theorem Canon.deliver {r} (h : s.Canon) : (s.deliver r).Canon := by
  unfold State.deliver
  dsimp only
  split
  · exact h.noteCause.modGroup.nestedFault
  · exact h.noteCause.modGroup.enterTrap

theorem Canon.undoLine {g u} (h : s.Canon) : (s.undoLine g u).Canon := by
  have hm : ((s.mem.putBytes u.line u.bytes).bump u.line).wf = true := Memory.bump_wf (Memory.putBytes_wf h)
  refine Canon.l1Store (keepRo_wf ?_)
  split
  · exact Memory.poisonLine_wf hm
  · exact Memory.clearLine_wf hm

theorem Canon.rollback {gi cause} (h : s.Canon) : (s.rollback gi cause).Canon := by
  unfold State.rollback
  dsimp only
  split
  · exact h
  · exact Canon.modGroup (Canon.foldl (fun _ _ ht => ht.undoLine) (h.settle.update (by dsimp only)).modCore.modCore)

theorem Canon.queueLevel {r} (h : s.Canon) : (s.queueLevel r).Canon := by
  unfold State.queueLevel
  refine Canon.failLaunch ?_
  split
  · exact h.noteCause.writeFrame
  · exact h.noteCause

theorem Canon.recover {r back} (h : s.Canon) : (s.recover r back).Canon := by
  unfold State.recover
  dsimp only
  split
  · exact h.deliver
  repeat' split
  · exact h.deliver
  · exact h.queueLevel
  · exact h.queueLevel
  · exact h.rollback

theorem Canon.raise {r} (h : s.Canon) : (s.raise r).Canon := by
  unfold State.raise
  split
  · exact h.recover
  · exact h.deliver

theorem Canon.asyncCause {gi cause detail} (h : s.Canon) : (s.asyncCause gi cause detail).Canon := by
  unfold State.asyncCause
  dsimp only
  split
  · split
    · exact h.queueLevel
    · exact h
  · exact h.modGroup

theorem Canon.releaseBuffer {t core b} (h : s.Canon) : (s.releaseBuffer t core b).Canon := by
  unfold State.releaseBuffer
  dsimp only
  split
  · exact (h.update (by dsimp only)).modBuf
  split
  · exact h.modBuf
  · exact h

theorem Canon.dropXfers {ids} (h : s.Canon) : (s.dropXfers ids).Canon := h

theorem Canon.endThread {c t} (h : s.Canon) : (s.endThread c t).Canon := by
  unfold State.endThread
  split <;> exact h.modThread

theorem Canon.streamEnd {c t upto} (h : s.Canon) : (s.streamEnd c t upto).Canon :=
  Canon.endThread (Canon.foldl (fun _ _ hu => hu.releaseBuffer) (Canon.foldl (fun _ _ hu => hu.barFail) h.settle.dropXfers))

theorem Canon.streamFault {c t cause detail addr pc insn upto} (h : s.Canon) : (s.streamFault c t cause detail addr pc insn upto).Canon := by
  unfold State.streamFault
  dsimp only
  repeat' split
  · exact h
  · exact h.dropXfers.endThread
  · exact (h.touchAt.stored (by dsimp only)).streamEnd
  · exact (h.startWalk.some ‹_›).modThread
  · exact h.modThread
  · exact h.killCtx
  · exact h.streamEnd

theorem Canon.streamRecover {c t cause back detail addr pc insn} (h : s.Canon) : (s.streamRecover c t cause back detail addr pc insn).Canon := by
  unfold State.streamRecover
  dsimp only
  repeat' split
  · exact h.streamFault
  · exact h.streamFault
  · exact h.streamFault
  · exact h.modThread

/-! ### Machine/Issue -/

theorem Canon.awaitUses {f} (h : s.Canon) : (s.awaitUses f).Canon := h.awaits

theorem Canon.issueRefuses {f} (h : s.Canon) : OptCanon Stop.Canon (s.issueRefuses f) := by
  unfold State.issueRefuses
  split
  · exact h.awaitUses
  repeat' split
  · exact h.awaitUses
  · trivial
  · trivial
  · exact OptCanon.map (fun _ => trivial)

theorem Canon.strikeS {k r} (h : s.Canon) : (s.strikeS k r).Canon := h.putS
theorem Canon.strikeV {k r} (h : s.Canon) : (s.strikeV k r).Canon := h.modV

theorem Canon.injectAt {i f} (hs : s.Canon) : (old.injectAt i f s).Canon := by
  unfold State.injectAt
  dsimp only
  split
  · split
    · exact hs.modMe
    repeat' split
    · exact hs.strikeS.modMe
    · exact hs.strikeV.modMe
    · exact hs.modMe
    · exact hs.strikeV.modMe
    · exact hs.modMe
    · exact hs.modMe
    · exact hs
  · exact hs

theorem Canon.changed (h : s.Canon) : s.changed.Canon := h

theorem Canon.settleGroup {gi} (h : s.Canon) : (s.settleGroup gi).Canon := by
  unfold State.settleGroup
  dsimp only
  repeat' split
  · exact h
  · exact h.modImage.modImage.modImage
  · exact h.modImage.modImage.raise
  · exact h.modImage

theorem Canon.retire {i f} (hs : s.Canon) : (old.retire i f s).Canon := by
  unfold State.retire
  dsimp only
  repeat' split
  · exact hs.modGroup.settleGroup.changed
  · exact hs.injectAt.modGroup.settleGroup.changed
  · exact hs.modMyPath.modGroup.settleGroup.changed
  · exact hs.injectAt.modMyPath.modGroup.settleGroup.changed
  · exact hs.modThread.changed
  · exact hs.injectAt.modThread.changed

theorem Canon.fail {i f t} (h : s.Canon) : (s.fail i f t).Canon := by
  unfold State.fail
  dsimp only
  split
  · refine Canon.changed ?_
    split
    · exact h.modGroup.recover
    · exact h.modGroup.raise
  refine Canon.changed ?_
  split
  · exact h.modThread.streamRecover
  · exact h.modThread.streamFault

theorem Canon.holdAt (hs : s.Canon) : (old.holdAt s).Canon := by
  unfold State.holdAt
  dsimp only
  split
  · repeat' split
    · exact (hs.setPc.update (by dsimp only)).modMyPath.modGroup
    · exact (hs.setPc.update (by dsimp only)).modMyPath.modGroup
    · exact (hs.setPc.update (by dsimp only)).modMyPath
    · exact (hs.setPc.update (by dsimp only)).modMyPath.modGroup
    · exact (hs.setPc.update (by dsimp only)).modMyPath.modGroup
    · exact (hs.setPc.update (by dsimp only)).modMyPath
  · exact hs.setPc.update (by dsimp only)

theorem Canon.advance (h : s.Canon) : s.advance.Canon := h.setPc

theorem Canon.stopped' {i f} {st : Stop} (h : s.Canon) (hst : st.Canon) : (s.stopped' i f st).Canon :=
  match st, hst with
  | .trap _, _ => h.fail
  | .trapIn _ _, hu => hu.setPc.fail
  | .hold _, hu => hu.holdAt
  | .gone _, hu => hu.changed

theorem Canon.issue {i f} {body : State → Eff State} (h : s.Canon) (hb : ∀ t, t.Canon → EffCanon Canon (body t)) : OutCanon (State.issue i f body s) := by
  unfold State.issue
  split
  · split
    · exact h.fail
    · split
      · next st e =>
        split at e
        · exact h.stopped' (h.issueRefuses.some e)
        · cases e
      · split
        · next e => exact Canon.retire ((hb _ h.advance).ok e)
        · next e => exact h.stopped' ((hb _ h.advance).error e)
  · trivial

/-! ### Machine/Access -/

theorem Canon.mySusp {x} (h : s.Canon) : (s.mySusp x).Canon := by
  unfold State.mySusp
  split
  · exact h.modGroup
  · exact h.modThread

theorem Canon.replays (h : s.Canon) : s.replays.Canon := by
  unfold State.replays
  split
  · exact h.modGroup
  · exact h

theorem Canon.translate {off kind addr lane} (h : s.Canon) : EffCanon (fun _ => True) (s.translate off kind addr lane) := by
  unfold State.translate
  split
  · trivial
  repeat' split
  · trivial
  · trivial
  · exact (h.startWalk.some ‹_›).mySusp.replays.awaits
  · exact h.mySusp.replays.awaits

theorem Canon.translateSpan {off n kind addr lane} (h : s.Canon) : EffCanon (fun _ => True) (s.translateSpan off n kind addr lane) := by
  unfold State.translateSpan
  refine h.translate.bind fun _ _ => ?_
  dsimp only
  split
  · trivial
  · exact h.translate.bind fun _ _ => trivial

theorem Canon.checkReqs {space kind align rs} : EffCanon (fun _ => True) (s.checkReqs space kind align rs) := by
  unfold State.checkReqs
  dsimp only
  repeat' split
  all_goals trivial

theorem Canon.homes {space kind rs} (h : s.Canon) : EffCanon (fun _ => True) (s.homes space kind rs) := by
  induction rs with
  | nil => exact trivial
  | cons r rs ih => exact h.translateSpan.bind fun _ _ => ih.bind fun _ _ => trivial

theorem Canon.storeGroup {ps} (h : s.Canon) : (s.storeGroup ps).Canon := h.storeHome.l1Store.sealStore
theorem Canon.placeLate {op accs d k} (h : s.Canon) : (s.placeLate op accs d k).Canon := h.place
theorem Canon.placeResult {d ls k load} (h : s.Canon) : (s.placeResult d ls k load).Canon := h.place
theorem Canon.placeScalar {d x p k load} (h : s.Canon) : (s.placeScalar d x p k load).Canon := h.place

theorem Canon.scrTaken {ptr n a} (h : s.Canon) : EffCanon (fun _ => True) (s.scrTaken ptr n a) := by
  unfold State.scrTaken
  split
  · exact h.replays.awaits
  · split <;> trivial

theorem Canon.scrBlock {ptr n align} (h : s.Canon) : EffCanon (fun _ => True) (s.scrBlock ptr n align) := Canon.checkReqs.bind fun _ _ => h.scrTaken

theorem Canon.scrObject {ptr n align} (h : s.Canon) : EffCanon (fun _ => True) (s.scrObject ptr n align) := by
  unfold State.scrObject
  refine Canon.checkReqs.bind fun _ _ => ?_
  dsimp only
  split
  · trivial
  split
  · exact h.replays.awaits
  · exact h.scrTaken

/-! ### Machine/Operands -/

theorem Canon.mapLanes {d f} (h : s.Canon) : (s.mapLanes d f).Canon := h.writeV

theorem Canon.needs {ok rounds} : EffCanon (fun _ => True) (s.needs ok rounds) := by
  unfold State.needs
  split <;> trivial

theorem Canon.writeElems {d w ps} (h : s.Canon) : (s.writeElems d w ps).Canon := h.writeV
theorem Canon.writeBallot {d f} (h : s.Canon) : (s.writeBallot d f).Canon := h.writeK

/-! ### Machine/Memory -/

theorem Canon.scrIssue {i op accs dst lanes suspend} (h : s.Canon) : (s.scrIssue i op accs dst lanes suspend).Canon := by
  unfold State.scrIssue
  dsimp only
  split
  · exact h.place.mySusp
  · exact h.place

theorem Canon.memWidth {ok} : EffCanon (fun _ => True) (s.memWidth ok) := Canon.needs.bind fun _ _ => trivial

theorem Canon.readAll {inv xs} (h : s.Canon) : (s.readAll inv xs).1.Canon := by
  induction xs generalizing s with
  | nil => exact h
  | cons x xs ih => exact ih h.loadPieces

theorem Canon.loadV {i space align inv d rs} (h : s.Canon) : EffCanon Canon (s.loadV i space align inv d rs) := by
  unfold State.loadV
  refine Canon.checkReqs.bind fun _ _ => ?_
  dsimp only
  split
  · exact h
  split
  · exact h.emptyV.scrIssue
  refine h.homes.bind fun _ _ => ?_
  split
  · exact h.emptyV.placeLate
  · exact h.readAll.emptyV.placeResult

theorem Canon.storeOrLate {xs data} (h : s.Canon) : (s.storeOrLate xs data).Canon := by
  unfold State.storeOrLate
  dsimp only
  split
  · exact h.placeLate.sealStore
  · exact h.storeGroup

theorem Canon.storeV {i space align rs data lanes} (h : s.Canon) : EffCanon Canon (s.storeV i space align rs data lanes) := by
  unfold State.storeV
  refine Canon.checkReqs.bind fun _ _ => ?_
  split
  · exact h
  split
  · exact h.scrIssue
  · exact h.homes.bind fun _ _ => h.storeOrLate

theorem Canon.atomAll {op w signed data cmp xs} (h : s.Canon) : (s.atomAll op w signed data cmp xs).1.Canon := by
  induction xs generalizing s with
  | nil => exact h
  | cons x xs ih => exact ih h.storeGroup

theorem Canon.threadLoad {d ps} (h : s.Canon) : EffCanon Canon (s.threadLoad d ps) := by
  unfold State.threadLoad
  dsimp only
  split
  · exact h.emptyS.placeLate.mySusp
  split
  · trivial
  · exact h.emptyS.place.mySusp

theorem Canon.execVld {d a p o} (h : s.Canon) : OutCanon (execVld d a p o s) := h.issue fun _ ht => Canon.memWidth.bind fun _ _ => ht.loadV
theorem Canon.execVldi {d a p o} (h : s.Canon) : OutCanon (execVldi d a p o s) := h.issue fun _ ht => Canon.memWidth.bind fun _ _ => ht.loadV
theorem Canon.execVst {d a p o} (h : s.Canon) : OutCanon (execVst d a p o s) := h.issue fun _ ht => Canon.memWidth.bind fun _ _ => ht.storeV
theorem Canon.execVldx {d a b p sc} (h : s.Canon) : OutCanon (execVldx d a b p sc s) := h.issue fun _ ht => Canon.memWidth.bind fun _ _ => ht.loadV
theorem Canon.execVstx {d a b p sc} (h : s.Canon) : OutCanon (execVstx d a b p sc s) := h.issue fun _ ht => Canon.memWidth.bind fun _ _ => ht.storeV

theorem Canon.execSld {d a p o} (h : s.Canon) : OutCanon (execSld d a p o s) := by
  unfold Machine.execSld
  refine h.issue fun _ ht => Canon.checkReqs.bind fun _ _ => ?_
  dsimp only
  split
  · exact ht.emptyS.scrIssue
  refine ht.translateSpan.bind fun _ _ => ?_
  split
  · split
    · exact ht.emptyS.placeLate
    · exact ht.loadPieces.emptyS.placeScalar
  · exact ht.threadLoad

theorem Canon.execSst {d a p o} (h : s.Canon) : OutCanon (execSst d a p o s) := by
  unfold Machine.execSst
  refine h.issue fun _ ht => ?_
  dsimp only
  split
  · exact ht.storeV
  refine Canon.checkReqs.bind fun _ _ => ?_
  split
  · exact ht.scrIssue
  refine ht.translateSpan.bind fun _ _ => ?_
  split
  · split
    · exact ht.placeLate.sealThreadStore
    · exact ht.storeHome.sealThreadStore
  · exact ht

theorem Canon.execAtom {d a b p o} (h : s.Canon) : OutCanon (execAtom d a b p o s) := by
  unfold Machine.execAtom
  refine h.issue fun _ ht => Canon.needs.bind fun _ _ => Canon.checkReqs.bind fun _ _ => ?_
  dsimp only
  split
  · split
    · exact ht
    split
    · exact ht.emptyV.scrIssue
    refine ht.homes.bind fun _ _ => ?_
    split
    · exact ht.emptyV.placeLate.sealStore
    · exact ht.atomAll.emptyV.placeResult
  split
  · exact ht
  split
  · exact ht.emptyV.scrIssue
  refine ht.homes.bind fun _ _ => ?_
  split
  · exact ht.emptyV.placeLate.sealStore
  · exact ht.atomAll.emptyV.placeResult

/-! ### Machine/Arrive -/

theorem Canon.faultAt {g b pc einj r} (h : s.Canon) : (s.faultAt g b pc einj r).Canon := h.modGroup.raise.changed

theorem Canon.deliverResult {d ls x p} (h : s.Canon) : (s.deliverResult d ls x p).Canon := by
  unfold State.deliverResult
  dsimp only
  repeat' split
  · exact h.modImage
  · exact h.modImage
  · exact h.modImage
  · exact h.modThread.streamRecover
  · exact h.modThread
  · exact h.modThread

theorem Canon.refill {d} (h : s.Canon) : (s.refill d).Canon := by
  unfold State.refill
  split
  · exact h.modImage
  · exact h.modImage
  · exact h.modThread
  · exact h

theorem Canon.unsuspend {r} (h : s.Canon) : (s.unsuspend r).Canon := by
  unfold State.unsuspend
  split
  · exact h.modGroup
  · exact h.modThread
  · exact h

theorem Canon.countStores {r} (h : s.Canon) : (s.countStores r).Canon := by
  unfold State.countStores
  split
  · exact Canon.foldl (fun _ _ ht => ht.modGroup) h
  · exact h

theorem Canon.scrAtoms {r op signed xs} (h : s.Canon) : (s.scrAtoms r op signed xs).1.Canon := by
  induction xs generalizing s with
  | nil => exact h
  | cons x xs ih => exact ih h.scrWrite

theorem Canon.performAtom {id r op signed} (h : s.Canon) : (s.performAtom id r op signed).Canon := by
  unfold State.performAtom
  dsimp only
  split
  · exact h.scrAtoms.setItem
  · exact h.scrAtoms.drop

theorem Canon.settleAtoms {p} (h : s.Canon) : (s.settleAtoms p).Canon := by
  unfold State.settleAtoms
  refine Canon.foldl (fun _ _ ht => ?_) h
  repeat' split
  · exact ht.performAtom
  · exact ht
  · exact ht
  · exact ht

theorem Canon.performReq {id r} (h : s.Canon) : (s.performReq id r).Canon := by
  unfold State.performReq
  dsimp only
  repeat' split
  · exact h.setItem
  · exact h.setItem.unsuspend
  · exact h.drop.countStores.scrWrite.unsuspend
  · exact h.countStores.setItem.unsuspend
  · exact h.drop.modBuf.unsuspend
  · exact h.drop.modBuf.unsuspend
  · exact h.setItem
  · exact h.drop

theorem Canon.wakeMoves (h : s.Canon) : s.wakeMoves.Canon := h

theorem Canon.performItem {id} (h : s.Canon) : (s.performItem id).Canon := by
  unfold State.performItem
  dsimp only
  repeat' split
  · exact h.performLate
  · exact h
  · exact h.performAtom
  · exact h
  · exact h
  · exact h
  · exact h.drop.out.respond
  · exact h

theorem Canon.execResultArrival {id} (h : s.Canon) : OutCanon (execResultArrival id s) := by
  unfold Machine.execResultArrival
  dsimp only
  split
  · exact h.performItem.drop.deliverResult.changed
  · trivial

theorem Canon.execScratchpadArrival {id} (h : s.Canon) : OutCanon (execScratchpadArrival id s) := by
  unfold Machine.execScratchpadArrival
  dsimp only
  repeat' split
  · trivial
  · exact h.settleAtoms.performReq.changed
  · exact h.settleAtoms.drop.refill.faultAt
  · exact h.settleAtoms.drop.refill.streamFault.changed
  · trivial
  · trivial

/-! ### Machine/Links -/

theorem Canon.emit {id r} (h : s.Canon) : (s.emit id r).Canon := by
  unfold State.emit
  dsimp only
  split
  · exact h.setItem
  · exact h.setItem.out
  · exact h.setItem.out
  · exact h.setItem.out

theorem Canon.sendOne {f} (h : s.Canon) : (s.sendOne f).Canon := by
  unfold State.sendOne
  dsimp only
  repeat' split
  · exact h
  · exact h.emit
  · exact h.setItem
  · exact h

theorem Canon.sendAll (h : s.Canon) : s.sendAll.Canon := Canon.foldl (fun _ _ ht => ht.sendOne) h
theorem Canon.noteDropped {id r} (h : s.Canon) : (s.noteDropped id r).Canon := h.modCore

theorem Canon.gatherLane {g v} (h : s.Canon) : (s.gatherLane g v).Canon := by
  unfold State.gatherLane
  split
  · split <;> exact h.setItem
  · exact h

theorem Canon.rowDone {epi bar bytes} (h : s.Canon) : (s.rowDone epi bar bytes).Canon := by
  unfold State.rowDone
  repeat' split
  · exact h
  · exact h.place
  · exact h
  · exact h.place

theorem Canon.xferFault {id cause detail addr} (h : s.Canon) : (s.xferFault id cause detail addr).Canon := by
  unfold State.xferFault
  split
  · exact h.streamFault
  · exact h

theorem Canon.endRemote {id r e} (h : s.Canon) : (s.endRemote id r e).Canon := by
  unfold State.endRemote
  dsimp only
  repeat' split
  · exact h.drop.gatherLane
  · exact h.drop.noteDropped
  · exact h.drop
  · exact h.drop.rowDone
  · exact h.drop.noteDropped
  · exact h.drop.noteDropped.place
  · exact h.drop.noteDropped
  · exact h.drop.setItem
  · exact h.drop
  · exact h.drop.xferFault
  · exact h.drop.xferFault
  · exact h.drop

theorem Canon.placeRemote {r t p} (h : s.Canon) : (s.placeRemote r t p).Canon := by
  unfold State.placeRemote
  dsimp only
  repeat' split
  · exact h.place.endRemote
  · exact h.place
  · exact h.place.endRemote
  · exact h.place
  · exact h.place.endRemote
  · exact h.place

theorem Canon.releaseRemotes {rel} (h : s.Canon) : (s.releaseRemotes rel).Canon := (h.update (by dsimp only)).sendAll

/-! ### Machine/Barriers -/

theorem Canon.barAddr {i} : EffCanon (fun _ => True) (s.barAddr i) := by
  unfold State.barAddr
  split <;> trivial

theorem Canon.barCheck {b i} : EffCanon (fun _ => True) (barCheck b i) := by
  unfold State.barCheck
  split
  · trivial
  · split <;> trivial

theorem Canon.modPhaseOf {col core thread f} (h : s.Canon) : (s.modPhaseOf col core thread f).Canon := by
  unfold State.modPhaseOf
  split
  · exact h.modThread
  · exact h.modCore

theorem Canon.releaseWaiters {id e} (h : s.Canon) : (s.releaseWaiters id e).Canon := h

theorem Canon.phaseRelease {scope} {done : State → Bool → Eff State} (h : s.Canon) (hd : ∀ e, EffCanon Canon (done s e)) :
    EffCanon Canon (phaseRelease s scope done) := by
  unfold Machine.phaseRelease
  split
  · exact hd _
  · exact h.awaits
  · split
    · exact h.awaits
    · next e => exact (h.openRelease.some e).sealAll.setProg.awaits

theorem Canon.execPhase {k sc} (h : s.Canon) : OutCanon (execPhase k sc s) := by
  unfold Machine.execPhase
  refine h.issue fun _ ht => ?_
  split
  · exact ht.phaseRelease fun _ => ht.setE
  · exact ht.acquireE
  · exact ht.phaseRelease fun _ => ht.acquireE

theorem Canon.execFenceq {m} (h : s.Canon) : OutCanon (execFenceq m s) := by
  unfold Machine.execFenceq
  refine h.issue fun _ ht => ?_
  split
  · exact ht
  repeat' split
  · exact ht.acquireFrom
  · exact ht.awaits
  · exact ht.acquireFrom
  · exact ht.setProg.awaits
  · exact ht.acquireFrom

theorem Canon.execBarInit {a i} (h : s.Canon) : OutCanon (execBarInit a i s) := h.issue fun _ ht => Canon.barAddr.bind fun _ _ => ht.barWrite

theorem Canon.execBarArr {a i} (h : s.Canon) : OutCanon (execBarArr a i s) := by
  unfold Machine.execBarArr
  refine h.issue fun _ ht => Canon.barAddr.bind fun _ _ => ?_
  dsimp only
  split
  · exact ht.awaits
  · next e => exact Canon.barCheck.bind fun _ _ => (ht.openRelease.some e).sealAll.place

theorem Canon.execBarWait {p i} (h : s.Canon) : OutCanon (execBarWait p i s) := by
  unfold Machine.execBarWait
  refine h.issue fun _ ht => Canon.barAddr.bind fun _ _ => ?_
  dsimp only
  split
  · exact ht.acquireE
  repeat' split
  · trivial
  · exact ht.acquireE
  · exact ht.acquireE
  · exact ht.awaits

theorem Canon.execBarTest {d i} (h : s.Canon) : OutCanon (execBarTest d i s) :=
  h.issue fun _ ht => Canon.barAddr.bind fun _ _ => ht.emptyS.placeScalar

theorem Canon.execBarExp {a i} (h : s.Canon) : OutCanon (execBarExp a i s) :=
  h.issue fun _ ht => Canon.barAddr.bind fun _ _ => Canon.barCheck.bind fun _ _ => ht.barWrite

theorem Canon.execBufSet {k t b} (h : s.Canon) : OutCanon (execBufSet k t b s) := h.issue fun _ hu => hu.scrIssue
theorem Canon.execBufGet {d b} (h : s.Canon) : OutCanon (execBufGet d b s) := h.issue fun _ ht => ht.emptyS.scrIssue

theorem Canon.execCountdown {id} (h : s.Canon) : OutCanon (execCountdown id s) := by
  unfold Machine.execCountdown
  dsimp only
  split
  · repeat' split
    · trivial
    · exact h.drop.barCount.streamFault.changed
    · exact h.drop.barCount.changed
    · exact h.drop.barCount.changed
  · trivial

theorem Canon.execBarrierErrorEvent {id} (h : s.Canon) : OutCanon (execBarrierErrorEvent id s) := by
  unfold Machine.execBarrierErrorEvent
  split
  · exact h.drop.barFail.changed
  · trivial

theorem Canon.execReleaseComplete {id} (h : s.Canon) : OutCanon (execReleaseComplete id s) := by
  unfold Machine.execReleaseComplete
  dsimp only
  split
  · split
    · trivial
    · exact h.drop.modPhaseOf.releaseWaiters.releaseRemotes.changed
  · trivial

/-! ### Machine/Float -/

theorem Canon.setGens {gs} (h : s.Canon) : (s.setGens gs).Canon := h.modImage
theorem Canon.mapGen {d w f} (h : s.Canon) : (s.mapGen d w f).Canon := h.writeV.setGens

/-! ### Machine/Mask -/

theorem Canon.needsRed {opr} : EffCanon (fun _ => True) (s.needsRed opr) := Canon.needs

theorem Canon.clean {u ls} : EffCanon (fun _ => True) (s.clean u ls) := by
  unfold State.clean
  dsimp only
  split <;> trivial

theorem Canon.mask3 {i d a b f} (h : s.Canon) : OutCanon (mask3 i d a b f s) := h.issue fun _ ht => ht.writeK
theorem Canon.maskS {i d a f} (h : s.Canon) : OutCanon (maskS i d a f s) := h.issue fun _ ht => ht.writeS
theorem Canon.execKsmov {d a} (h : s.Canon) : OutCanon (execKsmov d a s) := h.issue fun _ ht => ht.writeK
theorem Canon.execKtest {a b} (h : s.Canon) : OutCanon (execKtest a b s) := h.issue fun _ ht => ht.setFlags
theorem Canon.execVcmpk {d a b c} (h : s.Canon) : OutCanon (execVcmpk d a b c s) := h.issue fun _ ht => Canon.needs.bind fun _ _ => ht.writeBallot

theorem Canon.execVshuf {d a b} (h : s.Canon) : OutCanon (execVshuf d a b s) :=
  h.issue fun _ ht => Canon.needs.bind fun _ _ => Canon.clean.bind fun _ _ => ht.mapLanes

theorem Canon.laneIndex {a b} : EffCanon (fun _ => True) (laneIndex t a b) := by
  unfold Machine.laneIndex
  refine Canon.needs.bind fun _ _ => ?_
  dsimp only
  split
  · exact Canon.clean.bind fun _ _ => trivial
  · trivial

theorem Canon.execVbcast {d a b} (h : s.Canon) : OutCanon (execVbcast d a b s) := h.issue fun _ ht => Canon.laneIndex.bind fun _ _ => ht.mapLanes
theorem Canon.execSlane {d a b} (h : s.Canon) : OutCanon (execSlane d a b s) := h.issue fun _ ht => Canon.laneIndex.bind fun _ _ => ht.writeS

theorem Canon.execVtbl {d a b c} (h : s.Canon) : OutCanon (execVtbl d a b c s) := by
  refine h.issue fun t ht => Canon.needs.bind fun _ _ => ?_
  dsimp only
  split
  · trivial
  · split
    · trivial
    · exact (EffCanon.forM fun _ => Canon.clean).bind fun _ _ => ht.mapLanes

theorem Canon.execVred {d a o} (h : s.Canon) : OutCanon (execVred d a o s) := h.issue fun _ ht => Canon.needsRed.bind fun _ _ => ht.setGens.writeS

theorem Canon.execVscan {d a o} (h : s.Canon) : OutCanon (execVscan d a o s) :=
  h.issue fun _ ht => Canon.needsRed.bind fun _ _ => ht.setGens.writeElems

/-! ### Machine/Fetch -/

theorem Canon.fetch (h : s.Canon) : s.fetch.Canon := by
  unfold State.fetch
  dsimp only
  repeat' split
  · trivial
  · trivial
  · exact h.translate.error ‹_›

theorem Canon.deliverAsync {g a} (h : s.Canon) : (s.deliverAsync g a).Canon := h.modGroup.raise.changed
theorem Canon.haltNow {g} (h : s.Canon) : (s.haltNow g).Canon := h.modGroup.changed

/-! ### Machine/Schedule -/

theorem Canon.tick (h : s.Canon) : s.tick.Canon := h

theorem Canon.fetchLine {c k line inv} (h : s.Canon) : (s.fetchLine c k line inv).Canon := by
  unfold State.fetchLine
  split
  · exact h.l1Put
  · exact h.l1Fill

theorem Canon.evictLine {c k line inv} (h : s.Canon) : (s.evictLine c k line inv).Canon := h.modCore

/-! ### Machine/Remote -/

theorem Canon.remoteLanes {v size} : EffCanon (fun _ => True) (s.remoteLanes v size) := by
  unfold State.remoteLanes
  dsimp only
  split
  · trivial
  · split <;> trivial

theorem Canon.sendLanes {ls make} (h : s.Canon) : (s.sendLanes ls make).Canon :=
  Canon.setE (Canon.sendAll (Canon.foldl (fun _ _ ht => ht.placeRemote) h))

theorem Canon.sendGather {d k ls make} (h : s.Canon) : (s.sendGather d k ls make).Canon := by
  unfold State.sendGather
  dsimp only
  split
  · exact h.setE
  · exact h.emptyV.place.sendLanes

theorem Canon.execRld {d a sc} (h : s.Canon) : OutCanon (execRld d a sc s) :=
  h.issue fun _ ht => Canon.remoteLanes.bind fun _ _ => ht.sealAll.sendGather

theorem Canon.execRst {d a sc} (h : s.Canon) : OutCanon (execRst d a sc s) :=
  h.issue fun _ ht => Canon.remoteLanes.bind fun _ _ => ht.sealAll.sendLanes

theorem Canon.execRred {d a o} (h : s.Canon) : OutCanon (execRred d a o s) :=
  h.issue fun _ ht => Canon.remoteLanes.bind fun _ _ => ht.sealAll.sendLanes

theorem Canon.remoteAtom {d b rel k make} (h : s.Canon) : EffCanon Canon (s.remoteAtom d b rel k make) := by
  unfold State.remoteAtom
  refine Canon.needs.bind fun _ _ => Canon.remoteLanes.bind fun _ _ => ?_
  dsimp only
  repeat' split
  · exact h.awaits
  · exact (h.sealAll.openRelease.some ‹_›).sendGather
  · exact h.sealAll.sendGather

theorem Canon.execRatom {d a b r o} (h : s.Canon) : OutCanon (execRatom d a b r o s) := h.issue fun _ ht => ht.remoteAtom
theorem Canon.execRcas {d a b r} (h : s.Canon) : OutCanon (execRcas d a b r s) := h.issue fun _ ht => ht.remoteAtom

theorem Canon.serve {k q ctx col} (h : s.Canon) : (s.serve k q ctx col).Canon := by
  unfold State.serve
  dsimp only
  repeat' split
  · trivial
  · trivial
  · exact h
  · exact h
  · exact h.storeHome
  · exact h.storeHome
  · exact h.storeHome
  · exact h.storeHome

theorem Canon.walkFor {col ctx off k q item} (h : s.Canon) : OptCanon Canon (s.walkFor col ctx off k q item) := h.startWalk

theorem Canon.ownView {r} (h : s.Canon) : (s.ownView r).Canon := by
  unfold State.ownView
  dsimp only
  split
  · exact h.modCore
  · exact h

theorem Canon.serveOwn {k q} (h : s.Canon) : OutCanon (s.serveOwn k q) := by
  unfold State.serveOwn
  dsimp only
  repeat' split
  · trivial
  · exact h.setItem.changed
  · exact (h.walkFor.some ‹_›).changed
  · trivial
  · exact (h.serve.done ‹_›).ownView.setItem.changed
  · exact (h.serve.done ‹_›).ownView.setItem.changed
  · trivial

theorem Canon.takeIn {src id} (h : s.Canon) : (s.takeIn src id).Canon := h
theorem Canon.turnAway {src pod col id} (h : s.Canon) : (s.turnAway src pod col id).Canon := (h.takeIn.update (by dsimp only)).out

theorem Canon.serveExt {k q} (h : s.Canon) : OutCanon (s.serveExt k q) := by
  unfold State.serveExt
  extract_lets held base answer
  clear_value held
  have hbase : base.Canon := by
    refine Canon.takeIn ?_
    split
    · exact h.drop
    · exact h
  have hanswer : ∀ o, OutCanon (answer o) := fun _ => hbase.out.changed
  clear_value base answer
  dsimp only
  split
  · trivial
  split
  · exact hbase.changed
  split
  · exact hanswer _
  split
  · exact hanswer _
  split
  · exact hanswer _
  split
  · exact hbase.changed
  split
  · exact hanswer _
  split
  · exact h.turnAway.changed
  split
  · exact hanswer _
  · split
    · split
      · next e => exact (h.walkFor.some e).changed
      · trivial
    · split
      · next e => exact (hbase.place.walkFor.some e).changed
      · exact h.turnAway.changed
  · next e =>
    refine Canon.changed (Canon.out (Canon.takeIn ?_))
    split
    · exact (h.serve.done e).drop
    · exact h.serve.done e

theorem Canon.brixel {k q} (h : s.Canon) : OutCanon (s.brixel k q) := by
  unfold State.brixel
  split
  · exact h.serveExt
  · exact h.serveOwn

theorem Canon.finish {id r e} (h : s.Canon) : OutCanon (s.finish id r e) := h.endRemote.sendAll.changed

theorem Canon.execDataResponse {id data} (h : s.Canon) : OutCanon (execDataResponse id data s) := by
  unfold Machine.execDataResponse
  split
  · split
    · exact h.finish
    · trivial
  · trivial

theorem Canon.execAcknowledgement {id} (h : s.Canon) : OutCanon (execAcknowledgement id s) := by
  unfold Machine.execAcknowledgement
  dsimp only
  split
  · repeat' split
    · exact h.finish
    · trivial
    · exact h.finish
    · trivial
  · trivial

theorem Canon.execRefusal {id cause} (h : s.Canon) : OutCanon (execRefusal id cause s) := by
  unfold Machine.execRefusal
  dsimp only
  split
  · repeat' split
    · exact h.finish
    · trivial
    · exact h.finish
    · trivial
  · trivial

theorem Canon.execPoison {id} (h : s.Canon) : OutCanon (execPoison id s) := by
  unfold Machine.execPoison
  split
  · repeat' split
    · exact h.finish
    · exact h.finish
    · trivial
    · exact h.finish
    · exact h.finish
    · trivial
  · trivial

theorem Canon.execRetryLater {id} (h : s.Canon) : OutCanon (execRetryLater id s) := by
  unfold Machine.execRetryLater
  dsimp only
  split
  · split
    · trivial
    · exact (h.setItem.update (by dsimp only)).changed
  · trivial

theorem Canon.execRetryBackoff {id} (h : s.Canon) : OutCanon (execRetryBackoff id s) := by
  unfold Machine.execRetryBackoff
  split
  · split
    · exact h.emit.sendAll.changed
    · trivial
  · trivial

theorem Canon.execRequestTimeout {id} (h : s.Canon) : OutCanon (execRequestTimeout id s) := by
  unfold Machine.execRequestTimeout
  split
  · split
    · exact h.finish
    · trivial
  · trivial

/-! ### Machine/Collectives -/

theorem Canon.putKey {col k} (h : s.Canon) : (s.putKey col k).Canon := h.modCol
theorem Canon.dropKey {col k} (h : s.Canon) : (s.dropKey col k).Canon := h.modCol

theorem Canon.keyError {k flag} (h : s.Canon) : (s.keyError k flag).Canon := by
  unfold State.keyError
  split
  · exact h.place
  · exact h

theorem Canon.shipFrame {col grp f} (h : s.Canon) : (s.shipFrame col grp f).Canon := by
  unfold State.shipFrame
  dsimp only
  split
  · exact h
  repeat' split
  · exact h.place
  · exact h
  · exact h
  · exact h.place.sendAll

theorem Canon.frameAtCol {f col num} (h : s.Canon) : (s.frameAtCol f col num).Canon := by
  unfold State.frameAtCol
  repeat' split
  · exact h
  · exact h.out
  · exact h.turnAway
  · exact h.takeIn.out

theorem Canon.takeFrame {f} (h : s.Canon) : (s.takeFrame f).Canon := by
  unfold State.takeFrame
  split
  · split
    · split
      · trivial
      · split <;> exact h.drop
    · trivial
  repeat' split
  · trivial
  · exact h
  · exact h.out
  · exact h.out
  · trivial
  · exact h.out
  · exact h.out
  · exact h.frameAtCol

theorem Canon.noPlace {f held} (h : s.Canon) : OutCanon (s.noPlace f held) := by
  unfold State.noPlace
  split
  · trivial
  · exact h.turnAway.changed

theorem Canon.finishKey {col k} (h : s.Canon) : (s.finishKey col k).Canon := h.shipFrame

theorem Canon.armKey {col id expect tmo rop b} (h : s.Canon) : (s.armKey col id expect tmo rop b).Canon := by
  unfold State.armKey
  dsimp only
  split
  · exact (h.update (by dsimp only)).putKey.finishKey
  · exact (h.update (by dsimp only)).putKey

theorem Canon.execRredColl {d a o} (h : s.Canon) : OutCanon (execRredColl d a o s) := by
  unfold Machine.execRredColl
  refine h.issue fun _ ht => ?_
  dsimp only
  split
  · exact ht.setE
  refine Canon.clean.bind fun _ _ => Canon.checkReqs.bind fun _ _ => ht.scrBlock.bind fun _ _ => ?_
  split
  · trivial
  refine Canon.barAddr.bind fun _ _ => ?_
  split
  · trivial
  split
  · exact ht.awaits
  · exact ht.sealAll.armKey.shipFrame.setE

theorem Canon.execHop {f} (h : s.Canon) : OutCanon (execHop f s) := by
  unfold Machine.execHop
  split
  · trivial
  repeat' split
  · exact (h.takeFrame.at_ ‹_›).shipFrame.changed
  · exact (h.takeFrame.gone ‹_›).changed
  · trivial

theorem Canon.execAcc {f} (h : s.Canon) : OutCanon (execAcc f s) := by
  unfold Machine.execAcc
  dsimp only
  split
  · trivial
  repeat' split
  · exact (h.takeFrame.gone ‹_›).changed
  · trivial
  · exact h.noPlace
  · exact (h.takeFrame.at_ ‹_›).keyError.finishKey.changed
  · exact (h.takeFrame.at_ ‹_›).keyError.changed
  · exact (h.takeFrame.at_ ‹_›).putKey.finishKey.changed
  · exact (h.takeFrame.at_ ‹_›).putKey.changed
  · exact (h.takeFrame.at_ ‹_›).putKey.finishKey.changed
  · exact (h.takeFrame.at_ ‹_›).putKey.changed

theorem Canon.deliverFrame {col k f} (h : s.Canon) : (s.deliverFrame col k f).Canon := by
  unfold State.deliverFrame
  refine Canon.shipFrame ?_
  dsimp only
  split
  · exact h.scrWrite.place.dropKey
  · exact h.keyError

theorem Canon.execDlv {f} (h : s.Canon) : OutCanon (execDlv f s) := by
  unfold Machine.execDlv
  dsimp only
  split
  · trivial
  repeat' split
  · exact (h.takeFrame.gone ‹_›).changed
  · trivial
  · exact (h.takeFrame.at_ ‹_›).deliverFrame.changed
  · trivial
  · exact (h.takeFrame.at_ ‹_›).place.changed
  · exact h.noPlace
  · exact h.putKey.changed
  · exact (h.takeFrame.at_ ‹_›).putKey.place.changed

theorem Canon.execKeyTimeout {col key} (h : s.Canon) : OutCanon (execKeyTimeout col key s) := by
  unfold Machine.execKeyTimeout
  split
  · split
    · exact h.keyError.dropKey.changed
    · trivial
  · trivial

theorem Canon.execUnarmedKeyExpiry {col key} (h : s.Canon) : OutCanon (execUnarmedKeyExpiry col key s) := by
  unfold Machine.execUnarmedKeyExpiry
  dsimp only
  split
  · split
    · trivial
    · exact (h.dropKey.update (by dsimp only)).changed
  · trivial

/-! ### Machine/Walks -/

theorem Canon.itemFault {id cause detail} (h : s.Canon) : (s.itemFault id cause detail).Canon := by
  unfold State.itemFault
  split
  · exact h.setItem
  · exact h.setItem
  · exact h.drop.out
  · exact h

theorem Canon.frameGoesOn {g r ok} (h : s.Canon) : (s.frameGoesOn g r ok).Canon := by
  unfold State.frameGoesOn
  dsimp only
  split
  · exact h.modGroup.enterTrap
  · exact h.modGroup.stopGroup

theorem Canon.threadGoesOn {col t r ok} (h : s.Canon) : (s.threadGoesOn col t r ok).Canon := by
  unfold State.threadGoesOn
  dsimp only
  split
  · exact h.modThread.streamFault
  · exact h.modThread.streamEnd

theorem Canon.wakeWaiter {col f w} (h : s.Canon) : (wakeWaiter col f s w).Canon := by
  unfold State.wakeWaiter
  repeat' split
  · exact h.frameGoesOn
  · exact h.modGroup
  · exact h.threadGoesOn
  · exact h.modThread
  · exact h.itemFault
  · exact h

theorem Canon.fillFor {col t w} (h : s.Canon) : (fillFor col t s w).Canon := by
  unfold State.fillFor
  split
  · exact h.modCore
  · exact h.modCol

theorem Canon.dropWalk {col fid} (h : s.Canon) : (s.dropWalk col fid).Canon := h.modCol
theorem Canon.putWalk {col w} (h : s.Canon) : (s.putWalk col w).Canon := h.modCol

theorem Canon.retryFrames {col} (h : s.Canon) : (s.retryFrames col).Canon := by
  unfold State.retryFrames
  refine Canon.foldl (fun _ _ ht => ?_) (Canon.foldl (fun _ _ ht => ?_) h)
  · split
    · split
      · exact ht.threadGoesOn
      · exact ht
    · exact ht
  split
  · split
    · exact ht.frameGoesOn
    · exact ht
  · exact ht

theorem Canon.postRecord {col w} (h : s.Canon) : OptCanon Canon (s.postRecord col w) := by
  unfold State.postRecord
  dsimp only
  split
  · split
    · trivial
    · exact h.putWalk.modCol.out
  · trivial

theorem Canon.freeRecord {col fid} (h : s.Canon) : (s.freeRecord col fid).Canon := h.modCol

theorem Canon.execWalkComplete {col fid} (h : s.Canon) : OutCanon (execWalkComplete col fid s) := by
  unfold Machine.execWalkComplete
  dsimp only
  split
  · trivial
  · split
    · trivial
    · split
      · exact h.killCtx.changed
      · split
        · exact Canon.changed (Canon.retryFrames (Canon.foldl (fun _ _ ht => ht.wakeWaiter) (Canon.foldl (fun _ _ ht => ht.fillFor) h.dropWalk.touchPage)))
        · exact Canon.changed (Canon.retryFrames (Canon.foldl (fun _ _ ht => ht.wakeWaiter) h.dropWalk))
      · refine Canon.changed (OptCanon.getD (Canon.postRecord ?_) ?_) <;> exact Canon.foldl (fun _ _ ht => ht.wakeWaiter) h.putWalk

theorem Canon.execFaultRecordPost {col fid} (h : s.Canon) : OutCanon (execFaultRecordPost col fid s) := by
  unfold Machine.execFaultRecordPost
  split
  · next e => exact ((OptCanon.bind (fun _ => h.postRecord)).some e).changed
  · trivial

theorem Canon.hostAct {port} {act : Out'} (ha : OutCanon act) : OutCanon (s.hostAct port act) := by
  unfold State.hostAct
  split
  · exact ha
  · trivial

theorem Canon.command {port} {act : State → Out'} (h : s.Canon) (ha : ∀ t, t.Canon → OutCanon (act t)) : OutCanon (s.command port act) := by
  unfold State.command
  split
  · exact ha _ h
  · trivial

theorem Canon.execRetry {port col fid} (h : s.Canon) : OutCanon (execRetry port col fid s) := by
  unfold Machine.execRetry
  refine h.command fun _ ht => ?_
  split
  · exact ht.freeRecord.putWalk.respond.changed
  · exact ht.respond.changed

theorem Canon.execFault {port col fid} (h : s.Canon) : OutCanon (execFault port col fid s) := by
  unfold Machine.execFault
  refine h.command fun _ ht => ?_
  dsimp only
  split
  · exact Canon.changed (Canon.respond (Canon.retryFrames (Canon.foldl (fun _ _ hu => hu.wakeWaiter) ht.freeRecord.dropWalk)))
  · exact ht.respond.changed

theorem Canon.configError {port} (h : s.Canon) : OutCanon (s.configError port) := h.respond.changed
theorem Canon.accepted {port} (h : s.Canon) : OutCanon (s.accepted port) := h.respond.changed
theorem Canon.shootColumn {ctx base npg col} (h : s.Canon) : (shootColumn ctx base npg s col).Canon := h.settle.modCol

theorem Canon.execShootdown {port block} (h : s.Canon) : OutCanon (execShootdown port block s) := by
  unfold Machine.execShootdown
  refine h.command fun _ ht => ?_
  dsimp only
  split
  · exact ht.configError
  · exact Canon.accepted (Canon.foldl (fun _ _ hu => hu.shootColumn.place) (ht.storedNat (by dsimp only)))

theorem Canon.execShootdownColumnDone {id} (h : s.Canon) : OutCanon (execShootdownColumnDone id s) := by
  unfold Machine.execShootdownColumnDone
  dsimp only
  split
  · split
    · trivial
    · exact (h.storedNat (by dsimp only)).drop.changed
  · trivial

theorem Canon.execLeafWrite {port addr entry} (h : s.Canon) : OutCanon (execLeafWrite port addr entry s) := by
  unfold Machine.execLeafWrite
  refine h.command fun _ ht => ?_
  split
  · exact ht.configError
  · exact (ht.storedNat (by dsimp only)).accepted

/-! ### Machine/Queues -/

theorem Canon.dispatch {q} (h : s.Canon) : (s.dispatch q).Canon := by
  unfold State.dispatch
  exact h.writeStatus.setQueue.update (by dsimp only)

theorem Canon.flushHead {q} (h : s.Canon) : (s.flushHead q).Canon := h.writeStatus.setQueue

theorem Canon.examine {q} (h : s.Canon) : (s.examine q).Canon := by
  unfold State.examine
  dsimp only
  split
  · exact h.modQueue.killCtx
  repeat' split
  · exact h.modQueue.flushHead
  · exact h.modQueue.dispatch
  · exact h.modQueue.setQueue
  · exact h.modQueue

theorem Canon.execQueueExamine {q} (h : s.Canon) : OutCanon (execQueueExamine q s) := by
  unfold Machine.execQueueExamine
  split
  · exact h.examine.changed
  · trivial

theorem Canon.execQueuePoll {q} (h : s.Canon) : OutCanon (execQueuePoll q s) := by
  unfold Machine.execQueuePoll
  split
  · exact h.examine.changed
  · trivial

theorem Canon.doorbells {qs} (h : s.Canon) : (s.doorbells qs).Canon := Canon.foldl (fun _ _ ht => ht.modQueue) h

theorem Canon.doorbell {port q} (h : s.Canon) : OutCanon (s.doorbell port q) := by
  unfold State.doorbell
  split
  · exact h.out.changed
  · exact h.doorbells.changed

theorem Canon.execDoorbellWrite {port q} (h : s.Canon) : OutCanon (execDoorbellWrite port q s) := Canon.hostAct h.doorbell

theorem Canon.execQueueEnable {port q} (h : s.Canon) : OutCanon (execQueueEnable port q s) := by
  unfold Machine.execQueueEnable
  refine h.command fun _ ht => ?_
  dsimp only
  split
  · exact ht.configError
  split
  · exact ht.killCtx.respond.changed
  · exact ht.setQueue.modCtx.accepted

theorem Canon.execQueueDisable {port q} (h : s.Canon) : OutCanon (execQueueDisable port q s) := by
  unfold Machine.execQueueDisable
  refine h.command fun _ ht => ?_
  split
  · exact ht.configError
  · exact ht.modQueue.settleQueue.accepted

theorem Canon.execResetQueue {port q} (h : s.Canon) : OutCanon (execResetQueue port q s) := by
  unfold Machine.execResetQueue
  refine h.command fun _ ht => ?_
  split
  · exact ht.configError
  · exact ht.setQueue.accepted

/-! ### Machine/Exchange -/

theorem Canon.modChan {t ch f} (h : s.Canon) : (s.modChan t ch f).Canon := h.modTeam

theorem Canon.xpermFinish {d set code serial source} (h : s.Canon) : EffCanon Canon (s.xpermFinish d set code serial source) := by
  unfold State.xpermFinish
  dsimp only
  repeat' split
  · exact h.modCore
  · exact h.mySusp.replays
  · exact h.mySusp.replays
  · exact h.modCore.writeV

theorem Canon.execXsend {a c} (h : s.Canon) : OutCanon (execXsend a c s) := by
  unfold Machine.execXsend
  refine h.issue fun _ ht => ?_
  dsimp only
  split
  · trivial
  repeat' split
  · trivial
  · exact ht.awaits
  · trivial
  · exact ht.sealAll.place
  · exact ht.awaits
  · exact ht.place.awaits

theorem Canon.execXrecv {d c} (h : s.Canon) : OutCanon (execXrecv d c s) := by
  unfold Machine.execXrecv
  refine h.issue fun _ ht => ?_
  dsimp only
  split
  · trivial
  split
  · exact ht.emptyV.placeResult.modChan
  · exact ht.awaits

theorem Canon.execXperm {d a sc c} (h : s.Canon) : OutCanon (execXperm d a sc c s) := by
  unfold Machine.execXperm
  refine h.issue fun _ ht => ?_
  dsimp only
  split
  · trivial
  split
  · exact ht.xpermFinish
  · exact Canon.xpermFinish (Canon.setProg (Canon.modMe (Canon.foldl (fun _ _ hu => hu.place) ht.sealAll)))

theorem Canon.execChannelGrant {team ch} (h : s.Canon) : OutCanon (execChannelGrant team ch s) := by
  unfold Machine.execChannelGrant
  dsimp only
  repeat' split
  · trivial
  · exact h.drop.modChan.changed
  · trivial
  · trivial

theorem Canon.execChannelMessageArrival {id} (h : s.Canon) : OutCanon (execChannelMessageArrival id s) := by
  unfold Machine.execChannelMessageArrival
  dsimp only
  split
  · exact h.drop.scrStore.modChan.changed
  · trivial

theorem Canon.execXpermArrival {id} (h : s.Canon) : OutCanon (execXpermArrival id s) := by
  unfold Machine.execXpermArrival
  dsimp only
  repeat' split
  · trivial
  · trivial
  · exact (h.drop.modCore.update (by dsimp only)).changed
  · trivial

/-! ### Machine/Matrix -/

theorem Canon.scrSpans {p align spans} (h : s.Canon) : EffCanon (fun _ => True) (s.scrSpans p align spans) := by
  unfold State.scrSpans
  refine Canon.checkReqs.bind fun _ _ => ?_
  split
  · trivial
  split
  · exact h.replays.awaits
  · trivial

theorem Canon.readBook {code p} (h : s.Canon) : EffCanon (fun _ => True) (s.readBook code p) := by
  unfold State.readBook
  split
  · exact h.scrObject.map fun _ _ => trivial
  · trivial

theorem Canon.goodScales {xs} : EffCanon (fun _ => True) (goodScales xs) := by
  unfold State.goodScales
  split <;> trivial

theorem Canon.cairnPages {kind spans} (h : s.Canon) : EffCanon (fun _ => True) (s.cairnPages kind spans) := by
  unfold State.cairnPages
  refine EffCanon.bind (EffCanon.mapM fun _ => ?_) fun _ _ => trivial
  exact h.translate.bind fun _ _ => trivial

theorem Canon.cairnOk {o n align} : EffCanon (fun _ => True) (s.cairnOk o n align) := by
  unfold State.cairnOk
  split <;> trivial

theorem Canon.mxAccept {c k} (h : s.Canon) : (s.mxAccept c k).Canon := h.place
theorem Canon.progOf {g b p} (h : s.Canon) : (s.progOf g b p).Canon := h.modImage
theorem Canon.latchTrap {a cause} (h : s.Canon) : (s.latchTrap a cause).Canon := h.progOf.raise
theorem Canon.leaveLatch {col core as} (h : s.Canon) : (s.leaveLatch col core as).Canon := h.modCore

theorem Canon.arriveAt {a} (h : s.Canon) : EffCanon Canon (s.arriveAt a) := by
  unfold State.arriveAt
  dsimp only
  repeat' split
  · exact h.mxAccept
  · exact h
  · exact h.modCore.setProg.awaits
  · exact Canon.foldl (fun _ _ ht => ht.latchTrap) h.modCore.leaveLatch
  · exact Canon.awaits (Canon.setProg (Canon.foldl (fun _ _ ht => ht.latchTrap) h.modCore.leaveLatch))
  · exact h.modCore.setProg.awaits
  · exact Canon.foldl (fun _ _ ht => ht.progOf) h.modCore.leaveLatch.mxAccept
  · exact Canon.changed (Canon.awaits (Canon.setProg (Canon.foldl (fun _ _ ht => ht.progOf) h.modCore.leaveLatch.mxAccept)))

theorem Canon.execMxGang {a} (h : s.Canon) : OutCanon (execMxGang a s) := by
  unfold Machine.execMxGang
  refine h.issue fun _ ht => ?_
  dsimp only
  split
  · exact ht.awaits
  split
  · trivial
  · exact ht.modMe

theorem Canon.sparseLines {b a total} : EffCanon (fun _ => True) (sparseLines s b a total) := by
  unfold Machine.sparseLines
  dsimp only
  split <;> trivial

theorem Canon.bScales {b klog} (h : s.Canon) : EffCanon (fun _ => True) (bScales s b klog) := by
  unfold Machine.bScales
  dsimp only
  split
  · exact h.scrSpans.bind fun _ _ => Canon.goodScales.bind fun _ _ => trivial
  · trivial

theorem Canon.execMxLdb {a b r} (h : s.Canon) : OutCanon (execMxLdb a b r s) := by
  unfold Machine.execMxLdb
  refine h.issue fun _ ht => ht.scrObject.bind fun _ _ => ?_
  dsimp only
  repeat' split
  · trivial
  · exact ht.readBook.bind fun _ _ => ht.readBook.bind fun _ _ => ht.scrSpans.bind fun _ _ => ht.bScales.bind fun _ _ =>
      Canon.sparseLines.bind fun _ _ => ht.mxAccept
  · exact ht.readBook.bind fun _ _ => ht.readBook.bind fun _ _ => ht.scrSpans.bind fun _ _ => ht.bScales.bind fun _ _ => ht.mxAccept

theorem Canon.readA {fb p klog book} (h : s.Canon) : EffCanon (fun _ => True) (readA s fb p klog book) := by
  unfold Machine.readA
  refine h.scrSpans.bind fun _ _ => ?_
  dsimp only
  split
  · exact h.scrSpans.bind fun _ _ => Canon.goodScales.bind fun _ _ => trivial
  · trivial

theorem Canon.execMxMm {d a b} (h : s.Canon) : OutCanon (execMxMm d a b s) := by
  unfold Machine.execMxMm
  refine h.issue fun _ ht => ?_
  dsimp only
  split
  · exact ht.awaits
  · exact ht
  refine ht.scrObject.bind fun _ _ => ?_
  repeat' split
  · trivial
  · exact ht.readBook.bind fun _ _ => ht.readBook.bind fun _ _ => trivial
  · exact ht.readBook.bind fun _ _ => ht.readBook.bind fun _ _ => trivial
  · exact ht.readBook.bind fun _ _ => ht.readBook.bind fun _ _ => Canon.cairnOk.bind fun _ _ => ht.cairnPages.bind fun _ _ =>
      ht.readA.bind fun _ _ => ht.arriveAt

theorem Canon.execMxZero {d} (h : s.Canon) : OutCanon (execMxZero d s) :=
  h.issue fun _ ht => Canon.cairnOk.bind fun _ _ => ht.cairnPages.bind fun _ _ => ht.mxAccept

theorem Canon.laneWords {o} : EffCanon (fun _ => True) (laneWords s o) := by
  unfold Machine.laneWords
  split
  · trivial
  · exact Canon.cairnOk

theorem Canon.execMxAcv {d a} (h : s.Canon) : OutCanon (execMxAcv d a s) := by
  unfold Machine.execMxAcv
  refine h.issue fun _ ht => Canon.laneWords.bind fun _ _ => ?_
  split
  · exact ht
  · exact ht.cairnPages.bind fun _ _ => ht.emptyV.mxAccept

theorem Canon.execMxVac {d a} (h : s.Canon) : OutCanon (execMxVac d a s) := by
  unfold Machine.execMxVac
  refine h.issue fun _ ht => Canon.needs.bind fun _ _ => Canon.laneWords.bind fun _ _ => ?_
  split
  · exact ht
  · exact ht.cairnPages.bind fun _ _ => ht.mxAccept

theorem Canon.execMxCsum {d a b} (h : s.Canon) : OutCanon (execMxCsum d a b s) := by
  unfold Machine.execMxCsum
  refine h.issue fun _ ht => ?_
  dsimp only
  split
  · exact ht.awaits
  split
  · trivial
  · exact Canon.cairnOk.bind fun _ _ => ht.cairnPages.bind fun _ _ => ht.mxAccept

theorem Canon.execMxLdbPerform {id} (h : s.Canon) : OutCanon (execMxLdbPerform id s) := by
  unfold Machine.execMxLdbPerform
  split
  · split
    · exact h.drop.modCore.changed
    · trivial
  · trivial

theorem Canon.jointRow {team cm fb r cols x row badRow} (h : s.Canon) : (jointRow s team cm fb r cols x row badRow).Canon := by
  refine Canon.foldl (fun t c ht => ?_) h
  dsimp only
  unfold State.Canon
  split
  · exact Memory.markCairn_wf (Memory.putCairnWord_wf ht)
  · exact Memory.putCairnWord_wf ht

theorem Canon.jointMember {team fb r cols m} (h : s.Canon) : (jointMember team fb r cols s m).Canon := Canon.foldl (fun _ _ ht => ht.jointRow) h

theorem Canon.execJointOperation {id} (h : s.Canon) : OutCanon (execJointOperation id s) := by
  unfold Machine.execJointOperation
  dsimp only
  repeat' split
  · exact Canon.changed (Canon.foldl (fun _ _ ht => ht.jointMember) h.drop)
  · exact h.drop.changed
  · trivial
  · trivial

theorem Canon.execMxZeroPerform {id} (h : s.Canon) : OutCanon (execMxZeroPerform id s) := by
  unfold Machine.execMxZeroPerform
  repeat' split
  · exact Memory.filterCairn_wf (Memory.store_wf h)
  · trivial
  · trivial

theorem Canon.execMxAcvPerform {id} (h : s.Canon) : OutCanon (execMxAcvPerform id s) := by
  unfold Machine.execMxAcvPerform
  dsimp only
  split
  · split
    · exact h.setItem.changed
    · trivial
  · trivial

theorem Canon.cairnPoisoned {m o} (h : s.Canon) : (s.cairnPoisoned m o).Canon := h.asyncCause

theorem Canon.execMxVacPerform {id} (h : s.Canon) : OutCanon (execMxVacPerform id s) := by
  unfold Machine.execMxVacPerform
  dsimp only
  repeat' split
  · exact h.drop.cairnPoisoned.changed
  · exact Memory.foldl_wf (fun _ _ hm => Memory.foldl_wf (fun _ _ hm => Memory.putCairnWord_wf hm) hm) h
  · trivial
  · trivial

theorem Canon.execMxCsumPerform {id} (h : s.Canon) : OutCanon (execMxCsumPerform id s) := by
  unfold Machine.execMxCsumPerform
  dsimp only
  repeat' split
  · exact h.drop.wakeMoves.cairnPoisoned.changed
  · exact h.drop.modImage.wakeMoves.changed
  · exact h.drop.modImage.wakeMoves.changed
  · trivial
  · trivial

theorem Canon.execGangTimeout {grp slot} (h : s.Canon) : OutCanon (execGangTimeout grp slot s) := by
  unfold Machine.execGangTimeout
  dsimp only
  split
  · trivial
  split
  · trivial
  · exact h.leaveLatch.leaveLatch.latchTrap.changed

/-! ### Machine/Control -/

theorem Canon.goto {t} (h : s.Canon) : EffCanon Canon (s.goto t) := by
  unfold State.goto
  split
  · trivial
  split
  · trivial
  · exact h.setPc

theorem Canon.unprivileged : EffCanon (fun _ => True) s.unprivileged := by
  unfold State.unprivileged
  split <;> trivial

theorem Canon.splitBody {k x} (h : s.Canon) : EffCanon Canon (splitBody k x s) := by
  unfold Machine.splitBody
  refine Canon.unprivileged.bind fun _ _ => ?_
  dsimp only
  split
  · exact h
  repeat' split
  · exact h.goto
  · exact h.goto.bind fun _ _ => trivial
  · exact h.goto.bind fun _ _ => h.modMyPath.modMe

theorem Canon.jarmBody {d a} (h : s.Canon) : EffCanon Canon (jarmBody d a s) := Canon.unprivileged.bind fun _ _ => h.modMe

theorem Canon.joinBody {d} (h : s.Canon) : EffCanon Canon (joinBody d s) := by
  unfold Machine.joinBody
  refine Canon.unprivileged.bind fun _ _ => ?_
  dsimp only
  split <;> exact h.modMe.modMyPath

theorem Canon.endTeam {t} (h : s.Canon) : (s.endTeam t).Canon := by
  unfold State.endTeam
  dsimp only
  split
  · split
    · exact h.modTeam.modLaunch
    · exact h.modTeam
  · exact h

theorem Canon.exitBody (h : s.Canon) : EffCanon Canon (exitBody s) := by
  unfold Machine.exitBody
  refine Canon.unprivileged.bind fun _ _ => ?_
  dsimp only
  split
  · exact h.modMe.modMe.endTeam
  · exact h.modMe

theorem Canon.execNop (h : s.Canon) : OutCanon (execNop s) := h.issue fun _ ht => ht
theorem Canon.execBr {x} (h : s.Canon) : OutCanon (execBr x s) := h.issue fun _ ht => ht.goto

theorem Canon.execBc {c x} (h : s.Canon) : OutCanon (execBc c x s) := by
  unfold Machine.execBc
  refine h.issue fun _ ht => ?_
  split
  · exact ht.goto
  · exact ht

theorem Canon.execBk {t k x} (h : s.Canon) : OutCanon (execBk t k x s) := by
  unfold Machine.execBk
  refine h.issue fun _ hu => ?_
  dsimp only
  repeat' split
  · exact hu.goto
  · exact hu
  · exact hu.goto
  · exact hu
  · exact hu.goto
  · exact hu

theorem Canon.execCall {x} (h : s.Canon) : OutCanon (execCall x s) := h.issue fun _ ht => ht.goto.map fun _ hu => hu.writeS
theorem Canon.execRet {a} (h : s.Canon) : OutCanon (execRet a s) := h.issue fun _ ht => ht.goto
theorem Canon.execJmp {a} (h : s.Canon) : OutCanon (execJmp a s) := h.issue fun _ ht => ht.goto
theorem Canon.execSplit {k x} (h : s.Canon) : OutCanon (execSplit k x s) := h.issue fun _ ht => ht.splitBody
theorem Canon.execJarm {d a} (h : s.Canon) : OutCanon (execJarm d a s) := h.issue fun _ ht => ht.jarmBody
theorem Canon.execJoin {d} (h : s.Canon) : OutCanon (execJoin d s) := h.issue fun _ ht => ht.joinBody
theorem Canon.execExit (h : s.Canon) : OutCanon (execExit s) := h.issue fun _ ht => ht.exitBody
theorem Canon.execSetmode {i} (h : s.Canon) : OutCanon (execSetmode i s) := h.issue fun _ ht => ht.modMe

/-! ### Machine/Streams -/

theorem Canon.programEntry {n} (h : s.Canon) : EffCanon (fun _ => True) (s.programEntry n) := by
  unfold State.programEntry
  dsimp only
  split
  · trivial
  refine h.translate.bind fun _ _ => ?_
  split
  · trivial
  refine h.translate.bind fun _ _ => ?_
  split <;> trivial

theorem Canon.execStk {c a p} (h : s.Canon) : OutCanon (execStk c a p s) := by
  unfold Machine.execStk
  refine h.issue fun _ ht => ?_
  dsimp only
  split
  · exact ht
  refine Canon.checkReqs.bind fun _ _ => ht.scrBlock.bind fun _ _ => ht.programEntry.bind fun _ _ => ?_
  split
  · trivial
  repeat' split
  · exact ht.awaits
  · exact ht.awaits
  · exact (ht.openRelease.some ‹_›).place.mySusp

theorem Canon.acceptKick {k col} (h : s.Canon) : (s.acceptKick k col).Canon :=
  Canon.modGroup (Canon.modCore (Canon.foldl (fun _ _ ht => ht.modBuf) (Canon.foldl (fun _ _ ht => ht.modBuf) h)))

theorem Canon.execTransitionPoint {id} (h : s.Canon) : OutCanon (execTransitionPoint id s) := by
  unfold Machine.execTransitionPoint
  dsimp only
  repeat' split
  · trivial
  · exact h.drop.settleAtoms.faultAt
  · exact h.drop.settleAtoms.acceptKick.changed
  · trivial

theorem Canon.settleCredits {col picked cs} (h : s.Canon) : (s.settleCredits col picked cs).Canon := Canon.foldl (fun _ _ ht => ht.modCore) h
theorem Canon.ownBuffers {k col t} (h : s.Canon) : (s.ownBuffers k col t).Canon := Canon.foldl (fun _ _ hu => hu.modBuf) h

theorem Canon.execKickStart {col} (h : s.Canon) : OutCanon (execKickStart col s) := by
  unfold Machine.execKickStart
  dsimp only
  split
  · split
    · trivial
    · exact h.settleCredits.modCore.modThread.ownBuffers.changed
  · trivial

theorem Canon.endDrains {k} (h : s.Canon) : (s.endDrains k).Canon := Canon.foldl (fun _ _ ht => ht.modBuf) h

theorem Canon.execKickEnd {col thr} (h : s.Canon) : OutCanon (execKickEnd col thr s) := by
  unfold Machine.execKickEnd
  dsimp only
  repeat' split
  · trivial
  · exact h.settle.modThread.endDrains.streamFault.changed
  · exact h.settle.modThread.endDrains.modThread.changed
  · trivial

theorem Canon.execStreamRollback {col thr} (h : s.Canon) : OutCanon (execStreamRollback col thr s) := by
  unfold Machine.execStreamRollback
  dsimp only
  repeat' split
  · trivial
  · exact h.streamFault.changed
  · exact h.modThread.changed
  · trivial

theorem Canon.setRec {n x} (h : s.Canon) : (s.setRec n x).Canon := h.modMyThread

theorem Canon.validSlot {n} : EffCanon (fun _ => True) (s.validSlot n) := by
  unfold State.validSlot
  split <;> trivial

theorem Canon.readRecord {space r} (h : s.Canon) : EffCanon (fun _ => True) (s.readRecord space r) := by
  unfold State.readRecord
  refine Canon.checkReqs.bind fun _ _ => ?_
  dsimp only
  split
  · exact h.scrObject.bind fun _ _ => trivial
  refine h.translateSpan.bind fun _ _ => ?_
  split <;> trivial

theorem Canon.execTlrec {l a p o} (h : s.Canon) : OutCanon (execTlrec l a p o s) := by
  unfold Machine.execTlrec
  refine h.issue fun _ ht => ht.readRecord.bind fun _ _ => ?_
  split
  · trivial
  · exact ht.setRec

theorem Canon.execTaddr {d a m l o} (h : s.Canon) : OutCanon (execTaddr d a m l o s) := by
  unfold Machine.execTaddr
  refine h.issue fun _ ht => Canon.validSlot.bind fun _ _ => ?_
  dsimp only
  split
  · trivial
  · exact ht.setRec.writeS

theorem Canon.baseCheck {ws d} : EffCanon (fun _ => True) (s.baseCheck ws d) := by
  unfold State.baseCheck
  split
  · trivial
  · split <;> trivial

theorem Canon.startXfer {i kind d a b} (h : s.Canon) : EffCanon Canon (s.startXfer i kind d a b) := by
  unfold State.startXfer
  split
  · exact h
  refine Canon.validSlot.bind fun dst _ => Canon.validSlot.bind fun src _ => ?_
  extract_lets start
  have hstart : ∀ idx, EffCanon Canon (start idx) := by
    intro idx
    dsimp only [start]
    split
    · trivial
    refine Canon.baseCheck.bind fun _ _ => ?_
    split
    · exact h.settle.place
    · exact h
  clear_value start
  cases b with
  | some n => exact Canon.validSlot.bind fun idx _ => hstart idx
  | none => exact hstart RecSlot.invalid

theorem Canon.execTcopy {d a} (h : s.Canon) : OutCanon (execTcopy d a s) := h.issue fun _ ht => ht.startXfer
theorem Canon.execTgath {d a b m} (h : s.Canon) : OutCanon (execTgath d a b m s) := h.issue fun _ ht => ht.startXfer
theorem Canon.execTscat {d a b m} (h : s.Canon) : OutCanon (execTscat d a b m s) := h.issue fun _ ht => ht.startXfer
theorem Canon.execTred {d a o} (h : s.Canon) : OutCanon (execTred d a o s) := h.issue fun _ ht => ht.startXfer
theorem Canon.execTmcast {d a b} (h : s.Canon) : OutCanon (execTmcast d a b s) := h.issue fun _ ht => ht.startXfer

theorem Canon.execTarr {i} (h : s.Canon) : OutCanon (execTarr i s) := by
  unfold Machine.execTarr
  refine h.issue fun _ ht => Canon.barAddr.bind fun _ _ => ?_
  dsimp only
  split
  · trivial
  · exact ht.modMyThread

theorem Canon.execTarrNone (h : s.Canon) : OutCanon (execTarrNone s) := h.issue fun _ ht => ht.modMyThread

theorem Canon.execTwait {p i} (h : s.Canon) : OutCanon (execTwait p i s) := by
  unfold Machine.execTwait
  refine h.issue fun _ ht => Canon.barAddr.bind fun _ _ => ?_
  dsimp only
  split
  · exact ht.acquireFrom
  repeat' split
  · trivial
  · trivial
  · exact ht.acquireFrom
  · exact ht

theorem Canon.execTwaitDrain (h : s.Canon) : OutCanon (execTwaitDrain s) := by
  unfold Machine.execTwaitDrain
  refine h.issue fun _ ht => ?_
  split <;> exact ht

theorem Canon.execTloop {c x} (h : s.Canon) : OutCanon (execTloop c x s) := by
  unfold Machine.execTloop
  refine h.issue fun _ ht => ?_
  dsimp only
  split
  · exact ht.writeS
  · exact ht.goto.bind fun _ hu => hu.writeS

theorem Canon.execTexit (h : s.Canon) : OutCanon (execTexit s) := h.issue fun _ ht => ht.modMyThread

/-! ### Machine/Launches -/

theorem Canon.endLaunch {l st status detail} (h : s.Canon) : (s.endLaunch l st status detail).Canon := by
  unfold State.endLaunch
  refine Canon.settleQueue ?_
  split
  · exact h.modLaunch.writeStatus.errQueue
  · exact h.modLaunch.writeStatus

theorem Canon.launchError {l reason} (h : s.Canon) : (s.launchError l reason).Canon := h.endLaunch

theorem Canon.touchRead {ctx col p n} (h : s.Canon) : (s.touchRead ctx col p n).Canon := by
  unfold State.touchRead
  dsimp only
  split
  · exact h
  · exact h.touchAt.touchAt

theorem Canon.touchTables {l g} (h : s.Canon) : (s.touchTables l g).Canon := by
  unfold State.touchTables
  refine Canon.foldl (fun _ _ ht => ht.touchRead.touchRead.touchRead) ?_
  split
  · exact h.touchRead
  · exact h

theorem Canon.admitLaunch {l} (h : s.Canon) : (s.admitLaunch l).Canon := by
  unfold State.admitLaunch
  dsimp only
  repeat' split
  · exact h.launchError
  · exact h.killCtx
  · exact h.launchError
  · exact h.launchError
  · exact h.endLaunch
  · exact h.killCtx
  · exact h.launchError
  · exact h.touchTables.launchError
  · exact h.touchTables.launchError
  · exact h.touchTables.modLaunch

theorem Canon.execLaunchAdmission {l} (h : s.Canon) : OutCanon (execLaunchAdmission l s) := by
  unfold Machine.execLaunchAdmission
  dsimp only
  split
  · trivial
  repeat' split
  · exact h.launchError.changed
  · trivial
  · exact h.endLaunch.changed
  · exact h.admitLaunch.changed

theorem Canon.addGroup {g} (h : s.Canon) : (s.addGroup g).Canon := by
  unfold State.addGroup
  split <;> exact h

theorem Canon.writeBackCairn {t} (h : s.Canon) : (s.writeBackCairn t).Canon := h.modTeam
theorem Canon.clearL1 {col ks} (h : s.Canon) : (s.clearL1 col ks).Canon := Canon.foldl (fun _ _ ht => ht.modCore) h
theorem Canon.touchImages {l} (h : s.Canon) : (s.touchImages l).Canon := Canon.foldl (fun _ _ ht => Canon.foldl (fun _ _ hu => hu.touchPage) ht) h

theorem Canon.writeImages {l} (h : s.Canon) : OptCanon Canon (s.writeImages l) := by
  unfold State.writeImages
  split
  · exact h
  · exact OptCanon.map fun _ => Canon.foldl (fun _ _ ht => ht.storeHome) h.touchImages.modLaunch

theorem Canon.touchStack {ctx col seg} (h : s.Canon) : (s.touchStack ctx col seg).Canon := Canon.foldl (fun _ _ ht => ht.touchPage) h

theorem Canon.placeTeam {l c core scr cairn} (h : s.Canon) : (s.placeTeam l c core scr cairn).Canon :=
  Canon.settleQueue (Canon.modLaunch (Canon.touchStack (Canon.clearL1 (Canon.foldl (fun _ _ ht => Canon.foldl (fun _ _ hu =>
    hu.scrStore) ht) (Canon.foldl (fun _ _ ht => ht.addGroup) ((Canon.foldl (fun _ _ ht => ht.writeBackCairn) h).update (by dsimp only)))))))

theorem Canon.placeAll {l} (h : s.Canon) : OptCanon Canon (s.placeAll l) := OptCanon.foldlM (fun _ _ ht => OptCanon.map (fun _ => ht.placeTeam)) h

theorem Canon.execTeamPlacement {l col} (h : s.Canon) : OutCanon (execTeamPlacement l col s) := by
  unfold Machine.execTeamPlacement
  dsimp only
  repeat' split
  · trivial
  · exact h.stopLaunch.launchError.changed
  · exact h.killCtx.changed
  · trivial
  · exact ((h.writeImages.some ‹_›).placeAll.some ‹_›).changed
  · trivial
  · exact (h.writeImages.some ‹_›).placeTeam.changed
  · trivial

theorem Canon.execLaunchComplete {l} (h : s.Canon) : OutCanon (execLaunchComplete l s) := by
  unfold Machine.execLaunchComplete
  dsimp only
  repeat' split
  · exact h.finishFailed.changed
  · trivial
  · trivial
  · exact (h.update (by dsimp only)).endLaunch.changed

theorem Canon.writeStack {g} (h : s.Canon) : (s.writeStack g).Canon := by
  unfold State.writeStack
  split
  · exact Canon.touchAt (Canon.foldl (fun _ _ ht => ht.stored (by dsimp only)) h)
  · exact h

theorem Canon.saveTeam {id} (h : s.Canon) : (s.saveTeam id).Canon :=
  Canon.modCore (Canon.modTeam (Canon.foldl (fun _ _ ht => ht.writeStack) h.settle))

theorem Canon.restoreTeam {id} (h : s.Canon) : (s.restoreTeam id).Canon := by
  unfold State.restoreTeam
  extract_lets t cleared scr marked cairn mem restored resident
  have hcleared : cleared.Canon := Canon.foldl (fun _ _ ht => by
    split
    · exact ht
    · exact ht.writeBackCairn) h
  have hscr : scr.wf = true := Memory.foldl_wf (fun _ _ hm => putBack_wf hm) hcleared
  have hmarked : marked.wf = true := Memory.putPoisoned_wf hscr
  have hcairn : cairn.wf = true := Memory.foldl_wf (fun _ _ hm => Memory.filterCairn_wf (putBack_wf hm)) hmarked
  have hmem : restored.Canon := by
    show mem.wf = true
    unfold mem
    split
    · exact hmarked
    · exact Memory.putCairn_wf hcairn
  split
  · exact hmem.modTeam
  · exact hmem.modTeam.modCore

theorem Canon.execTeamSwap {team} (h : s.Canon) : OutCanon (execTeamSwap team s) := by
  unfold Machine.execTeamSwap
  dsimp only
  split
  · trivial
  · exact (h.saveTeam.modTeam.update (by dsimp only)).changed

theorem Canon.execTeamReadmit {team} (h : s.Canon) : OutCanon (execTeamReadmit team s) := by
  unfold Machine.execTeamReadmit
  dsimp only
  split
  · trivial
  repeat' split
  · exact h.modTeam.changed
  · trivial
  · exact h.restoreTeam.changed
  · trivial

theorem Canon.execRidge {port col cores} (h : s.Canon) : OutCanon (execRidge port col cores s) := by
  unfold Machine.execRidge
  refine h.command fun _ ht => ?_
  split
  · exact ht.configError
  · exact ht.modCol.accepted

/-! ### Machine/Contexts -/

theorem Canon.execContextCreate {port n record} (h : s.Canon) : OutCanon (execContextCreate port n record s) := by
  unfold Machine.execContextCreate
  refine h.command fun _ ht => ?_
  dsimp only
  split
  · exact (ht.update (by dsimp only)).configError
  · exact (ht.update (by dsimp only)).accepted

theorem Canon.execContextDestroy {port ctx} (h : s.Canon) : OutCanon (execContextDestroy port ctx s) := by
  unfold Machine.execContextDestroy
  refine h.command fun _ ht => ?_
  split
  · exact ht.configError
  · exact (ht.update (by dsimp only)).accepted

theorem Canon.execKill {port ctx} (h : s.Canon) : OutCanon (execKill port ctx s) := by
  unfold Machine.execKill
  refine h.command fun _ ht => ?_
  split
  · exact ht.configError
  · exact ht.killCtx.accepted

theorem Canon.execAcknowledge {port ctx} (h : s.Canon) : OutCanon (execAcknowledge port ctx s) := by
  unfold Machine.execAcknowledge
  refine h.command fun _ ht => ?_
  split
  · exact ht.configError
  · exact ht.modCtx.accepted

theorem Canon.execQuantumExpiry {ctx} (h : s.Canon) : OutCanon (execQuantumExpiry ctx s) := by
  unfold Machine.execQuantumExpiry
  split
  · exact h.modCtx.changed
  · trivial

theorem Canon.reown {col old new} (h : s.Canon) : (s.reown col old new).Canon := h
theorem Canon.saveThread {c p} (h : s.Canon) : (saveThread c s p).Canon := h.reown.modCtx.modThread
theorem Canon.flipLatches {c} (h : s.Canon) : (s.flipLatches c).Canon := h
theorem Canon.setOut {ts o} (h : s.Canon) : (s.setOut ts o).Canon := h

theorem Canon.execPreemptionComplete {ctx} (h : s.Canon) : OutCanon (execPreemptionComplete ctx s) := by
  unfold Machine.execPreemptionComplete
  dsimp only
  split
  · trivial
  · exact Canon.changed (Canon.modCtx (Canon.flipLatches (Canon.setOut (Canon.foldl (fun _ _ ht => ht.saveTeam) (Canon.foldl (fun _ _ ht =>
      ht.saveThread) h)))))

theorem Canon.restoreAll {ts} (h : s.Canon) : OptCanon Canon (s.restoreAll ts) := by
  unfold State.restoreAll
  refine OptCanon.foldlM (fun _ _ ht => ?_) h
  split
  · exact ht.restoreTeam
  · trivial

theorem Canon.resumeThread {x} (h : s.Canon) : OptCanon Canon (s.resumeThread x) := OptCanon.map fun _ => h.reown.modThread

theorem Canon.execContextResume {ctx} (h : s.Canon) : OutCanon (execContextResume ctx s) := by
  unfold Machine.execContextResume
  dsimp only
  split
  · trivial
  repeat' split
  · trivial
  · trivial
  · exact ((OptCanon.foldlM (fun _ _ ht => ht.resumeThread) (h.restoreAll.some ‹_›)).some ‹_›).setOut.flipLatches.modCtx.changed

theorem Canon.execContextQuarantine {ctx} (h : s.Canon) : OutCanon (execContextQuarantine ctx s) := by
  unfold Machine.execContextQuarantine
  split
  · trivial
  · exact h.modCtx.changed

theorem Canon.semRead {agent n} (h : s.Canon) : (s.semRead agent n).Canon := by
  unfold State.semRead
  dsimp only
  split
  · exact (h.update (by dsimp only)).out
  · exact h.out

theorem Canon.semWrite {agent n} (h : s.Canon) : (s.semWrite agent n).Canon := by
  unfold State.semWrite
  split <;> exact h

theorem Canon.semDo {agent n write} (h : s.Canon) : (s.semDo agent n write).Canon := by
  unfold State.semDo
  split
  · exact h.semWrite
  · exact h.semRead

theorem Canon.semAccess {agent n write meets} (h : s.Canon) : OutCanon (s.semAccess agent n write meets) := by
  unfold State.semAccess
  dsimp only
  split
  · trivial
  repeat' split
  · exact h.semDo.changed
  · trivial
  · exact (h.semDo.semDo.update (by dsimp only)).changed
  · exact (h.semDo.semDo.update (by dsimp only)).changed

/-! ### Machine/Ports -/

theorem Canon.loseRequest {p id} (h : s.Canon) : (loseRequest p s id).Canon := by
  unfold State.loseRequest
  split
  · split
    · exact h.endRemote
    · exact h
  · exact h

theorem Canon.loseKey {p col k} (h : s.Canon) : (loseKey p col s k).Canon := by
  unfold State.loseKey
  split
  · exact h.keyError.dropKey
  · exact h

theorem Canon.loseMembers {lost registered} (h : s.Canon) : (s.loseMembers lost registered).Canon :=
  Canon.sendAll (Canon.foldl (fun _ _ ht => Canon.foldl (fun _ _ hu => hu.loseKey) ht) (Canon.foldl (fun _ _ ht => ht.loseRequest) h))

theorem Canon.loseMember {m} (h : s.Canon) : (s.loseMember m).Canon := (h.update (by dsimp only)).loseMembers

theorem Canon.checkPorts (h : s.Canon) : s.checkPorts.Canon := by
  unfold State.checkPorts
  split
  · exact h
  · exact (h.update (by dsimp only)).loseMembers

theorem Canon.leavePort {p id} (h : s.Canon) : (leavePort p s id).Canon := by
  unfold State.leavePort
  split
  · repeat' split
    · exact h
    · exact h.setItem
    · exact h.emit
    · exact h.endRemote
  · exact h

theorem Canon.joinPort {id} (h : s.Canon) : (s.joinPort id).Canon := by
  unfold State.joinPort
  split
  · split
    · exact h.emit
    · exact h
  · exact h

theorem Canon.freeSems {p} (h : s.Canon) : (s.freeSems p).Canon := h

theorem Canon.setPort {p x} (h : s.Canon) : (s.setPort p x).Canon := by
  unfold State.setPort
  refine Canon.checkPorts ?_
  repeat' split
  · exact Canon.foldl (fun _ _ ht => ht.joinPort) (h.update (by dsimp only)).freeSems
  · exact Canon.sendAll (Canon.foldl (fun _ _ ht => ht.leavePort) (h.update (by dsimp only)).freeSems)
  · exact (h.update (by dsimp only)).freeSems
  · exact Canon.foldl (fun _ _ ht => ht.joinPort) (h.update (by dsimp only))
  · exact Canon.sendAll (Canon.foldl (fun _ _ ht => ht.leavePort) (h.update (by dsimp only)))
  · exact h

theorem Canon.execPortEnable {port link} (h : s.Canon) : OutCanon (execPortEnable port link s) := by
  unfold Machine.execPortEnable
  split
  · split
    · trivial
    · exact h.setPort.changed
  · exact h.command fun _ ht => ht.configError

theorem Canon.execIsolate {port link} (h : s.Canon) : OutCanon (execIsolate port link s) := by
  unfold Machine.execIsolate
  refine h.command fun _ ht => ?_
  split
  · exact ht.configError
  · exact ht.setPort.accepted

theorem Canon.execRestore {port link} (h : s.Canon) : OutCanon (execRestore port link s) := by
  unfold Machine.execRestore
  refine h.command fun _ ht => ?_
  split
  · exact ht.configError
  · exact ht.setPort.accepted

theorem Canon.execReAdmit {port member} (h : s.Canon) : OutCanon (execReAdmit port member s) := by
  unfold Machine.execReAdmit
  refine h.command fun _ ht => ?_
  split
  · exact ht.configError
  · exact (ht.update (by dsimp only)).accepted

theorem Canon.execMemberNumber {port value} (h : s.Canon) : OutCanon (execMemberNumber port value s) := by
  unfold Machine.execMemberNumber
  refine h.command fun _ ht => ?_
  split
  · exact ht.configError
  · exact (ht.update (by dsimp only)).sendAll.accepted

theorem Canon.execHostWindows {port larnar hostdev windows} (h : s.Canon) : OutCanon (execHostWindows port larnar hostdev windows s) := by
  unfold Machine.execHostWindows
  refine h.command fun _ ht => ?_
  split
  · exact ht.configError
  · exact (ht.update (by dsimp only)).accepted

theorem Canon.execTraining {link result} (h : s.Canon) : OutCanon (execTraining link result s) := by
  unfold Machine.execTraining
  split
  · trivial
  · exact h.setPort.changed

theorem Canon.execLaneFail {link} (h : s.Canon) : OutCanon (execLaneFail link s) := by
  unfold Machine.execLaneFail
  split
  · trivial
  · exact h.setPort.changed

theorem Canon.execReplayLimit {link} (h : s.Canon) : OutCanon (execReplayLimit link s) := by
  unfold Machine.execReplayLimit
  split
  · trivial
  · exact h.setPort.changed

theorem Canon.execPeerSilence {link} (h : s.Canon) : OutCanon (execPeerSilence link s) := by
  unfold Machine.execPeerSilence
  split
  · trivial
  · exact h.setPort.changed

theorem Canon.execLarnarLinkDown {port} (h : s.Canon) : OutCanon (execLarnarLinkDown port s) := by
  unfold Machine.execLarnarLinkDown
  split
  · trivial
  · exact h.setPort.changed

theorem Canon.execLossNotice {member} (h : s.Canon) : OutCanon (execLossNotice member s) := by
  unfold Machine.execLossNotice
  split
  · trivial
  · exact h.loseMember.changed

theorem Canon.hostFails {port} (h : s.Canon) : OutCanon (s.hostFails port) := h.out.changed

theorem Canon.hostAtomic {port addr f} (h : s.Canon) : OutCanon (s.hostAtomic port addr f) := by
  unfold State.hostAtomic
  refine Canon.hostAct ?_
  dsimp only
  split
  · exact h.hostFails
  · exact h.storeHome.out.changed

theorem Canon.mailRead {port i n} (h : s.Canon) : (s.mailRead port i n).Canon := by
  unfold State.mailRead
  refine Canon.out ?_
  split <;> exact h

theorem Canon.mailWrite {port i bytes} (h : s.Canon) : (s.mailWrite port i bytes).Canon := by
  unfold State.mailWrite
  dsimp only
  split <;> exact h

theorem Canon.execHostRead {port addr n} (h : s.Canon) : OutCanon (execHostRead port addr n s) := by
  unfold Machine.execHostRead
  repeat' split
  · trivial
  · exact h.mailRead.changed
  · exact h.hostFails
  · exact h.semAccess
  · exact h.out.changed
  · exact h.hostFails

theorem Canon.execHostWrite {port addr bytes} (h : s.Canon) : OutCanon (execHostWrite port addr bytes s) := by
  unfold Machine.execHostWrite
  refine Canon.hostAct ?_
  split
  · exact h.storeHome.changed
  repeat' split
  · exact h.doorbells.changed
  · exact h.semAccess
  · exact h.mailWrite.changed
  · exact h.hostFails

theorem Canon.execQueuePairCreate {port qp doorbell} (h : s.Canon) : OutCanon (execQueuePairCreate port qp doorbell s) := by
  unfold Machine.execQueuePairCreate
  refine h.command fun _ ht => ?_
  split
  · exact ht.configError
  · exact (ht.update (by dsimp only)).accepted

theorem Canon.execEthernetDoorbellPoll (h : s.Canon) : OutCanon (execEthernetDoorbellPoll s) := (h.update (by dsimp only)).changed

theorem Canon.rdmaWrite {a bytes} (h : s.Canon) : OutCanon (s.rdmaWrite a bytes) := by
  unfold State.rdmaWrite
  refine Canon.changed ?_
  split
  · exact h.storeHome
  · exact h

theorem Canon.execRdmaIngress {qp op} (h : s.Canon) : OutCanon (execRdmaIngress qp op s) := by
  unfold Machine.execRdmaIngress
  split
  · trivial
  repeat' split
  · exact h.rdmaWrite
  · exact h.rdmaWrite
  · exact h.rdmaWrite
  · exact h.out.changed
  · exact h.changed

/-! ### Machine/Device -/

theorem Canon.wiped : (s.wiped).Canon := rfl

theorem Canon.stays {step why} : (s.stays step why).Canon := by
  unfold State.stays
  exact Canon.wiped.update (by dsimp only)

theorem Canon.bootSteps {env} : (s.bootSteps env).Canon := by
  unfold State.bootSteps
  dsimp only
  split
  · exact Canon.stays
  · split
    · exact Canon.stays
    · split
      · exact Canon.stays
      · split
        · exact Canon.stays
        · exact Canon.checkPorts bootMemory_wf

theorem Canon.powerAct {port} {act : State → Out'} (h : s.Canon) (ha : ∀ t, t.Canon → OutCanon (act t)) : OutCanon (s.powerAct port act) := by
  unfold State.powerAct
  repeat' split
  · exact h.command ha
  · trivial
  · exact ha s h

theorem Canon.execReset {port env} (h : s.Canon) : OutCanon (execReset port env s) := h.powerAct fun _ _ => Canon.bootSteps.changed

theorem Canon.execPowerOn {env} : OutCanon (execPowerOn env s) := by
  unfold Machine.execPowerOn
  split
  · trivial
  · exact Canon.bootSteps.changed

theorem Canon.execStandby {port} (h : s.Canon) : OutCanon (execStandby port s) := by
  unfold Machine.execStandby
  refine h.command fun _ ht => ?_
  dsimp only
  split
  · exact ht.configError
  · exact Canon.accepted (Canon.foldl (fun _ _ hu => hu.setPort) (ht.update (by dsimp only)))

theorem Canon.powerDown : s.powerDown.Canon := by
  unfold State.powerDown
  exact Canon.wiped.update (by dsimp only)

theorem Canon.execOff {port} (h : s.Canon) : OutCanon (execOff port s) := h.powerAct fun _ _ => Canon.powerDown.changed

theorem Canon.execIdle {port} (h : s.Canon) : OutCanon (execIdle port s) := by
  unfold Machine.execIdle
  refine h.command fun _ ht => ?_
  split
  · exact ht.configError
  · exact (ht.update (by dsimp only)).accepted

theorem Canon.execRecordUpdate {port record} (h : s.Canon) : OutCanon (execRecordUpdate port record s) := by
  unfold Machine.execRecordUpdate
  exact h.command fun _ ht => (ht.update (by dsimp only)).accepted

theorem Canon.execPartition {port ranges} (h : s.Canon) : OutCanon (execPartition port ranges s) := by
  unfold Machine.execPartition
  refine h.command fun _ ht => ?_
  split
  · exact ht.configError
  · exact (ht.update (by dsimp only)).accepted

theorem Canon.execQuote {port nonce} (h : s.Canon) : OutCanon (execQuote port nonce s) := h.command fun _ ht => ht.place.changed
theorem Canon.modDie {d f} (h : s.Canon) : (s.modDie d f).Canon := h

theorem Canon.execThermalHigh {die} (h : s.Canon) : OutCanon (execThermalHigh die s) := by
  unfold Machine.execThermalHigh
  split
  · trivial
  · exact h.modDie.changed

theorem Canon.execThermalNormal {die} (h : s.Canon) : OutCanon (execThermalNormal die s) := by
  unfold Machine.execThermalNormal
  split
  · trivial
  · exact h.modDie.changed

theorem Canon.execThermalTrip {die} : OutCanon (execThermalTrip die s) := by
  unfold Machine.execThermalTrip
  split
  · trivial
  · exact Canon.powerDown.changed

theorem Canon.execPowerOver (h : s.Canon) : OutCanon (execPowerOver s) := (h.update (by dsimp only)).changed

theorem Canon.execPowerNormal (h : s.Canon) : OutCanon (execPowerNormal s) := by
  unfold Machine.execPowerNormal
  split
  · exact (h.update (by dsimp only)).changed
  · trivial

theorem Canon.execAlarm {droop} (h : s.Canon) : OutCanon (execAlarm droop s) := by
  unfold Machine.execAlarm
  dsimp only
  split
  · trivial
  · exact (h.update (by dsimp only)).modDie.changed

theorem Canon.execStretchEnd {die} (h : s.Canon) : OutCanon (execStretchEnd die s) := by
  unfold Machine.execStretchEnd
  split
  · exact h.modDie.changed
  · trivial

theorem Canon.execHalvedWindowEnd {die} (h : s.Canon) : OutCanon (execHalvedWindowEnd die s) := by
  unfold Machine.execHalvedWindowEnd
  split
  · exact h.modDie.changed
  · trivial

theorem Canon.degrade {c} (h : s.Canon) : (s.degrade c).Canon := (h.update (by dsimp only)).modCol

theorem Canon.killColumn {c} (h : s.Canon) : (s.killColumn c).Canon := by
  unfold State.killColumn
  exact (Canon.foldl (fun _ _ ht => ht.killCtx) h.modCol).update (by dsimp only)

theorem Canon.teamLevel {t a} (h : s.Canon) : (s.teamLevel t a).Canon := by
  unfold State.teamLevel
  dsimp only
  split
  · exact Canon.foldl (fun _ _ hu => hu.rollback) h
  split
  · exact h
  · exact h.queueLevel

theorem Canon.strikeLine {a} (h : s.Canon) : (s.strikeLine a).Canon := by
  unfold State.strikeLine
  dsimp only
  split
  · unfold State.Canon
    dsimp only
    rw [← List.foldl_map (f := fun i => lineOf a + 4 * i)]
    exact Memory.putCairn_wf h
  · have hm : ({ s with mem := s.mem.poisonLine (lineOf a) } : State).Canon := Memory.poisonLine_wf h
    split
    · exact hm.teamLevel
    · exact hm

theorem Canon.execCorrectedErrorThreshold {col} (h : s.Canon) : OutCanon (execCorrectedErrorThreshold col s) := by
  unfold Machine.execCorrectedErrorThreshold
  split
  · trivial
  · exact h.degrade.changed

theorem Canon.strikeItem {id} (h : s.Canon) : (s.strikeItem id).Canon := by
  unfold State.strikeItem
  dsimp only
  repeat' split
  · exact h.setItem
  · exact h.setItem
  · exact h.setItem
  · exact h
  · exact h.setItem
  · exact h.setItem
  · exact h.setItem
  · exact h

theorem Canon.strikeRegister {g r vec lane} (h : s.Canon) : (s.strikeRegister g r vec lane).Canon := h.modImage
theorem Canon.strikeCopy {c k line inv} (h : s.Canon) : (s.strikeCopy c k line inv).Canon := h.modCore

theorem Canon.execUncorrectableError {col site} (h : s.Canon) : OutCanon (execUncorrectableError col site s) := by
  unfold Machine.execUncorrectableError
  split
  · trivial
  repeat' split
  · exact h.strikeItem.changed
  · exact h.strikeLine.degrade.changed
  · exact h.setPage.degrade.changed
  · exact h.degrade.changed
  · exact h.killCtx.degrade.changed
  · exact h.strikeRegister.degrade.changed
  · exact h.strikeCopy.degrade.changed
  · exact h.killColumn.degrade.changed
  · exact h.degrade.changed

theorem Canon.execMeshPayloadError {ctx} (h : s.Canon) : OutCanon (execMeshPayloadError ctx s) := by
  unfold Machine.execMeshPayloadError
  split
  · trivial
  · exact h.killCtx.changed

theorem Canon.execMeshHeaderError {part} (h : s.Canon) : OutCanon (execMeshHeaderError part s) := by
  unfold Machine.execMeshHeaderError
  split
  · trivial
  extract_lets p who killed cleared
  have hk : killed.Canon := Canon.foldl (fun _ _ ht => ht.killCtx) h
  clear_value killed
  have hc : cleared.Canon := Canon.foldl (fun _ _ ht => ht.update (by dsimp only)) hk
  clear_value cleared
  exact (hc.update (by dsimp only)).changed

theorem Canon.execPartitionReset {port part} (h : s.Canon) : OutCanon (execPartitionReset port part s) := by
  unfold Machine.execPartitionReset
  refine h.command fun _ ht => ?_
  split
  · exact ht.configError
  · exact (ht.update (by dsimp only)).accepted

theorem Canon.releaseCtxs (h : s.Canon) : s.releaseCtxs.Canon := h

theorem Canon.execPatrolScrub {line tag bad} (h : s.Canon) : OutCanon (execPatrolScrub line tag bad s) := by
  unfold Machine.execPatrolScrub
  split
  · trivial
  split
  · exact h.strikeLine.degrade.releaseCtxs.changed
  · exact h.releaseCtxs.changed

theorem Canon.execScrubbing {leaf} (h : s.Canon) : OutCanon (execScrubbing leaf s) := by
  unfold Machine.execScrubbing
  dsimp only
  split
  · exact h.setPage.changed
  · trivial

theorem Canon.execScrubDone {leaf} (h : s.Canon) : OutCanon (execScrubDone leaf s) := by
  unfold Machine.execScrubDone
  dsimp only
  split
  · trivial
  split
  · trivial
  · refine Canon.changed (Canon.releaseCtxs (Canon.setPage ?_))
    exact zeroPage_wf h

/-! ### Machine/Regions -/

theorem Canon.setI {r x} (h : s.Canon) : (s.setI r x).Canon := h.modMe

theorem Canon.noFold {r} (h : s.Canon) : EffCanon (fun _ => True) (s.noFold r) := by
  unfold State.noFold
  split
  · exact h.awaits
  · trivial

theorem Canon.openRegion {idem} (h : s.Canon) : (s.openRegion idem).Canon := by
  unfold State.openRegion
  split
  · exact h.modGroup
  · exact h.modThread

theorem Canon.commit (h : s.Canon) : s.commit.Canon := by
  unfold State.commit
  split
  · exact h.modGroup
  · exact h.modThread

theorem Canon.presLines {p sp n} (h : s.Canon) : EffCanon (fun _ => True) (s.presLines p sp n) := by
  unfold State.presLines
  refine Canon.checkReqs.bind fun _ _ => ?_
  dsimp only
  split
  · repeat' split
    · trivial
    · exact h.replays.awaits
    · trivial
    · exact h.homes.bind fun _ _ => trivial
  repeat' split
  · trivial
  · exact h.replays.awaits
  · trivial
  · exact h.homes.bind fun _ _ => trivial

theorem Canon.execCsacc {d a} (h : s.Canon) : OutCanon (execCsacc d a s) :=
  h.issue fun _ ht => Canon.needs.bind fun _ _ => Canon.clean.bind fun _ _ => ht.noFold.bind fun _ _ => ht.setI

theorem Canon.execCsclr {d} (h : s.Canon) : OutCanon (execCsclr d s) := h.issue fun _ ht => ht.noFold.bind fun _ _ => ht.setI

theorem Canon.execCschk {a b c} (h : s.Canon) : OutCanon (execCschk a b c s) := by
  unfold Machine.execCschk
  refine h.issue fun _ ht => ?_
  dsimp only
  split
  · trivial
  repeat' split
  · trivial
  · exact ht.noFold.bind fun _ _ => ht.noFold.bind fun _ _ => ht
  · exact ht.noFold.bind fun _ _ => ht.noFold.bind fun _ _ => trivial

theorem Canon.execCsmov {d a p} (h : s.Canon) : OutCanon (execCsmov d a p s) := by
  unfold Machine.execCsmov
  refine h.issue fun _ ht => ?_
  split
  · exact ht.emptyS.place
  · exact ht.writeS

theorem Canon.execRgnBeg {i} (h : s.Canon) : OutCanon (execRgnBeg i s) := by
  unfold Machine.execRgnBeg
  refine h.issue fun _ ht => ?_
  dsimp only
  split
  · exact ht.awaits
  repeat' split
  · trivial
  · exact ht.openRegion
  · trivial
  · exact ht.openRegion

theorem Canon.execRgnPres {a p n} (h : s.Canon) : OutCanon (execRgnPres a p n s) := by
  unfold Machine.execRgnPres
  refine h.issue fun _ ht => ?_
  dsimp only
  split
  · trivial
  refine ht.presLines.bind fun _ _ => ?_
  repeat' split
  · exact ht.settleAt.awaits
  · trivial
  · trivial
  · exact ht.settleAt.modMe

theorem Canon.execRgnEnd (h : s.Canon) : OutCanon (execRgnEnd s) := by
  unfold Machine.execRgnEnd
  refine h.issue fun _ ht => ?_
  split
  · trivial
  · exact ht.commit

theorem Canon.execRgnAbt (h : s.Canon) : OutCanon (execRgnAbt s) := by
  unfold Machine.execRgnAbt
  refine h.issue fun _ _ => ?_
  split
  · trivial
  · split <;> trivial

/-! ### Machine/VecFloat -/

theorem Canon.vfloat1 {i d a ok f} (h : s.Canon) : OutCanon (vfloat1 i d a ok f s) := h.issue fun _ ht => Canon.needs.bind fun _ _ => ht.mapGen
theorem Canon.vfloat2 {i d a b f} (h : s.Canon) : OutCanon (vfloat2 i d a b f s) := h.issue fun _ ht => Canon.needs.bind fun _ _ => ht.mapGen
theorem Canon.vfpick {i d a b less} (h : s.Canon) : OutCanon (vfpick i d a b less s) := h.issue fun _ ht => Canon.needs.bind fun _ _ => ht.mapLanes
theorem Canon.vfsign {i d a f} (h : s.Canon) : OutCanon (vfsign i d a f s) := h.issue fun _ ht => Canon.needs.bind fun _ _ => ht.mapLanes
theorem Canon.execVfma {d a b c} (h : s.Canon) : OutCanon (execVfma d a b c s) := h.issue fun _ ht => Canon.needs.bind fun _ _ => ht.mapGen
theorem Canon.execVfcmpk {d a b c} (h : s.Canon) : OutCanon (execVfcmpk d a b c s) := h.issue fun _ ht => Canon.needs.bind fun _ _ => ht.writeBallot
theorem Canon.execVscl {d a b} (h : s.Canon) : OutCanon (execVscl d a b s) := h.issue fun _ ht => Canon.needs.bind fun _ _ => ht.mapGen

theorem Canon.execVcvt {d a p t} (h : s.Canon) : OutCanon (execVcvt d a p t s) := by
  unfold Machine.execVcvt
  refine h.issue fun _ hu => Canon.needs.bind fun _ _ => ?_
  dsimp only
  split
  · trivial
  · exact Canon.clean.bind fun _ _ => hu.setGens.writeElems

theorem Canon.writeStream {r x} (h : s.Canon) : (s.writeStream r x).Canon := h.writeV

theorem Canon.quantDesc {c} : EffCanon (fun _ => True) (s.quantDesc c) := by
  unfold State.quantDesc
  refine Canon.needs.bind fun _ _ => ?_
  split
  · trivial
  · split <;> trivial

theorem Canon.execVqnt {d a b c} (h : s.Canon) : OutCanon (execVqnt d a b c s) :=
  h.issue fun _ ht => Canon.quantDesc.bind fun _ _ => ht.setGens.writeStream.writeStream

theorem Canon.execVdqnt {d a b c} (h : s.Canon) : OutCanon (execVdqnt d a b c s) := by
  unfold Machine.execVdqnt
  refine h.issue fun _ ht => Canon.quantDesc.bind fun _ _ => Canon.clean.bind fun _ _ => Canon.clean.bind fun _ _ => ?_
  dsimp only
  split
  · trivial
  · exact ht.mapGen

/-! ### Machine/Epilogue -/

theorem Canon.scrStores {p spans} : EffCanon (fun _ => True) (s.scrStores p spans) := by
  unfold State.scrStores
  refine Canon.checkReqs.bind fun _ _ => ?_
  split <;> trivial

theorem Canon.epiArray {on p n} (h : s.Canon) : EffCanon (fun _ => True) (s.epiArray on p n) := by
  unfold State.epiArray
  split
  · exact h.scrObject.map fun _ _ => trivial
  · trivial

theorem Canon.denseDests {e p} : EffCanon (fun _ => True) (s.denseDests e p) := by
  unfold State.denseDests
  refine Canon.scrStores.bind fun _ _ => ?_
  dsimp only
  split
  · exact Canon.scrStores.bind fun _ _ => trivial
  · trivial

theorem Canon.tablePtr {e p} : EffCanon (fun _ => True) (s.tablePtr e p) := by
  unfold State.tablePtr
  dsimp only
  split
  · trivial
  split
  · trivial
  · split <;> trivial

theorem Canon.tableDests {e p} (h : s.Canon) : EffCanon (fun _ => True) (s.tableDests e p) :=
  h.scrObject.bind fun _ _ => EffCanon.mapM fun _ => Canon.tablePtr

theorem Canon.epiBar {e} : EffCanon (fun _ => True) (s.epiBar e) := by
  unfold State.epiBar
  dsimp only
  split
  · refine Canon.barAddr.bind fun _ _ => ?_
    split <;> trivial
  · trivial

theorem Canon.execMxEpi {d a b} (h : s.Canon) : OutCanon (execMxEpi d a b s) := by
  unfold Machine.execMxEpi
  refine h.issue fun _ ht => ht.scrObject.bind fun _ _ => ?_
  dsimp only
  split
  · trivial
  split
  · exact ht.awaits
  refine Canon.cairnOk.bind fun _ _ => ht.cairnPages.bind fun _ _ => ht.epiArray.bind fun _ _ => ht.epiArray.bind fun _ _ => ?_
  split
  · refine ht.tableDests.bind fun _ _ => Canon.epiBar.bind fun _ _ => Canon.mxAccept ?_
    split
    · exact ht.sealAll
    · exact ht
  refine Canon.denseDests.bind fun _ _ => Canon.epiBar.bind fun _ _ => Canon.mxAccept ?_
  split
  · exact ht.sealAll
  · exact ht

theorem Canon.sendRow {epi m e bar d out} (h : s.Canon) : (s.sendRow epi m e bar d out).Canon := by
  unfold State.sendRow
  dsimp only
  split
  · exact h
  · exact h.place
  · exact h.placeRemote

theorem Canon.epiRows {epi m e scale bias o bar ds st} (h : s.Canon) : (epiRows epi m e scale bias o bar ds s st).1.Canon := by
  induction ds generalizing s st with
  | nil => exact h
  | cons d ds ih =>
    unfold State.epiRows
    split
    · exact ih h
    · exact ih h.sendRow

theorem Canon.execMxEpiPerform {id} (h : s.Canon) : OutCanon (execMxEpiPerform id s) := by
  unfold Machine.execMxEpiPerform
  dsimp only
  split
  · split
    · split
      · refine Canon.changed (Canon.cairnPoisoned (Canon.wakeMoves ?_))
        split
        · exact h.drop.place
        · exact h.drop
      refine Canon.changed (Canon.sendAll (Canon.wakeMoves ?_))
      repeat' split
      · exact h.drop.epiRows.modImage
      · exact h.drop.epiRows
      · exact h.drop.epiRows.modImage
      · exact h.drop.epiRows.modImage.place
      · exact h.drop.epiRows.modImage.rowDone
      · exact h.drop.epiRows.modImage
      · exact h.drop.epiRows
      · exact h.drop.epiRows.place
      · exact h.drop.epiRows.rowDone
      · exact h.drop.epiRows
    · trivial
  · trivial

theorem Canon.dropRows {epi} (h : s.Canon) : (s.dropRows epi).Canon := h

theorem Canon.execEpilogueRowArrival {id} (h : s.Canon) : OutCanon (execEpilogueRowArrival id s) := by
  unfold Machine.execEpilogueRowArrival
  dsimp only
  repeat' split
  · trivial
  · exact h.drop.scrWrite.rowDone.changed
  · exact h.drop.scrWrite.dropRows.place.asyncCause.changed
  · exact h.drop.scrWrite.dropRows.asyncCause.changed
  · trivial

/-! ### Machine/Scalar -/

theorem Canon.scalar3 {i d a b f} (h : s.Canon) : OutCanon (scalar3 i d a b f s) := h.issue fun _ ht => ht.writeS

theorem Canon.scalarDiv {i d a b f} (h : s.Canon) : OutCanon (scalarDiv i d a b f s) := by
  unfold Machine.scalarDiv
  refine h.issue fun _ ht => ?_
  split
  · trivial
  · exact ht.writeS

theorem Canon.scalarI {i d a x f} (h : s.Canon) : OutCanon (scalarI i d a x f s) := h.issue fun _ ht => ht.writeS
theorem Canon.execScmp {a b} (h : s.Canon) : OutCanon (execScmp a b s) := h.issue fun _ ht => ht.setFlags
theorem Canon.execScmpi {a i} (h : s.Canon) : OutCanon (execScmpi a i s) := h.issue fun _ ht => ht.setFlags
theorem Canon.execSsel {d a b c} (h : s.Canon) : OutCanon (execSsel d a b c s) := h.issue fun _ ht => ht.writeS
theorem Canon.execSli {d i} (h : s.Canon) : OutCanon (execSli d i s) := h.issue fun _ ht => ht.writeS
theorem Canon.execSlhi {d i} (h : s.Canon) : OutCanon (execSlhi d i s) := h.issue fun _ ht => ht.writeS

/-! ### Machine/System -/

theorem Canon.srWrite {n x} (h : s.Canon) : (s.srWrite n x).Canon := by
  unfold State.srWrite
  dsimp only
  repeat' split
  · exact h.modMe
  · exact h.setFlags
  · exact h.modMe
  · exact h.modMe
  · exact h.modMe
  · exact h.modMe
  · exact h.modMe
  · exact h

theorem Canon.readFrame (h : s.Canon) : EffCanon (fun p => p.2.Canon) s.readFrame := by
  unfold State.readFrame
  split
  · dsimp only
    split
    · trivial
    · exact h.settleAt
  · trivial
  · trivial
  · exact h.killCtx

theorem Canon.eret (h : s.Canon) : EffCanon Canon s.eret := by
  unfold State.eret
  refine h.readFrame.bind fun p hp => ?_
  dsimp only
  repeat' split
  · trivial
  · trivial
  · exact hp.modMe

theorem Canon.sendMessage {m} (h : s.Canon) : (s.sendMessage m).Canon := by
  unfold State.sendMessage
  dsimp only
  split <;> exact h

theorem Canon.ringBell {ctx q} (h : s.Canon) : (s.ringBell ctx q).Canon := by
  unfold State.ringBell
  split
  · exact h.modQueue
  · exact h

theorem Canon.execRdsr {d n} (h : s.Canon) : OutCanon (execRdsr d n s) := by
  unfold Machine.execRdsr
  refine h.issue fun _ ht => ?_
  split
  · trivial
  · exact ht.writeS

theorem Canon.execWrsr {a n} (h : s.Canon) : OutCanon (execWrsr a n s) := by
  unfold Machine.execWrsr
  refine h.issue fun _ ht => ?_
  split
  · trivial
  · exact ht.srWrite

theorem Canon.execRdtime {d} (h : s.Canon) : OutCanon (execRdtime d s) := h.issue fun _ ht => ht.writeS
theorem Canon.execTrap {c} (h : s.Canon) : OutCanon (execTrap c s) := h.issue fun _ _ => trivial

theorem Canon.execSint {a} (h : s.Canon) : OutCanon (execSint a s) := by
  unfold Machine.execSint
  refine h.issue fun _ ht => ?_
  dsimp only
  split
  · exact ht.sendMessage
  · exact ht.ringBell

theorem Canon.execEret (h : s.Canon) : OutCanon (execEret s) := h.issue fun _ ht => ht.eret

theorem Canon.execSegld {a n} (h : s.Canon) : OutCanon (execSegld a n s) := by
  unfold Machine.execSegld
  refine h.issue fun _ ht => ?_
  dsimp only
  split
  · exact ht.modMe
  · trivial

theorem Canon.execDbgbrk {t} (h : s.Canon) : OutCanon (execDbgbrk t s) := by
  unfold Machine.execDbgbrk
  refine h.issue fun _ hu => ?_
  split
  · exact hu.modMe
  · trivial

/-! ### Machine/Transfers -/

theorem Canon.writeLine {id x k ws} (h : s.Canon) : (s.writeLine id x k ws).Canon := by
  unfold State.writeLine
  dsimp only
  split
  · refine Canon.foldl (fun _ _ ht => ?_) h
    split
    · exact ht.scrWrite
    · exact ht.storeHome
    · exact ht.placeRemote
    · exact ht
  refine Canon.foldl (fun _ _ ht => ?_) ?_
  · split
    · exact ht.placeRemote
    · exact ht
  repeat' split
  · exact h
  · exact h.scrWrite
  · exact h.storeHome
  · exact h.scrWrite.storeHome

theorem Canon.fillMark {k a} (h : s.Canon) : (s.fillMark k a).Canon := h.bufFill.wakeLoads

theorem Canon.performLine {id x k steps} (h : s.Canon) : (s.performLine id x k steps).Canon := by
  unfold State.performLine
  refine Canon.foldl (fun _ _ ht => ht.fillMark) ?_
  split
  · exact h
  · exact h.writeLine

theorem Canon.sendLine {id x k steps recv} (h : s.Canon) : (sendLine id x k steps s recv).Canon := by
  unfold State.sendLine
  dsimp only
  split
  · exact h
  · exact h.place

theorem Canon.sealXfer {id x spots} (h : s.Canon) : (s.sealXfer id x spots).Canon := h.modThread
theorem Canon.settleLines {c t} (h : s.Canon) : (s.settleLines c t).Canon := Canon.foldl (fun _ _ hu => hu.modThread) h

theorem Canon.countXfer {id x n} (h : s.Canon) : (s.countXfer id x n).Canon := by
  unfold State.countXfer
  split
  · exact h
  split
  · exact h
  · exact h.place

theorem Canon.completeXfer {id x} (h : s.Canon) : (s.completeXfer id x).Canon := by
  unfold State.completeXfer
  dsimp only
  split
  · repeat' split
    · exact h.drop.countXfer.endThread
    · exact h.drop.countXfer
    · exact h.drop.countXfer.endThread
    · exact h.drop.countXfer
  repeat' split
  · exact h.drop.countXfer.endThread
  · exact h.drop.countXfer
  · exact h.drop.countXfer.endThread
  · exact h.drop.countXfer

theorem Canon.finishXfer {id x} (h : s.Canon) : (s.finishXfer id x).Canon := by
  unfold State.finishXfer
  split
  · exact h.completeXfer
  · exact h.setItem

theorem Canon.grantLine {id x k steps all} (h : s.Canon) : (s.grantLine id x k steps all).Canon := by
  unfold State.grantLine
  dsimp only
  split
  · exact Canon.finishXfer (Canon.foldl (fun _ _ ht => ht.sendLine) h.settleLines.sealXfer)
  · exact h.settleLines.sealXfer.performLine.sendAll.countXfer.finishXfer

theorem Canon.advanceXfer {id x k} (h : s.Canon) : OutCanon (s.advanceXfer id x k) := by
  unfold State.advanceXfer
  dsimp only
  repeat' split
  · exact h.xferFault.changed
  · trivial
  · exact Canon.changed (Canon.sendAll (Canon.foldl (fun _ _ ht => ht.placeRemote) h))
  · exact (h.startWalk.some ‹_›).setItem.changed
  · trivial
  · trivial
  · exact h.setItem.changed
  · exact h.finishXfer.changed
  · exact h.grantLine.changed
  · trivial

theorem Canon.execTransferComplete {id} (h : s.Canon) : OutCanon (execTransferComplete id s) := by
  unfold Machine.execTransferComplete
  repeat' split
  · trivial
  · trivial
  · exact h.completeXfer.changed
  · exact h.advanceXfer
  · trivial
  · trivial

theorem Canon.countCopy {xid x t core count} (h : s.Canon) : (s.countCopy xid x t core count).Canon := h.countXfer

theorem Canon.execMulticastLine {id} (h : s.Canon) : OutCanon (execMulticastLine id s) := by
  unfold Machine.execMulticastLine
  dsimp only
  split
  · split
    · repeat' split
      · exact h.drop.countCopy.changed
      · exact h.drop.scrStore.countCopy.changed
      · exact h.drop.modBuf.bufFill.wakeLoads.countCopy.changed
      · exact h.drop.modBuf.scrWrite.countCopy.changed
      · exact h.drop.bufFill.wakeLoads.countCopy.changed
      · exact h.drop.scrWrite.countCopy.changed
      · exact h.drop.xferFault.changed
    · trivial
  · trivial

/-! ### Machine/Traps -/

theorem Canon.execWordNotAnInstruction {w} (h : s.Canon) : OutCanon (execWordNotAnInstruction w s) := by
  unfold Machine.execWordNotAnInstruction
  split
  · trivial
  split
  · exact h.fail
  · trivial

theorem Canon.execFetchPastCodeLimit (h : s.Canon) : OutCanon (execFetchPastCodeLimit s) := by
  unfold Machine.execFetchPastCodeLimit
  repeat' split
  · trivial
  · trivial
  · exact h.fail
  · exact h.stopped' (h.fetch.stop ‹_›)

theorem Canon.execWatchdog {grp} (h : s.Canon) : OutCanon (execWatchdog grp s) := by
  unfold Machine.execWatchdog
  dsimp only
  split
  · exact h.asyncCause.modGroup.changed
  · trivial

theorem Canon.execPreempt {grp} (h : s.Canon) : OutCanon (execPreempt grp s) := by
  unfold Machine.execPreempt
  dsimp only
  split
  · exact h.noteCause.nestedFault.modGroup.changed
  · trivial

theorem Canon.execHalt {port grp} (h : s.Canon) : OutCanon (execHalt port grp s) := by
  unfold Machine.execHalt
  refine h.command fun _ ht => ?_
  split
  · exact ht.configError
  split
  · split <;> exact ht.modGroup.accepted
  · split <;> exact ht.modGroup.accepted

theorem Canon.execResume {port grp} (h : s.Canon) : OutCanon (execResume port grp s) := by
  unfold Machine.execResume
  refine h.command fun _ ht => ?_
  split
  · exact ht.configError
  · exact ht.modGroup.accepted

theorem Canon.execDebuggingEnable {port ctx on} (h : s.Canon) : OutCanon (execDebuggingEnable port ctx on s) := by
  unfold Machine.execDebuggingEnable
  refine h.command fun _ ht => ?_
  split
  · exact ht.configError
  · exact ht.modCtx.accepted

theorem Canon.execInjection {port ctx col tid gid value} (h : s.Canon) : OutCanon (execInjection port ctx col tid gid value s) := by
  unfold Machine.execInjection
  refine h.command fun _ ht => ?_
  split
  · exact ht.configError
  split
  · exact ht.modGroup.accepted
  · exact (ht.update (by dsimp only)).accepted

/-! ### Machine/VecInt -/

theorem Canon.vint1 {i d a f} (h : s.Canon) : OutCanon (vint1 i d a f s) := h.issue fun _ ht => Canon.needs.bind fun _ _ => ht.mapLanes
theorem Canon.vint2 {i d a b f} (h : s.Canon) : OutCanon (vint2 i d a b f s) := h.issue fun _ ht => Canon.needs.bind fun _ _ => ht.mapLanes
theorem Canon.vbits {i d a b f} (h : s.Canon) : OutCanon (vbits i d a b f s) := h.issue fun _ ht => ht.mapLanes
theorem Canon.execVmad {d a b c} (h : s.Canon) : OutCanon (execVmad d a b c s) := h.issue fun _ ht => Canon.needs.bind fun _ _ => ht.mapLanes
theorem Canon.execVsel {d a b c} (h : s.Canon) : OutCanon (execVsel d a b c s) := h.issue fun _ ht => ht.mapLanes
theorem Canon.execVbcs {d a} (h : s.Canon) : OutCanon (execVbcs d a s) := h.issue fun _ ht => Canon.needs.bind fun _ _ => ht.mapLanes
theorem Canon.execVlid {d} (h : s.Canon) : OutCanon (execVlid d s) := h.issue fun _ ht => Canon.needs.bind fun _ _ => ht.mapLanes

/-! ### Machine/Dispatch -/

theorem Canon.exec {i} (h : s.Canon) : OutCanon (exec i s) := by
  unfold Machine.exec
  split
  · exact h.execNop
  · exact h.execBr
  · exact h.execBc
  · exact h.execBk
  · exact h.execCall
  · exact h.execRet
  · exact h.execJmp
  · exact h.execSplit
  · exact h.execJarm
  · exact h.execJoin
  · exact h.execExit
  · exact h.execSetmode
  · exact h.execRdsr
  · exact h.execWrsr
  · exact h.execRdtime
  · exact h.execTrap
  · exact h.execSint
  · exact h.execEret
  · exact h.execSegld
  · exact h.execDbgbrk
  · exact h.scalar3
  · exact h.scalar3
  · exact h.scalar3
  · exact h.scalar3
  · exact h.scalarDiv
  · exact h.scalarDiv
  · exact h.scalar3
  · exact h.scalar3
  · exact h.scalar3
  · exact h.scalar3
  · exact h.scalar3
  · exact h.scalar3
  · exact h.scalar3
  · exact h.scalar3
  · exact h.execScmp
  · exact h.execSsel
  · exact h.scalarI
  · exact h.scalarI
  · exact h.scalarI
  · exact h.scalarI
  · exact h.scalarI
  · exact h.scalarI
  · exact h.scalarI
  · exact h.execScmpi
  · exact h.execSli
  · exact h.execSlhi
  · exact h.mask3
  · exact h.mask3
  · exact h.mask3
  · exact h.mask3
  · exact h.execKsmov
  · exact h.maskS
  · exact h.maskS
  · exact h.maskS
  · exact h.execKtest
  · exact h.execVcmpk
  · exact h.execVshuf
  · exact h.execVbcast
  · exact h.execVtbl
  · exact h.execVred
  · exact h.execVscan
  · exact h.execSlane
  · exact h.vint2
  · exact h.vint2
  · exact h.vint2
  · exact h.vint2
  · exact h.execVmad
  · exact h.vint2
  · exact h.vint2
  · exact h.vint1
  · exact h.vint1
  · exact h.vbits
  · exact h.vbits
  · exact h.vbits
  · exact h.vint2
  · exact h.vint2
  · exact h.vint2
  · exact h.vint1
  · exact h.vint1
  · exact h.execVsel
  · exact h.vint1
  · exact h.execVbcs
  · exact h.execVlid
  · exact h.vfloat2
  · exact h.vfloat2
  · exact h.vfloat2
  · exact h.execVfma
  · exact h.vfpick
  · exact h.vfpick
  · exact h.vfsign
  · exact h.vfsign
  · exact h.execVfcmpk
  · exact h.vfloat1
  · exact h.vfloat1
  · exact h.vfloat1
  · exact h.vfloat1
  · exact h.vfloat1
  · exact h.execVcvt
  · exact h.execVscl
  · exact h.vfloat1
  · exact h.execVqnt
  · exact h.execVdqnt
  · exact h.execVld
  · exact h.execVst
  · exact h.execVldx
  · exact h.execVstx
  · exact h.execSld
  · exact h.execSst
  · exact h.execVldi
  · exact h.execAtom
  · exact h.execRld
  · exact h.execRst
  · exact h.execRred
  · exact h.execRredColl
  · exact h.execRatom
  · exact h.execRcas
  · exact h.execXsend
  · exact h.execXrecv
  · exact h.execXperm
  · exact h.execPhase
  · exact h.execFenceq
  · exact h.execBarInit
  · exact h.execBarArr
  · exact h.execBarWait
  · exact h.execBarTest
  · exact h.execBarExp
  · exact h.execBufSet
  · exact h.execBufGet
  · exact h.execStk
  · exact h.execMxGang
  · exact h.execMxLdb
  · exact h.execMxMm
  · exact h.execMxZero
  · exact h.execMxEpi
  · exact h.execMxAcv
  · exact h.execMxVac
  · exact h.execMxCsum
  · exact h.execCsacc
  · exact h.execCsclr
  · exact h.execCschk
  · exact h.execCsmov
  · exact h.execRgnBeg
  · exact h.execRgnPres
  · exact h.execRgnEnd
  · exact h.execRgnAbt
  · exact h.execTlrec
  · exact h.execTaddr
  · exact h.execTcopy
  · exact h.execTgath
  · exact h.execTscat
  · exact h.execTmcast
  · exact h.execTred
  · exact h.execTarr
  · exact h.execTarrNone
  · exact h.execTwait
  · exact h.execTwaitDrain
  · exact h.execTloop
  · exact h.execTexit
  · exact h.execResultArrival
  · exact h.execScratchpadArrival
  · exact h.execTransitionPoint
  · exact h.execCountdown
  · exact h.execBarrierErrorEvent
  · exact h.execReleaseComplete
  · exact h.execKickStart
  · exact h.execTransferComplete
  · exact h.execMulticastLine
  · exact h.execKickEnd
  · exact h.execStreamRollback
  · exact h.execXpermArrival
  · exact h.execChannelGrant
  · exact h.execChannelMessageArrival
  · exact h.execJointOperation
  · exact h.execMxLdbPerform
  · exact h.execMxEpiPerform
  · exact h.execEpilogueRowArrival
  · exact h.execMxZeroPerform
  · exact h.execMxAcvPerform
  · exact h.execMxVacPerform
  · exact h.execMxCsumPerform
  · exact h.execWalkComplete
  · exact h.execFaultRecordPost
  · exact h.execShootdownColumnDone
  · exact h.execQueueExamine
  · exact h.execQueuePoll
  · exact h.execLaunchAdmission
  · exact h.execTeamPlacement
  · exact h.execLaunchComplete
  · exact h.execQuantumExpiry
  · exact h.execPreemptionComplete
  · exact h.execContextResume
  · exact h.execContextQuarantine
  · exact h.execTeamSwap
  · exact h.execTeamReadmit
  · exact h.execWatchdog
  · exact h.execPreempt
  · exact h.execGangTimeout
  · exact h.execKeyTimeout
  · exact h.execUnarmedKeyExpiry
  · exact h.execRetryBackoff
  · exact h.execRequestTimeout
  · exact h.brixel
  · exact h.brixel
  · exact h.brixel
  · exact h.brixel
  · exact h.brixel
  · exact h.execHop
  · exact h.execAcc
  · exact h.execDlv
  · exact h.execDataResponse
  · exact h.execAcknowledgement
  · exact h.execRetryLater
  · exact h.execRefusal
  · exact h.execPoison
  · exact h.execHostRead
  · exact h.execHostWrite
  · exact h.hostAtomic
  · exact h.hostAtomic
  · exact h.hostAtomic
  · exact h.execDoorbellWrite
  · exact h.semAccess
  · exact h.semAccess
  · exact h.execLarnarLinkDown
  · exact h.execContextCreate
  · exact h.execContextDestroy
  · exact h.execKill
  · exact h.execAcknowledge
  · exact h.execQueueEnable
  · exact h.execQueueDisable
  · exact h.execResetQueue
  · exact h.execRetry
  · exact h.execFault
  · exact h.execShootdown
  · exact h.execLeafWrite
  · exact h.execPartition
  · exact h.execRidge
  · exact h.execPortEnable
  · exact h.execIsolate
  · exact h.execRestore
  · exact h.execReAdmit
  · exact h.execMemberNumber
  · exact h.execHostWindows
  · exact h.execHalt
  · exact h.execResume
  · exact h.execDebuggingEnable
  · exact h.execReset
  · exact Canon.execPowerOn
  · exact h.execStandby
  · exact h.execOff
  · exact h.execIdle
  · exact h.execRecordUpdate
  · exact h.execQuote
  · exact h.execInjection
  · exact h.execQueuePairCreate
  · exact h.execEthernetDoorbellPoll
  · exact h.execTraining
  · exact h.execLaneFail
  · exact h.execReplayLimit
  · exact h.execPeerSilence
  · exact h.execLossNotice
  · exact h.execCorrectedErrorThreshold
  · exact h.execUncorrectableError
  · exact h.execMeshPayloadError
  · exact h.execMeshHeaderError
  · exact h.execPatrolScrub
  · exact h.execScrubbing
  · exact h.execScrubDone
  · exact h.execThermalHigh
  · exact h.execThermalNormal
  · exact Canon.execThermalTrip
  · exact h.execPowerOver
  · exact h.execPowerNormal
  · exact h.execAlarm
  · exact h.execStretchEnd
  · exact h.execHalvedWindowEnd
  · exact h.execWordNotAnInstruction
  · exact h.execFetchPastCodeLimit
  · exact h.execPartitionReset
  · exact h.execRdmaIngress

/-! ### Machine/Step -/

theorem Canon.issueStep (h : s.Canon) : OutCanon (issueStep s) := by
  unfold Machine.issueStep
  repeat' split
  · exact h.haltNow
  · exact h.deliverAsync
  · exact h.exec
  · exact h.exec
  · trivial

theorem Canon.eventStep {i} (h : s.Canon) : OutCanon (eventStep i s) := by
  unfold Machine.eventStep
  split
  · trivial
  split
  · exact h.exec
  · trivial

theorem Canon.firstEvent {is} (h : s.Canon) : OptCanon Canon (firstEvent s is) := by
  induction is with
  | nil => exact trivial
  | cons i is ih =>
    unfold Machine.firstEvent
    split
    · next e => exact (h.exec).next e
    · exact ih

theorem Canon.freeStep (h : s.Canon) : OutCanon (freeStep s) := by
  unfold Machine.freeStep
  repeat' split
  · exact h.performItem.changed
  · exact h.firstEvent.some ‹_›
  · exact (h.update (by dsimp only)).issueStep
  · exact h
  · exact h

theorem Canon.turnStep {late a} (h : s.Canon) : OutCanon (turnStep late a s) := by
  unfold Machine.turnStep
  split
  · split
    · exact (h.update (by dsimp only)).issueStep
    · trivial
  · trivial

theorem Canon.homeStep {ok} (ht : t.Canon) : OutCanon (homeStep ok t s) := by
  unfold Machine.homeStep
  split
  · split
    · exact ht.changed
    · trivial
  · trivial

theorem Canon.step (h : s.Canon) : OutCanon (step s) := by
  unfold Machine.step
  dsimp only
  repeat' split
  · exact (h.tick.update (by dsimp only)).turnStep
  · exact (h.tick.update (by dsimp only)).turnStep
  · exact (h.tick.update (by dsimp only)).eventStep
  · exact (h.tick.update (by dsimp only)).performItem.homeStep
  · exact (h.tick.update (by dsimp only)).fetchLine.homeStep
  · exact (h.tick.update (by dsimp only)).evictLine.homeStep
  · exact h.tick.freeStep

end

end State

/-- Settles O45: the law of `step`, which the laws of everything it calls make up. -/
theorem stepKeepsMemory : Obligations.StepKeepsMemory := by
  unfold Obligations.StepKeepsMemory
  intro s t h e
  exact (State.Canon.step h).next e

end Sys2Proof.Machine
end

section
/-! SUPPORT. The mask instructions (O18): the two shapes that most of them have, and what the counts of Table 6-1 give. -/

namespace Sys2Proof.Machine

open Sys2Proof

/-! ### Counts of a mask (R107) -/

theorem popCount_eq_countP (x : Word) : popCount x = (List.range 64).countP fun i => x.getLsbD i :=
  List.countP_eq_length_filter.symm

/-- The lowest bit set, or 64 where there is none. -/
theorem firstSet_eq {x : Word} {first : Nat} (hle : first ≤ 64) (hlow : ∀ i < first, x.getLsbD i = false)
    (hset : first < 64 → x.getLsbD first = true) : firstSet x = first := by
  obtain hlt | rfl := Nat.lt_or_eq_of_le hle
  · have h : (List.range 64).find? (fun i => x.getLsbD i) = some first :=
      List.find?_range_eq_some.2 ⟨hset hlt, List.mem_range.2 hlt, fun j hj => by simp [hlow j hj]⟩
    rw [firstSet, h, Option.getD_some]
  · have h : (List.range 64).find? (fun i => x.getLsbD i) = none :=
      List.find?_range_eq_none.2 fun j hj => by simp [hlow j hj]
    rw [firstSet, h, Option.getD_none]

namespace State

variable {s : State} {d a b : Reg}

/-! ### The shapes of the mask instructions -/

/-- A mask of two masks (R107). -/
theorem mask3_writesK {i : Instr} {f : Word → Word → Word} (hr : s.ReadyCore) (hd : d.toNat < 16) (ha : a.toNat < 16) (hb : b.toNat < 16) :
    ∃ t, mask3 i d a b f s = .next t ∧ s.KGets t d.toNat (f (s.kreg a.toNat) (s.kreg b.toNat)) ∧ t.pc = s.pc + 4 ∧ Kept { k := [d.toNat] } s t := by
  have hp := hr.passes (gd := false) (r := .none) (goods3 (good_k (p := 0) hd) (good_k (p := 1) ha) (good_k (p := 2) hb))
  exact hp.writesK hr.core hd (by simp only [kreg_advance hp.live])

/-- A number that a mask gives (R107). -/
theorem maskS_writesS {i : Instr} {f : Word → Nat} {y : Word} (hr : s.ReadyCore) (hd : s.SDst d.toNat) (ha : a.toNat < 16)
    (hy : BitVec.ofNat 64 (f (s.kreg a.toNat)) = y) :
    ∃ t, maskS i d a f s = .next t ∧ t.SGets d.toNat y ∧ t.pc = s.pc + 4 ∧ Kept { s := [d.toNat] } s t := by
  have hp := hr.passes (gd := false) (r := .s d.toNat) (goods2 (good_sd hd) (good_k (p := 1) ha))
  exact hp.writesS (inFile_of_has hd.1) (by simp only [kreg_advance hp.live, hy])

/-- A mask from an s register (R107). -/
theorem execKsmov_writesK (hr : s.ReadyCore) (hd : d.toNat < 16) (ha : s.SSrc a.toNat) :
    ∃ t, execKsmov d a s = .next t ∧ s.KGets t d.toNat (s.sval a.toNat) ∧ t.pc = s.pc + 4 ∧ Kept { k := [d.toNat] } s t := by
  have hp := hr.passes (gd := false) (r := .none) (goods2 (good_k (p := 0) hd) (good_sa ha))
  exact hp.writesK hr.core hd (by simp only [sval_advance hp.live])

/-- The flags of `ktest` over the lanes of the slot (R108). -/
theorem execKtest_setsFlags (hr : s.ReadyCore) (ha : a.toNat < 16) (hb : b.toNat < 16) :
    ∃ t, execKtest a b s = .next t ∧ t.flags = ktestFlags s.flags (s.kreg a.toNat &&& s.kreg b.toNat &&& s.slotMask) s.slotMask ∧
      t.pc = s.pc + 4 ∧ Kept { flags := true } s t := by
  have hp := hr.passes (gd := false) (r := .none) (goods2 (good_k (p := 1) ha) (good_k (p := 2) hb))
  exact hp.setsFlags (by simp only [kreg_advance hp.live, slotMask_advance hp.live, flags_advance hp.live])

/-! ### The arms of the dispatch -/

theorem exec_kand : exec (.kand d a b) s = mask3 (.kand d a b) d a b (fun x y => x &&& y) s := rfl
theorem exec_kor : exec (.kor d a b) s = mask3 (.kor d a b) d a b (fun x y => x ||| y) s := rfl
theorem exec_kxor : exec (.kxor d a b) s = mask3 (.kxor d a b) d a b (fun x y => x ^^^ y) s := rfl
theorem exec_kandn : exec (.kandn d a b) s = mask3 (.kandn d a b) d a b (fun x y => x &&& ~~~y) s := rfl
theorem exec_ksmov : exec (.ksmov d a) s = execKsmov d a s := rfl
theorem exec_skmov : exec (.skmov d a) s = maskS (.skmov d a) d a BitVec.toNat s := rfl
theorem exec_kpop : exec (.kpop d a) s = maskS (.kpop d a) d a popCount s := rfl
theorem exec_kfirst : exec (.kfirst d a) s = maskS (.kfirst d a) d a firstSet s := rfl
theorem exec_ktest : exec (.ktest a b) s = execKtest a b s := rfl

end State

/-- Settles O18: an instruction of masks has the shape of `mask3` or of `maskS`, or is one of the other two. -/
theorem maskOperations : Obligations.MaskOperations := by
  unfold Obligations.MaskOperations
  intro s d a b r first hr hd ha hb
  simp only [List.forall_mem_cons, List.not_mem_nil, false_implies, implies_true, and_true, State.exec_kand, State.exec_kor, State.exec_kxor,
    State.exec_kandn, State.exec_ksmov, State.exec_skmov, State.exec_kpop, State.exec_kfirst, State.exec_ktest]
  refine ⟨⟨State.mask3_writesK hr hd ha hb, State.mask3_writesK hr hd ha hb, State.mask3_writesK hr hd ha hb, State.mask3_writesK hr hd ha hb⟩,
    State.execKsmov_writesK hr hd, fun hs hle hlow hset => ⟨?_, ?_, ?_⟩, ?_⟩
  · exact State.maskS_writesS hr hs ha (by rw [BitVec.ofNat_toNat, BitVec.setWidth_eq])
  · exact State.maskS_writesS hr hs ha (by rw [popCount_eq_countP])
  · exact State.maskS_writesS hr hs ha (by rw [firstSet_eq hle hlow hset])
  · obtain ⟨t, ht, hf, hpc, hk⟩ := State.execKtest_setsFlags hr ha hb
    refine ⟨t, ht, ?_, ?_, ?_, ?_, ?_, hpc, hk⟩ <;> simp [hf, ktestFlags]

end Sys2Proof.Machine
end

section
/-! SUPPORT. Gathers across lanes (O22): the index of R110, the checks that pass on lanes that are clean, and the value that each of the four instructions gives. -/

namespace Sys2Proof.Machine

open Sys2Proof

/-! ### A list of equal bytes (R113) -/

/-- One byte more stands above the bytes before it. -/
theorem packNat_replicate_succ {v : Nat} (hv : v < 256) : ∀ n : Nat,
    packNat 8 (List.replicate (n + 1) v) = packNat 8 (List.replicate n v) + v * 256 ^ n
  | 0 => by simp [packNat, Nat.mod_eq_of_lt hv]
  | n + 1 => by
    have ih := packNat_replicate_succ hv n
    have h : ∀ m, packNat 8 (List.replicate (m + 1) v) = v % 2 ^ 8 + 2 ^ 8 * packNat 8 (List.replicate m v) := fun _ => rfl
    have h0 := h n
    have hpow : v * 256 ^ (n + 1) = 256 * (v * 256 ^ n) := by rw [Nat.pow_succ', Nat.mul_left_comm]
    rw [h (n + 1), hpow]
    omega

theorem packNat_replicate {v : Nat} (hv : v < 256) (n : Nat) :
    packNat 8 (List.replicate n v) = (List.range n).foldl (fun z j => z + v * 256 ^ j) 0 := by
  induction n with
  | zero => rfl
  | succ n ih => rw [packNat_replicate_succ hv, ih, List.range_succ, List.foldl_append, List.foldl_cons, List.foldl_nil]

/-- The byte of the control word of `vtbl`, repeated. -/
theorem packNat_fill (x n : Nat) : packNat 8 (List.replicate n (bitsOf x 8 8)) = (List.range n).foldl (fun z j => z + x / 256 % 256 * 256 ^ j) 0 :=
  packNat_replicate (Nat.mod_lt _ (by decide)) n

/-- An element that is one byte repeated is an element of its width. -/
theorem packNat_replicate_lt {w : Nat} (hw : 8 ∣ w) (v : Nat) : packNat 8 (List.replicate (w / 8) v) < 2 ^ w := by
  have h := packNat_lt 8 (List.replicate (w / 8) v)
  rwa [List.length_replicate, Nat.mul_div_cancel' hw] at h

/-! ### Elements (R55, R112) -/

/-- The widths of the element types are whole bytes. -/
theorem eight_dvd_ewidth {t : Nat} (h : isElem t = true) : 8 ∣ ewidth t := by
  obtain h | h | h | h := ewidth_elem h <;> rw [h] <;> decide

/-- An element of a lane that holds one value throughout. -/
theorem elemOf_packReplicate {w x e : Nat} (he : e < perLane w) : elemOf (packLane w (List.replicate (perLane w) x)) w e = x % 2 ^ w := by
  rw [← elemOf_packRange (f := fun _ => x) he, List.map_const', List.length_range]

theorem esigned_iff {t : Nat} : esigned t = true ↔ t ∈ [0, 2, 4, 6] := by simp [esigned, or_assoc]

/-- The extension of an element (R112). -/
theorem extendElem_eq {t x : Nat} (hx : x < 2 ^ ewidth t) :
    extendElem t x = if t ∈ [0, 2, 4, 6] then BitVec.ofInt 64 (asSigned (ewidth t) x) else BitVec.ofNat 64 x := by
  simp only [extendElem, esigned_iff, ofNat_wrapTo, Nat.mod_eq_of_lt hx]

namespace State

variable {s : State}

/-! ### What is read, from the state whose program counter has gone on -/

theorem inRange_iff {w i : Nat} : s.inRange w i = true ↔ i / 8 < s.me.width ∧ i % 8 < perLane w := by
  simp only [inRange, Bool.and_eq_true, decide_eq_true_eq]

theorem inRange_advance (h : s.Live) (w : Nat) : s.advance.inRange w = s.inRange w := by
  funext i
  simp only [inRange, width_advance h]

theorem crossElem_advance (h : s.Live) (r w i : Nat) : s.advance.crossElem r w i = s.crossElem r w i := by simp only [crossElem, vlane_advance h]

theorem vregs_advance (h : s.Live) : s.advance.me.vregs = s.me.vregs := by
  have := congrArg Group.vregs (me_advance h).1
  exact this

theorem positions_advance (h : s.Live) (w : Nat) : s.advance.positions w = s.positions w := by simp only [positions, width_advance h]
theorem velem_advance (h : s.Live) (r w p : Nat) : s.advance.velem r w p = s.velem r w p := by simp only [velem, vlane_advance h]

theorem crossElem_lt (r w i : Nat) : s.crossElem r w i < 2 ^ w := elemOf_lt _ _ _

/-- Lanes of a register that can be read in every lane are clean. -/
theorem VAll.clean_advance {u : Use} {ls : List Nat} (ha : s.VAll u.num) (h : s.Live) (hls : ∀ l ∈ ls, l < s.me.width) : s.advance.clean u ls = .ok () :=
  clean_ok fun l hl => by rw [vreg_advance h]; exact ha.2 l (hls l hl)

/-- A computation in the active lanes, known by the elements it makes there. -/
theorem Passes.mapsElems {i : Instr} {f : Form} {body : State → Eff State} {d : Reg} {w : Nat} {fn : Nat → Word} {F : Nat → Nat → Nat} (h : s.Passes f)
    (hc : s.onCore = true) (hb : body s.advance = .ok (s.advance.mapLanes d.toNat fn)) (hF : ∀ l, ∀ e < 64 / w, elemOf (fn l) w e = F l e) :
    ∃ t y, s.issue i f body = .next t ∧ s.VGets t d.toNat y ∧ (∀ l ∈ s.lanes, ∀ e < 64 / w, elemOf (y l) w e = F l e) ∧
      t.pc = s.pc + 4 ∧ Kept { v := [d.toNat] } s t := by
  obtain ⟨t, ht, hv, hpc, hk⟩ := h.mapsLanes (i := i) hc hb
  exact ⟨t, fn, ht, hv, fun l _ => hF l, hpc, hk⟩

/-! ### A gather (R111) -/

/-- The element that `vshuf` takes for an index: zero for one out of range. -/
def shufElem (s : State) (r w i : Nat) : Nat := if s.inRange w i then s.crossElem r w i else 0

theorem shufElem_lt (r w i : Nat) : s.shufElem r w i < 2 ^ w := by
  unfold shufElem
  split
  · exact elemOf_lt _ _ _
  · exact Nat.two_pow_pos w

variable {d a b c : Reg}

/-- A gather (R111): the lanes it reads are those of indexes in range, all of them clean. -/
theorem execVshuf_gathers (hr : s.ReadyCore) (ht : isElem s.etype = true) (hd : s.VDst d.toNat) (ha : s.VAll a.toNat) (hb : s.VSrc b.toNat) :
    ∃ t y, execVshuf d a b s = .next t ∧ s.VGets t d.toNat y ∧ (∀ l ∈ s.lanes, ∀ e < 64 / ewidth s.etype,
      elemOf (y l) (ewidth s.etype) e = s.shufElem a.toNat (ewidth s.etype) (elemOf (s.vlane b.toNat l) (ewidth s.etype) e)) ∧
      t.pc = s.pc + 4 ∧ Kept { v := [d.toNat] } s t := by
  have hp := hr.passes (gd := true) (r := .v d.toNat false) (goods3 (good_vd hd) (good_vaNo ha.1) (good_vb hb))
  have hl := hp.live
  refine hp.mapsElems (fn := fun l => lane1 (ewidth s.etype) (s.shufElem a.toNat (ewidth s.etype)) (s.vlane b.toNat l)) hr.core ?_ fun l e he => ?_
  · have hclean : s.advance.clean (.va a .no) ((s.lanes.flatMap fun l =>
        (elems (ewidth s.etype) (s.vlane b.toNat l)).filter (s.inRange (ewidth s.etype))).map (· / 8)) = .ok () := by
      refine VAll.clean_advance ha hl fun l hm => ?_
      obtain ⟨i, hi, rfl⟩ := List.mem_map.1 hm
      obtain ⟨_, _, hi⟩ := List.mem_flatMap.1 hi
      exact (inRange_iff.1 (List.mem_filter.1 hi).2).1
    simp only [needs_advance hl isElem false ht (by simp), etype_advance hl, lanes_advance hl, vlane_advance hl, inRange_advance hl, crossElem_advance hl]
    rw [hclean]
    rfl
  · rw [elemOf_lane1 he, Nat.mod_eq_of_lt (shufElem_lt _ _ _)]

/-! ### A broadcast and a read of one element (R112) -/

/-- An index in range passes the checks of R112 and names its element. -/
theorem laneIndex_advance (hl : s.Live) (ht : isElem s.etype = true) (ha : s.VAll a.toNat)
    (hi : s.inRange (ewidth s.etype) (s.sval b.toNat).toNat = true) (hlt : (s.sval b.toNat).toNat < 512) :
    laneIndex s.advance a b = .ok (ewidth s.etype, s.crossElem a.toNat (ewidth s.etype) (s.sval b.toNat).toNat) := by
  have hclean : s.advance.clean (.va a .no) [(s.sval b.toNat).toNat / 8] = .ok () :=
    VAll.clean_advance ha hl fun l hm => by rw [List.mem_singleton.1 hm]; exact (inRange_iff.1 hi).1
  simp only [laneIndex, needs_advance hl isElem false ht (by simp), etype_advance hl, sval_advance hl, inRange_advance hl, crossElem_advance hl, hlt, hi, hclean,
    decide_true, Bool.true_and, if_true]
  rfl

/-- A broadcast (R112). -/
theorem execVbcast_gives (hr : s.ReadyCore) (ht : isElem s.etype = true) (hd : s.VDst d.toNat) (ha : s.VAll a.toNat) (hb : s.SSrc b.toNat)
    (hi : s.inRange (ewidth s.etype) (s.sval b.toNat).toNat = true) (hlt : (s.sval b.toNat).toNat < 512) :
    ∃ t y, execVbcast d a b s = .next t ∧ s.VGets t d.toNat y ∧ (∀ l ∈ s.lanes, ∀ e < 64 / ewidth s.etype,
      elemOf (y l) (ewidth s.etype) e = s.crossElem a.toNat (ewidth s.etype) (s.sval b.toNat).toNat) ∧
      t.pc = s.pc + 4 ∧ Kept { v := [d.toNat] } s t := by
  have hp := hr.passes (gd := true) (r := .v d.toNat false) (goods3 (good_vd hd) (good_vaNo ha.1) (good_sb hb))
  have hx := laneIndex_advance hp.live ht ha hi hlt
  refine hp.mapsElems (fn := fun _ => packLane (ewidth s.etype) (List.replicate (perLane (ewidth s.etype))
    (s.crossElem a.toNat (ewidth s.etype) (s.sval b.toNat).toNat))) hr.core (by simp only [hx]; rfl) fun l e he => ?_
  rw [elemOf_packReplicate he, Nat.mod_eq_of_lt (crossElem_lt _ _ _)]

/-- A read of one element (R112). -/
theorem execSlane_gives (hr : s.ReadyCore) (ht : isElem s.etype = true) (hd : s.SDst d.toNat) (ha : s.VAll a.toNat) (hb : s.SSrc b.toNat)
    (hi : s.inRange (ewidth s.etype) (s.sval b.toNat).toNat = true) (hlt : (s.sval b.toNat).toNat < 512) :
    ∃ t, execSlane d a b s = .next t ∧ t.SGets d.toNat (extendElem s.etype (s.crossElem a.toNat (ewidth s.etype) (s.sval b.toNat).toNat)) ∧
      t.pc = s.pc + 4 ∧ Kept { s := [d.toNat] } s t := by
  have hp := hr.passes (gd := false) (r := .s d.toNat) (goods3 (good_sd hd) (good_vaNo ha.1) (good_sb hb))
  have hx := laneIndex_advance hp.live ht ha hi hlt
  exact hp.writesS (inFile_of_has hd.1) (by simp only [hx, ← etype_advance hp.live]; rfl)

/-! ### A table lookup (R113) -/

/-- The element that `vtbl` takes for an index into the registers from `r` on, as many as the control word `x` says: its fill byte throughout for an index outside (R113). -/
def tableElem (s : State) (r w x i : Nat) : Nat :=
  if i < x % 16 * s.positions w then s.velem (r + i / s.positions w) w (i % s.positions w)
  else packNat 8 (List.replicate (w / 8) (bitsOf x 8 8))

theorem tableElem_lt {w : Nat} (hw : 8 ∣ w) (r x i : Nat) : s.tableElem r w x i < 2 ^ w := by
  unfold tableElem
  split
  · exact elemOf_lt _ _ _
  · exact packNat_replicate_lt hw _

/-- A position of a register lies in a lane of the group. -/
theorem lane_of_position_lt {w i : Nat} (h : 0 < s.positions w) : i % s.positions w / perLane w < s.me.width :=
  Nat.div_lt_of_lt_mul (by rw [Nat.mul_comm]; exact Nat.mod_lt _ h)

/-- Every register of a table that can be read lets the lookup go on. -/
theorem good_tableUses (ha : ∀ k < (s.sval c.toNat).toNat % 16, s.VAll (a.toNat + k)) : ∀ u ∈ tableUses s a c, s.Good u := by
  intro u hu
  unfold tableUses at hu
  dsimp only at hu
  split at hu
  · obtain ⟨k, hk, hu⟩ := List.mem_filterMap.1 hu
    split at hu
    · obtain rfl := Option.some.inj hu
      exact good_v rfl (ha k (List.mem_range.1 hk)).1 fun _ hl => absurd hl List.not_mem_nil
    · simp at hu
  · exact absurd hu List.not_mem_nil

/-- Checks that all pass pass together. -/
theorem forM_ok {α : Type} {f : α → Eff Unit} : ∀ {l : List α}, (∀ x ∈ l, f x = .ok ()) → l.forM f = .ok ()
  | [], _ => rfl
  | x :: l, h => by
    obtain ⟨hx, hl⟩ := List.forall_mem_cons.1 h
    exact (congrArg (fun r : Eff Unit => r >>= fun _ => l.forM f) hx).trans (forM_ok hl)

/-- A lookup (R113): the control word names registers that the group has, and the lanes that the indexes hit are clean. -/
theorem execVtbl_looksUp (hr : s.ReadyCore) (ht : isElem s.etype = true) (hd : s.VDst d.toNat) (hb : s.VSrc b.toNat) (hc : s.SSrc c.toNat) {x : Nat}
    (hx : (s.sval c.toNat).toNat = x) (h1 : 1 ≤ x % 16) (h8 : x % 16 ≤ 8) (hlow : x / 16 % 16 = 0) (hhigh : x / 2 ^ 16 = 0)
    (ha : ∀ k < x % 16, s.VAll (a.toNat + k)) :
    ∃ t y, execVtbl d a b c s = .next t ∧ s.VGets t d.toNat y ∧ (∀ l ∈ s.lanes, ∀ e < 64 / ewidth s.etype,
      elemOf (y l) (ewidth s.etype) e = s.tableElem a.toNat (ewidth s.etype) x (elemOf (s.vlane b.toNat l) (ewidth s.etype) e)) ∧
      t.pc = s.pc + 4 ∧ Kept { v := [d.toNat] } s t := by
  have hp := hr.passes (gd := true) (r := .v d.toNat false) (List.forall_mem_append.2
    ⟨goods4 (good_vd hd) (good_vaNo (ha 0 h1).1) (good_vb hb) (good_sc hc), good_tableUses (by rw [hx]; exact ha)⟩)
  have hl := hp.live
  refine hp.mapsElems (fn := fun l => lane1 (ewidth s.etype) (s.tableElem a.toNat (ewidth s.etype) x) (s.vlane b.toNat l)) hr.core ?_ fun l e he => ?_
  · simp only [needs_advance hl isElem false ht (by simp), etype_advance hl, lanes_advance hl, vlane_advance hl, sval_advance hl, positions_advance hl,
      velem_advance hl, vregs_advance hl, hx]
    refine (if_neg ?_).trans ((if_neg (Nat.not_lt.2 ?_)).trans ?_)
    · have h4 : bitsOf x 4 4 = 0 := hlow
      have h16 : bitsOf x 16 48 = 0 := by rw [bitsOf, hhigh, Nat.zero_mod]
      simp [h4, h16, h8, Nat.ne_of_gt h1]
    · have := (ha (x % 16 - 1) (by omega)).1.1
      omega
    · rw [forM_ok fun k hk => VAll.clean_advance (ha k (List.mem_range.1 hk)) hl fun l hm => ?_]
      · rfl
      · obtain ⟨i, hi, rfl⟩ := List.mem_map.1 hm
        obtain ⟨_, _, hi⟩ := List.mem_flatMap.1 (List.mem_filter.1 hi).1
        have hlt := of_decide_eq_true (List.mem_filter.1 hi).2
        exact lane_of_position_lt (Nat.pos_of_ne_zero fun h0 => by simp [h0] at hlt)
  · rw [elemOf_lane1 he, Nat.mod_eq_of_lt (tableElem_lt (eight_dvd_ewidth ht) _ _ _)]

/-! ### The arms of the dispatch -/

theorem exec_vshuf : exec (.vshuf d a b) s = execVshuf d a b s := rfl
theorem exec_vbcast : exec (.vbcast d a b) s = execVbcast d a b s := rfl
theorem exec_slane : exec (.slane d a b) s = execSlane d a b s := rfl
theorem exec_vtbl : exec (.vtbl d a b c) s = execVtbl d a b c s := rfl

end State

/-- Settles O22: each of the four reads its sources in the state in which it issues, and every check of R110 to R113 passes there. -/
theorem crossLane : Obligations.CrossLane := by
  unfold Obligations.CrossLane
  intro s d a b r c hr ht w inside at' i x n np idx
  simp only [State.exec_vshuf, State.exec_vbcast, State.exec_slane, State.exec_vtbl]
  refine ⟨fun hd ha hb => ?_, fun hd ha hb hi => State.execVbcast_gives hr ht hd ha hb (State.inRange_iff.2 hi),
    fun hd ha hb hi hlt => ?_, fun hd hb hc h1 h8 hlow hhigh ha => ?_⟩
  · obtain ⟨t, y, h, hv, hy, hpc, hk⟩ := State.execVshuf_gathers hr ht hd ha hb
    refine ⟨t, y, h, hv, fun l hl e he => ⟨fun hi => ?_, fun hi => ?_⟩, hpc, hk⟩
    · rw [hy l hl e he, State.shufElem, if_pos (State.inRange_iff.2 hi)]
      rfl
    · rw [hy l hl e he, State.shufElem, if_neg (mt State.inRange_iff.1 hi)]
  · have h := State.execSlane_gives hr ht hd ha hb (State.inRange_iff.2 hi) hlt
    rwa [extendElem_eq (State.crossElem_lt _ _ _)] at h
  · obtain ⟨t, y, h, hv, hy, hpc, hk⟩ := State.execVtbl_looksUp hr ht hd hb hc rfl h1 h8 hlow hhigh ha
    refine ⟨t, y, h, hv, fun l hl e he => ?_, hpc, hk⟩
    rw [hy l hl e he, State.tableElem, packNat_fill]
    rfl

end Sys2Proof.Machine
end
